-- ==== Sys2Proof/Word.lean ====
section
/-! DEFINITION. The word types of the Q960 (R5, R60): a 32-bit lane word, a 64-bit scalar, a byte. -/
namespace Sys2Proof

/-- One byte of a store. -/
abbrev Byte := BitVec 8
/-- A 32-bit lane register (R60). -/
abbrev Word := BitVec 32
/-- A 64-bit scalar register, an address or a program counter (R60, R83). -/
abbrev DWord := BitVec 64

end Sys2Proof
end

