-- ==== Sys2Proof/Config.lean ====
section
/-! DEFINITION. What an implementation fixes and what the spec leaves open. The opaque constants are the free values of R2:
nothing in Lean can evaluate them, so a claim proved of the model holds whatever they are (log 3: DESIGN CHOICE). -/
namespace Sys2Proof.Config

/-- A free 32-bit value: the first argument is a nonce of the state's free-value counter, the second an index (R2, log 3: DESIGN CHOICE). -/
opaque freeWord : Nat → Nat → BitVec 32
/-- A free 64-bit value (R2, log 3: DESIGN CHOICE). -/
opaque freeDWord : Nat → Nat → BitVec 64
/-- A free byte (R2, log 3: DESIGN CHOICE). -/
opaque freeByte : Nat → Nat → BitVec 8
/-- A free choice of one bit: older or newer value of a lane read too early (R62), and the like (log 3: DESIGN CHOICE). -/
opaque freeBool : Nat → Nat → Bool
/-- What a byte of HBM written under one key reads as under another: key identities of writer and reader, address, byte (R234, log 3: DESIGN CHOICE). -/
opaque xtsOther : Nat → Nat → Nat → BitVec 8 → BitVec 8
/-- The check that a cursor image carries over its other bits; its function is not given (R381, log 3: DESIGN CHOICE). -/
opaque cursorCheck : BitVec 96 → BitVec 32
/-- The signature of an attestation report over its fields (R238, log 3: DESIGN CHOICE). -/
opaque attestSign : List Nat → Nat
/-- The payload bytes of save-image segments whose layout the spec does not give: kind, then the plain data as numbers (R261, log 3: DESIGN CHOICE). -/
opaque segBytes : Nat → Nat → List (BitVec 8)

/-- The version of the ROM, and what an attestation report holds for the patch where none runs; their values are not given (R238, log 3: DESIGN CHOICE). -/
opaque romVersion : Nat
opaque noPatch : Nat
/-- The 802.1Q priority code point that Fenaz root firmware sets for a traffic class; the value is not given (R245, log 3: DESIGN CHOICE). -/
opaque classPcp : Nat → BitVec 3

/-- Numbers of R11 and R15. -/
def cores : Nat := 256
def clusters : Nat := 32
def groupSlots : Nat := 32
def wgSlots : Nat := 8
def granuleRows : Nat := 128
def scratchBytes : Nat := 524288
def clSramBytes : Nat := 8388608
/-- Words of a synchronisation engine's SRAM of 4 MiB, and lines of a fetch unit's cache of 128 KiB (R19). -/
def syncWords : Nat := 262144
def fetchLines : Nat := 2048
def prooferItems : Nat := 512
def faultBuffer : Nat := 64
def walkLimit : Nat := 1024
def bagLimit : Nat := 256
/-- Bytes of one HBM stack, 48 GiB (R20). -/
def stackBytes : Nat := 0xC00000000

end Sys2Proof.Config
end

