-- ==== Sys2Proof/Syntax.lean ====
section
/-! DEFINITION. The instructions of the machine: an instruction a program can encode (R102 to R115), or an event of the device
that spec/opcode_table.json lists as a row of its own. -/
namespace Sys2Proof

/-- Length of an encoded instruction (R102). -/
inductive Len where
  | w64 | w96 | w128
  deriving DecidableEq, Repr

/-- The control bits of word 0 (R106): stall count, scoreboard wait, no-flags, guard, Q bit, and the length. -/
structure Ctl where
  len : Len
  stl : Fin 16
  sbw : Bool
  nf  : Bool
  pg  : Fin 8
  pn  : Bool
  q   : Bool
  deriving DecidableEq, Repr

/-- An operand specifier (R108), with the immediate of the extension in place of 0x1FF (R109). -/
inductive Opnd where
  | v (n : Fin 256)
  | s (n : Fin 64)
  | o (n : Fin 8)
  | q (n : Fin 2)
  | k (n : Fin 48)          -- inline constant 0x150 + n (R110)
  | h (n : Fin 8)
  | imm32 (w : Word)
  | imm64 (w : DWord)
  deriving DecidableEq, Repr

/-- Type slot of the integer class (R112). -/
inductive ITy where
  | i32 | u32 | i64 | u64 | i16x2 | i8x4
  deriving DecidableEq, Repr

/-- MOD of the integer class: type and overflow slots (R112). -/
structure IMod where
  ty  : ITy
  sat : Bool
  deriving DecidableEq, Repr

/-- Type slot of the floating-point class (R113). -/
inductive FTy where
  | f32 | f16 | bf16
  deriving DecidableEq, Repr

/-- Rounding slot (R113, R135). -/
inductive Rnd where
  | rn | rz | ru | rd | rna | dyn
  deriving DecidableEq, Repr

/-- Saturation slot (R113). -/
inductive Sat where
  | nosat | sat | ftz | satftz
  deriving DecidableEq, Repr

/-- MOD of the floating-point class (R113). -/
structure FMod where
  ty  : FTy
  rnd : Rnd
  sat : Sat
  deriving DecidableEq, Repr

/-- Comparison conditions of ICMP (R292). -/
inductive ICond where
  | eq | ne | lt | le | gt | ge
  deriving DecidableEq, Repr

/-- Conditions of FCMP (R306). -/
inductive FCond where
  | eq | ne | lt | le | gt | ge | un | ord
  deriving DecidableEq, Repr

/-- Functions of PLOP (R295). -/
inductive PFun where
  | and | or | xor | andn | orn | not
  deriving DecidableEq, Repr

/-- Integer functions of LSCAN and LRED, FN[2:0] 0 to 5 (R298). -/
inductive LFun where
  | add | min | max | and | or | xor
  deriving DecidableEq, Repr

/-- Function and MOD of LSCAN and LRED: an integer function with R112, or .fadd with R113 (R298). -/
inductive LOp where
  | int (f : LFun) (m : IMod)
  | fadd (rnd : Rnd) (sat : Sat)
  deriving DecidableEq, Repr

/-- Floating-point format codes (R311). -/
inductive FFmt where
  | f32 | f16 | bf16 | e5m2 | e4m3 | e3m2 | e2m3 | e2m1 | e8m0
  deriving DecidableEq, Repr

/-- Integer type codes of I2F and F2I (R311). -/
inductive ICode where
  | i32 | u32 | i16 | u16 | i8 | u8 | i4 | u4
  deriving DecidableEq, Repr

/-- Block formats of FPACK and FUNPK (R318). -/
inductive BFmt where
  | e5m2 | e4m3 | e3m2 | e2m3 | e2m1 | cb2
  deriving DecidableEq, Repr

/-- Space slot of the memory class (R114). -/
inductive Space where
  | gl | sp | cl | pv
  deriving DecidableEq, Repr

/-- Size slot of the memory class (R114). -/
inductive Size where
  | b8 | b16 | b32 | b64 | b128
  deriving DecidableEq, Repr

/-- Scopes, narrowest first (R114, R178). -/
inductive Scope where
  | grp | core | clu | die | dev | sys
  deriving DecidableEq, Repr

/-- Order slot (R114). -/
inductive MOrd where
  | rlx | acq | rel | ar
  deriving DecidableEq, Repr

/-- The XM fields (R111, R114): scope, order, RMT and the signed byte offset. -/
structure Xm where
  scope : Scope
  ord   : MOrd
  rmt   : Bool
  ofs   : BitVec 24
  deriving DecidableEq, Repr

/-- Atomic operations other than .cas (R329). -/
inductive AOp where
  | add | min | max | and | or | xor | exch | fadd | bfadd
  deriving DecidableEq, Repr

/-- Space of a tensor's BASE (R349): global, scratchpad, tiles. -/
inductive BSpace where
  | gl | sp | tm
  deriving DecidableEq, Repr

/-- Space of an image of TIDSET, TIDGET or WALKDEF (R372, R383). -/
inductive ImSpace where
  | gl | sp | cl
  deriving DecidableEq, Repr

/-- Source endpoints of COPY (R335). -/
inductive CSrc where
  | gl | sp | cl | tm
  deriving DecidableEq, Repr

/-- Destination endpoints of COPY (R335). -/
inductive CDst where
  | dsp | dcl | dgl | dtm
  deriving DecidableEq, Repr

/-- The operand block of MMUL and MTOPK (R352, R354): space, .res, unit, tensors, scalars and the counts of IMM32. -/
structure OvenArgs where
  space : BSpace
  res   : Bool
  af    : Fin 12
  ta    : Fin 256
  tb    : Fin 256
  a     : Fin 64
  b     : Fin 64
  s     : BitVec 16
  m     : BitVec 7
  n     : BitVec 8
  deriving DecidableEq, Repr

/-- The stores whose words carry error protection (R264). -/
inductive Store where
  | vreg | sreg | oreg | qreg | preg | scratch | tag | tile | bank | winner | clsram | fetch | sync | hbm | rack | queue
  deriving DecidableEq, Repr

/-- A Tordin message as it arrives on a session (R240): header fields, then the 32-byte command header and the 32-byte launch body. -/
structure Msg where
  session : Nat
  type    : BitVec 8
  queue   : Fin 16
  rsv     : Bool            -- a reserved bit of the message header is set
  len     : BitVec 16
  seq     : BitVec 32
  hdr     : BitVec 256
  body    : BitVec 256
  deriving DecidableEq, Repr

/-- UET delivery modes (R239). -/
inductive Uet where
  | rod | rud | rudi | uud
  deriving DecidableEq, Repr

/-- What a packet carries (R84, R239, R267, R330): a Tordin message, or a write, a read, an atomic or an addition to a synchronisation word of this device that
another device sends (data as a number of size bytes). -/
inductive Packet where
  | msg (m : Msg)
  | write (va size data : Nat)
  | read (va size : Nat)
  | rmw (va size : Nat) (op : AOp) (u : Bool) (data : Nat)
  | cas (va size cmp new : Nat)
  | add (va n : Nat) (gen : Option Nat)
  deriving DecidableEq, Repr

/-- An instruction, or an event of the device: one constructor per row of the opcode table. -/
inductive Instr where
  -- control (R104, R271 to R284)
  | pad
  | nop (c : Ctl)
  | bra (c : Ctl) (tgt : BitVec 28) (p1 : BitVec 16)
  | brcNear (c : Ctl) (cp : Fin 8) (cn : Bool) (tgt : BitVec 8) (p1 p2 : BitVec 16)
  | brcFar (c : Ctl) (cp : Fin 8) (cn : Bool) (tgt : BitVec 32) (p1 p2 : BitVec 16)
  | jmpi (c : Ctl) (a : Opnd) (p1 : BitVec 16)
  | callNear (c : Ctl) (tgt : BitVec 12) (p1 p2 : BitVec 16)
  | callFar (c : Ctl) (tgt : BitVec 32) (p1 p2 : BitVec 16)
  | ret (c : Ctl)
  | exit (c : Ctl)
  | yield (c : Ctl)
  | bkoff (c : Ctl) (a : Opnd)
  | shape (c : Ctl) (n : Fin 4) (a : Fin 64)
  | spawn (c : Ctl) (e : Fin 4) (a b : Opnd)
  | elect (c : Ctl) (d : Fin 8)
  | voteAny (c : Ctl) (d a : Fin 8)
  | voteAll (c : Ctl) (d a : Fin 8)
  | voteUni (c : Ctl) (d a : Fin 8)
  | voteBallot (c : Ctl) (d : Fin 64) (a : Fin 8)
  | getsr (c : Ctl) (hi : Bool) (num : BitVec 8) (d : Opnd)
  | setsr (c : Ctl) (hi : Bool) (num : BitVec 8) (a : Opnd)
  -- integer (R285 to R294)
  | iadd (c : Ctl) (m : IMod) (d a b : Opnd)
  | isub (c : Ctl) (m : IMod) (d a b : Opnd)
  | imulLo (c : Ctl) (m : IMod) (d a b : Opnd)
  | imulHi (c : Ctl) (ty : ITy) (d a b : Opnd)
  | imad (c : Ctl) (m : IMod) (d a b cc : Opnd)
  | idiv (c : Ctl) (m : IMod) (d a b : Opnd)
  | irem (c : Ctl) (m : IMod) (d a b : Opnd)
  | imin (c : Ctl) (ty : ITy) (d a b : Opnd)
  | imax (c : Ctl) (ty : ITy) (d a b : Opnd)
  | iabs (c : Ctl) (m : IMod) (d a : Opnd)
  | and (c : Ctl) (ty : ITy) (d a b : Opnd)
  | or (c : Ctl) (ty : ITy) (d a b : Opnd)
  | xor (c : Ctl) (ty : ITy) (d a b : Opnd)
  | not (c : Ctl) (ty : ITy) (d a : Opnd)
  | shl (c : Ctl) (ty : ITy) (d a b : Opnd)
  | shr (c : Ctl) (ty : ITy) (d a b : Opnd)
  | sar (c : Ctl) (ty : ITy) (d a b : Opnd)
  | rot (c : Ctl) (ty : ITy) (d a b : Opnd)
  | bfx (c : Ctl) (ty : ITy) (d a b : Opnd)
  | bfi (c : Ctl) (ty : ITy) (d a b cc : Opnd)
  | bcntPop (c : Ctl) (ty : ITy) (d a : Opnd)
  | bcntClz (c : Ctl) (ty : ITy) (d a : Opnd)
  | bcntCtz (c : Ctl) (ty : ITy) (d a : Opnd)
  | icmp (c : Ctl) (ty : ITy) (cond : ICond) (d : Fin 8) (a b : Opnd)
  | sel (c : Ctl) (ty : ITy) (p : Fin 8) (neg : Bool) (d a b : Opnd)
  | lea (c : Ctl) (ty : ITy) (sh : Fin 16) (d a b : Opnd)
  | mov (c : Ctl) (ty : ITy) (d a : Opnd)
  -- predicates and cross-lane (R295 to R299)
  | plop (c : Ctl) (f : PFun) (d a b : Fin 8)
  | pmovTom (c : Ctl) (d : Fin 64) (a : Fin 8)
  | pmovFrm (c : Ctl) (d : Fin 8) (a : Opnd)
  | pmovPad (c : Ctl) (d : Fin 8)
  | pmovTov (c : Ctl) (d : Opnd) (a : Fin 8)
  | pmovFrv (c : Ctl) (d : Fin 8) (a : Opnd)
  | shflIdx (c : Ctl) (d a b : Opnd)
  | shflUp (c : Ctl) (d a b : Opnd)
  | shflDown (c : Ctl) (d a b : Opnd)
  | shflXor (c : Ctl) (d a b : Opnd)
  | lscan (c : Ctl) (op : LOp) (exc : Bool) (d a : Opnd)
  | lred (c : Ctl) (op : LOp) (d a : Opnd)
  -- floating point and conversion (R300 to R320)
  | fadd (c : Ctl) (m : FMod) (d a b : Opnd)
  | fsub (c : Ctl) (m : FMod) (d a b : Opnd)
  | fmul (c : Ctl) (m : FMod) (d a b : Opnd)
  | ffma (c : Ctl) (m : FMod) (d a b cc : Opnd)
  | fmin (c : Ctl) (ty : FTy) (sat : Sat) (d a b : Opnd)
  | fmax (c : Ctl) (ty : FTy) (sat : Sat) (d a b : Opnd)
  | fabsAbs (c : Ctl) (ty : FTy) (sat : Sat) (d a : Opnd)
  | fabsNeg (c : Ctl) (ty : FTy) (sat : Sat) (d a : Opnd)
  | fcmp (c : Ctl) (cond : FCond) (ftz : Bool) (d : Fin 8) (a b : Opnd)
  | fsfuRcp (c : Ctl) (m : FMod) (d a : Opnd)
  | fsfuRsqrt (c : Ctl) (m : FMod) (d a : Opnd)
  | fsfuSqrt (c : Ctl) (m : FMod) (d a : Opnd)
  | fsfuExp2 (c : Ctl) (m : FMod) (d a : Opnd)
  | fsfuLog2 (c : Ctl) (m : FMod) (d a : Opnd)
  | fsfuSinpi (c : Ctl) (m : FMod) (d a : Opnd)
  | fsfuCospi (c : Ctl) (m : FMod) (d a : Opnd)
  | fsfuDiv (c : Ctl) (m : FMod) (d a b : Opnd)
  | fdotX2 (c : Ctl) (m : FMod) (d a b cc : Opnd)
  | fdotX4 (c : Ctl) (m : FMod) (d a b cc : Opnd)
  | fcvt (c : Ctl) (dst src : FFmt) (rnd : Rnd) (sat : Sat) (d a : Opnd)
  | i2f (c : Ctl) (dst : FFmt) (src : ICode) (rnd : Rnd) (sat : Sat) (d a : Opnd)
  | f2i (c : Ctl) (dst : ICode) (src : FFmt) (rnd : Rnd) (ftz : Bool) (d a : Opnd)
  | fclassMask (c : Ctl) (ty : FTy) (d a : Opnd)
  | fclassTest (c : Ctl) (ty : FTy) (d : Fin 8) (a b : Opnd)
  | flagsTest (c : Ctl) (mask : BitVec 5) (d : Fin 8)
  | flagsClr (c : Ctl) (mask : BitVec 5)
  | flagsSet (c : Ctl) (mask : BitVec 5)
  | flagsGor (c : Ctl) (d : Fin 64)
  | fpack (c : Ctl) (f : BFmt) (rnd : Rnd) (ftz : Bool) (d a : Opnd) (b : Fin 64)
  | funpk (c : Ctl) (f : BFmt) (rnd : Rnd) (sat : Sat) (d a b : Opnd)
  -- memory, atomics, synchronisation, copy (R321 to R345)
  | ld (c : Ctl) (sp : Space) (sz : Size) (sx : Bool) (x : Xm) (d a : Opnd)
  | st (c : Ctl) (sp : Space) (sz : Size) (x : Xm) (a b : Opnd)
  | ldf (c : Ctl) (clr : Bool) (ofs : BitVec 24) (d a : Opnd)
  | ste (c : Ctl) (ofs : BitVec 24) (a b : Opnd)
  | tag (c : Ctl) (sz : Size) (full : Bool) (ofs : BitVec 24) (a : Opnd)
  | atom (c : Ctl) (op : AOp) (sp : Space) (sz : Size) (u : Bool) (x : Xm) (d a b : Opnd)
  | atomCas (c : Ctl) (sp : Space) (sz : Size) (x : Xm) (d a b cc : Opnd)
  | red (c : Ctl) (op : AOp) (sp : Space) (sz : Size) (u : Bool) (x : Xm) (a b : Opnd)
  | fence (c : Ctl) (scope : Scope) (ord : MOrd) (rmt : Bool)
  | mfence (c : Ctl)
  | swinit (c : Ctl) (sp : Space) (x : Xm) (a b cc : Opnd)
  | swarrAny (c : Ctl) (sp : Space) (x : Xm) (a b : Opnd)
  | swarrGen (c : Ctl) (sp : Space) (x : Xm) (a b cc : Opnd)
  | swwait (c : Ctl) (sp : Space) (x : Xm) (a b : Opnd)
  | copy (c : Ctl) (src : CSrc) (dst : CDst) (ofs : BitVec 24) (a b cc : Fin 64)
  | copyl (c : Ctl) (a b : Fin 64)
  | fetch (c : Ctl) (ta : Fin 256) (a b : Fin 64) (word : Word)
  | residPin (c : Ctl) (ofs : BitVec 24) (a b : Fin 64)
  | residRel (c : Ctl) (b : Fin 64)
  | residStat (c : Ctl) (d b : Fin 64)
  | qctlOcc (c : Ctl) (h : Fin 8) (d : Opnd)
  | qctlPerm (c : Ctl) (h : Fin 8) (d : Opnd)
  | qctlReset (c : Ctl) (h : Fin 8)
  | spill (c : Ctl) (b : Fin 256) (a : Opnd)
  | fill (c : Ctl) (d : Fin 256) (a : Opnd)
  | pref (c : Ctl) (ofs : BitVec 24) (a : Opnd)
  -- oven, accumulators, winners, selection (R346 to R369)
  | rkld (c : Ctl) (sp : BSpace) (ovr : Bool) (ta : Fin 256) (a b : Fin 64)
  | rkswKeep (c : Ctl)
  | rkswDrop (c : Ctl)
  | mmul (c : Ctl) (x : OvenArgs)
  | mtopk (c : Ctl) (x : OvenArgs) (abs : Bool)
  | mnormA (c : Ctl) (sp : BSpace) (ta tb : Fin 256) (a b : Fin 64) (s : BitVec 16) (n : BitVec 8)
  | mnormB (c : Ctl) (sp : BSpace) (ta : Fin 256) (a b : Fin 64) (s : BitVec 16) (n : BitVec 8)
  | aalloc (c : Ctl) (bk : Fin 12)
  | aallocAny (c : Ctl) (a : Fin 64)
  | afree (c : Ctl) (bk : Fin 12)
  | aband (c : Ctl) (a b : Fin 64)
  | adrainNone (c : Ctl) (sp : BSpace) (mx : Bool) (rnd : Rnd) (sat : Sat) (ta : Fin 256) (a b : Fin 64)
  | adrainP24 (c : Ctl) (sp : BSpace) (mx : Bool) (rnd : Rnd) (sat : Sat) (ta : Fin 256) (a b : Fin 64)
  | adrainP48 (c : Ctl) (sp : BSpace) (mx : Bool) (rnd : Rnd) (sat : Sat) (ta : Fin 256) (a b : Fin 64)
  | aload (c : Ctl) (tm : Bool) (i32 : Bool) (bk : Fin 12) (a : Fin 64)
  | azero (c : Ctl) (bk : Fin 12)
  | wrd (c : Ctl) (a : Fin 64) (w : Fin 96) (n : BitVec 7)
  | wmerge (c : Ctl) (w : Fin 96) (a b : Fin 64)
  | astat (c : Ctl) (d : Opnd) (bk : Fin 12)
  | selkSum (c : Ctl) (a b : Fin 64) (word : Word)
  | selkExp (c : Ctl) (a b : Fin 64) (word : Word)
  | sortr (c : Ctl) (asc : Bool) (a b : Fin 64) (word : Word)
  -- tensor identifiers, sifter, peel, reduce, system (R370 to R393)
  | tidsetSet (c : Ctl) (sp : ImSpace) (ta : Fin 256) (a : Fin 64)
  | tidsetClr (c : Ctl) (sp : ImSpace) (ta : Fin 256)
  | tidget (c : Ctl) (sp : ImSpace) (ta : Fin 256) (a : Fin 64)
  | cxdefOne (c : Ctl) (cu : Fin 4) (ta : Fin 256) (a : Fin 64)
  | cxdefAnd (c : Ctl) (cu : Fin 4) (ta tb : Fin 256) (a : Fin 64)
  | cxdefOr (c : Ctl) (cu : Fin 4) (ta tb : Fin 256) (a : Fin 64)
  | cxsplit (c : Ctl) (cu : Fin 4) (a b : Fin 64)
  | cxfill (c : Ctl) (cu : Fin 4) (d : Fin 256) (pri : BitVec 16) (tgt : BitVec 32)
  | cxcurSave (c : Ctl) (cu : Fin 4) (a : Fin 64)
  | cxcurLoad (c : Ctl) (cu : Fin 4) (a : Fin 64)
  | cxcurInfo (c : Ctl) (cu : Fin 4) (d : Fin 64)
  | cxcurDrop (c : Ctl) (cu : Fin 4)
  | walkdef (c : Ctl) (slot : Fin 16) (sp : ImSpace) (a : Fin 64)
  | walk (c : Ctl) (slot : Fin 16) (a b cc : Opnd) (word : Word)
  | ired (c : Ctl) (acc bf16 : Bool) (ta : Fin 256) (a b : Opnd) (word : Word)
  | engwait (c : Ctl) (mask : BitVec 8)
  | plev (c : Ctl) (a : Opnd)
  | trap (c : Ctl) (code : BitVec 8)
  | brk (c : Ctl)
  | rft (c : Ctl)
  | sysRd (c : Ctl) (num : BitVec 8) (d : Fin 64)
  | sysWr (c : Ctl) (num : BitVec 8) (a : Opnd)
  -- events of a core
  | variableResultRetire (core g idx : Nat)
  | bkoffExpiry (core g : Nat)
  | spawnItemsEnter (core g : Nat)
  | prooferFullFormation (core wg : Nat) (e : Fin 4)
  | prooferFlush (core wg : Nat)
  | spawnedGroupAdmission (core wg idx slot off row : Nat)
  | blockedWake (core g : Nat) (arrive : List (Nat × DWord × DWord))
  | groupRegisterRelease (core g : Nat)
  | ovenRackSwap (core : Nat)
  | ovenCheckpoint (core : Nat)
  | partnerThresholdExchange (core : Nat)
  | ovenCompletion (core : Nat)
  | rkldCompletion (core op : Nat)
  | mnormCompletion (core op : Nat)
  | adrainCompletion (core op : Nat)
  | selkCompletion (core op : Nat)
  | sortrCompletion (core op : Nat)
  | copySectorArrival (core op rcv : Nat)
  | copyGlobalCompletion (core op : Nat)
  | fetchRowLanding (core op row : Nat)
  | residFillCompletion (core op : Nat)
  | walkRecordRead (core op lane : Nat)
  | walkLanding (core op lane : Nat)
  | walkFaultTrap (core g : Nat)
  | iredBagCompletion (core op lane : Nat)
  | impreciseTrap (core g : Nat)
  | faultResolved (core g : Nat)
  | faultUnresolved (core g : Nat)
  | siblingHalt (core g : Nat)
  | trapFrameWrite (core wg : Nat)
  | queueAudit (core : Nat)
  | workgroupEviction (core : Nat) (wg : Nat × Nat)
  | workgroupRestore (img core slot : Nat) (place : List (Nat × Nat × Nat))
  | lazyGranuleFill (core g idx : Nat)
  -- events of clusters and dies
  | workgroupAdmission (clu pos core slot : Nat) (place : List (Nat × Nat × Nat))
  | unitPlacement (die : Nat)
  | workgroupPlacement (die : Nat)
  | railChange (clu : Nat)
  | rackScrub (core : Nat) (shadow : Bool) (mg : Nat)
  | budgetInterval (stack : Nat)
  | budgetSet (clu stack budget floor : Nat)
  | quotaPeriod (die : Nat)
  | rotationPeriod (die : Nat)
  | rotationApply (die : Nat)
  | rotationGiveUp (die : Nat)
  -- commands, sessions, firmware
  | launchCommand (m : Msg)
  | signalCommand (m : Msg)
  | waitCommand (m : Msg)
  | commandStart (ctx queue : Nat)
  | launchCompletion (launch : Nat)
  | queueOpen (m : Msg)
  | queueClose (m : Msg)
  | queueCloseCompletion (ctx queue : Nat)
  | queueReset (m : Msg)
  | packetReceive (session ctx : Nat) (mode : Uet) (auth : Bool) (p : Packet)
  | sessionOpen (session ctx : Nat) (tss rccc : Bool) (pages : List (Nat × Nat × Nat))
  | sessionLost (session : Nat)
  | sessionClose (session : Nat)
  | softErrorCorrected (st : Store) (core addr : Nat)
  | uncorrectableError (st : Store) (core addr : Nat)
  | linkUncorrectableError (line : Nat) (groups : List (Nat × Nat))
  | powerOnReset (patch : Option (List Byte × Bool))
  | deviceReset
  | fabricJoin (dev : Nat)
  | createContext (caller ctx owner key priv : Nat) (grants : List (Nat × Nat))
  | destroyContext (caller ctx : Nat)
  | map (caller ctx va pa size : Nat) (r w x : Bool) (key : Nat)
  | unmap (caller ctx va : Nat)
  | setQuota (caller ctx die quota : Nat) (granted : Bool)
  | setEntitlement (caller ctx : Nat) (on : Bool) (granted : Bool)
  | reserveClass0 (caller ctx core wgs groups rows scratch tiles banks : Nat) (granted : Bool)
  | attest (caller : Nat) (nonce : BitVec 256)
  | stallCountEnd (core g : Nat)
  | fixedLatencyResult (core g idx : Nat)
  deriving DecidableEq, Repr

end Sys2Proof
end

