-- ==== Sys2Proof/Machine/Ordering.lean ====
section
/-! DEFINITION. The memory model as the spec states it (R177 to R205): events, relations and axioms over candidate executions. Machine/Events.lean makes the
events of instructions and of engines, and Machine/Weak.lean the steps whose reads take older writes where the axioms here allow it (log 6: DESIGN CHOICE). -/
namespace Sys2Proof.Machine
open Sys2Proof

/-! Events. -/

/-- Where a lane lies: numbers of its group, core, cluster, die and device, each unique in the system (R178). -/
structure Place where
  grp  : Nat
  core : Nat
  clu  : Nat
  die  : Nat
  dev  : Nat
  deriving DecidableEq, Repr

/-- The stores that hold locations. ten: the tensor entries of a context (R373). state: what QCTL reads and writes of a queue (R343). ended: what an engine's
completion leaves for ENGWAIT, by class (R389). halt: what the write of the frames leaves for the handler's first issue (R253). -/
inductive EvStore where
  | gl
  | far (dev : Nat)
  | sp (core wg : Nat)
  | cl (clu launch unit : Nat)
  | tm (core wg : Nat)
  | bank (core : Nat)
  | list (core : Nat)
  | rack (core : Nat)
  | queue (core wg h : Nat)
  | state (core wg h : Nat)
  | ten (ctx : Nat)
  | ended (core grp : Nat)
  | halt (core wg : Nat)
  deriving DecidableEq, Repr

/-- A location: one byte of a store (R179). -/
structure EvLoc where
  store : EvStore
  at_   : Nat
  deriving DecidableEq, Repr

/-- The location n bytes further. -/
def EvLoc.plus (l : EvLoc) (n : Nat) : EvLoc := { l with at_ := l.at_ + n }
/-- Whether promotion reaches a location: global memory or cluster SRAM (R184). -/
def EvLoc.shared (l : EvLoc) : Bool := match l.store with | .gl | .far _ | .cl _ _ _ => true | _ => false

/-- Kinds of events (R177). -/
inductive EvKind where
  | rd | wr | rmw | fence | mfence
  deriving DecidableEq, Repr

/-- The engines, as R191 lists them; drain is ADRAIN's path (R347, R361). -/
inductive Engine where
  | oven | copy | fetch | sifter | select | peel | ired | drain
  deriving DecidableEq, Repr

/-- Who makes an event: the state before the execution, what is neither a lane nor an engine (firmware, the dispatcher, the context DMA engine), a lane, an engine for an
operation, or the completion of an operation. part: the stream of arrivals that it belongs to and its place there (R193). -/
inductive Origin where
  | init
  | outside
  | lane
  | engine (op : Nat) (eng : Engine) (part : Option (Nat × Nat))
  | done (op : Nat) (part : Option (Nat × Nat))
  deriving DecidableEq, Repr

/-- An event on one location (R177). lane: the lane that issued, of a group command the lowest active, guard-true lane (R323). issue: its place in program order. first, size:
the access that it is a byte of; whole: that access is single-copy atomic whatever its size. merged: the lanes of its instruction that name one address make one request (R203, R204). gen: the generation that a write
leaves its word at, where it sets or moves it, or that a SWWAIT waits for. mir: of a load served from a residency mirror, the operation that filled it (R201). -/
structure Ev where
  lane   : Nat
  place  : Place
  ctx    : Nat
  issue  : Nat
  origin : Origin
  kind   : EvKind
  loc    : Option EvLoc
  first  : Option EvLoc
  size   : Nat
  whole  : Bool
  rel    : Bool
  acq    : Bool
  scope  : Scope
  rmt    : Bool
  merged : Bool
  gen    : Option Nat
  mir    : Option Nat
  deriving DecidableEq, Repr

/-- Reads and writes; a read-modify-write is both. -/
def Ev.reads (e : Ev) : Bool := e.kind == .rd || e.kind == .rmw
def Ev.writes (e : Ev) : Bool := e.kind == .wr || e.kind == .rmw
/-- FENCE and FENCE .ar. -/
def Ev.fences (e : Ev) : Bool := e.kind == .fence
def Ev.full (e : Ev) : Bool := e.kind == .fence && e.rel && e.acq
/-- Whether two events are accesses to one location. -/
def Ev.meets (e f : Ev) : Bool := e.loc.isSome && e.loc == f.loc
/-- Whether two events are bytes of one access. -/
def Ev.mate (e f : Ev) : Bool := e.lane == f.lane && e.issue == f.issue && e.origin == f.origin && e.first == f.first && e.size == f.size && e.reads == f.reads
/-- The bytes of an access from a location on. -/
def Ev.bytes (e : Ev) (l : EvLoc) (n : Nat) : List Ev := (List.range n).map (fun i => { e with loc := some (l.plus i), first := some l, size := n })

/-! Relations by number of event. -/

/-- A relation between events by number. -/
abbrev Rel := List (Nat × Nat)
/-- A relation as one bit mask per event: of those after it. -/
abbrev Rows := List Nat

/-- The rows of a relation over n events. -/
def Rel.rows (r : Rel) (n : Nat) : Rows := (List.range n).map (fun e => r.foldl (fun m p => if p.1 = e then m ||| 2 ^ p.2 else m) 0)
/-- Whether a comes before b. -/
def Rows.has (t : Rows) (a b : Nat) : Bool := ((t[a]?).getD 0).testBit b
/-- The transitive closure: through each event in turn. -/
def Rows.close (t : Rows) : Rows :=
  (List.range t.length).foldl (fun t k => let via := (t[k]?).getD 0; t.map (fun r => if r.testBit k then r ||| via else r)) t
/-- No event comes after itself. -/
def Rows.loopless (t : Rows) : Bool := (List.range t.length).all (fun e => !t.has e e)

/-- A candidate execution: the events, the sources of reads (R180), the writes in coherence order, location by location (R180), and the FENCE .ar events in the order
fo, context by context (R182). Everything else follows from these. -/
structure Cands where
  evs : List Ev
  rf  : Rel
  co  : List Nat
  fo  : List Nat
  deriving DecidableEq, Repr

/-- Numbers of the events that meet a test. -/
def Cands.those (x : Cands) (p : Ev → Bool) : List Nat := (List.range x.evs.length).filter (fun n => match x.evs[n]? with | some e => p e | none => false)
/-- Whether an event meets a test. -/
def Cands.has (x : Cands) (n : Nat) (p : Ev → Bool) : Bool := match x.evs[n]? with | some e => p e | none => false
/-- Whether two events meet a test. -/
def Cands.both (x : Cands) (a b : Nat) (p : Ev → Ev → Bool) : Bool := match x.evs[a]?, x.evs[b]? with | some e, some f => p e f | _, _ => false
/-- The pairs of events that meet a test. -/
def Cands.pairs (x : Cands) (p : Ev → Ev → Bool) : Rel :=
  (List.range x.evs.length).flatMap (fun a => ((List.range x.evs.length).filter (fun b => a != b && x.both a b p)).map (fun b => (a, b)))
/-- The pairs of a sequence, the first before the second, that meet a test. -/
def Cands.inOrder (x : Cands) (p : Ev → Ev → Bool) : List Nat → Rel
  | [] => []
  | a :: r => (r.filter (fun b => x.both a b p)).map (fun b => (a, b)) ++ x.inOrder p r

/-- po: events of one lane in the order of its instructions (R180). -/
def Ev.po (e f : Ev) : Bool := e.origin == .lane && f.origin == .lane && e.lane == f.lane && decide (e.issue < f.issue)
def Cands.po (x : Cands) : Rel := x.pairs Ev.po
/-- po-loc (R180). -/
def Cands.poLoc (x : Cands) : Rel := x.pairs (fun e f => e.po f && e.meets f)
/-- co: all writes to one location in one order (R180). -/
def Cands.coPairs (x : Cands) : Rel := x.inOrder Ev.meets x.co
/-- fr (R180), but of a load served from a mirror none: no later write binds it (R201). -/
def Cands.fr (x : Cands) : Rel :=
  let co := x.coPairs
  x.rf.flatMap (fun e => if x.has e.2 (fun f => f.mir.isSome) then [] else (co.filter (fun c => c.1 == e.1 && c.2 != e.2)).map (fun c => (e.2, c.2)))
/-- fo among the FENCE .ar events of a context that include each other (R182). -/
def Cands.foPairs (x : Cands) : Rel := x.inOrder (fun e f => e.ctx == f.ctx) x.fo

/-! Synchronisation (R178, R182, R184). -/

/-- Scope instances (R178). -/
def Scope.same (sc : Scope) (a b : Place) : Bool :=
  match sc with
  | .grp => a.grp == b.grp
  | .core => a.core == b.core
  | .clu => a.clu == b.clu
  | .die => a.die == b.die
  | .dev => a.dev == b.dev
  | .sys => true
/-- Scope inclusion (R178). -/
def Ev.incl (e f : Ev) : Bool := Scope.same e.scope e.place f.place && Scope.same f.scope f.place e.place

/-- Whether a write lies in the release sequence of another (R182): that write, or one of the unbroken run of read-modify-writes after it. -/
def Cands.inSeq (x : Cands) (co : Rel) (w v : Nat) : Bool :=
  w == v || (co.contains (w, v) && (co.filter (fun e => e.1 == w && (e.2 == v || co.contains (e.2, v)))).all (fun e => x.has e.2 (fun f => f.kind == .rmw)))
/-- Whether a read takes its value from a write or from its release sequence. -/
def Cands.takes (x : Cands) (co : Rel) (r w : Nat) : Bool := x.rf.any (fun e => e.2 == r && x.inSeq co w e.1)
/-- The writes through which an event releases: a release write itself, or the writes po-after a release fence. -/
def Cands.outs (x : Cands) (a : Nat) : List Nat :=
  if x.has a (fun e => e.rel && e.writes) then [a]
  else if x.has a (fun e => e.rel && e.fences) then (List.range x.evs.length).filter (fun b => x.both a b (fun e f => e.po f && f.writes))
  else []
/-- The reads through which an event acquires. -/
def Cands.ins (x : Cands) (b : Nat) : List Nat :=
  if x.has b (fun e => e.acq && e.reads) then [b]
  else if x.has b (fun e => e.acq && e.fences) then (List.range x.evs.length).filter (fun a => x.both a b (fun e f => e.po f && e.reads))
  else []
/-- sw through a value, and through fo (R182): an access that carries a fence's value takes the fence's scope, and has its lane, so that the inclusion of the two
operations is that of the accesses. -/
def Cands.sync (x : Cands) (co fo : Rel) (a b : Nat) : Bool :=
  x.both a b Ev.incl && ((x.outs a).any (fun w => (x.ins b).any (fun r => x.takes co r w)) || fo.contains (a, b))
/-- Promotion (R184). -/
def Cands.prom (x : Cands) (co : Rel) (a b : Nat) : Bool :=
  x.both a b (fun e f => f.acq && f.rmt && f.scope == .dev && e.rel && [Scope.grp, .core, .clu, .die].contains e.scope
      && e.place.core != f.place.core && e.place.dev == f.place.dev)
    && (x.outs a).any (fun w => x.has w (fun f => f.loc.any EvLoc.shared) && (x.ins b).any (fun r => x.takes co r w))
/-- sw, prom among it (R182, R184). -/
def Cands.sw (x : Cands) : Rel :=
  let co := x.coPairs
  let fo := x.foPairs
  (x.those Ev.rel).flatMap (fun a => ((x.those Ev.acq).filter (fun b => a != b && (x.sync co fo a b || x.prom co a b))).map (fun b => (a, b)))

/-! Engines (R183, R191, R193). -/

/-- Whether an event stands po-between an event of a lane and an issue. -/
def Cands.between (x : Cands) (e f : Ev) (p : Ev → Bool) : Bool :=
  x.evs.any (fun m => m.origin == .lane && m.lane == e.lane && decide (e.issue < m.issue) && decide (m.issue < f.issue) && p m)
/-- When R191 orders an engine's accesses after an event of an issuing lane. -/
def Cands.ordered (x : Cands) (eng : Engine) (e f : Ev) : Bool :=
  match eng with
  | .copy | .fetch | .sifter | .select | .drain => true
  | .oven => x.between e f (fun m => m.kind == .mfence)
  | .peel | .ired => x.between e f (fun m => m.rel && (m.scope == .dev || m.scope == .sys))
/-- Whether an access of a part stands before the completion addition of a part: of its stream, at its place or a later one. -/
def partBefore : Option (Nat × Nat) → Option (Nat × Nat) → Bool
  | some p, some q => p.1 == q.1 && decide (p.2 ≤ q.2)
  | _, none => true
  | none, some _ => false
/-- aso (R183): from what R191 orders before an instruction to its engine's accesses, from these to its completion, and between the arrivals of a transfer; and from what
was written by neither a lane nor an engine to what is issued after it (R373, log 6: DESIGN CHOICE). -/
def Cands.asoAt (x : Cands) (e f : Ev) : Bool :=
  match e.origin, f.origin with
  | .outside, _ => decide (e.issue < f.issue)
  | .lane, .engine _ eng _ => e.lane == f.lane && decide (e.issue < f.issue) && x.ordered eng e f
  | .engine o _ p, .done n q => o == n && partBefore p q
  | .engine o .copy (some p), .engine n .copy (some q) => o == n && e.writes && f.writes && p.1 == q.1 && decide (p.2 < q.2)
  | _, _ => false
def Cands.aso (x : Cands) : Rel := x.pairs x.asoAt

/-- hb (R185). -/
def Cands.hb (x : Cands) : Rows := Rows.close (Rel.rows (x.po ++ x.sw ++ x.aso) x.evs.length)
/-- eco (R180). -/
def Cands.eco (x : Cands) : Rows := Rows.close (Rel.rows (x.rf ++ x.coPairs ++ x.fr) x.evs.length)

/-! What makes an execution one of the machine's. -/

/-- The write that an event reads. -/
def Cands.source (x : Cands) (r : Nat) : Option Nat := (x.rf.find? (fun e => e.2 == r)).map Prod.fst
/-- The event that writes a location first, and only it, is of the state before (R180, R403). -/
def Cands.started (x : Cands) : Bool :=
  (x.those (fun e => e.loc.isSome)).all (fun a => (x.co.find? (fun w => x.both a w Ev.meets)).any (fun w => x.has w (fun e => e.origin == .init)))
    && (x.those (fun e => e.origin == .init)).all (fun a => x.has a (fun e => e.kind == .wr) && (x.those (fun e => e.origin == .init)).all (fun b => a == b || !x.both a b Ev.meets))
/-- Every read has one source, a write of its location; a load from a mirror has that of the read by which the mirror was filled (R201). -/
def Cands.sourced (x : Cands) : Bool :=
  x.rf.all (fun e => x.both e.1 e.2 (fun a b => a.writes && b.reads && a.meets b))
    && (x.those Ev.reads).all (fun r => (x.rf.filter (fun e => e.2 == r)).length == 1)
    && (x.those (fun e => e.mir.isSome)).all (fun r => x.rf.any (fun e => x.source r == some e.1 && x.both r e.2 (fun a f => match f.origin with
        | .engine id .copy _ => a.mir == some id
        | _ => false)))
/-- co holds every write once, and fo every FENCE .ar. -/
def Cands.total (x : Cands) : Bool :=
  (x.those Ev.writes).all (fun w => x.co.count w == 1) && x.co.all (fun w => x.has w Ev.writes)
    && (x.those Ev.full).all (fun w => x.fo.count w == 1) && x.fo.all (fun w => x.has w Ev.full)
/-- Whether 16 bytes of global memory from a location on are a synchronisation word (R74): something initialises them or adds to them. -/
def Cands.word (x : Cands) (l : Option EvLoc) : Bool :=
  (match l.map EvLoc.store with | some .gl | some (.far _) => true | _ => false) && x.evs.any (fun e => e.whole && !e.merged && e.size == 16 && e.first == l)
/-- Single copies of R179: a read that takes a byte from a write of its address and size takes every byte from it; of 16 bytes, every byte of that half, unless one of
the two is an addition or an atomic, or they are a global synchronisation word (R74). -/
def Cands.single (x : Cands) : Bool :=
  x.rf.all (fun e => (x.those (fun _ => true)).all (fun r =>
    !(x.both e.1 e.2 (fun a b => a.first == b.first && a.size == b.size) && x.both e.2 r Ev.mate
        && x.both e.2 r (fun b c => decide (b.size ≤ 8) || c.whole || x.has e.1 Ev.whole || (b.size == 16 && x.word b.first)
            || (match b.loc, c.loc, b.first with | some p, some q, some f => (p.at_ - f.at_) / 8 == (q.at_ - f.at_) / 8 | _, _, _ => false)))
      || (x.source r).any (fun w => x.both e.1 w Ev.mate)))
/-- Single copies of sectors and records (R193, R198): what such a read returns stood in memory at one moment: where it sees a write, it sees every byte of that access
and every write that is hb-before it. -/
def Cands.image (x : Cands) : Bool :=
  let co := x.coPairs
  let hb := x.hb
  let at_ (w v : Nat) : Bool := w == v || co.contains (w, v)
  (x.those (fun e => e.reads && e.whole && decide (e.size > 16))).all (fun r => (x.those (fun e => e.reads && e.whole && decide (e.size > 16))).all (fun q =>
    !x.both r q Ev.mate
      || (x.those Ev.writes).all (fun w => !x.both r w Ev.meets || (x.those Ev.writes).all (fun v => !x.both q v Ev.meets || !(x.both w v Ev.mate || hb.has w v)
          || (match x.source r, x.source q with | some a, some b => at_ w a || !at_ v b | _, _ => false)))))
/-- Lanes of one instruction at one location (R203 to R205): of an atomic, one request, so that their writes follow each other in co, in ascending lane order; of a
store, the highest lane's write is the last of them; the additions of one instruction stand in ascending lane order (R71, R334). -/
def Cands.lanewise (x : Cands) : Bool :=
  let co := x.coPairs
  let twin (e f : Ev) : Bool := e.origin == .lane && f.origin == .lane && e.issue == f.issue && e.place == f.place && e.writes && f.writes && e.meets f
  (x.pairs (fun e f => twin e f && decide (e.lane < f.lane))).all (fun p =>
    if x.has p.1 Ev.merged then
      co.contains p && (List.range x.evs.length).all (fun c => !(co.contains (p.1, c) && co.contains (c, p.2)) || x.both p.1 c twin)
    else co.contains p || !x.has p.1 (fun e => e.kind == .rmw) && (x.those Ev.writes).any (fun c => x.both p.2 c (fun e f => twin e f && decide (e.lane < f.lane))))
/-- The generation at which a write leaves its word: the one that it, or the last write in co before it to do so, sets or moves the word to. -/
def Cands.genAt (x : Cands) (w : Nat) : Option Nat :=
  let before := (x.co.takeWhile (fun v => v != w)) ++ [w]
  (before.reverse.findSome? (fun v => if v == w || x.both v w Ev.meets then (x.evs[v]?).bind Ev.gen else none))
/-- A SWWAIT reads its word at a generation at or past the one awaited (R194); an ENGWAIT reads after every completion that it awaited (R389). -/
def Cands.waited (x : Cands) : Bool :=
  let co := x.coPairs
  (x.those (fun e => e.kind == .rd && e.gen.isSome)).all (fun r => (x.source r).any (fun w =>
    match x.genAt w, (x.evs[r]?).bind Ev.gen with | some g, some n => decide ((g + 65536 - n % 65536) % 65536 < 32768) | _, _ => false))
  && (x.those (fun e => e.kind == .rd && (match e.loc.map EvLoc.store with | some (.ended _ _) => true | _ => false))).all (fun r => (x.source r).any (fun w =>
    (x.those (fun e => e.kind == .rmw)).all (fun d => !x.both d r (fun a b => a.meets b && decide (a.issue < b.issue)) || d == w || co.contains (d, w))))
/-- The operations of the oven queue have their effects on banks and winner lists in its order, which is that of their issues (R347). -/
def Cands.banked (x : Cands) : Bool :=
  x.coPairs.all (fun p => x.both p.1 p.2 (fun a b => match a.loc.map EvLoc.store with
    | some (.bank _) | some (.list _) => a.origin == .init || a.origin == .outside || b.origin == .outside || decide (a.issue ≤ b.issue)
    | _ => true))

/-- What R177 to R205 ask of the base relations. -/
def Cands.shaped (x : Cands) : Bool := x.started && x.sourced && x.total && x.single && x.image && x.lanewise && x.waited && x.banked

/-! Axioms. -/

/-- Coherence (R186). -/
def Cands.coherent (x : Cands) : Bool := (Rows.close (Rel.rows (x.poLoc ++ x.rf ++ x.coPairs ++ x.fr) x.evs.length)).loopless
/-- Atomicity (R187). -/
def Cands.atomic (x : Cands) : Bool :=
  let co := x.coPairs
  x.rf.all (fun e => !x.has e.2 (fun f => f.kind == .rmw) || co.all (fun c => c.1 != e.1 || c.2 == e.2 || !co.contains (c.2, e.2)))
/-- Causality (R188). -/
def Cands.causal (x : Cands) : Bool :=
  let hb := x.hb
  let eco := x.eco
  (List.range x.evs.length).all (fun e => (List.range x.evs.length).all (fun f => !hb.has e f || (e != f && !eco.has f e)))
/-- No-thin-air (R189). -/
def Cands.grounded (x : Cands) : Bool := (Rows.close (Rel.rows (x.po ++ x.rf ++ x.aso) x.evs.length)).loopless

/-- Whether the memory model allows an execution (R186 to R189). -/
def Cands.allowed (x : Cands) : Bool := x.shaped && x.coherent && x.atomic && x.causal && x.grounded

/-- Races (R190). -/
def Cands.race (x : Cands) (a b : Nat) : Bool :=
  let hb := x.hb
  a != b && x.both a b (fun e f => e.meets f && (e.writes || f.writes)) && !hb.has a b && !hb.has b a

end Sys2Proof.Machine
end

