-- ==== Sys2Proof/Machine/State.lean ====
section
/-! DEFINITION. The state of the machine as plain data: everything the spec gives the device (INVENTORY.md, '## State'), and State.reset. -/
namespace Sys2Proof.Machine
open Sys2Proof

/-- Bytes of a store by address, strictly rising, no byte equal to 0: an unlisted address reads 0 (log 5: DESIGN CHOICE). -/
abbrev Mem := List Host.Cell
/-- Bytes of a store that is undefined until written (R69, R75), by address, strictly rising: an unlisted address holds a free value of the workgroup
(log 5: DESIGN CHOICE). -/
abbrev Cells := List Host.Cell
/-- Lane registers by key 64 * register + lane; an unlisted key holds the free value of the group's birth (log 3: DESIGN CHOICE). -/
abbrev RegFile := List (Nat × Word)
/-- Items by number, strictly rising. -/
abbrev Tab (α : Type) := List (Nat × α)

/-- Roles of groups (R44). -/
inductive Role where
  | copy | matrix | vector
  deriving DecidableEq, Repr

/-- Issue slots of a core (R14). -/
inductive Slot where
  | vector | memory | matrix
  deriving DecidableEq, Repr

/-- One frontier entry (R30). -/
structure Entry where
  pc   : DWord
  pri  : BitVec 16
  mask : DWord
  age  : Nat
  deriving DecidableEq, Repr

/-- A register that an instruction writes, for the scoreboard and the fixed-latency results (R117, R118). -/
inductive RegId where
  | v (n : Nat) | s (n : Nat) | o (n : Nat) | q (n : Nat) | p (n : Nat)
  deriving DecidableEq, Repr

/-- The value of a register before a fixed-latency write, per lane (R62). -/
structure OldVal where
  reg   : RegId
  lanes : List (Nat × DWord)
  deriving DecidableEq, Repr

/-- A fixed-latency result on its way (R117): what it writes with the older values, the sum still short of L, and whether it has landed. -/
structure Pending where
  old    : List OldVal
  left   : Nat
  landed : Bool
  fl     : Bool                 -- its instruction updates %vfl (R142)
  nonce  : Nat
  deriving DecidableEq, Repr

/-- A scoreboard entry (R118): the registers it covers, the number of its requests at the arbiters (R223), and whether its instruction updates %vfl (R142). -/
structure SbEntry where
  regs : List RegId
  req  : Nat
  fl   : Bool
  deriving DecidableEq, Repr

/-- Kind of a cursor's delivery (R377). -/
inductive CxOp where
  | one | and | or
  deriving DecidableEq, Repr

/-- A sifter cursor (R377 to R382). Its position: the unit with its row and chunk, and the next items of that row in A and B. -/
structure Cursor where
  valid : Bool
  op    : CxOp
  ta    : Nat
  tb    : Nat
  da    : BitVec 1024
  db    : BitVec 1024
  r0    : Nat
  nr    : Nat
  split : Option (Nat × Nat × Nat)      -- L, part, n (R378)
  begun : Bool                          -- a pair was delivered
  ended : Bool
  row   : Nat
  chunk : Nat
  unit  : Nat
  ia    : Nat
  ib    : Nat
  seen  : List (Nat × Nat × Nat)        -- what the reading has read: address, bytes, value (R197)
  flt   : Bool
  fsb   : Bool
  fpt   : Bool
  fpos  : Word
  deriving DecidableEq, Repr

/-- A cursor that no CXDEF has set (R60, R382). -/
def Cursor.empty : Cursor :=
  { valid := false, op := .one, ta := 0, tb := 0, da := 0, db := 0, r0 := 0, nr := 0, split := Option.none, begun := false,
    ended := false, row := 0, chunk := 0, unit := 0, ia := 0, ib := 0, seen := [], flt := false, fsb := false, fpt := false, fpos := 0 }

/-- The wait of a blocked group (R218, R259): the waiting instruction, its entry, its done mask, and what a SWWAIT's lanes
found (abort seen, session lost seen). -/
structure Wake where
  instr : Instr
  pc    : DWord
  mask  : DWord
  done  : DWord
  abort : Bool
  lost  : Bool
  deriving DecidableEq, Repr

/-- A parked access (R86): the instruction, its entry, the address of the page not present, whether the fault buffer holds it,
and a resolution that came while the handler ran (R257): some true mapped, some false refused. -/
structure Park where
  instr : Instr
  pc    : DWord
  mask  : DWord
  addr  : DWord
  inBuf : Bool
  fetch : Bool
  late  : Option Bool
  deriving DecidableEq, Repr

/-- State of a resident group (R58), with what the state needs. Waiting for admission and evicted groups are held elsewhere. -/
inductive GStatus where
  | runnable
  | stalled (n : Nat)
  | bkoff (n : Nat)
  | spawning (instr : Instr) (pc mask : DWord) (items : List (Word × Word))
  | blocked (w : Wake)
  | parked (p : Park)
  | trapped
  | exited
  deriving DecidableEq, Repr

/-- A trap as a frame records it (R249, R253, R254). -/
structure TrapInfo where
  no    : BitVec 8
  sub   : BitVec 8
  pc    : DWord
  addr  : DWord
  fmask : DWord
  deriving DecidableEq, Repr

/-- A store of a lane into HBM that an engine of its group may still miss (R191, R192, R199): the lane, where and how many bytes it stored, the line
as it stood before, and whether a release of the lane at dev or sys, and an MFENCE of the group, stand after it. -/
structure OwnStore where
  lane : Nat
  va   : Nat
  pa   : Nat
  n    : Nat
  line : List Byte
  rel  : Bool
  fen  : Bool
  deriving DecidableEq, Repr

/-- A group of lanes (R38) in a group slot of a core. -/
structure Group where
  uid     : Nat
  wg      : Nat                 -- uid of its workgroup
  idx     : Nat                 -- %lvl1
  spawned : Bool
  width   : Nat
  nregs   : Nat
  role    : Role
  off     : Nat                 -- lane offset (R38)
  row     : Nat                 -- first granule row (R61)
  birth   : Nat                 -- nonce of the birth values (R60)
  fr      : List Entry
  demoted : Option DWord        -- YIELD (R37)
  v       : RegFile
  s       : Tab DWord
  o       : RegFile
  q       : RegFile
  p       : Tab DWord           -- p0 to p6 as lane masks
  vfl     : Tab (BitVec 5)
  fpc     : Word
  gctl    : Word
  gstat   : DWord
  padm    : DWord
  cur     : List Cursor
  status  : GStatus
  kept    : Option GStatus      -- wait kept over a halt (R251)
  pend    : List Pending
  sb      : List SbEntry
  pass    : List Nat            -- one pass count per slot (R216)
  band    : Nat × Nat           -- rows of the band: first and count (R359)
  imprec  : List TrapInfo       -- imprecise traps to be taken (R249)
  trap    : Option TrapInfo     -- trap recorded for the frame (R252, R254)
  tpend   : Bool                -- PEND (R252)
  skid    : Nat                 -- issues since the halt (R251)
  lastPc  : Tab DWord           -- PCs of exited lanes (R253)
  absent  : List (Nat × Nat × Nat)  -- granules still to fill after a lazy restore: number, address of its segment in HBM, and SEQ (R263)
  priv    : Nat                 -- private region of lane 0 (R84)
  poison  : List (Store × Nat)  -- poisoned registers (R264, R266): 64 * register + lane, or the scalar's number
  spills  : Tab DWord           -- lanes that the last SPILL stored, by the address of its slot (R90)
  own     : List OwnStore       -- newest first
  mfence  : Nat                 -- count of its workgroup's writes at its last MFENCE (R192)
  due     : Option Nat          -- number of the requests that its next pick waits for (R275)
  heads   : DWord               -- filled lanes whose call-stack header is still to be written (R274)
  deriving DecidableEq, Repr

/-- One slot of a hardware queue (R48): the entry and its phase bit. -/
structure QSlot where
  vals  : List DWord
  phase : Bool
  deriving DecidableEq, Repr

/-- A hardware queue h0 to h7 (R45, R48). kind: 0 undeclared, 1 scalar, 2 lane. -/
structure Queue where
  kind    : Nat
  width   : Nat
  depth   : Nat
  slots   : List QSlot
  wIdx    : Nat
  wPhase  : Bool
  permits : Nat
  rIdx    : Nat
  rPhase  : Bool
  deriving DecidableEq, Repr

/-- A role record of the launch record (R243). -/
structure RoleRec where
  role  : Role
  width : Nat
  vregs : Nat
  count : Nat
  entry : Nat
  pri   : BitVec 16
  deriving DecidableEq, Repr

/-- A spawn record (R50, R243). -/
structure SpawnRec where
  entry : Nat
  pri   : BitVec 16
  role  : Role
  vregs : Nat
  deriving DecidableEq, Repr

/-- A shape bucket (R56, R243). -/
structure Bucket where
  entry : Nat
  pri   : BitVec 16
  dims  : List (Nat × Nat)
  deriving DecidableEq, Repr

/-- A launch record as the dispatcher reads it (R242, R243). queues: kind, width, depth. -/
structure LRec where
  levels  : List (Nat × Nat)          -- domain, count
  roles   : List RoleRec
  queues  : List (Nat × Nat × Nat)
  spawns  : List SpawnRec
  buckets : List Bucket
  tensors : Tab (BitVec 1024)
  spw     : Nat
  tiles   : Nat
  banks   : Nat
  scratch : Nat
  clsram  : Nat
  priv    : Nat
  deriving DecidableEq, Repr

/-- An item of the proofer (R50): workgroup uid, spawn entry, payload. -/
structure Item where
  wg : Nat
  e  : Nat
  p0 : Word
  p1 : Word
  deriving DecidableEq, Repr

/-- A halt in progress (R251): uid of the initiator, where the frames were written, and the wait that an imprecise trap found the initiator in. -/
structure Halt where
  init  : Nat
  frame : DWord
  wait  : Option GStatus
  deriving DecidableEq, Repr

/-- A range that an oven operation not yet acquired reads (scratchpad, tiles, scalar registers), and whether a write has reached it; or, with rec set, the
range that it writes its abandonment record to, and whether a read has reached it (R192). -/
structure Watch where
  op  : Nat
  st  : Store
  lo  : Nat
  hi  : Nat
  rec_ : Option Nat             -- of a record: the nonce of what a read of it returns
  hit : Bool
  deriving DecidableEq, Repr

/-- The last write to a range of scratchpad, tiles or scalar registers, by the count of writes (R192). -/
structure LastWrite where
  st : Store
  lo : Nat
  hi : Nat
  n  : Nat
  deriving DecidableEq, Repr

/-- One aligned oven block: block weight beta or alpha, integers q, and the non-finite mark (R151, R153, R154). -/
structure Block where
  wt  : Int
  q   : List Int
  bad : Bool
  deriving DecidableEq, Repr

/-- Status of a rack (R78). -/
inductive RStatus where
  | empty | loading | ready
  deriving DecidableEq, Repr

/-- A rack with its sidecars (R78): columns of 32 blocks, the sum column; blocks not listed are zero. -/
structure Rack where
  status : RStatus
  owner  : Option Nat           -- uid of the workgroup that loaded it
  ten    : Nat
  fmt    : Nat
  step   : Nat
  cols   : List (List Block)
  sum    : List Block
  par    : List (List Nat)      -- parity column by macro group and cell row, of the rows' cells (R265)
  poison : Bool
  free   : Option Nat           -- contents undefined: nonce (R192, R353)
  deriving DecidableEq, Repr

/-- An empty rack. -/
def Rack.empty : Rack :=
  { status := .empty, owner := Option.none, ten := 0, fmt := 0, step := 0, cols := [], sum := [], par := [], poison := false, free := Option.none }

/-- Mode of an accumulator bank (R76, R157). -/
inductive BMode where
  | unset | fp32 | int32
  deriving DecidableEq, Repr

/-- An accumulator bank (R76, R158). Elements by 192 * row + column; an unlisted element is 0, or free under the nonce of the claim. -/
structure Bank where
  owner  : Option Nat
  mode   : BMode
  status : BitVec 7
  elems  : Tab Word
  fill   : Option Nat
  deriving DecidableEq, Repr

/-- An unclaimed bank. -/
def Bank.empty : Bank := { owner := Option.none, mode := .unset, status := 0, elems := [], fill := Option.none }

/-- A winner list (R77). free: the whole list is undefined under a nonce (R163, R192). -/
structure WList where
  k    : Nat
  abs  : Bool
  tot  : Word
  sel  : Word
  ents : List (Word × Word)
  free : Option Nat
  deriving DecidableEq, Repr

/-- A list of a bank just claimed or zeroed (R358, R362). -/
def WList.empty : WList := { k := 0, abs := false, tot := 0, sel := 0, ents := [], free := Option.none }

/-- A bound or threshold of the bound unit: m * 2^e, or an infinity (R164, R166). -/
inductive Bnd where
  | ninf
  | fin (m e : Int)
  | pinf
  deriving DecidableEq, Repr

/-- An MMUL or MTOPK in the oven queue (R347, R353, R355). -/
structure OvenOp where
  id     : Nat
  ctx    : Nat
  launch : Nat
  wg     : Nat
  grp    : Nat
  pc     : DWord
  word   : Option Nat
  x      : OvenArgs
  topk   : Bool
  abs    : Bool
  da     : BitVec 1024
  db     : BitVec 1024
  r0     : Nat
  s0     : Nat
  rofs   : Option Nat
  cbase  : Word
  k      : Nat
  part   : Option Nat
  nonce  : Nat
  steps  : List Rack            -- racks of the steps done or in progress, in order
  rows   : List (List (List Block))   -- per such step and row: the blocks of A (R154)
  compA  : List (List Word)     -- companions of the rows and of the columns (R163)
  compB  : List (List Word)
  bad    : Bool                 -- a rack did not fit (R353)
  poison : Bool                 -- poisoned data or a poisoned rack was read (R266)
  sent   : Bool                 -- thresholds sent at this boundary (R169)
  pxm    : Option Bool          -- partner compared: some true mismatched
  ncm    : Bool
  row    : Nat                  -- row of the next checkpoint
  plane  : Nat                  -- planes done of that row
  thr    : List Bnd             -- thresholds of the rows (R166)
  dead   : List (List (Option (Nat × Nat)))  -- per row and column: step and planes of abandonment
  rowEnd : List (Option Nat)    -- rows settled early: the steps that they took part in (R172)
  parked : Option DWord
  lane   : Nat := 0             -- the lane that issued it (R178)
  deriving DecidableEq, Repr

/-- An operation of the oven that is complete and whose completion no group has acquired (R192): the group that issued it, its word with the generation
that counts it, what it wrote, and whether something has made that undefined. norm: where an MNORM wrote its companions, and how many bytes. Of its results,
rows, lists and stats say what no later operation of the oven queue has replaced (R347), and at_ the count of its workgroup's writes when it had written. -/
structure OvenDone where
  id    : Nat
  grp   : Nat
  word  : Option Nat
  gen   : Nat
  op    : Option OvenOp
  banks : List Nat              -- banks in its window: a read of them is early (R192)
  rows  : Tab Nat               -- rows that still hold its results, each from a first column on
  lists : List Nat              -- winner lists that do
  stats : List Nat              -- banks whose status does
  at_   : Nat
  norm  : Option (Nat × Nat)
  bad   : Bool
  nonce : Nat
  deriving DecidableEq, Repr

/-- A resident workgroup (R44). -/
structure Workgroup where
  uid     : Nat
  launch  : Nat
  index   : Nat                 -- in the order of placement (R244)
  ctx     : Nat
  tc      : Nat
  clu     : Nat                 -- logical cluster (R12)
  team    : Nat                 -- unit of its cluster team (R79, R212)
  lvl     : List Nat            -- %lvl2 to %lvl7
  ext     : List Nat            -- %ext0 is the width; %ext1 to %ext7
  rec_    : LRec
  cb      : DWord
  priv    : Nat                 -- private region of lane 0 of its first group (R84)
  order   : Nat                 -- order of admission (R215)
  fill    : Nat                 -- nonce of what its stores hold where nothing has written (R69, R75)
  scratch : Cells
  tags    : List Nat            -- full words by word index, rising (R70)
  tiles   : Cells               -- bytes by 4096 * tile + offset (R75)
  queues  : List Queue
  tvec    : DWord
  tframe  : DWord
  rail    : Bool                -- rail request (R226)
  halt    : Option Halt
  handler : Option Nat          -- uid of the group that runs the handler (R255)
  spawnIx : Nat                 -- next %lvl1 of a spawned group (R43)
  formed  : List (Nat × Nat × List (Word × Word))   -- groups formed and waiting: %lvl1, spawn entry, payloads (R54)
  reserve : Option (Nat × Nat × Nat)  -- spawn reserve: group slot, lane offset, first granule row (R54)
  poison  : List (Store × Nat)  -- poisoned words of scratchpad and tiles (R264, R266)
  fetched : Tab (List Byte)     -- 32-byte fetch blocks read since the last RFT, by number (R105, R392)
  watch   : List Watch
  writes  : Nat                 -- writes so far, as MFENCE counts them (R192)
  wrote   : List LastWrite
  done    : List OvenDone
  rr      : List Nat            -- group slot that issued last, by 3 * issue slot + role (R215)
  deriving DecidableEq, Repr

/-- A lane's walk (R386). land: a status reached and not yet landed. -/
structure WLane where
  lane  : Nat
  r     : DWord
  key   : DWord
  ofs   : Nat
  rule  : Nat
  steps : Nat
  want  : Option DWord          -- record read outstanding
  parked : Bool                 -- at a page not present (R257)
  land  : Option Nat            -- final status
  done  : Bool
  last  : Option Nat            -- physical address of the record read last (R223)
  trapSt : Option Nat           -- status that traps under raise-replayable
  image : List Byte             -- the record read last (R198)
  deriving DecidableEq, Repr

/-- A rule program of the peel (R383, R384). -/
structure WalkProg where
  nr    : Nat
  rs    : Nat
  pol   : Nat
  lim   : Nat
  rules : List (BitVec 128)
  deriving DecidableEq, Repr

/-- A lane's bag of IRED (R387). -/
structure Bag where
  lane : Nat
  list : DWord
  dest : DWord
  parked : Option DWord         -- at a page not present (R257)
  deriving DecidableEq, Repr

/-- A receiver of a copy: workgroup uid and the lowest sector that has not landed (R336). -/
structure Recv where
  wg   : Nat
  next : Nat
  out  : List Nat               -- sectors above next that have landed, of a transfer into global memory (R193)
  bad  : List Nat := []         -- of such a transfer, the sectors that landed with a mark (R266)
  deriving DecidableEq, Repr

/-- What an engine operation does (R336, R339, R342, R350, R357, R361, R366, R368, R386, R388). -/
inductive EngKind where
  | copy (src : CSrc) (dst : CDst) (sa da n : Nat) (gen : Option (BitVec 16)) (sf overlap : Bool) (rcv : List Recv)
  | fetch (tab : BitVec 1024) (list n dest : Nat) (rows : List Nat) (seen : Tab Nat)
  | resid (entry : Nat) (va pages cloff next : Nat)
  | rkld (sp : BSpace) (tab : BitVec 1024) (j0 s : Nat)
  | mnorm (b : Bool) (sp : BSpace) (tab tabB : BitVec 1024) (r0 s0 n s : Nat)
  | adrain (prune : Nat) (sp : BSpace) (mx : Option DWord) (rnd : Rnd) (sat : Sat) (tab : BitVec 1024) (ro co rho nr c0 nc : Nat) (zero : List Nat)
  | selk (exp : Bool) (src len dst k : Nat)
  | sortr (asc : Bool) (src len dst rows : Nat)
  | walk (prog : WalkProg) (lanes : List WLane)
  | ired (acc bf16 : Bool) (tab : BitVec 1024) (bags : List Bag)
  deriving DecidableEq, Repr

/-- An asynchronous engine operation (R347, R389): class is the ENGWAIT bit. -/
structure EngOp where
  id     : Nat
  wg     : Nat
  grp    : Nat
  cls    : Nat
  pc     : DWord
  ctx    : Nat
  launch : Nat
  team   : Nat
  word   : Option Nat
  kind   : EngKind
  parked : Option DWord
  early  : List Nat             -- banks that it drains inside the window of an oven operation (R192)
  bad    : Bool                 -- an operand was written with no MFENCE after it (R192)
  nonce  : Nat
  lane   : Nat := 0             -- the lane that issued it (R178, R323)
  deriving DecidableEq, Repr

/-- What a class-0 reservation sets aside on a core (R246): context, workgroup slots, group slots, granule rows from row on, scratchpad, tiles, banks. -/
structure Resv where
  ctx : Nat
  wgs : Nat
  grps : Nat
  row : Nat
  rows : Nat
  scratch : Nat
  tiles : Nat
  banks : Nat
  deriving DecidableEq, Repr

/-- A line of the fetch unit's cache (R15, R345): context, line number of its virtual address, and poisoned words (R264). -/
structure FLine where
  ctx  : Nat
  line : Nat
  bad  : List Nat
  deriving DecidableEq, Repr

/-- An immediate instruction of the oven queue whose group is stalled at it (R347): the group's uid, its place in the order of issue, the bank that it names, and
the mode that it sets. -/
structure Imm where
  grp  : Nat
  seq  : Nat
  bank : Option Nat
  mode : Option BMode
  deriving DecidableEq, Repr

/-- A core (R15). -/
structure Core where
  wgs    : Tab Workgroup
  grps   : Tab Group
  active : Rack
  shadow : Rack
  banks  : Tab Bank
  lists  : Tab WList
  ovenQ  : List OvenOp
  imms   : List Imm
  eng    : List EngOp
  items  : List Item            -- proofer, in order of arrival
  fcache : List FLine           -- fetch unit cache, oldest first
  owner  : Option Nat           -- owner last served (R233)
  resv   : List Resv
  hold   : Option Nat           -- uid of the workgroup the core is held for (R214)
  poison : List (Store × Nat)   -- poisoned words of banks (1536 * bank + word) and winner lists (36 * list + word) (R264, R266)
  audits : Nat                  -- audits done
  deriving DecidableEq, Repr

/-- A core on which nothing is resident. -/
def Core.empty : Core :=
  { wgs := [], grps := [], active := Rack.empty, shadow := Rack.empty, banks := [], lists := [], ovenQ := [], imms := [], eng := [], items := [], fcache := [],
    owner := Option.none, resv := [], hold := Option.none, poison := [], audits := 0 }

/-- The cluster SRAM allocation of a cluster team or implicit team (R79, R212). -/
structure Team where
  launch : Nat
  unit   : Nat
  size   : Nat
  mem    : Mem
  poison : List Nat             -- poisoned words (R264, R266)
  refs   : Nat                  -- workgroups placed and not complete
  deriving DecidableEq, Repr

/-- A residency entry (R80). -/
structure ResEntry where
  ld    : Bool
  vbase : Nat
  len   : Nat
  cloff : Nat
  ctx   : Nat
  launch : Nat
  unit  : Nat
  used  : Option Nat            -- its range was used through .cl: nonce of what it then holds (R81)
  fill  : Nat := 0              -- the operation that fills it (R201)
  deriving DecidableEq, Repr

/-- A workgroup placed on a cluster and waiting for admission (R213, R214): bypasses counted per core. -/
structure Waiting where
  wg     : Workgroup
  bypass : Tab Nat
  deriving DecidableEq, Repr

/-- A physical cluster (R16). -/
structure Cluster where
  teams : List Team
  resid : Tab ResEntry
  admQ  : List Waiting
  high  : Bool                  -- on the high rail (R22)
  owner : Option Nat            -- owner last served (R233)
  deriving DecidableEq, Repr

/-- A cluster on which nothing is resident. -/
def Cluster.empty : Cluster := { teams := [], resid := [], admQ := [], high := false, owner := Option.none }

/-- A global synchronisation word that a synchronisation engine holds (R17, R74): its physical address by 16 bytes, the key slot of its page, whether it is in
the overflow area, and its poisoned 4-byte words (R264). -/
structure HeldWord where
  at_  : Nat
  key  : Nat
  outer : Bool
  bad  : List Nat
  deriving DecidableEq, Repr

/-- A die (R11, R12, R17): cluster map, pending rotation, and the launches whose units the dispatcher still places, in order. -/
structure Die where
  map        : List Nat
  rotPending : Bool
  placeQ     : List Nat
  words      : List HeldWord    -- synchronisation words that its engine holds, oldest first
  intervals  : Nat              -- budget intervals of its first stack since the last quota period (R207)
  deriving DecidableEq, Repr

/-- A request that an arbiter holds (R223): its number, the context that it is charged to, and its sectors. -/
structure ArbReq where
  id  : Nat
  ctx : Nat
  n   : Nat
  deriving DecidableEq, Repr

/-- An arbiter's account of one cluster (R223, R224). next: budget and floor from the next interval. queue: requests held, in the order of arrival. -/
structure Arb where
  budget : Nat
  floor  : Nat
  next   : Nat × Nat
  left   : Int
  onFloor : Bool
  queue  : List ArbReq
  deriving DecidableEq, Repr

/-- A page of a context (R85, R232). -/
structure Page where
  va      : Nat
  size    : Nat
  pa      : Nat
  r       : Bool
  w       : Bool
  x       : Bool
  key     : Nat
  deriving DecidableEq, Repr

/-- A command received on a queue (R208, R241). first: it starts as though first of the queue (R244). st: 0 waiting, 1 started, 2 done. launch: the
launch it became. -/
structure Cmd where
  seq    : BitVec 32
  hdr    : BitVec 256
  body   : BitVec 256
  first  : Bool
  st     : Nat
  launch : Option Nat
  deriving DecidableEq, Repr

/-- A command queue (R208, R240, R244). -/
structure CmdQ where
  isOpen  : Bool
  closing : Bool
  err     : Bool
  seq     : BitVec 32           -- next SEQ expected from the host
  out     : BitVec 32           -- next SEQ of the device's messages
  fresh   : Bool                -- the next command starts as though first (R244)
  closes  : List (BitVec 32)    -- SEQ of the queue-close messages not yet answered
  cmds    : List Cmd
  deriving DecidableEq, Repr

/-- A closed command queue. -/
def CmdQ.closed : CmdQ :=
  { isOpen := false, closing := false, err := false, seq := 0, out := 0, fresh := true, closes := [], cmds := [] }

/-- A context (R231). -/
structure Ctx where
  owner    : Nat
  key      : Nat
  pages    : List Page
  grants   : List (Nat × Nat)   -- HBM ranges granted: base, size (R237)
  tens     : Tab (BitVec 1024)
  walks    : Tab WalkProg
  queues   : Tab CmdQ
  entitled : Bool
  quota    : Tab (Nat × Int)    -- per die, once set: quota and what remains (R225)
  privTop  : Nat                -- where the dispatcher places the next private memory (R84)
  saved    : Tab Cursor         -- cursors that CXCUR .save put into images, by the number in the image (R381, log 33: DESIGN CHOICE)
  deriving DecidableEq, Repr

/-- A launch that has started (R209). -/
structure Launch where
  ctx    : Nat
  queue  : Nat
  seq    : BitVec 32
  tc     : Nat
  mig    : Bool
  saddr  : Nat
  sbytes : Nat
  cb     : DWord
  die    : Nat
  rec_   : LRec
  total  : Nat                  -- workgroups
  next   : List Nat             -- unit to be placed next, per die
  placed : Nat
  homes  : List (List Nat × Nat)      -- logical cluster of a unit that must lie on one, by its coordinates from its level up (R42)
  seats  : List (List Nat × Nat)      -- core of its cluster of a unit that must lie on one, likewise
  done   : Nat
  failed : Bool
  deriving DecidableEq, Repr

/-- A segment of a save image (R260, R261): what it holds, and whether its check fails (R262). -/
structure Segment where
  kind  : Nat
  index : Nat
  seq   : Nat
  len   : Nat
  crc   : Word
  data  : List Byte
  deriving DecidableEq, Repr

/-- A save image (R260): where it lies in HBM, its segments as they were written there, and the workgroup with its groups (by slot), banks, lists, racks
and items as saved. -/
structure Image where
  at_    : Nat
  segs   : List Segment
  wg     : Workgroup
  grps   : Tab Group
  banks  : Tab Bank
  lists  : Tab WList
  racks  : List (Nat × Rack)
  items  : List Item
  core   : Nat
  poison : List (Store × Nat)
  deriving DecidableEq, Repr

/-- A status message sent by the device (R244). -/
structure Status where
  ctx    : Nat
  queue  : Nat
  seq    : BitVec 32
  cseq   : BitVec 32
  code   : BitVec 8
  trapno : BitVec 8
  ntrap  : BitVec 8
  wg     : DWord
  deriving DecidableEq, Repr

/-- A Tordin session (R239, R267). -/
structure Session where
  ctx    : Nat
  rccc   : Bool
  closed : Bool
  lost   : Bool
  pages  : List (Nat × Nat × Nat)   -- 4 KiB pages of the system window: page number, device, address there (R84)
  deriving DecidableEq, Repr

/-- What a window request asks of the other device (R84, R326, R330, R334). -/
inductive WReq where
  | ld
  | st
  | rmw (op : AOp) (u ret : Bool)
  | cas (new : Nat)
  | add (gen : Option Nat)
  deriving DecidableEq, Repr

/-- A request that went out through the system window (R84, R326, R330). -/
structure WinOut where
  session : Nat
  dev     : Nat
  addr    : Nat
  size    : Nat
  data    : Nat
  req     : WReq
  pcp     : BitVec 3            -- priority code point of its class (R245)
  deriving DecidableEq, Repr

/-- A binding of a synchronisation word to a session (R267): in global memory of a context, or in the scratchpad of a workgroup. -/
structure Bound where
  ctx  : Nat
  wg   : Option Nat
  addr : Nat
  sess : Nat
  deriving DecidableEq, Repr

/-- Counts that firmware and ports keep (R237, R239, R240, R264): messages and packets discarded, errors corrected, machine checks, sectors charged and
cycles of the arbiters. -/
structure Counts where
  discarded : Nat
  corrected : Nat
  checks    : Nat
  sectors   : Nat
  cycles    : Nat
  deriving DecidableEq, Repr

/-- State of Fenaz root firmware (R13, R236 to R238, R245). patch: the patch that runs. keys: generation of the key in each slot. pcp: the priority code
point of each class. -/
structure Fenaz where
  devId   : BitVec 19
  patch   : Option (List Byte)
  pcp     : List (BitVec 3)
  keys    : Tab Nat
  reports : List (List Nat × Nat)
  deriving DecidableEq, Repr

/-- What a call of Aqper or Fenaz firmware returned to its caller (R21, R237): the context, and whether it was refused with an error. -/
structure CallRet where
  caller : Nat
  error  : Bool
  deriving DecidableEq, Repr

/-- The instruction being issued (R31): core, group slot, its entry's PC, priority and mask, and the lanes of the mask whose guard is true. -/
structure Cur where
  core  : Nat
  g     : Nat
  pc    : DWord
  pri   : BitVec 16
  mask  : DWord
  deriving DecidableEq, Repr

/-- The execution that the machine records (R177 to R205): its events, the byte that each of them leaves at its location, where it writes and that is known, and its
relations. -/
structure Exe where
  run  : Cands
  vals : List (Option Byte)
  deriving DecidableEq, Repr

/-- What a turn does otherwise than in the order of the turns, where the memory model allows it: the locations whose reads take an older write, by number of event, and
the places of its writes in co and of its fences in fo, where they do not come last. -/
structure Weak where
  from_ : List (EvLoc × Nat)
  co    : Option (List Nat)
  fo    : Option (List Nat)
  deriving DecidableEq, Repr

/-- One turn of the machine (log 2: DESIGN CHOICE): a cycle of an issue slot of a core, or an event; either of them with weak outcomes, in an execution that is recorded
from a turn watch on (log 6: DESIGN CHOICE). -/
inductive Turn where
  | issue (core : Nat) (slot : Slot)
  | event (i : Instr)
  | watch
  | weakIssue (core : Nat) (slot : Slot) (w : Weak)
  | weakEvent (i : Instr) (w : Weak)
  deriving DecidableEq, Repr

/-- The machine. -/
structure State where
  cores    : Tab Core
  clusters : Tab Cluster
  dies     : List Die
  arbs     : Tab Arb                -- by 32 * stack + physical cluster
  hbm      : Mem
  hbmKey   : Tab Nat                -- by line number
  hbmPoison : List Nat              -- line numbers
  bound    : List Bound
  ctxs     : Tab Ctx
  sessions : Tab Session
  launches : Tab Launch
  images   : List Image
  outbox   : List Status
  winOut   : List WinOut
  answers  : List (Nat × Nat × Nat × Nat)   -- answers to reads of other devices: session, address, size, data (R84)
  counts   : Counts
  fenaz    : Fenaz
  rets     : List CallRet
  agenda   : List Turn
  exe      : Option Exe         -- the execution recorded, if the machine records (log 6: DESIGN CHOICE)
  cur      : Option Cur
  fresh    : Nat
  nextId   : Nat
  deriving DecidableEq, Repr

/-- Why the machine stops. Both are stops of the model, raised only where no step of the device exists; both are safe. -/
inductive Fault where
  /-- Raised by the meaning of an event whose condition does not hold in the state: the device makes no such step. Safe (log 4: DESIGN CHOICE). -/
  | notEnabled
  /-- Raised by the meaning of an instruction when no group is issuing: the device executes no instruction then. Safe (log 4: DESIGN CHOICE). -/
  | noIssue
  deriving DecidableEq, Repr

/-- Why a meaning is refused. -/
inductive Refusal where
  /-- Raised only by an arm of exec whose instruction has no meaning yet. Safe. -/
  | notModelled (mnemonic : String)
  deriving DecidableEq, Repr

/-- A die after reset: the identity map (log 9: DESIGN CHOICE). -/
def Die.reset : Die := { map := List.range 16, rotPending := false, placeQ := [], words := [], intervals := 0 }

/-- The machine right after power-on reset (R8): nothing is resident, every store is empty (log 5, log 9: DESIGN CHOICE). -/
def State.reset : State :=
  { cores := [], clusters := [], dies := [Die.reset, Die.reset], arbs := [], hbm := [], hbmKey := [], hbmPoison := [], bound := [],
    ctxs := [], sessions := [], launches := [], images := [], outbox := [], winOut := [], answers := [],
    counts := { discarded := 0, corrected := 0, checks := 0, sectors := 0, cycles := 0 },
    fenaz := { devId := 0, patch := Option.none, pcp := (List.range 4).map Config.classPcp, keys := [], reports := [] }, rets := [],
    agenda := [], exe := Option.none, cur := Option.none, fresh := 0, nextId := 0 }

end Sys2Proof.Machine
end

