-- ==== Sys2Proof/Machine/Bits.lean ====
section
/-! DEFINITION. Bit fields, sign extension, byte order (R5, R120), tables by number, and lane masks. -/
namespace Sys2Proof.Machine

/-- bits(x, hi, lo) of R120. -/
def bits (x hi lo : Nat) : Nat := (x >>> lo) % 2 ^ (hi + 1 - lo)

/-- sext(x, n) of R120: the low n bits of x read as two's complement. -/
def sextN (x n : Nat) : Int :=
  let y := x % 2 ^ n
  if n = 0 then 0 else if y.testBit (n - 1) then (y : Int) - (2 ^ n : Nat) else y

/-- An integer modulo 2^n. -/
def wrapN (n : Nat) (z : Int) : Nat := (z % (2 ^ n : Nat)).toNat

/-- n bytes of x, the lowest first (R5). -/
def toLE : Nat → Nat → List Byte
  | 0, _ => []
  | n + 1, x => BitVec.ofNat 8 x :: toLE n (x / 256)

/-- The number that bytes hold, the lowest first (R5). -/
def fromLE : List Byte → Nat
  | [] => 0
  | b :: bs => b.toNat + 256 * fromLE bs

/-- The item of number k. -/
def Tab.get {α : Type} (t : Tab α) (k : Nat) : Option α :=
  match t with
  | [] => none
  | (j, x) :: r => if j = k then some x else Tab.get r k

/-- Writes the item of number k, keeping the numbers rising. -/
def Tab.set {α : Type} (t : Tab α) (k : Nat) (x : α) : Tab α :=
  match t with
  | [] => [(k, x)]
  | (j, y) :: r => if j = k then (k, x) :: r else if k < j then (k, x) :: (j, y) :: r else (j, y) :: Tab.set r k x

/-- Removes the item of number k. -/
def Tab.del {α : Type} (t : Tab α) (k : Nat) : Tab α := t.filter (fun e => e.1 != k)

/-- Bit L of a lane mask. -/
def laneIn (m : DWord) (l : Nat) : Bool := m.getLsbD l

/-- The lanes of a mask in ascending order (R120). -/
def lanesOf (m : DWord) : List Nat := (List.range 64).filter (laneIn m)

/-- The mask of one lane. -/
def laneBit (l : Nat) : DWord := BitVec.ofNat 64 (2 ^ l)

/-- The mask of a list of lanes. -/
def maskOf (ls : List Nat) : DWord := ls.foldl (fun m l => m ||| laneBit l) 0

/-- The mask of lanes 0 to w - 1. -/
def fullMask (w : Nat) : DWord := BitVec.ofNat 64 (2 ^ w - 1)

/-- floor(log2 x) of a positive number by its bit length. -/
def flog2 (x : Nat) : Nat := Nat.log2 x

/-- Quotient rounded up. -/
def ceilDiv (a b : Nat) : Nat := (a + b - 1) / b

/-- The first element of a list that meets a test, with its index. -/
def findIdxOpt {α : Type} (p : α → Bool) : List α → Nat → Option (Nat × α)
  | [], _ => none
  | x :: xs, i => if p x then some (i, x) else findIdxOpt p xs (i + 1)

/-- Replaces the elements that meet a test. -/
def mapIf {α : Type} (p : α → Bool) (f : α → α) (xs : List α) : List α := xs.map (fun x => if p x then f x else x)

end Sys2Proof.Machine
end

