-- ==== Sys2Proof/Decode.lean ====
section
/-! DEFINITION. From bits to an instruction, by the decode checks 3 to 10 of R119 in their order, and the encoder.
Checks 1, 2, 11 and 12 and the operand checks that need the state are the machine's (Machine/Ops.lean, Machine/Step.lean). -/
namespace Sys2Proof
open Sys2Proof.Machine

/-- Why a word is no instruction: the illegal-instruction trap with its cause, or the illegal-operand trap with its field (R119, R249). -/
inductive DecErr where
  | illegal (cause : Nat)
  | operand (sub : Nat)
  deriving DecidableEq, Repr

/-- Extension layouts (R111). -/
inductive Lay where
  | none | xc | xi | xci | xl | xm | xmc | xt | xti
  deriving DecidableEq, Repr

/-- Operand classes of a specifier field (R108, R268, R321). al: the multiple that a v index must be; sal: that an s index must be. -/
structure Cls where
  used : Bool := true
  pred : Bool := false
  v : Bool := false
  s : Bool := false
  o : Bool := false
  q : Bool := false
  h : Bool := false
  k : Bool := false
  i : Bool := false
  al : Nat := 1
  sal : Nat := 1

/-- A field that the form does not use (R108). -/
def Cls.z : Cls := { used := false }
/-- Class p (R268). -/
def Cls.p : Cls := { pred := true }
/-- Class r with queues (R268). -/
def Cls.r : Cls := { v := true, s := true, o := true, q := true, h := true }
/-- Class r or k (R268). -/
def Cls.rk : Cls := { Cls.r with k := true, i := true }
/-- Class r of a 64-bit operand (R268). -/
def Cls.r64 : Cls := { v := true, s := true, h := true, al := 2 }
/-- Class r or k of a 64-bit operand (R268). -/
def Cls.rk64 : Cls := { Cls.r64 with k := true, i := true }
/-- Class r without queues (R321). -/
def Cls.rn : Cls := { Cls.r with h := false }
/-- Class r or k without queues. -/
def Cls.rkn : Cls := { Cls.rk with h := false }
/-- Class s (R268). -/
def Cls.so : Cls := { s := true }
/-- An even s register (R346). -/
def Cls.s2 : Cls := { s := true, sal := 2 }
/-- Class s or k. -/
def Cls.sk : Cls := { s := true, k := true, i := true }
/-- Class a64 (R321). -/
def Cls.a64 : Cls := { v := true, s := true, al := 2 }
/-- Class a64 or k. -/
def Cls.a64k : Cls := { Cls.a64 with k := true, i := true }
/-- Class v4 (R321). -/
def Cls.v4 : Cls := { v := true, al := 4 }
/-- v, o or q. -/
def Cls.voq : Cls := { v := true, o := true, q := true }
/-- Only v. -/
def Cls.vo : Cls := { v := true }

/-- What a form allows of its XM fields (R114, R322): orders, whether the scope and RMT may be nonzero, whether RMT's space is right, OFS. -/
structure XmRule where
  ords  : List Nat := [0]
  scope : Bool := false
  rmt   : Bool := false
  ofs   : Bool := true

/-- What a form uses of XT and XTI (R111, R346): tensor fields, the unit's limit, the bits of IMM32 in use. -/
structure XtRule where
  ta : Bool := false
  tb : Bool := false
  tc : Bool := false
  unit : Nat := 0            -- first number beyond the range; 0: the field is not used
  free : Bool := false       -- TA and TB hold a priority (R379)
  imm : Nat := 0xFFFFFFFF

/-- A form of R121: lengths with layouts, MOD values of cause 0x04 and of cause 0x05, operand classes, flags slot, Q bit. -/
structure Form where
  lays : List (Len × Lay)
  modBad : Bool := false
  modRes : Bool := false
  d : Cls := Cls.z
  a : Cls := Cls.z
  b : Cls := Cls.z
  c : Cls := Cls.z
  nf : Bool := false
  q : Bool := false
  xm : XmRule := {}
  xt : XtRule := {}
  pg7 : Bool := false

def l0 : List (Len × Lay) := [(.w64, .none)]
def l0i : List (Len × Lay) := [(.w64, .none), (.w96, .xi)]
def lc : List (Len × Lay) := [(.w96, .xc), (.w128, .xci)]
def lm : List (Len × Lay) := [(.w64, .none), (.w96, .xm)]
def lmi : List (Len × Lay) := [(.w64, .none), (.w96, .xm), (.w96, .xi)]
def lmc : List (Len × Lay) := [(.w128, .xmc)]
def lt : List (Len × Lay) := [(.w96, .xt)]
def lti : List (Len × Lay) := [(.w128, .xti)]

/-- Fields of MOD: the type slot, a 64-bit type, a packed type. -/
def mTy (m : Nat) : Nat := m % 8
def mWide (m : Nat) : Bool := m % 8 == 2 || m % 8 == 3
def mPacked (m : Nat) : Bool := m % 8 ≥ 4

/-- The FP class's reserved type and rounding values (R113). -/
def fBad (m : Nat) : Bool := mTy m ≥ 3 || bits m 5 3 ≥ 6

/-- Forms of the integer class that take a type, and perhaps an overflow slot (R112, R285, R288). -/
def intForm (m : Nat) (sat : Bool) (bUsed wideB : Bool) : Form :=
  let w := mWide m
  { lays := l0i, modBad := mTy m ≥ 6 || bits m 7 4 != 0, modRes := !sat && m.testBit 3, d := if w then Cls.r64 else Cls.r, a := if w then Cls.rk64 else Cls.rk, b := if !bUsed then Cls.z else if w && wideB then Cls.rk64 else Cls.rk, q := true }

/-- Forms of the control, predicate and cross-lane opcodes (R271 to R284, R295 to R298). -/
def formCtl (opc fn m : Nat) : Option Form :=
  match opc, fn with
  | 0x01, 0 => some { lays := l0, modRes := m != 0 }
  | 0x06, 0 => some { lays := l0, modRes := m != 0 }
  | 0x07, 0 => some { lays := l0, modRes := m != 0 }
  | 0x08, 0 => some { lays := l0, modRes := m != 0, pg7 := true }
  | 0x09, 0 => some { lays := l0i, modRes := m != 0, a := Cls.sk }
  | 0x0A, 0 => some { lays := l0, modRes := bits m 7 2 != 0, a := Cls.so, pg7 := true }
  | 0x0B, 0 => some { lays := l0i, modRes := bits m 7 2 != 0, a := Cls.rkn, b := Cls.rkn }
  | 0x0C, 0 => some { lays := l0, modRes := m != 0, d := Cls.p }
  | 0x0D, 0 => some { lays := l0, modRes := m != 0, d := Cls.p, a := Cls.p }
  | 0x0D, 1 => some { lays := l0, modRes := m != 0, d := Cls.p, a := Cls.p }
  | 0x0D, 2 => some { lays := l0, modRes := m != 0, d := Cls.p, a := Cls.p }
  | 0x0D, 3 => some { lays := l0, modRes := m != 0, d := Cls.so, a := Cls.p, q := true }
  | 0x0E, 0 => some { lays := l0, d := { v := true, s := true, o := true } }
  | 0x0E, 1 => some { lays := l0, d := { v := true, s := true, o := true } }
  | 0x0F, 0 => some { lays := l0i, a := Cls.rkn }
  | 0x0F, 1 => some { lays := l0i, a := Cls.rkn }
  | 0x28, f => if f ≤ 5 then some { lays := l0, modRes := m != 0, d := Cls.p, a := Cls.p, b := if f = 5 then Cls.z else Cls.p } else none
  | 0x29, 0 => some { lays := l0, modRes := m != 0, d := Cls.so, a := Cls.p, q := true }
  | 0x29, 1 => some { lays := l0i, modRes := m != 0, d := Cls.p, a := Cls.sk }
  | 0x29, 2 => some { lays := l0, modRes := m != 0, d := Cls.p }
  | 0x29, 3 => some { lays := l0, modRes := m != 0, d := Cls.r, a := Cls.p, q := true }
  | 0x29, 4 => some { lays := l0i, modRes := m != 0, d := Cls.p, a := Cls.rk }
  | 0x2A, f => if f ≤ 3 then some { lays := l0i, modRes := m != 0, d := Cls.r, a := Cls.r, b := Cls.rk } else none
  | _, _ => none

/-- MOD checks of LSCAN and LRED (R298). -/
def scanForm (fadd : Bool) (m : Nat) : Form :=
  if fadd then { lays := l0i, modBad := mTy m != 0 || bits m 5 3 ≥ 6, d := Cls.r, a := Cls.rk, nf := true }
  else { lays := l0i, modBad := mPacked m || bits m 7 4 != 0, d := if mWide m then Cls.r64 else Cls.r, a := if mWide m then Cls.rk64 else Cls.rk }

/-- Forms of the integer class (R285 to R294) and of LSCAN and LRED. -/
def formInt (opc fn m : Nat) : Option Form :=
  match opc, fn with
  | 0x10, 0 => some (intForm m true true true)
  | 0x11, 0 => some (intForm m true true true)
  | 0x12, 0 => some (intForm m true true true)
  | 0x12, 1 => some (intForm m false true true)
  | 0x13, 0 => let f := intForm m true true true; some { f with lays := lc, c := { f.a with h := false } }
  | 0x14, 0 => some { intForm m true true true with q := false }
  | 0x15, 0 => some { intForm m true true true with q := false }
  | 0x16, 0 => some (intForm m false true true)
  | 0x17, 0 => some (intForm m false true true)
  | 0x18, 0 => let f := intForm m true false true; some { f with modBad := f.modBad || mTy m == 1 || mTy m == 3 }
  | 0x1C, 0 => some (intForm m false false true)
  | 0x19, 0 => some (intForm m false true true)
  | 0x1A, 0 => some (intForm m false true true)
  | 0x1B, 0 => some (intForm m false true true)
  | 0x1D, 0 => some (intForm m false true false)
  | 0x1E, 0 => some (intForm m false true false)
  | 0x1F, 0 => some (intForm m false true false)
  | 0x20, 0 => some (intForm m false true false)
  | 0x21, 0 => some { intForm m false true false with modBad := mPacked m || bits m 7 4 != 0 }
  | 0x22, 0 => some { intForm m false true true with modBad := mPacked m || bits m 7 4 != 0, lays := lc, c := { Cls.rk with h := false } }
  | 0x23, f => if f ≤ 2 then some (intForm m false false true) else none
  | 0x24, 0 => some { intForm m false true true with modBad := mPacked m || bits m 7 4 ≥ 6, d := Cls.p, q := false }
  | 0x25, 0 => some { intForm m false true true with modBad := mTy m != 0 && mTy m != 2 }
  | 0x26, 0 => some { lays := [(.w64, .none), (.w96, .xi), (.w128, .xl)], modBad := mPacked m, modRes := m.testBit 3, d := Cls.a64, a := Cls.a64k, b := if mWide m then Cls.rk64 else Cls.rk, q := true }
  | 0x27, 0 => some { intForm m false false true with lays := [(.w64, .none), (.w96, .xi), (.w128, .xl)], modBad := (mTy m != 0 && mTy m != 2) || bits m 7 4 != 0 }
  | 0x2B, f => if f % 8 ≤ 6 && f < 16 then some (scanForm (f % 8 == 6) m) else none
  | 0x2C, f => if f ≤ 6 then some (scanForm (f == 6) m) else none
  | _, _ => none

/-- The floating-point class without its own slots (R302). -/
def fpForm (m : Nat) : Form := { lays := l0i, modBad := fBad m, d := Cls.r, a := Cls.rk, b := Cls.rk, nf := true, q := true }

/-- Class of a conversion's source: no inline constant for formats of 8 bits or fewer (R300). -/
def cvtSrc (src : Nat) : Cls := if src ≥ 3 then { Cls.rk with k := false } else Cls.rk

/-- Forms of the floating-point and conversion opcodes (R302 to R320). FDOT .x2 under XCI takes a register or a constant as C too, with the immediate in A or B or in no field
(log 74: DESIGN CHOICE). -/
def formFp (opc fn m : Nat) : Option Form :=
  match opc, fn with
  | 0x30, 0 => some (fpForm m)
  | 0x31, 0 => some (fpForm m)
  | 0x32, 0 => some (fpForm m)
  | 0x33, 0 => some { fpForm m with lays := lc, c := { Cls.rk with h := false } }
  | 0x34, 0 => some { fpForm m with modRes := bits m 5 3 != 0 }
  | 0x35, 0 => some { fpForm m with modRes := bits m 5 3 != 0 }
  | 0x36, f => if f ≤ 1 then some { fpForm m with modRes := bits m 5 3 != 0, b := Cls.z, nf := false } else none
  | 0x37, f => if f ≤ 7 then some { fpForm m with modBad := mTy m != 0 || bits m 5 3 ≥ 6 || m.testBit 6, modRes := bits m 5 3 != 0, d := Cls.p, q := false } else none
  | 0x38, f => if f ≤ 7 then some { fpForm m with b := if f = 7 then Cls.rk else Cls.z, q := false } else none
  | 0x39, 0 => some { fpForm m with lays := lc, modBad := fBad m || mTy m == 0, c := { Cls.rk with h := false }, q := false }
  | 0x39, 1 => some { fpForm m with lays := [(.w96, .xc)], modBad := fBad m || mTy m == 0, a := Cls.a64, b := Cls.a64, c := { Cls.rk with h := false }, q := false }
  | 0x3A, f => if f % 16 ≤ 8 && f < 32 then
      some { fpForm m with modBad := mTy m + 8 * (f / 16) > 8 || bits m 5 3 ≥ 6, a := cvtSrc (f % 16), b := Cls.z } else none
  | 0x3B, f => if f % 16 ≤ 7 && f < 32 then
      some { fpForm m with modBad := mTy m + 8 * (f / 16) > 8 || bits m 5 3 ≥ 6, b := Cls.z } else none
  | 0x3C, f => if f ≤ 8 then some { fpForm m with modBad := bits m 5 3 ≥ 6 || m.testBit 6, a := cvtSrc f, b := Cls.z } else none
  | 0x3D, 0 => some { fpForm m with modBad := mTy m ≥ 3, modRes := bits m 7 3 != 0, b := Cls.z, nf := false }
  | 0x3D, 1 => some { fpForm m with modBad := mTy m ≥ 3, modRes := bits m 7 3 != 0, d := Cls.p, nf := false, q := false }
  | 0x3E, 0 => some { lays := l0, modRes := bits m 7 5 != 0, d := Cls.p }
  | 0x3E, 1 => some { lays := l0, modRes := bits m 7 5 != 0 }
  | 0x3E, 2 => some { lays := l0, modRes := bits m 7 5 != 0 }
  | 0x3E, 3 => some { lays := l0, modRes := m != 0, d := Cls.so }
  | 0x3F, f => if f ≤ 4 then some { fpForm m with modBad := bits m 5 3 ≥ 6 || m.testBit 7, modRes := mTy m != 0, b := Cls.so } else none
  | 0x40, f => if f ≤ 5 then some { fpForm m with modBad := bits m 5 3 ≥ 6, modRes := mTy m != 0, a := Cls.rn, b := Cls.sk } else none
  | _, _ => none

/-- Base class of an address by space (R321). -/
def baseCls (m : Nat) : Cls := if m % 4 = 0 then Cls.a64 else Cls.rn
/-- Destination class of LD and of ATOM by size (R325, R329). -/
def dstCls (sz : Nat) : Cls :=
  if sz ≤ 2 then { v := true, s := true, o := true, q := true } else if sz = 3 then Cls.a64 else Cls.v4
/-- Data class of ST and of atomics by size (R325, R329). -/
def datCls (sz : Nat) : Cls := if sz ≤ 2 then Cls.rkn else if sz = 3 then Cls.a64k else Cls.v4
/-- XM rule of an ordered access; RMT is allowed in .gl and .cl only (R322). -/
def xmOrd (m : Nat) (ords : List Nat) : XmRule := { ords := ords, scope := true, rmt := m % 4 == 0 || m % 4 == 2 }

/-- Values that R114's size slot does not define, or that no form with a fixed MOD gives to [7:5]. -/
def memBad (m : Nat) : Bool := bits m 4 2 > 4 || bits m 7 5 != 0

/-- Sizes an atomic allows (R329), and the two bits that it does not use. -/
def atomBad (fn m : Nat) : Bool :=
  let sz := bits m 4 2
  m % 4 == 3 || !(sz == 2 || (sz == 3 && fn ≤ 7)) || bits m 7 6 != 0

/-- Forms of the memory, atomic, synchronisation and copy opcodes (R325 to R345). -/
def formMem (opc fn m : Nat) : Option Form :=
  let sz := bits m 4 2
  match opc, fn with
  | 0x48, 0 => some { lays := lm, modBad := sz > 4 || (m.testBit 5 && sz ≥ 3) || bits m 7 6 != 0, d := dstCls sz, a := baseCls m, xm := xmOrd m [0, 1] }
  | 0x49, 0 => some { lays := lmi, modBad := sz > 4 || bits m 7 5 != 0, a := baseCls m, b := datCls sz, xm := xmOrd m [0, 2] }
  | 0x4A, 0 => some { lays := lm, modBad := m % 4 != 1 || sz != 2 || bits m 7 6 != 0, d := Cls.voq, a := Cls.rn }
  | 0x4B, 0 => some { lays := lmi, modBad := m % 4 != 1 || sz != 2 || bits m 7 5 != 0, a := Cls.rn, b := Cls.rkn }
  | 0x4C, 0 => some { lays := lm, modBad := m % 4 != 1 || sz < 2 || sz > 4 || bits m 7 6 != 0, a := Cls.rn }
  | 0x4D, f => if f ≤ 9 then
      some { lays := if f = 7 then lmc else lmi, modBad := atomBad f m, modRes := m.testBit 5 && f != 1 && f != 2, d := dstCls sz, a := baseCls m, b := datCls sz, c := if f = 7 then datCls sz else Cls.z, xm := xmOrd m [0, 1, 2, 3] } else none
  | 0x4E, f => if f ≤ 9 && f != 6 && f != 7 then
      some { lays := lmi, modBad := atomBad f m, modRes := m.testBit 5 && f != 1 && f != 2, a := baseCls m, b := datCls sz, xm := xmOrd m [0, 2] } else none
  | 0x4F, 0 => some { lays := [(.w96, .xm)], modRes := m != 8, xm := { ords := [1, 2, 3], scope := true, rmt := true, ofs := false } }
  | 0x50, 0 => some { lays := lmc, modBad := m % 4 ≥ 2 || sz != 4 || bits m 7 5 != 0, a := baseCls m, b := Cls.rkn, c := Cls.rkn, xm := xmOrd m [0, 2] }
  | 0x51, 0 => some { lays := if m.testBit 5 then lmc else lmi, modBad := m % 4 ≥ 2 || sz != 4 || bits m 7 6 != 0, a := baseCls m, b := Cls.rkn, c := if m.testBit 5 then Cls.rkn else Cls.z, xm := xmOrd m [0, 2] }
  | 0x52, 0 => some { lays := lmi, modBad := m % 4 ≥ 2 || sz != 4 || bits m 7 5 != 0, a := baseCls m, b := Cls.rkn, xm := xmOrd m [1] }
  | 0x53, 0 => some { lays := lti, modBad := memBad m, modRes := m != 8, a := Cls.so, b := Cls.so, xt := { ta := true } }
  | 0x54, 0 => some { lays := lmc, modBad := bits m 7 5 ≥ 4 || sz != 2, a := Cls.so, b := Cls.so, c := Cls.so }
  | 0x55, 0 => some { lays := l0, modBad := memBad m, modRes := m != 8, a := Cls.so, b := Cls.so }
  | 0x56, 0 => some { lays := [(.w96, .xm)], modBad := memBad m, modRes := m != 8, a := Cls.so, b := Cls.so }
  | 0x56, 1 => some { lays := l0, modBad := memBad m, modRes := m != 8, b := Cls.so }
  | 0x56, 2 => some { lays := l0, modBad := memBad m, modRes := m != 8, d := Cls.s2, b := Cls.so }
  | 0x57, 0 => some { lays := l0, modBad := bits m 4 0 != 8, d := { v := true, s := true, o := true, q := true } }
  | 0x57, 1 => some { lays := l0, modBad := bits m 4 0 != 8, d := { v := true, s := true, o := true, q := true } }
  | 0x57, 2 => some { lays := l0, modBad := bits m 4 0 != 8 }
  | 0x58, 0 => some { lays := l0i, modBad := memBad m, modRes := m != 0x0B, a := Cls.sk, b := Cls.vo }
  | 0x59, 0 => some { lays := l0i, modBad := memBad m, modRes := m != 0x0B, a := Cls.sk, d := Cls.vo }
  | 0x5A, 0 => some { lays := lm, modBad := memBad m, modRes := m != 8, a := Cls.a64 }
  | 0x5B, 0 => some { lays := l0, modBad := memBad m, modRes := m != 0 }
  | _, _ => none

/-- Forms of the oven, accumulator, winner and selection opcodes (R349 to R368). -/
def formOven (opc fn m : Nat) : Option Form :=
  let s := Cls.so
  match opc, fn with
  | 0x60, 0 => some { lays := lt, modBad := m % 4 == 2, modRes := bits m 7 3 != 0, a := s, b := s, xt := { ta := true } }
  | 0x61, 0 => some { lays := l0, modRes := bits m 7 1 != 0 }
  | 0x62, 0 => some { lays := lti, modBad := m % 4 == 2, modRes := bits m 7 3 != 0, a := s, b := s, xt := { ta := true, tb := true, unit := 12, imm := 0x7FFFFFFF } }
  | 0x63, 0 => some { lays := lti, modBad := m % 4 == 2, modRes := bits m 7 4 != 0, a := s, b := Cls.s2, xt := { ta := true, tb := true, unit := 12, imm := 0x7FFFFFFF } }
  | 0x64, 0 => some { lays := lti, modBad := bits m 2 1 == 2, modRes := bits m 7 3 != 0, a := s, b := s, xt := { ta := true, tb := m % 2 == 0, imm := 0x00FFFFFF } }
  | 0x65, 0 => some { lays := lt, modRes := m != 0, xt := { unit := 12 } }
  | 0x65, 1 => some { lays := l0, modRes := m != 0, a := s }
  | 0x66, 0 => some { lays := lt, modRes := m != 0, xt := { unit := 12 } }
  | 0x67, 0 => some { lays := l0, modRes := m != 0, a := s, b := s }
  | 0x68, f => if f ≤ 2 then some { lays := lt, modBad := m % 4 == 2 || bits m 5 3 ≥ 6, a := s, b := Cls.s2, xt := { ta := true } } else none
  | 0x69, 0 => some { lays := lt, modRes := bits m 7 2 != 0, a := s, xt := { unit := 12 } }
  | 0x6A, 0 => some { lays := lt, modRes := m != 0, xt := { unit := 12 } }
  | 0x6B, 0 => some { lays := lti, modRes := m != 0, a := s, xt := { unit := 96, imm := 0x7F } }
  | 0x6C, 0 => some { lays := lt, modRes := m != 0, a := s, b := s, xt := { unit := 96 } }
  | 0x6D, 0 => some { lays := lti, modRes := bits m 7 1 != 0, a := s, b := s }
  | 0x6E, 0 => some { lays := lti, modRes := bits m 7 1 != 0, a := s, b := s }
  | 0x6F, 0 => some { lays := lt, modRes := m != 0, d := { v := true, s := true, o := true, q := true }, xt := { unit := 12 } }
  | _, _ => none

/-- Forms of the tensor, sifter, peel, reduce and system opcodes (R372 to R393). -/
def formSys (opc fn m : Nat) : Option Form :=
  let s := Cls.so
  match opc, fn with
  | 0x70, 0 => some { lays := lt, modBad := m % 4 == 3, modRes := bits m 7 2 != 0, a := s, xt := { ta := true } }
  | 0x70, 1 => some { lays := lt, modBad := m % 4 == 3, modRes := bits m 7 2 != 0, xt := { ta := true } }
  | 0x71, 0 => some { lays := lt, modBad := m % 4 == 3, modRes := bits m 7 2 != 0, a := s, xt := { ta := true } }
  | 0x72, f => if f ≤ 2 then some { lays := lt, modRes := m != 0, a := s, xt := { ta := true, tb := f != 0, unit := 4 } } else none
  | 0x73, 0 => some { lays := lti, modRes := m != 0, d := Cls.v4, xt := { ta := true, tb := true, free := true, unit := 4 } }
  | 0x74, 0 => some { lays := lt, modRes := m != 0, a := s, b := s, xt := { unit := 4 } }
  | 0x75, 0 => some { lays := lt, modRes := m != 0, a := s, xt := { unit := 4 } }
  | 0x75, 1 => some { lays := lt, modRes := m != 0, a := s, xt := { unit := 4 } }
  | 0x75, 2 => some { lays := lt, modRes := m != 0, d := Cls.s2, xt := { unit := 4 } }
  | 0x75, 3 => some { lays := lt, modRes := m != 0, xt := { unit := 4 } }
  | 0x76, 0 => some { lays := l0, modBad := bits m 5 4 == 3, modRes := bits m 7 6 != 0, a := s }
  | 0x77, 0 => some { lays := [(.w128, .xci)], modRes := bits m 7 4 != 0, a := Cls.a64, b := Cls.a64, c := Cls.rn }
  | 0x78, 0 => some { lays := lti, modRes := bits m 7 2 != 0, a := Cls.a64, b := Cls.a64, xt := { ta := true } }
  | 0x79, 0 => some { lays := l0 }
  | 0x7A, 0 => some { lays := l0, modRes := m != 0, a := { s := true, k := true } }
  | 0x7C, 0 => some { lays := l0 }
  | 0x7D, 0 => some { lays := l0, modRes := m != 0 }
  | 0x7E, 0 => some { lays := l0, d := s }
  | 0x7E, 1 => some { lays := l0i, a := Cls.sk }
  | 0x7F, 0 => some { lays := l0, modRes := m != 0 }
  | _, _ => none

/-- The form that OPC, FN and, for SWARR, MOD select (R119, step 6); none is a reserved FN. -/
def form (opc fn m : Nat) : Option Form :=
  if opc < 0x10 then formCtl opc fn m
  else if opc < 0x28 then formInt opc fn m
  else if opc < 0x2B then formCtl opc fn m
  else if opc < 0x30 then formInt opc fn m
  else if opc < 0x48 then formFp opc fn m
  else if opc < 0x60 then formMem opc fn m
  else if opc < 0x70 then formOven opc fn m
  else formSys opc fn m

/-- Major opcodes that are not reserved (R115). -/
def opcOk (opc : Nat) : Bool :=
  (1 ≤ opc && opc ≤ 0x2C) || (0x30 ≤ opc && opc ≤ 0x40) || (0x48 ≤ opc && opc ≤ 0x5B) || (0x60 ≤ opc && opc ≤ 0x7A) || (0x7C ≤ opc && opc ≤ 0x7F)

/-- Lengths that some form of a major opcode allows (R119, step 4). -/
def opcLens (opc : Nat) : List Len :=
  match opc with
  | 0x03 | 0x05 => [.w64, .w128]
  | 0x02 | 0x04 => [.w64]
  | 0x39 => [.w96, .w128]
  | 0x4D | 0x51 => [.w64, .w96, .w128]
  | 0x29 | 0x56 | 0x65 | 0x7E => [.w64, .w96]
  | _ => match form opc 0 0 with
    | some f => f.lays.map (·.1)
    | none => []

/-- Reserved bits of an extension (R111). -/
def extRes (lay : Lay) (x : Nat) : Bool :=
  match lay with
  | .xc => bits x 31 10 != 0
  | .xci => bits x 31 10 != 0
  | .xm => bits x 7 6 != 0
  | .xmc => bits x 7 6 != 0 || bits x 63 42 != 0
  | _ => false

/-- XM values of cause 0x04 (R114, R322, R327). -/
def xmBad (r : XmRule) (x : Nat) : Bool :=
  let sc := bits x 2 0
  let od := bits x 4 3
  let rm := x.testBit 5
  sc ≥ 6 || (!r.scope && sc != 0) || !r.ords.contains od || (rm && !(r.rmt && sc == 4 && (od == 1 || od == 3)))

/-- Whether a tensor field that a form does not use is set, cause 0x05 (R346); where own says so (R370), UNIT too. -/
def xtRes (r : XtRule) (own : Bool) (x : Nat) : Bool :=
  (!r.ta && bits x 7 0 != 0) || (!r.tb && bits x 15 8 != 0) || (!r.tc && bits x 23 16 != 0) || (own && r.unit == 0 && bits x 31 24 != 0)

/-- Whether UNIT is beyond what a form allows, which for a form without a unit is 0 alone (R111, R346). -/
def xtUnit (r : XtRule) (x : Nat) : Bool := bits x 31 24 ≥ max r.unit 1

/-- The value that the immediate field of an extension supplies (R109). -/
def immOf (lay : Lay) (x : Nat) : Option Opnd :=
  match lay with
  | .xi => some (.imm32 (BitVec.ofNat 32 x))
  | .xci => some (.imm32 (BitVec.ofNat 32 (x >>> 32)))
  | .xl => some (.imm64 (BitVec.ofNat 64 x))
  | _ => none

/-- A specifier read under its class; none raises the illegal-operand trap (R108). -/
def opnd (c : Cls) (imm : Option Opnd) (n : Nat) : Option Opnd :=
  if !c.used then some (.v 0)
  else if c.pred then (if n < 8 then some (.v 0) else none)
  else if h : n < 0x100 then (if c.v && n % c.al == 0 then some (.v ⟨n, h⟩) else none)
  else if n < 0x140 then (if c.s && n % c.sal == 0 then some (.s (Fin.ofNat 64 (n - 0x100))) else none)
  else if n < 0x148 then (if c.o then some (.o (Fin.ofNat 8 (n - 0x140))) else none)
  else if n < 0x14A then (if c.q then some (.q (Fin.ofNat 2 (n - 0x148))) else none)
  else if n < 0x150 then none
  else if n < 0x180 then (if c.k then some (.k (Fin.ofNat 48 (n - 0x150))) else none)
  else if n < 0x188 then (if c.h then some (.h (Fin.ofNat 8 (n - 0x180))) else none)
  else if n = 0x1FF then (if c.i then imm else none)
  else none

/-- Word 0 and the extension, taken apart (R106, R111). -/
structure Raw where
  c  : Ctl
  fn : Nat
  m  : Nat
  rd : Nat        -- the raw D, A and B fields, for predicate fields
  ra : Nat
  rb : Nat
  d  : Opnd
  a  : Opnd
  b  : Opnd
  cc : Opnd
  x  : Nat        -- extension
  xm : Nat        -- XM fields in effect

/-- Reads a slot of MOD as its type. -/
def ityOf (n : Nat) : ITy := match n % 8 with | 0 => .i32 | 1 => .u32 | 2 => .i64 | 3 => .u64 | 4 => .i16x2 | _ => .i8x4
def ftyOf (n : Nat) : FTy := match n % 8 with | 0 => .f32 | 1 => .f16 | _ => .bf16
def rndOf (n : Nat) : Rnd := match n % 8 with | 0 => .rn | 1 => .rz | 2 => .ru | 3 => .rd | 4 => .rna | _ => .dyn
def satOf (n : Nat) : Sat := match n % 4 with | 0 => .nosat | 1 => .sat | 2 => .ftz | _ => .satftz
def icondOf (n : Nat) : ICond := match n with | 0 => .eq | 1 => .ne | 2 => .lt | 3 => .le | 4 => .gt | _ => .ge
def fcondOf (n : Nat) : FCond := match n with | 0 => .eq | 1 => .ne | 2 => .lt | 3 => .le | 4 => .gt | 5 => .ge | 6 => .un | _ => .ord
def pfunOf (n : Nat) : PFun := match n with | 0 => .and | 1 => .or | 2 => .xor | 3 => .andn | 4 => .orn | _ => .not
def lfunOf (n : Nat) : LFun := match n with | 0 => .add | 1 => .min | 2 => .max | 3 => .and | 4 => .or | _ => .xor
def ffmtOf (n : Nat) : FFmt :=
  match n with | 0 => .f32 | 1 => .f16 | 2 => .bf16 | 3 => .e5m2 | 4 => .e4m3 | 5 => .e3m2 | 6 => .e2m3 | 7 => .e2m1 | _ => .e8m0
def icodeOf (n : Nat) : ICode := match n with | 0 => .i32 | 1 => .u32 | 2 => .i16 | 3 => .u16 | 4 => .i8 | 5 => .u8 | 6 => .i4 | _ => .u4
def bfmtOf (n : Nat) : BFmt := match n with | 0 => .e5m2 | 1 => .e4m3 | 2 => .e3m2 | 3 => .e2m3 | 4 => .e2m1 | _ => .cb2
def spaceOf (n : Nat) : Space := match n % 4 with | 0 => .gl | 1 => .sp | 2 => .cl | _ => .pv
def sizeOf' (n : Nat) : Size := match n with | 0 => .b8 | 1 => .b16 | 2 => .b32 | 3 => .b64 | _ => .b128
def scopeOf (n : Nat) : Scope := match n with | 0 => .grp | 1 => .core | 2 => .clu | 3 => .die | 4 => .dev | _ => .sys
def ordOf (n : Nat) : MOrd := match n % 4 with | 0 => .rlx | 1 => .acq | 2 => .rel | _ => .ar
def aopOf (n : Nat) : AOp :=
  match n with | 0 => .add | 1 => .min | 2 => .max | 3 => .and | 4 => .or | 5 => .xor | 6 => .exch | 8 => .fadd | _ => .bfadd
def bspaceOf (n : Nat) : BSpace := match n % 4 with | 0 => .gl | 1 => .sp | _ => .tm
def imspaceOf (n : Nat) : ImSpace := match n % 4 with | 0 => .gl | 1 => .sp | _ => .cl
def csrcOf (n : Nat) : CSrc := match n % 4 with | 0 => .gl | 1 => .sp | 2 => .cl | _ => .tm
def cdstOf (n : Nat) : CDst := match n % 8 with | 0 => .dsp | 1 => .dcl | 2 => .dgl | _ => .dtm
def xmOf (x : Nat) : Xm := { scope := scopeOf (bits x 2 0), ord := ordOf (bits x 4 3), rmt := x.testBit 5, ofs := BitVec.ofNat 24 (x >>> 8) }

/-- The s register that an operand of class s names. -/
def sIx : Opnd → Fin 64
  | .s n => n
  | _ => 0
/-- The v register that an operand of class v names. -/
def vIx : Opnd → Fin 256
  | .v n => n
  | _ => 0

def Raw.im (r : Raw) : IMod := { ty := ityOf r.m, sat := r.m.testBit 3 }
def Raw.ty (r : Raw) : ITy := ityOf r.m
def Raw.fm (r : Raw) : FMod := { ty := ftyOf r.m, rnd := rndOf (r.m / 8), sat := satOf (r.m / 64) }
def Raw.rnd (r : Raw) : Rnd := rndOf (r.m / 8)
def Raw.fs (r : Raw) : Sat := satOf (r.m / 64)
def Raw.fty (r : Raw) : FTy := ftyOf r.m
def Raw.pd (r : Raw) : Fin 8 := Fin.ofNat 8 r.rd
def Raw.pa (r : Raw) : Fin 8 := Fin.ofNat 8 r.ra
def Raw.pb (r : Raw) : Fin 8 := Fin.ofNat 8 r.rb
def Raw.sd (r : Raw) : Fin 64 := sIx r.d
def Raw.sa (r : Raw) : Fin 64 := sIx r.a
def Raw.sb (r : Raw) : Fin 64 := sIx r.b
def Raw.ta (r : Raw) : Fin 256 := Fin.ofNat 256 r.x
def Raw.tb (r : Raw) : Fin 256 := Fin.ofNat 256 (r.x >>> 8)
def Raw.unit (r : Raw) : Nat := bits r.x 31 24
def Raw.imm (r : Raw) : Word := BitVec.ofNat 32 (r.x >>> 32)
def Raw.sp (r : Raw) : Space := spaceOf r.m
def Raw.sz (r : Raw) : Size := sizeOf' (bits r.m 4 2)
def Raw.oven (r : Raw) : OvenArgs :=
  { space := bspaceOf r.m, res := r.m.testBit 2, af := Fin.ofNat 12 r.unit, ta := r.ta, tb := r.tb, a := r.sa, b := r.sb,
    s := BitVec.ofNat 16 (r.x >>> 32), m := BitVec.ofNat 7 (r.x >>> 48), n := BitVec.ofNat 8 (r.x >>> 55) }

/-- The function and MOD of LSCAN and LRED (R298). -/
def Raw.lop (r : Raw) : LOp := if r.fn % 8 = 6 then .fadd r.rnd r.fs else .int (lfunOf (r.fn % 8)) r.im

/-- The instruction of a control, predicate or cross-lane opcode whose fields have passed the checks. -/
def buildCtl (opc : Nat) (r : Raw) : Option Instr :=
  match opc, r.fn with
  | 0x01, _ => some (.nop r.c)
  | 0x06, _ => some (.ret r.c)
  | 0x07, _ => some (.exit r.c)
  | 0x08, _ => some (.yield r.c)
  | 0x09, _ => some (.bkoff r.c r.a)
  | 0x0A, _ => some (.shape r.c (Fin.ofNat 4 r.m) r.sa)
  | 0x0B, _ => some (.spawn r.c (Fin.ofNat 4 r.m) r.a r.b)
  | 0x0C, _ => some (.elect r.c r.pd)
  | 0x0D, 0 => some (.voteAny r.c r.pd r.pa)
  | 0x0D, 1 => some (.voteAll r.c r.pd r.pa)
  | 0x0D, 2 => some (.voteUni r.c r.pd r.pa)
  | 0x0D, _ => some (.voteBallot r.c r.sd r.pa)
  | 0x0E, f => some (.getsr r.c (f == 1) (BitVec.ofNat 8 r.m) r.d)
  | 0x0F, f => some (.setsr r.c (f == 1) (BitVec.ofNat 8 r.m) r.a)
  | 0x28, f => some (.plop r.c (pfunOf f) r.pd r.pa r.pb)
  | 0x29, 0 => some (.pmovTom r.c r.sd r.pa)
  | 0x29, 1 => some (.pmovFrm r.c r.pd r.a)
  | 0x29, 2 => some (.pmovPad r.c r.pd)
  | 0x29, 3 => some (.pmovTov r.c r.d r.pa)
  | 0x29, _ => some (.pmovFrv r.c r.pd r.a)
  | 0x2A, 0 => some (.shflIdx r.c r.d r.a r.b)
  | 0x2A, 1 => some (.shflUp r.c r.d r.a r.b)
  | 0x2A, 2 => some (.shflDown r.c r.d r.a r.b)
  | 0x2A, _ => some (.shflXor r.c r.d r.a r.b)
  | _, _ => none

/-- The instruction of an integer opcode whose fields have passed the checks. -/
def buildInt (opc : Nat) (r : Raw) : Option Instr :=
  match opc, r.fn with
  | 0x10, _ => some (.iadd r.c r.im r.d r.a r.b)
  | 0x11, _ => some (.isub r.c r.im r.d r.a r.b)
  | 0x12, 0 => some (.imulLo r.c r.im r.d r.a r.b)
  | 0x12, _ => some (.imulHi r.c r.ty r.d r.a r.b)
  | 0x13, _ => some (.imad r.c r.im r.d r.a r.b r.cc)
  | 0x14, _ => some (.idiv r.c r.im r.d r.a r.b)
  | 0x15, _ => some (.irem r.c r.im r.d r.a r.b)
  | 0x16, _ => some (.imin r.c r.ty r.d r.a r.b)
  | 0x17, _ => some (.imax r.c r.ty r.d r.a r.b)
  | 0x18, _ => some (.iabs r.c r.im r.d r.a)
  | 0x19, _ => some (.and r.c r.ty r.d r.a r.b)
  | 0x1A, _ => some (.or r.c r.ty r.d r.a r.b)
  | 0x1B, _ => some (.xor r.c r.ty r.d r.a r.b)
  | 0x1C, _ => some (.not r.c r.ty r.d r.a)
  | 0x1D, _ => some (.shl r.c r.ty r.d r.a r.b)
  | 0x1E, _ => some (.shr r.c r.ty r.d r.a r.b)
  | 0x1F, _ => some (.sar r.c r.ty r.d r.a r.b)
  | 0x20, _ => some (.rot r.c r.ty r.d r.a r.b)
  | 0x21, _ => some (.bfx r.c r.ty r.d r.a r.b)
  | 0x22, _ => some (.bfi r.c r.ty r.d r.a r.b r.cc)
  | 0x23, 0 => some (.bcntPop r.c r.ty r.d r.a)
  | 0x23, 1 => some (.bcntClz r.c r.ty r.d r.a)
  | 0x23, _ => some (.bcntCtz r.c r.ty r.d r.a)
  | 0x24, _ => some (.icmp r.c r.ty (icondOf (r.m / 16)) r.pd r.a r.b)
  | 0x25, _ => some (.sel r.c r.ty (Fin.ofNat 8 (r.m / 16)) (r.m.testBit 7) r.d r.a r.b)
  | 0x26, _ => some (.lea r.c r.ty (Fin.ofNat 16 (r.m / 16)) r.d r.a r.b)
  | 0x27, _ => some (.mov r.c r.ty r.d r.a)
  | 0x2B, f => some (.lscan r.c r.lop (f.testBit 3) r.d r.a)
  | 0x2C, _ => some (.lred r.c r.lop r.d r.a)
  | _, _ => none

/-- The instruction of a floating-point or conversion opcode whose fields have passed the checks. -/
def buildFp (opc : Nat) (r : Raw) : Option Instr :=
  match opc, r.fn with
  | 0x30, _ => some (.fadd r.c r.fm r.d r.a r.b)
  | 0x31, _ => some (.fsub r.c r.fm r.d r.a r.b)
  | 0x32, _ => some (.fmul r.c r.fm r.d r.a r.b)
  | 0x33, _ => some (.ffma r.c r.fm r.d r.a r.b r.cc)
  | 0x34, _ => some (.fmin r.c r.fty r.fs r.d r.a r.b)
  | 0x35, _ => some (.fmax r.c r.fty r.fs r.d r.a r.b)
  | 0x36, 0 => some (.fabsAbs r.c r.fty r.fs r.d r.a)
  | 0x36, _ => some (.fabsNeg r.c r.fty r.fs r.d r.a)
  | 0x37, f => some (.fcmp r.c (fcondOf f) (r.m.testBit 7) r.pd r.a r.b)
  | 0x38, 0 => some (.fsfuRcp r.c r.fm r.d r.a)
  | 0x38, 1 => some (.fsfuRsqrt r.c r.fm r.d r.a)
  | 0x38, 2 => some (.fsfuSqrt r.c r.fm r.d r.a)
  | 0x38, 3 => some (.fsfuExp2 r.c r.fm r.d r.a)
  | 0x38, 4 => some (.fsfuLog2 r.c r.fm r.d r.a)
  | 0x38, 5 => some (.fsfuSinpi r.c r.fm r.d r.a)
  | 0x38, 6 => some (.fsfuCospi r.c r.fm r.d r.a)
  | 0x38, _ => some (.fsfuDiv r.c r.fm r.d r.a r.b)
  | 0x39, 0 => some (.fdotX2 r.c r.fm r.d r.a r.b r.cc)
  | 0x39, _ => some (.fdotX4 r.c r.fm r.d r.a r.b r.cc)
  | 0x3A, f => some (.fcvt r.c (ffmtOf (mTy r.m + 8 * (f / 16))) (ffmtOf (f % 16)) r.rnd r.fs r.d r.a)
  | 0x3B, f => some (.i2f r.c (ffmtOf (mTy r.m + 8 * (f / 16))) (icodeOf (f % 8)) r.rnd r.fs r.d r.a)
  | 0x3C, f => some (.f2i r.c (icodeOf (mTy r.m)) (ffmtOf f) r.rnd (r.m.testBit 7) r.d r.a)
  | 0x3D, 0 => some (.fclassMask r.c r.fty r.d r.a)
  | 0x3D, _ => some (.fclassTest r.c r.fty r.pd r.a r.b)
  | 0x3E, 0 => some (.flagsTest r.c (BitVec.ofNat 5 r.m) r.pd)
  | 0x3E, 1 => some (.flagsClr r.c (BitVec.ofNat 5 r.m))
  | 0x3E, 2 => some (.flagsSet r.c (BitVec.ofNat 5 r.m))
  | 0x3E, _ => some (.flagsGor r.c r.sd)
  | 0x3F, f => some (.fpack r.c (bfmtOf f) r.rnd (r.m.testBit 6) r.d r.a r.sb)
  | 0x40, f => some (.funpk r.c (bfmtOf f) r.rnd r.fs r.d r.a r.b)
  | _, _ => none

/-- The instruction of a memory opcode whose fields have passed the checks. -/
def buildMem (opc : Nat) (r : Raw) : Option Instr :=
  let x := xmOf r.xm
  match opc, r.fn with
  | 0x48, _ => some (.ld r.c r.sp r.sz (r.m.testBit 5) x r.d r.a)
  | 0x49, _ => some (.st r.c r.sp r.sz x r.a r.b)
  | 0x4A, _ => some (.ldf r.c (r.m.testBit 5) x.ofs r.d r.a)
  | 0x4B, _ => some (.ste r.c x.ofs r.a r.b)
  | 0x4C, _ => some (.tag r.c r.sz (r.m.testBit 5) x.ofs r.a)
  | 0x4D, 7 => some (.atomCas r.c r.sp r.sz x r.d r.a r.b r.cc)
  | 0x4D, f => some (.atom r.c (aopOf f) r.sp r.sz (r.m.testBit 5) x r.d r.a r.b)
  | 0x4E, f => some (.red r.c (aopOf f) r.sp r.sz (r.m.testBit 5) x r.a r.b)
  | 0x4F, _ => some (.fence r.c x.scope x.ord x.rmt)
  | 0x50, _ => some (.swinit r.c r.sp x r.a r.b r.cc)
  | 0x51, _ => if r.m.testBit 5 then some (.swarrGen r.c r.sp x r.a r.b r.cc) else some (.swarrAny r.c r.sp x r.a r.b)
  | 0x52, _ => some (.swwait r.c r.sp x r.a r.b)
  | 0x53, _ => some (.fetch r.c r.ta r.sa r.sb r.imm)
  | 0x54, _ => some (.copy r.c (csrcOf r.m) (cdstOf (r.m / 32)) x.ofs r.sa r.sb (sIx r.cc))
  | 0x55, _ => some (.copyl r.c r.sa r.sb)
  | 0x56, 0 => some (.residPin r.c x.ofs r.sa r.sb)
  | 0x56, 1 => some (.residRel r.c r.sb)
  | 0x56, _ => some (.residStat r.c r.sd r.sb)
  | 0x57, 0 => some (.qctlOcc r.c (Fin.ofNat 8 (r.m / 32)) r.d)
  | 0x57, 1 => some (.qctlPerm r.c (Fin.ofNat 8 (r.m / 32)) r.d)
  | 0x57, _ => some (.qctlReset r.c (Fin.ofNat 8 (r.m / 32)))
  | 0x58, _ => some (.spill r.c (vIx r.b) r.a)
  | 0x59, _ => some (.fill r.c (vIx r.d) r.a)
  | 0x5A, _ => some (.pref r.c x.ofs r.a)
  | 0x5B, _ => some (.mfence r.c)
  | _, _ => none

/-- The instruction of an oven opcode whose fields have passed the checks. -/
def buildOven (opc : Nat) (r : Raw) : Option Instr :=
  let bk : Fin 12 := Fin.ofNat 12 r.unit
  match opc, r.fn with
  | 0x60, _ => some (.rkld r.c (bspaceOf r.m) (r.m.testBit 2) r.ta r.sa r.sb)
  | 0x61, _ => if r.m.testBit 0 then some (.rkswDrop r.c) else some (.rkswKeep r.c)
  | 0x62, _ => some (.mmul r.c r.oven)
  | 0x63, _ => some (.mtopk r.c r.oven (r.m.testBit 3))
  | 0x64, _ =>
    let s := BitVec.ofNat 16 (r.x >>> 32)
    let n := BitVec.ofNat 8 (r.x >>> 48)
    if r.m.testBit 0 then some (.mnormB r.c (bspaceOf (r.m / 2)) r.ta r.sa r.sb s n)
    else some (.mnormA r.c (bspaceOf (r.m / 2)) r.ta r.tb r.sa r.sb s n)
  | 0x65, 0 => some (.aalloc r.c bk)
  | 0x65, _ => some (.aallocAny r.c r.sa)
  | 0x66, _ => some (.afree r.c bk)
  | 0x67, _ => some (.aband r.c r.sa r.sb)
  | 0x68, 0 => some (.adrainNone r.c (bspaceOf r.m) (r.m.testBit 2) r.rnd r.fs r.ta r.sa r.sb)
  | 0x68, 1 => some (.adrainP24 r.c (bspaceOf r.m) (r.m.testBit 2) r.rnd r.fs r.ta r.sa r.sb)
  | 0x68, _ => some (.adrainP48 r.c (bspaceOf r.m) (r.m.testBit 2) r.rnd r.fs r.ta r.sa r.sb)
  | 0x69, _ => some (.aload r.c (r.m.testBit 0) (r.m.testBit 1) bk r.sa)
  | 0x6A, _ => some (.azero r.c bk)
  | 0x6B, _ => some (.wrd r.c r.sa (Fin.ofNat 96 r.unit) (BitVec.ofNat 7 (r.x >>> 32)))
  | 0x6C, _ => some (.wmerge r.c (Fin.ofNat 96 r.unit) r.sa r.sb)
  | 0x6D, _ => if r.m.testBit 0 then some (.selkExp r.c r.sa r.sb r.imm) else some (.selkSum r.c r.sa r.sb r.imm)
  | 0x6E, _ => some (.sortr r.c (r.m.testBit 0) r.sa r.sb r.imm)
  | 0x6F, _ => some (.astat r.c r.d bk)
  | _, _ => none

/-- The instruction of a tensor, sifter, peel, reduce or system opcode whose fields have passed the checks. -/
def buildSys (opc : Nat) (r : Raw) : Option Instr :=
  let cu : Fin 4 := Fin.ofNat 4 r.unit
  let m8 : BitVec 8 := BitVec.ofNat 8 r.m
  match opc, r.fn with
  | 0x70, 0 => some (.tidsetSet r.c (imspaceOf r.m) r.ta r.sa)
  | 0x70, _ => some (.tidsetClr r.c (imspaceOf r.m) r.ta)
  | 0x71, _ => some (.tidget r.c (imspaceOf r.m) r.ta r.sa)
  | 0x72, 0 => some (.cxdefOne r.c cu r.ta r.sa)
  | 0x72, 1 => some (.cxdefAnd r.c cu r.ta r.tb r.sa)
  | 0x72, _ => some (.cxdefOr r.c cu r.ta r.tb r.sa)
  | 0x73, _ => some (.cxfill r.c cu (vIx r.d) (BitVec.ofNat 16 r.x) (BitVec.ofNat 32 (r.x >>> 32)))
  | 0x74, _ => some (.cxsplit r.c cu r.sa r.sb)
  | 0x75, 0 => some (.cxcurSave r.c cu r.sa)
  | 0x75, 1 => some (.cxcurLoad r.c cu r.sa)
  | 0x75, 2 => some (.cxcurInfo r.c cu r.sd)
  | 0x75, _ => some (.cxcurDrop r.c cu)
  | 0x76, _ => some (.walkdef r.c (Fin.ofNat 16 r.m) (imspaceOf (r.m / 16)) r.sa)
  | 0x77, _ => some (.walk r.c (Fin.ofNat 16 r.m) r.a r.b r.cc r.imm)
  | 0x78, _ => some (.ired r.c (r.m.testBit 0) (r.m.testBit 1) r.ta r.a r.b r.imm)
  | 0x79, _ => some (.engwait r.c m8)
  | 0x7A, _ => some (.plev r.c r.a)
  | 0x7C, _ => some (.trap r.c m8)
  | 0x7D, _ => some (.rft r.c)
  | 0x7E, 0 => some (.sysRd r.c m8 r.sd)
  | 0x7E, _ => some (.sysWr r.c m8 r.a)
  | 0x7F, _ => some (.brk r.c)
  | _, _ => none

/-- The instruction whose fields have passed the checks. -/
def build (opc : Nat) (r : Raw) : Option Instr :=
  if opc < 0x10 then buildCtl opc r
  else if opc < 0x28 then buildInt opc r
  else if opc < 0x2B then buildCtl opc r
  else if opc < 0x30 then buildInt opc r
  else if opc < 0x48 then buildFp opc r
  else if opc < 0x60 then buildMem opc r
  else if opc < 0x70 then buildOven opc r
  else buildSys opc r

/-- The control bits of word 0 (R106). -/
def ctlOf (len : Len) (w : Nat) : Ctl :=
  { len := len, stl := Fin.ofNat 16 (w >>> 9), sbw := w.testBit 13, nf := w.testBit 14, pg := Fin.ofNat 8 (w >>> 15), pn := w.testBit 18,
    q := w.testBit 19 }

/-- The fields of an encoded instruction: control bits, opcode, FN, MOD, D, A, B and the extension (R106, R111). -/
structure Enc where
  c   : Ctl
  opc : Nat
  fn  : Nat := 0
  m   : Nat := 0
  d   : Nat := 0
  a   : Nat := 0
  b   : Nat := 0
  x   : Nat := 0

/-- The C field of an extension (R111). -/
def Enc.cF (e : Enc) (lay : Lay) : Nat := if lay == .xmc then bits e.x 41 32 else bits e.x 9 0

/-- Whether a layout has a C field. -/
def Lay.hasC (lay : Lay) : Bool := lay == .xc || lay == .xci || lay == .xmc

/-- Whether an opcode stands in the oven chapter, where a set field of word 0 that the form does not use is a wrong operand (R346). -/
def ovenOpc (opc : Nat) : Bool := 0x60 ≤ opc && opc < 0x70

/-- Checks 7 to 9 of R119. -/
def checkForm (f : Form) (lay : Lay) (e : Enc) : Option Nat :=
  let c := e.c
  let x := e.x
  let xmUsed := lay == .xm || lay == .xmc
  let xtUsed := lay == .xt || lay == .xti
  if f.modBad || (xmUsed && xmBad f.xm x) then some 4
  else if f.modRes || extRes lay x || (c.nf && !f.nf)
      || (!ovenOpc e.opc && ((!f.d.used && e.d != 0) || (!f.a.used && e.a != 0) || (!f.b.used && e.b != 0))) || (lay.hasC && !f.c.used && e.cF lay != 0) || (xmUsed && !f.xm.ofs && bits x 31 8 != 0)
      || (xtUsed && xtRes f.xt (e.opc ≥ 0x70) x) || (f.pg7 && (c.pg != 7 || c.pn)) then some 5
  else if c.q && !f.q then some 8
  else none

/-- The layout in effect: XM gives way to XI when a specifier holds 0x1FF (R322). -/
def layOf (f : Form) (e : Enc) : Option Lay :=
  let ls := (f.lays.filter (fun l => decide (l.1 = e.c.len))).map (·.2)
  let has := e.d == 0x1FF || e.a == 0x1FF || e.b == 0x1FF
  match ls with
  | [] => none
  | [l] => some l
  | l :: r => if has && (l :: r).contains .xi then some .xi else some l

/-- At most one field holds 0x1FF (R109): the field of the second one. -/
def secondImm (e : Enc) (lay : Lay) : Option Nat :=
  let ix := [(0, e.d), (1, e.a), (2, e.b)] ++ (if lay.hasC then [(3, e.cF lay)] else [])
  match ix.filter (fun e => e.2 == 0x1FF) with
  | _ :: e :: _ => some e.1
  | _ => none

/-- XM defaults of a form when no XM extension is there (R322): SWWAIT's is an acquire at core (R333). -/
def xmDefault (opc : Nat) : Nat := if opc = 0x52 then 0x09 else if opc = 0x54 ∨ opc = 0x56 then 0xFFFFFF00 else 0

/-- The XM fields in effect (R322). -/
def Enc.xm (e : Enc) (lay : Lay) : Nat := if lay == .xm || lay == .xmc then bits e.x 31 0 else xmDefault e.opc

/-- One specifier field under its class, with its number for SUB (R108, R109, R346). XL's immediate is A's alone (R293, R294). -/
def field (e : Enc) (lay : Lay) (cl : Cls) (n sub : Nat) : Except DecErr Opnd :=
  if secondImm e lay = some sub || (!cl.used && n != 0) || (n == 0x1FF && lay == .xl && sub != 1) then .error (.operand sub) else
  match opnd cl (immOf lay e.x) n with
  | some o => .ok o
  | none => .error (.operand sub)

/-- The fields as the instruction takes them. -/
def Enc.raw (e : Enc) (lay : Lay) (d a b cc : Opnd) : Raw :=
  { c := e.c, fn := e.fn, m := e.m, rd := e.d, ra := e.a, rb := e.b, d := d, a := a, b := b, cc := cc, x := e.x, xm := e.xm lay }

/-- Check 10 of R119 on the specifiers and the fields of the extension, then the instruction. -/
def operands (f : Form) (lay : Lay) (e : Enc) : Except DecErr Instr :=
  match field e lay f.d e.d 0, field e lay f.a e.a 1, field e lay f.b e.b 2, (if lay.hasC then field e lay f.c (e.cF lay) 3 else .ok (.v 0)) with
  | .error e, _, _, _ => .error e
  | _, .error e, _, _ => .error e
  | _, _, .error e, _ => .error e
  | _, _, _, .error e => .error e
  | .ok d, .ok a, .ok b, .ok cc =>
    if (lay == .xt || lay == .xti) && xtUnit f.xt e.x then .error (.operand 4)
    else if lay == .xti && (e.x >>> 32) &&& (0xFFFFFFFF - f.xt.imm) != 0 then .error (.operand 4)
    else match build e.opc (e.raw lay d a b cc) with
      | some i => .ok i
      | none => .error (.illegal 3)

/-- Checks 5 to 10 of R119 on the fields of an instruction that is no direct branch. -/
def decodeFields (e : Enc) : Except DecErr Instr :=
  match form e.opc e.fn e.m with
  | none => .error (.illegal 3)
  | some f => match layOf f e with
    | none => .error (.illegal 6)
    | some lay => match checkForm f lay e with
      | some cause => .error (.illegal cause)
      | none => operands f lay e

/-- The fields of word 0 (w) and an extension (x) (R106). -/
def split (len : Len) (w x : Nat) : Enc :=
  { c := ctlOf len w, opc := bits w 8 2, fn := bits w 55 50, m := bits w 63 56, d := bits w 29 20, a := bits w 39 30, b := bits w 49 40, x := x }

/-- Direct branches and JMPI, which have layouts of their own (R107). -/
def decodeBranch (opc : Nat) (len : Len) (w x : Nat) : Except DecErr Instr :=
  let c := ctlOf len w
  let far := len == .w128
  let res := (opc = 3 ∧ far ∧ bits w 63 24 ≠ 0) ∨ (opc = 5 ∧ far ∧ bits w 63 20 ≠ 0) ∨ (opc = 4 ∧ (bits w 47 40 ≠ 0 ∨ bits w 29 20 ≠ 0))
  if c.nf = true ∨ res then .error (.illegal 5)
  else if c.q then .error (.illegal 8)
  else
    let p1 := BitVec.ofNat 16 (w >>> 32)
    let p2 := BitVec.ofNat 16 (w >>> 48)
    let x1 := BitVec.ofNat 16 (x >>> 32)
    let x2 := BitVec.ofNat 16 (x >>> 48)
    match opc with
    | 2 => .ok (.bra c (BitVec.ofNat 28 (w >>> 20)) p2)
    | 3 => if far then .ok (.brcFar c (Fin.ofNat 8 (w >>> 20)) (w.testBit 23) (BitVec.ofNat 32 x) x1 x2)
           else .ok (.brcNear c (Fin.ofNat 8 (w >>> 20)) (w.testBit 23) (BitVec.ofNat 8 (w >>> 24)) p1 p2)
    | 5 => if far then .ok (.callFar c (BitVec.ofNat 32 x) x1 x2) else .ok (.callNear c (BitVec.ofNat 12 (w >>> 20)) p1 p2)
    | _ => match opnd Cls.rn none (bits w 39 30) with
      | some a => .ok (.jmpi c a p2)
      | none => .error (.operand 1)

/-- LEN of the first 32-bit word (R102); none is PAD. -/
def lenOf (w : Nat) : Option Len := match w % 4 with | 0 => some .w64 | 1 => some .w96 | 2 => some .w128 | _ => none

/-- Bytes of an instruction of a length. -/
def Len.bytes : Len → Nat
  | .w64 => 8
  | .w96 => 12
  | .w128 => 16

/-- Decodes the instruction whose bits are the low bits of x, bit 0 first (R102 to R119). -/
def decodeBits (z : Nat) : Except DecErr Instr :=
  match lenOf z with
  | none => if bits z 31 2 = 0 then .ok .pad else .error (.illegal 5)
  | some len =>
    let w := z % 2 ^ 64
    let x := bits (z >>> 64) (8 * len.bytes - 65) 0
    let x := if len = .w64 then 0 else x
    let opc := bits w 8 2
    if opc = 0 then .error (.illegal 1)
    else if !opcOk opc then .error (.illegal 2)
    else if !(opcLens opc).contains len then .error (.illegal 6)
    else if 2 ≤ opc ∧ opc ≤ 5 then decodeBranch opc len w x
    else decodeFields (split len w x)

/-- Decodes from bytes, the lowest address first (R5); bytes that are not there read 0. -/
def decode (bs : List Byte) : Except DecErr Instr := decodeBits (fromLE (bs.take 16))

/-- What the host asks of the decoder: the instruction read from an instruction whose bits are w. -/
def decodeTableWord (nbits w : Nat) : Option Instr :=
  match decode (toLE 16 (w % 2 ^ nbits)) with
  | .ok i => some i
  | .error _ => none

/-- The specifier of an operand (R108). -/
def specOf : Opnd → Nat
  | .v n => n.val
  | .s n => 0x100 + n.val
  | .o n => 0x140 + n.val
  | .q n => 0x148 + n.val
  | .k n => 0x150 + n.val
  | .h n => 0x180 + n.val
  | .imm32 _ => 0x1FF
  | .imm64 _ => 0x1FF

/-- The immediate among some operands (R109). -/
def immIn : List Opnd → Nat
  | [] => 0
  | .imm32 w :: _ => w.toNat
  | .imm64 w :: _ => w.toNat
  | _ :: r => immIn r

/-- Whether some operand is an immediate. -/
def hasImm : List Opnd → Bool
  | [] => false
  | .imm32 _ :: _ => true
  | .imm64 _ :: _ => true
  | _ :: r => hasImm r

/-- Codes of the MOD slots (R112 to R114), of functions and of formats. -/
def ityCode : ITy → Nat | .i32 => 0 | .u32 => 1 | .i64 => 2 | .u64 => 3 | .i16x2 => 4 | .i8x4 => 5
def ftyCode : FTy → Nat | .f32 => 0 | .f16 => 1 | .bf16 => 2
def rndCode : Rnd → Nat | .rn => 0 | .rz => 1 | .ru => 2 | .rd => 3 | .rna => 4 | .dyn => 5
def satCode : Sat → Nat | .nosat => 0 | .sat => 1 | .ftz => 2 | .satftz => 3
def icondCode : ICond → Nat | .eq => 0 | .ne => 1 | .lt => 2 | .le => 3 | .gt => 4 | .ge => 5
def fcondCode : FCond → Nat | .eq => 0 | .ne => 1 | .lt => 2 | .le => 3 | .gt => 4 | .ge => 5 | .un => 6 | .ord => 7
def pfunCode : PFun → Nat | .and => 0 | .or => 1 | .xor => 2 | .andn => 3 | .orn => 4 | .not => 5
def lfunCode : LFun → Nat | .add => 0 | .min => 1 | .max => 2 | .and => 3 | .or => 4 | .xor => 5
def ffmtCode : FFmt → Nat | .f32 => 0 | .f16 => 1 | .bf16 => 2 | .e5m2 => 3 | .e4m3 => 4 | .e3m2 => 5 | .e2m3 => 6 | .e2m1 => 7 | .e8m0 => 8
def icodeCode : ICode → Nat | .i32 => 0 | .u32 => 1 | .i16 => 2 | .u16 => 3 | .i8 => 4 | .u8 => 5 | .i4 => 6 | .u4 => 7
def bfmtCode : BFmt → Nat | .e5m2 => 0 | .e4m3 => 1 | .e3m2 => 2 | .e2m3 => 3 | .e2m1 => 4 | .cb2 => 5
def spaceCode : Space → Nat | .gl => 0 | .sp => 1 | .cl => 2 | .pv => 3
def sizeCode : Size → Nat | .b8 => 0 | .b16 => 1 | .b32 => 2 | .b64 => 3 | .b128 => 4
def scopeCode : Scope → Nat | .grp => 0 | .core => 1 | .clu => 2 | .die => 3 | .dev => 4 | .sys => 5
def ordCode : MOrd → Nat | .rlx => 0 | .acq => 1 | .rel => 2 | .ar => 3
def aopCode : AOp → Nat | .add => 0 | .min => 1 | .max => 2 | .and => 3 | .or => 4 | .xor => 5 | .exch => 6 | .fadd => 8 | .bfadd => 9
def bspaceCode : BSpace → Nat | .gl => 0 | .sp => 1 | .tm => 3
def imspaceCode : ImSpace → Nat | .gl => 0 | .sp => 1 | .cl => 2
def csrcCode : CSrc → Nat | .gl => 0 | .sp => 1 | .cl => 2 | .tm => 3
def cdstCode : CDst → Nat | .dsp => 0 | .dcl => 1 | .dgl => 2 | .dtm => 3
def imodCode (m : IMod) : Nat := ityCode m.ty + 8 * m.sat.toNat
def fmodCode (m : FMod) : Nat := ftyCode m.ty + 8 * rndCode m.rnd + 64 * satCode m.sat
def lopFn (f : LOp) : Nat := match f with | .int f _ => lfunCode f | .fadd _ _ => 6
def lopMod (f : LOp) : Nat := match f with | .int _ m => imodCode m | .fadd r s => 8 * rndCode r + 64 * satCode s
def xmCode (x : Xm) : Nat := scopeCode x.scope + 8 * ordCode x.ord + 32 * x.rmt.toNat + 256 * x.ofs.toNat

/-- Code of LEN (R102). -/
def lenCode : Len → Nat | .w64 => 0 | .w96 => 1 | .w128 => 2

/-- Bits [19:0] of word 0 (R106). -/
def ctlBits (c : Ctl) (opc : Nat) : Nat :=
  lenCode c.len + 2 ^ 2 * opc + 2 ^ 9 * c.stl.val + 2 ^ 13 * c.sbw.toNat + 2 ^ 14 * c.nf.toNat + 2 ^ 15 * c.pg.val + 2 ^ 18 * c.pn.toNat
    + 2 ^ 19 * c.q.toNat

/-- The bits of an encoded instruction. -/
def Enc.bits (e : Enc) : Nat :=
  ctlBits e.c e.opc + 2 ^ 20 * e.d + 2 ^ 30 * e.a + 2 ^ 40 * e.b + 2 ^ 50 * e.fn + 2 ^ 56 * e.m + 2 ^ 64 * e.x

/-- Extension of a form without C: XI or XL (R111). -/
def xI (os : List Opnd) : Nat := immIn os
/-- Extension of a form with C: XC or XCI. -/
def xC (cc : Opnd) (os : List Opnd) : Nat := specOf cc + 2 ^ 32 * immIn (cc :: os)
/-- Extension of a memory form: none, XM or XI (R322). -/
def xM (c : Ctl) (x : Xm) (os : List Opnd) : Nat := if c.len = .w64 then 0 else if hasImm os then immIn os else xmCode x
/-- Extension XMC. -/
def xMC (x : Xm) (cc : Opnd) : Nat := xmCode x + 2 ^ 32 * specOf cc
/-- Extension XM of a form that uses only OFS. -/
def xO (c : Ctl) (ofs : BitVec 24) : Nat := if c.len = .w64 then 0 else 256 * ofs.toNat
/-- Extension XT with TA, TB and UNIT. -/
def xT (ta tb unit : Nat) : Nat := ta + 2 ^ 8 * tb + 2 ^ 24 * unit

/-- Encoding of the integer forms D, A and B. -/
def encI (c : Ctl) (opc m : Nat) (d a b : Opnd) (fn : Nat := 0) : Enc :=
  { c := c, opc := opc, fn := fn, m := m, d := specOf d, a := specOf a, b := specOf b, x := xI [a, b] }
/-- Encoding of the forms with D and A only. -/
def encU (c : Ctl) (opc m : Nat) (d a : Opnd) (fn : Nat := 0) : Enc :=
  { c := c, opc := opc, fn := fn, m := m, d := specOf d, a := specOf a, x := xI [a] }
/-- Encoding of the forms with a third source. -/
def encC (c : Ctl) (opc m : Nat) (d a b cc : Opnd) (fn : Nat := 0) : Enc :=
  { c := c, opc := opc, fn := fn, m := m, d := specOf d, a := specOf a, b := specOf b, x := xC cc [a, b] }
/-- Encoding of MMUL and MTOPK (R352, R354). -/
def encOven (c : Ctl) (opc extra : Nat) (o : OvenArgs) : Enc :=
  { c := c, opc := opc, m := bspaceCode o.space + 4 * o.res.toNat + extra, a := 0x100 + o.a.val, b := 0x100 + o.b.val, x := xT o.ta.val o.tb.val o.af.val + 2 ^ 32 * (o.s.toNat + 2 ^ 16 * o.m.toNat + 2 ^ 23 * o.n.toNat) }
/-- Encoding of ADRAIN (R360). -/
def encDrain (c : Ctl) (fn : Nat) (sp : BSpace) (mx : Bool) (rnd : Rnd) (sat : Sat) (ta : Fin 256) (a b : Fin 64) : Enc :=
  { c := c, opc := 0x68, fn := fn, m := bspaceCode sp + 4 * mx.toNat + 8 * rndCode rnd + 64 * satCode sat, a := 0x100 + a.val, b := 0x100 + b.val, x := ta.val }

/-- The fields of an instruction of the control, integer, predicate and cross-lane chapters. -/
def enc1 : Instr → Option Enc
  | .nop c => some { c := c, opc := 0x01 }
  | .jmpi c a p1 => some { c := c, opc := 0x04, a := specOf a, m := p1.toNat / 256, fn := bits p1.toNat 7 2, b := 2 ^ 8 * (p1.toNat % 4) }
  | .ret c => some { c := c, opc := 0x06 }
  | .exit c => some { c := c, opc := 0x07 }
  | .yield c => some { c := c, opc := 0x08 }
  | .bkoff c a => some { c := c, opc := 0x09, a := specOf a, x := xI [a] }
  | .shape c n a => some { c := c, opc := 0x0A, m := n.val, a := 0x100 + a.val }
  | .spawn c e a b => some { c := c, opc := 0x0B, m := e.val, a := specOf a, b := specOf b, x := xI [a, b] }
  | .elect c d => some { c := c, opc := 0x0C, d := d.val }
  | .voteAny c d a => some { c := c, opc := 0x0D, d := d.val, a := a.val }
  | .voteAll c d a => some { c := c, opc := 0x0D, fn := 1, d := d.val, a := a.val }
  | .voteUni c d a => some { c := c, opc := 0x0D, fn := 2, d := d.val, a := a.val }
  | .voteBallot c d a => some { c := c, opc := 0x0D, fn := 3, d := 0x100 + d.val, a := a.val }
  | .getsr c hi num d => some { c := c, opc := 0x0E, fn := hi.toNat, m := num.toNat, d := specOf d }
  | .setsr c hi num a => some { c := c, opc := 0x0F, fn := hi.toNat, m := num.toNat, a := specOf a, x := xI [a] }
  | .iadd c m d a b => some (encI c 0x10 (imodCode m) d a b)
  | .isub c m d a b => some (encI c 0x11 (imodCode m) d a b)
  | .imulLo c m d a b => some (encI c 0x12 (imodCode m) d a b)
  | .imulHi c ty d a b => some (encI c 0x12 (ityCode ty) d a b 1)
  | .imad c m d a b cc => some (encC c 0x13 (imodCode m) d a b cc)
  | .idiv c m d a b => some (encI c 0x14 (imodCode m) d a b)
  | .irem c m d a b => some (encI c 0x15 (imodCode m) d a b)
  | .imin c ty d a b => some (encI c 0x16 (ityCode ty) d a b)
  | .imax c ty d a b => some (encI c 0x17 (ityCode ty) d a b)
  | .iabs c m d a => some (encU c 0x18 (imodCode m) d a)
  | .and c ty d a b => some (encI c 0x19 (ityCode ty) d a b)
  | .or c ty d a b => some (encI c 0x1A (ityCode ty) d a b)
  | .xor c ty d a b => some (encI c 0x1B (ityCode ty) d a b)
  | .not c ty d a => some (encU c 0x1C (ityCode ty) d a)
  | .shl c ty d a b => some (encI c 0x1D (ityCode ty) d a b)
  | .shr c ty d a b => some (encI c 0x1E (ityCode ty) d a b)
  | .sar c ty d a b => some (encI c 0x1F (ityCode ty) d a b)
  | .rot c ty d a b => some (encI c 0x20 (ityCode ty) d a b)
  | .bfx c ty d a b => some (encI c 0x21 (ityCode ty) d a b)
  | .bfi c ty d a b cc => some (encC c 0x22 (ityCode ty) d a b cc)
  | .bcntPop c ty d a => some (encU c 0x23 (ityCode ty) d a)
  | .bcntClz c ty d a => some (encU c 0x23 (ityCode ty) d a 1)
  | .bcntCtz c ty d a => some (encU c 0x23 (ityCode ty) d a 2)
  | .icmp c ty cond d a b => some { c := c, opc := 0x24, m := ityCode ty + 16 * icondCode cond, d := d.val, a := specOf a, b := specOf b, x := xI [a, b] }
  | .sel c ty p neg d a b => some (encI c 0x25 (ityCode ty + 16 * p.val + 128 * neg.toNat) d a b)
  | .lea c ty sh d a b => some (encI c 0x26 (ityCode ty + 16 * sh.val) d a b)
  | .mov c ty d a => some (encU c 0x27 (ityCode ty) d a)
  | .plop c f d a b => some { c := c, opc := 0x28, fn := pfunCode f, d := d.val, a := a.val, b := b.val }
  | .pmovTom c d a => some { c := c, opc := 0x29, d := 0x100 + d.val, a := a.val }
  | .pmovFrm c d a => some { c := c, opc := 0x29, fn := 1, d := d.val, a := specOf a, x := xI [a] }
  | .pmovPad c d => some { c := c, opc := 0x29, fn := 2, d := d.val }
  | .pmovTov c d a => some { c := c, opc := 0x29, fn := 3, d := specOf d, a := a.val }
  | .pmovFrv c d a => some { c := c, opc := 0x29, fn := 4, d := d.val, a := specOf a, x := xI [a] }
  | .shflIdx c d a b => some (encI c 0x2A 0 d a b)
  | .shflUp c d a b => some (encI c 0x2A 0 d a b 1)
  | .shflDown c d a b => some (encI c 0x2A 0 d a b 2)
  | .shflXor c d a b => some (encI c 0x2A 0 d a b 3)
  | .lscan c op exc d a => some (encU c 0x2B (lopMod op) d a (lopFn op + 8 * exc.toNat))
  | .lred c op d a => some (encU c 0x2C (lopMod op) d a (lopFn op))
  | _ => none

/-- The fields of an instruction of the floating-point chapter. -/
def enc2 : Instr → Option Enc
  | .fadd c m d a b => some (encI c 0x30 (fmodCode m) d a b)
  | .fsub c m d a b => some (encI c 0x31 (fmodCode m) d a b)
  | .fmul c m d a b => some (encI c 0x32 (fmodCode m) d a b)
  | .ffma c m d a b cc => some (encC c 0x33 (fmodCode m) d a b cc)
  | .fmin c ty sat d a b => some (encI c 0x34 (ftyCode ty + 64 * satCode sat) d a b)
  | .fmax c ty sat d a b => some (encI c 0x35 (ftyCode ty + 64 * satCode sat) d a b)
  | .fabsAbs c ty sat d a => some (encU c 0x36 (ftyCode ty + 64 * satCode sat) d a)
  | .fabsNeg c ty sat d a => some (encU c 0x36 (ftyCode ty + 64 * satCode sat) d a 1)
  | .fcmp c cond ftz d a b => some { c := c, opc := 0x37, fn := fcondCode cond, m := 128 * ftz.toNat, d := d.val, a := specOf a, b := specOf b, x := xI [a, b] }
  | .fsfuRcp c m d a => some (encU c 0x38 (fmodCode m) d a)
  | .fsfuRsqrt c m d a => some (encU c 0x38 (fmodCode m) d a 1)
  | .fsfuSqrt c m d a => some (encU c 0x38 (fmodCode m) d a 2)
  | .fsfuExp2 c m d a => some (encU c 0x38 (fmodCode m) d a 3)
  | .fsfuLog2 c m d a => some (encU c 0x38 (fmodCode m) d a 4)
  | .fsfuSinpi c m d a => some (encU c 0x38 (fmodCode m) d a 5)
  | .fsfuCospi c m d a => some (encU c 0x38 (fmodCode m) d a 6)
  | .fsfuDiv c m d a b => some (encI c 0x38 (fmodCode m) d a b 7)
  | .fdotX2 c m d a b cc => some (encC c 0x39 (fmodCode m) d a b cc)
  | .fdotX4 c m d a b cc => some (encC c 0x39 (fmodCode m) d a b cc 1)
  | .fcvt c dst src rnd sat d a => some (encU c 0x3A (ffmtCode dst % 8 + 8 * rndCode rnd + 64 * satCode sat) d a (ffmtCode src + 16 * (ffmtCode dst / 8)))
  | .i2f c dst src rnd sat d a => some (encU c 0x3B (ffmtCode dst % 8 + 8 * rndCode rnd + 64 * satCode sat) d a (icodeCode src + 16 * (ffmtCode dst / 8)))
  | .f2i c dst src rnd ftz d a => some (encU c 0x3C (icodeCode dst + 8 * rndCode rnd + 128 * ftz.toNat) d a (ffmtCode src))
  | .fclassMask c ty d a => some (encU c 0x3D (ftyCode ty) d a)
  | .fclassTest c ty d a b => some { c := c, opc := 0x3D, fn := 1, m := ftyCode ty, d := d.val, a := specOf a, b := specOf b, x := xI [a, b] }
  | .flagsTest c mask d => some { c := c, opc := 0x3E, m := mask.toNat, d := d.val }
  | .flagsClr c mask => some { c := c, opc := 0x3E, fn := 1, m := mask.toNat }
  | .flagsSet c mask => some { c := c, opc := 0x3E, fn := 2, m := mask.toNat }
  | .flagsGor c d => some { c := c, opc := 0x3E, fn := 3, d := 0x100 + d.val }
  | .fpack c f rnd ftz d a b => some { encU c 0x3F (8 * rndCode rnd + 64 * ftz.toNat) d a (bfmtCode f) with b := 0x100 + b.val }
  | .funpk c f rnd sat d a b => some (encI c 0x40 (8 * rndCode rnd + 64 * satCode sat) d a b (bfmtCode f))
  | _ => none

/-- The fields of an instruction of the memory chapter. -/
def enc3 : Instr → Option Enc
  | .ld c sp sz sx x d a => some { c := c, opc := 0x48, m := spaceCode sp + 4 * sizeCode sz + 32 * sx.toNat, d := specOf d, a := specOf a, x := xM c x [] }
  | .st c sp sz x a b => some { c := c, opc := 0x49, m := spaceCode sp + 4 * sizeCode sz, a := specOf a, b := specOf b, x := xM c x [a, b] }
  | .ldf c clr ofs d a => some { c := c, opc := 0x4A, m := 9 + 32 * clr.toNat, d := specOf d, a := specOf a, x := xO c ofs }
  | .ste c ofs a b => some { c := c, opc := 0x4B, m := 9, a := specOf a, b := specOf b, x := if hasImm [a, b] then immIn [a, b] else xO c ofs }
  | .tag c sz full ofs a => some { c := c, opc := 0x4C, m := 1 + 4 * sizeCode sz + 32 * full.toNat, a := specOf a, x := xO c ofs }
  | .atom c op sp sz u x d a b => some { c := c, opc := 0x4D, fn := aopCode op, m := spaceCode sp + 4 * sizeCode sz + 32 * u.toNat, d := specOf d, a := specOf a, b := specOf b, x := xM c x [a, b] }
  | .atomCas c sp sz x d a b cc => some { c := c, opc := 0x4D, fn := 7, m := spaceCode sp + 4 * sizeCode sz, d := specOf d, a := specOf a, b := specOf b, x := xMC x cc }
  | .red c op sp sz u x a b => some { c := c, opc := 0x4E, fn := aopCode op, m := spaceCode sp + 4 * sizeCode sz + 32 * u.toNat, a := specOf a, b := specOf b, x := xM c x [a, b] }
  | .fence c sc od rmt => some { c := c, opc := 0x4F, m := 8, x := scopeCode sc + 8 * ordCode od + 32 * rmt.toNat }
  | .mfence c => some { c := c, opc := 0x5B }
  | .swinit c sp x a b cc => some { c := c, opc := 0x50, m := spaceCode sp + 16, a := specOf a, b := specOf b, x := xMC x cc }
  | .swarrAny c sp x a b => some { c := c, opc := 0x51, m := spaceCode sp + 16, a := specOf a, b := specOf b, x := xM c x [a, b] }
  | .swarrGen c sp x a b cc => some { c := c, opc := 0x51, m := spaceCode sp + 16 + 32, a := specOf a, b := specOf b, x := xMC x cc }
  | .swwait c sp x a b => some { c := c, opc := 0x52, m := spaceCode sp + 16, a := specOf a, b := specOf b, x := xM c x [a, b] }
  | .copy c src dst ofs a b cc => some { c := c, opc := 0x54, m := csrcCode src + 8 + 32 * cdstCode dst, a := 0x100 + a.val, b := 0x100 + b.val, x := 256 * ofs.toNat + 2 ^ 32 * (0x100 + cc.val) }
  | .copyl c a b => some { c := c, opc := 0x55, m := 8, a := 0x100 + a.val, b := 0x100 + b.val }
  | .fetch c ta a b word => some { c := c, opc := 0x53, m := 8, a := 0x100 + a.val, b := 0x100 + b.val, x := ta.val + 2 ^ 32 * word.toNat }
  | .residPin c ofs a b => some { c := c, opc := 0x56, m := 8, a := 0x100 + a.val, b := 0x100 + b.val, x := 256 * ofs.toNat }
  | .residRel c b => some { c := c, opc := 0x56, fn := 1, m := 8, b := 0x100 + b.val }
  | .residStat c d b => some { c := c, opc := 0x56, fn := 2, m := 8, d := 0x100 + d.val, b := 0x100 + b.val }
  | .qctlOcc c h d => some { c := c, opc := 0x57, m := 8 + 32 * h.val, d := specOf d }
  | .qctlPerm c h d => some { c := c, opc := 0x57, fn := 1, m := 8 + 32 * h.val, d := specOf d }
  | .qctlReset c h => some { c := c, opc := 0x57, fn := 2, m := 8 + 32 * h.val }
  | .spill c b a => some { c := c, opc := 0x58, m := 0x0B, a := specOf a, b := b.val, x := xI [a] }
  | .fill c d a => some { c := c, opc := 0x59, m := 0x0B, a := specOf a, d := d.val, x := xI [a] }
  | .pref c ofs a => some { c := c, opc := 0x5A, m := 8, a := specOf a, x := xO c ofs }
  | _ => none

/-- The fields of an instruction of the oven chapter. -/
def enc4 : Instr → Option Enc
  | .rkld c sp ovr ta a b => some { c := c, opc := 0x60, m := bspaceCode sp + 4 * ovr.toNat, a := 0x100 + a.val, b := 0x100 + b.val, x := ta.val }
  | .rkswKeep c => some { c := c, opc := 0x61 }
  | .rkswDrop c => some { c := c, opc := 0x61, m := 1 }
  | .mmul c o => some (encOven c 0x62 0 o)
  | .mtopk c o abs => some (encOven c 0x63 (8 * abs.toNat) o)
  | .mnormA c sp ta tb a b s n => some { c := c, opc := 0x64, m := 2 * bspaceCode sp, a := 0x100 + a.val, b := 0x100 + b.val, x := xT ta.val tb.val 0 + 2 ^ 32 * (s.toNat + 2 ^ 16 * n.toNat) }
  | .mnormB c sp ta a b s n => some { c := c, opc := 0x64, m := 1 + 2 * bspaceCode sp, a := 0x100 + a.val, b := 0x100 + b.val, x := ta.val + 2 ^ 32 * (s.toNat + 2 ^ 16 * n.toNat) }
  | .aalloc c bk => some { c := c, opc := 0x65, x := 2 ^ 24 * bk.val }
  | .aallocAny c a => some { c := c, opc := 0x65, fn := 1, a := 0x100 + a.val }
  | .afree c bk => some { c := c, opc := 0x66, x := 2 ^ 24 * bk.val }
  | .aband c a b => some { c := c, opc := 0x67, a := 0x100 + a.val, b := 0x100 + b.val }
  | .adrainNone c sp mx rnd sat ta a b => some (encDrain c 0 sp mx rnd sat ta a b)
  | .adrainP24 c sp mx rnd sat ta a b => some (encDrain c 1 sp mx rnd sat ta a b)
  | .adrainP48 c sp mx rnd sat ta a b => some (encDrain c 2 sp mx rnd sat ta a b)
  | .aload c tm i bk a => some { c := c, opc := 0x69, m := tm.toNat + 2 * i.toNat, a := 0x100 + a.val, x := 2 ^ 24 * bk.val }
  | .azero c bk => some { c := c, opc := 0x6A, x := 2 ^ 24 * bk.val }
  | .wrd c a w n => some { c := c, opc := 0x6B, a := 0x100 + a.val, x := 2 ^ 24 * w.val + 2 ^ 32 * n.toNat }
  | .wmerge c w a b => some { c := c, opc := 0x6C, a := 0x100 + a.val, b := 0x100 + b.val, x := 2 ^ 24 * w.val }
  | .astat c d bk => some { c := c, opc := 0x6F, d := specOf d, x := 2 ^ 24 * bk.val }
  | .selkSum c a b w => some { c := c, opc := 0x6D, a := 0x100 + a.val, b := 0x100 + b.val, x := 2 ^ 32 * w.toNat }
  | .selkExp c a b w => some { c := c, opc := 0x6D, m := 1, a := 0x100 + a.val, b := 0x100 + b.val, x := 2 ^ 32 * w.toNat }
  | .sortr c asc a b w => some { c := c, opc := 0x6E, m := asc.toNat, a := 0x100 + a.val, b := 0x100 + b.val, x := 2 ^ 32 * w.toNat }
  | _ => none

/-- The fields of an instruction of the engines and system chapter. -/
def enc5 : Instr → Option Enc
  | .tidsetSet c sp ta a => some { c := c, opc := 0x70, m := imspaceCode sp, a := 0x100 + a.val, x := ta.val }
  | .tidsetClr c sp ta => some { c := c, opc := 0x70, fn := 1, m := imspaceCode sp, x := ta.val }
  | .tidget c sp ta a => some { c := c, opc := 0x71, m := imspaceCode sp, a := 0x100 + a.val, x := ta.val }
  | .cxdefOne c cu ta a => some { c := c, opc := 0x72, a := 0x100 + a.val, x := xT ta.val 0 cu.val }
  | .cxdefAnd c cu ta tb a => some { c := c, opc := 0x72, fn := 1, a := 0x100 + a.val, x := xT ta.val tb.val cu.val }
  | .cxdefOr c cu ta tb a => some { c := c, opc := 0x72, fn := 2, a := 0x100 + a.val, x := xT ta.val tb.val cu.val }
  | .cxsplit c cu a b => some { c := c, opc := 0x74, a := 0x100 + a.val, b := 0x100 + b.val, x := 2 ^ 24 * cu.val }
  | .cxfill c cu d pri tgt => some { c := c, opc := 0x73, d := d.val, x := pri.toNat + 2 ^ 24 * cu.val + 2 ^ 32 * tgt.toNat }
  | .cxcurSave c cu a => some { c := c, opc := 0x75, a := 0x100 + a.val, x := 2 ^ 24 * cu.val }
  | .cxcurLoad c cu a => some { c := c, opc := 0x75, fn := 1, a := 0x100 + a.val, x := 2 ^ 24 * cu.val }
  | .cxcurInfo c cu d => some { c := c, opc := 0x75, fn := 2, d := 0x100 + d.val, x := 2 ^ 24 * cu.val }
  | .cxcurDrop c cu => some { c := c, opc := 0x75, fn := 3, x := 2 ^ 24 * cu.val }
  | .walkdef c slot sp a => some { c := c, opc := 0x76, m := slot.val + 16 * imspaceCode sp, a := 0x100 + a.val }
  | .walk c slot a b cc word => some { c := c, opc := 0x77, m := slot.val, a := specOf a, b := specOf b, x := specOf cc + 2 ^ 32 * word.toNat }
  | .ired c acc bf ta a b word => some { c := c, opc := 0x78, m := acc.toNat + 2 * bf.toNat, a := specOf a, b := specOf b, x := ta.val + 2 ^ 32 * word.toNat }
  | .engwait c mask => some { c := c, opc := 0x79, m := mask.toNat }
  | .plev c a => some { c := c, opc := 0x7A, a := specOf a }
  | .trap c code => some { c := c, opc := 0x7C, m := code.toNat }
  | .brk c => some { c := c, opc := 0x7F }
  | .rft c => some { c := c, opc := 0x7D }
  | .sysRd c num d => some { c := c, opc := 0x7E, m := num.toNat, d := 0x100 + d.val }
  | .sysWr c num a => some { c := c, opc := 0x7E, fn := 1, m := num.toNat, a := specOf a, x := xI [a] }
  | _ => none

/-- The control bits of an encodable instruction. -/
def encFields (i : Instr) : Option Enc :=
  match enc1 i with
  | some e => some e
  | none => match enc2 i with
    | some e => some e
    | none => match enc3 i with
      | some e => some e
      | none => match enc4 i with
        | some e => some e
        | none => enc5 i

/-- The bits of the direct branches (R107) and of PAD (R104). -/
def encBranch : Instr → Option (Len × Nat)
  | .pad => some (.w64, 3)
  | .bra c tgt p1 => some (c.len, ctlBits c 2 + 2 ^ 20 * tgt.toNat + 2 ^ 48 * p1.toNat)
  | .brcNear c cp cn tgt p1 p2 => some (c.len, ctlBits c 3 + 2 ^ 20 * cp.val + 2 ^ 23 * cn.toNat + 2 ^ 24 * tgt.toNat + 2 ^ 32 * p1.toNat + 2 ^ 48 * p2.toNat)
  | .brcFar c cp cn tgt p1 p2 => some (c.len, ctlBits c 3 + 2 ^ 20 * cp.val + 2 ^ 23 * cn.toNat + 2 ^ 64 * (tgt.toNat + 2 ^ 32 * p1.toNat + 2 ^ 48 * p2.toNat))
  | .callNear c tgt p1 p2 => some (c.len, ctlBits c 5 + 2 ^ 20 * tgt.toNat + 2 ^ 32 * p1.toNat + 2 ^ 48 * p2.toNat)
  | .callFar c tgt p1 p2 => some (c.len, ctlBits c 5 + 2 ^ 64 * (tgt.toNat + 2 ^ 32 * p1.toNat + 2 ^ 48 * p2.toNat))
  | _ => none

/-- The bits of an encodable instruction, bit 0 of the first word first; none for an event of the device. -/
def encodeBits (i : Instr) : Option Nat :=
  match encBranch i with
  | some (_, z) => some z
  | none => (encFields i).map Enc.bits

/-- The bytes of an encodable instruction as memory holds them (R5, R102). -/
def encode (i : Instr) : List Byte :=
  match encBranch i with
  | some (len, z) => toLE (if z = 3 then 4 else len.bytes) z
  | none => match encFields i with
    | some e => toLE e.c.len.bytes e.bits
    | none => []

end Sys2Proof
end

