-- ==== Sys2Proof/Machine/Float.lean ====
section
/-! DEFINITION. Floating-point formats, exact values, the one rounding (R122 to R148, R301) and conversions. Flags are 5-bit masks in the order of R140. -/
namespace Sys2Proof.Machine
open Sys2Proof

/-- The number a pattern stands for (R123, R125): (-1)^neg * m * 2^e, an infinity, or a NaN, signalling or not. -/
inductive FV where
  | fin (neg : Bool) (m : Nat) (e : Int)
  | inf (neg : Bool)
  | nan (sig : Bool)
  deriving DecidableEq, Repr

/-- What a format's all-ones exponent means: infinity and NaNs, E4M3's one NaN, or numbers (R123). -/
inductive FKind where
  | ieee | one | none
  deriving DecidableEq, Repr

/-- Layout of a format (R123): exponent bits, significand bits, bias, kind. -/
structure FLay where
  eb   : Nat
  mb   : Nat
  bias : Nat
  kind : FKind
  deriving DecidableEq, Repr

/-- The formats of R123; E8M0 is read and written apart. -/
def flay : FFmt → FLay
  | .f32 => { eb := 8, mb := 23, bias := 127, kind := .ieee }
  | .f16 => { eb := 5, mb := 10, bias := 15, kind := .ieee }
  | .bf16 => { eb := 8, mb := 7, bias := 127, kind := .ieee }
  | .e5m2 => { eb := 5, mb := 2, bias := 15, kind := .ieee }
  | .e4m3 => { eb := 4, mb := 3, bias := 7, kind := .one }
  | .e3m2 => { eb := 3, mb := 2, bias := 3, kind := .none }
  | .e2m3 => { eb := 2, mb := 3, bias := 1, kind := .none }
  | .e2m1 => { eb := 2, mb := 1, bias := 1, kind := .none }
  | .e8m0 => { eb := 8, mb := 0, bias := 127, kind := .one }

/-- Width of a format in bits. -/
def fwidth (f : FFmt) : Nat := match f with | .e8m0 => 8 | f => 1 + (flay f).eb + (flay f).mb

/-- Sign bit of a pattern. -/
def fneg (f : FFmt) (x : Nat) : Bool := x.testBit (fwidth f - 1)

/-- The value of a pattern; under ftz a subnormal reads as a zero of its sign (R123, R137). -/
def readF (f : FFmt) (ftz : Bool) (x : Nat) : FV :=
  match f with
  | .e8m0 => if x % 256 = 255 then .nan false else .fin false 1 (Int.ofNat (x % 256) - 127)
  | f =>
    let l := flay f
    let neg := fneg f x
    let m := bits x (l.mb - 1) 0
    let e := bits x (l.mb + l.eb - 1) l.mb
    let top := 2 ^ l.eb - 1
    if e = top ∧ l.kind = .ieee then (if m = 0 then .inf neg else .nan (!m.testBit (l.mb - 1)))
    else if e = top ∧ l.kind = .one ∧ m = 2 ^ l.mb - 1 then .nan false
    else if e = 0 then (if ftz then .fin neg 0 0 else .fin neg m (1 - Int.ofNat l.bias - Int.ofNat l.mb))
    else .fin neg (m + 2 ^ l.mb) (Int.ofNat e - Int.ofNat l.bias - Int.ofNat l.mb)

/-- Flags of R140. -/
def fIV : Nat := 1
def fDZ : Nat := 2
def fOF : Nat := 4
def fUF : Nat := 8
def fNX : Nat := 16

/-- A pattern and the flags its making raised. -/
abbrev FRes := Nat × Nat

/-- The pattern with a sign. -/
def withSign (f : FFmt) (neg : Bool) (x : Nat) : Nat := if neg then x + 2 ^ (fwidth f - 1) else x

/-- The default NaN of a format (R125); +0 where the format has none (R145). -/
def nanOf : FFmt → Nat
  | .f32 => 0x7FC00000
  | .f16 => 0x7E00
  | .bf16 => 0x7FC0
  | .e5m2 => 0x7E
  | .e4m3 => 0x7F
  | .e8m0 => 0xFF
  | _ => 0

/-- The pattern of the maximum finite (R123). -/
def maxOf (f : FFmt) : Nat :=
  let l := flay f
  match l.kind with
  | .ieee => (2 ^ l.eb - 2) * 2 ^ l.mb + (2 ^ l.mb - 1)
  | .one => (2 ^ l.eb - 1) * 2 ^ l.mb + (2 ^ l.mb - 2)
  | .none => (2 ^ l.eb - 1) * 2 ^ l.mb + (2 ^ l.mb - 1)

/-- The pattern of infinity, in a format that has one. -/
def infOf (f : FFmt) : Nat := (2 ^ (flay f).eb - 1) * 2 ^ (flay f).mb

/-- A magnitude (m plus a remainder below 1 when sticky) times 2^e rounded to a multiple of 2^q: the multiple, and whether it is inexact (R135). -/
def roundAt (neg : Bool) (rnd : Rnd) (m : Nat) (e : Int) (sticky : Bool) (q : Int) : Nat × Bool :=
  if q ≤ e then
    let n := m * 2 ^ (e - q).toNat
    (if sticky ∧ ((rnd = .ru ∧ !neg) ∨ (rnd = .rd ∧ neg)) then n + 1 else n, sticky)
  else
    let d := (q - e).toNat
    let n := m >>> d
    let r := m % 2 ^ d
    let half := 2 ^ (d - 1)
    let inex := r ≠ 0 || sticky
    let above := decide (r > half) || (decide (r = half) && sticky)
    let tie := decide (r = half) && !sticky
    let up := match rnd with
      | .rz => false
      | .ru => inex && !neg
      | .rd => inex && neg
      | .rna => above || tie
      | _ => above || (tie && n % 2 == 1)
    (if up then n + 1 else n, inex)

/-- The least exponent of a normal number. -/
def eminOf (f : FFmt) : Int := 1 - Int.ofNat (flay f).bias

/-- The pattern of n * 2^q, where q is the unit of the last place and n at most 2^(mb + 1). -/
def packFin (f : FFmt) (n : Nat) (q : Int) : Nat :=
  let l := flay f
  let (n, q) := if n = 2 ^ (l.mb + 1) then (2 ^ l.mb, q + 1) else (n, q)
  if n < 2 ^ l.mb then n else (q + Int.ofNat l.mb + Int.ofNat l.bias).toNat * 2 ^ l.mb + (n - 2 ^ l.mb)

/-- The saturation slot as two options (R113). -/
def satLim : Sat → Bool | .sat | .satftz => true | _ => false
def satFlush : Sat → Bool | .ftz | .satftz => true | _ => false

/-- The fate of a finite result beyond the maximum finite (R138, R144, R145). -/
def overflowOf (f : FFmt) (neg : Bool) (rnd : Rnd) (sat : Sat) : Nat :=
  if satLim sat then withSign f neg (maxOf f)
  else match (flay f).kind with
    | .ieee =>
      let toMax := match rnd with | .rz => true | .ru => neg | .rd => !neg | _ => false
      withSign f neg (if toMax then maxOf f else infOf f)
    | .one => nanOf f
    | .none => withSign f neg (maxOf f)

/-- Rounds a finite nonzero magnitude to a format (R135, R137, R138, R144, R145, R301). -/
def roundFin (f : FFmt) (rnd : Rnd) (sat : Sat) (neg : Bool) (m : Nat) (e : Int) (sticky : Bool) : FRes :=
  if m = 0 ∧ !sticky then (withSign f neg 0, 0)
  else
    let l := flay f
    let top := Int.ofNat (flog2 m) + e
    let qU := top - Int.ofNat l.mb
    let (nU, _) := roundAt neg rnd m e sticky qU
    let emin := eminOf f
    let tiny := decide (nU ≠ 0) && (if qU ≥ emin then false else decide (nU * 1 < 2 ^ (emin - qU).toNat))
    let qB := if qU < emin - Int.ofNat l.mb then emin - Int.ofNat l.mb else qU
    let (n, inex) := roundAt neg rnd m e sticky qB
    if tiny ∧ satFlush sat then (withSign f neg 0, fUF + fNX)
    else
      let (nn, qq) := if n = 2 ^ (l.mb + 1) then (2 ^ l.mb, qB + 1) else (n, qB)
      let ef := qq + Int.ofNat l.mb + Int.ofNat l.bias
      let top := Int.ofNat (2 ^ l.eb - 1)
      let above := decide (nn ≥ 2 ^ l.mb) && (match l.kind with
        | .ieee => decide (ef ≥ top)
        | .one => decide (ef > top) || (decide (ef = top) && decide (nn = 2 ^ (l.mb + 1) - 1))
        | .none => decide (ef > top))
      if above then (overflowOf f neg rnd sat, fOF + fNX)
      else (withSign f neg (packFin f nn qq), if inex then fNX + (if tiny then fUF else 0) else 0)

/-- An infinity of infinite operands, limited under .sat without a flag (R138). -/
def packInf (f : FFmt) (sat : Sat) (neg : Bool) : FRes := (withSign f neg (if satLim sat then maxOf f else infOf f), 0)

/-- An exact infinity at a pole (R138, R308). -/
def packPole (f : FFmt) (sat : Sat) (neg : Bool) : FRes :=
  if satLim sat then (withSign f neg (maxOf f), fDZ + fNX) else (withSign f neg (infOf f), fDZ)

/-- A NaN result (R125). -/
def packNan (f : FFmt) (iv : Bool) : FRes := (nanOf f, if iv then fIV else 0)

/-- Whether a value is a NaN, and a signalling one. -/
def FV.isNan : FV → Bool | .nan _ => true | _ => false
def FV.isSig : FV → Bool | .nan s => s | _ => false
def FV.isZero : FV → Bool | .fin _ m _ => m == 0 | _ => false
def FV.isInf : FV → Bool | .inf _ => true | _ => false
def FV.neg : FV → Bool | .fin n _ _ => n | .inf n => n | .nan _ => false
def FV.flip : FV → FV | .fin n m e => .fin (!n) m e | .inf n => .inf (!n) | v => v

/-- An exact sum of two finite values: the sign of a zero sum follows R139. -/
def addFin (rnd : Rnd) (n1 : Bool) (m1 : Nat) (e1 : Int) (n2 : Bool) (m2 : Nat) (e2 : Int) : Bool × Nat × Int :=
  if m1 = 0 ∧ m2 = 0 then (if n1 = n2 then n1 else rnd = .rd, 0, 0)
  else if m1 = 0 then (n2, m2, e2)
  else if m2 = 0 then (n1, m1, e1)
  else
    let e := if e1 ≤ e2 then e1 else e2
    let z1 : Int := (m1 * 2 ^ (e1 - e).toNat : Nat)
    let z2 : Int := (m2 * 2 ^ (e2 - e).toNat : Nat)
    let z := (if n1 then -z1 else z1) + (if n2 then -z2 else z2)
    if z = 0 then (rnd = .rd, 0, 0) else (decide (z < 0), z.natAbs, e)

/-- The sum of two values rounded once (R303). -/
def addV (f : FFmt) (rnd : Rnd) (sat : Sat) (x y : FV) : FRes :=
  match x, y with
  | .nan a, .nan b => packNan f (a || b)
  | .nan a, _ => packNan f a
  | _, .nan b => packNan f b
  | .inf a, .inf b => if a = b then packInf f sat a else packNan f true
  | .inf a, _ => packInf f sat a
  | _, .inf b => packInf f sat b
  | .fin n1 m1 e1, .fin n2 m2 e2 =>
    let (n, m, e) := addFin rnd n1 m1 e1 n2 m2 e2
    roundFin f rnd sat n m e false

/-- The product of two values rounded once (R303). -/
def mulV (f : FFmt) (rnd : Rnd) (sat : Sat) (x y : FV) : FRes :=
  match x, y with
  | .nan a, .nan b => packNan f (a || b)
  | .nan a, _ => packNan f a
  | _, .nan b => packNan f b
  | .inf a, .inf b => packInf f sat (a != b)
  | .inf a, .fin n m _ => if m = 0 then packNan f true else packInf f sat (a != n)
  | .fin n m _, .inf b => if m = 0 then packNan f true else packInf f sat (n != b)
  | .fin n1 m1 e1, .fin n2 m2 e2 => roundFin f rnd sat (n1 != n2) (m1 * m2) (e1 + e2) false

/-- x * y + c with one rounding (R303). 0 * infinity is invalid even beside a quiet NaN. -/
def fmaV (f : FFmt) (rnd : Rnd) (sat : Sat) (x y c : FV) : FRes :=
  let bad := (x.isInf && y.isZero) || (x.isZero && y.isInf)
  if x.isNan || y.isNan || c.isNan || bad then packNan f (bad || x.isSig || y.isSig || c.isSig)
  else if x.isInf || y.isInf then
    (if c.isInf && c.neg != (x.neg != y.neg) then packNan f true else packInf f sat (x.neg != y.neg))
  else match x, y, c with
    | _, _, .inf b => packInf f sat b
    | .fin n1 m1 e1, .fin n2 m2 e2, .fin n3 m3 e3 =>
      let (n, m, e) := addFin rnd (n1 != n2) (m1 * m2) (e1 + e2) n3 m3 e3
      roundFin f rnd sat n m e false
    | _, _, _ => packNan f false

/-- Compares two finite or infinite values by real value, -0 equal to +0. -/
def cmpV (x y : FV) : Ordering :=
  let key : FV → Int × Nat × Int := fun v => match v with
    | .inf n => (if n then -2 else 2, 0, 0)
    | .fin n m e => if m = 0 then (0, 0, 0) else (if n then -1 else 1, m, e)
    | .nan _ => (0, 0, 0)
  let (a, m1, e1) := key x
  let (b, m2, e2) := key y
  if a ≠ b then compare a b
  else if a = 1 ∨ a = -1 then
    let e := if e1 ≤ e2 then e1 else e2
    let c := compare (m1 * 2 ^ (e1 - e).toNat) (m2 * 2 ^ (e2 - e).toNat)
    if a = 1 then c else c.swap
  else .eq

/-- The pattern of a value of a format after flushing, bit for bit (R304, R305). -/
def flushBits (f : FFmt) (ftz : Bool) (x : Nat) : Nat :=
  if ftz ∧ bits x ((flay f).mb + (flay f).eb - 1) (flay f).mb = 0 then withSign f (fneg f x) 0 else x % 2 ^ fwidth f

/-- FMIN and FMAX of two patterns (R304). -/
def minmaxF (f : FFmt) (ftz : Bool) (max : Bool) (x y : Nat) : FRes :=
  let a := readF f ftz x
  let b := readF f ftz y
  let iv := if a.isSig || b.isSig then fIV else 0
  if a.isNan && b.isNan then (nanOf f, iv)
  else if a.isNan then (flushBits f ftz y, iv)
  else if b.isNan then (flushBits f ftz x, iv)
  else
    let less := match cmpV a b with
      | .lt => true
      | .gt => false
      | .eq => a.neg || !b.neg
    (flushBits f ftz (if less = max then y else x), iv)

/-- The condition of FCMP on two FP32 patterns, and its flag (R306). -/
def fcmpF (cond : FCond) (ftz : Bool) (x y : Nat) : Bool × Nat :=
  let a := readF .f32 ftz x
  let b := readF .f32 ftz y
  let u := a.isNan || b.isNan
  let c := cmpV a b
  let r := match cond with
    | .eq => !u && c == .eq
    | .ne => u || c != .eq
    | .lt => !u && c == .lt
    | .le => !u && c != .gt
    | .gt => !u && c == .gt
    | .ge => !u && c != .lt
    | .un => u
    | .ord => !u
  let rel := match cond with | .lt | .le | .gt | .ge => true | _ => false
  (r, if a.isSig || b.isSig || (u && rel) then fIV else 0)

/-- The class bit of a pattern (R315). -/
def fclassF (f : FFmt) (x : Nat) : Nat :=
  let sub := bits x ((flay f).mb + (flay f).eb - 1) (flay f).mb == 0
  match readF f false x with
  | .nan s => if s then 0 else 1
  | .inf n => if n then 2 else 9
  | .fin n m _ => if m = 0 then (if n then 5 else 6) else if sub then (if n then 4 else 7) else if n then 3 else 8

/-- Rule P, to E8M0 (R148). -/
def toE8M0 (v : FV) : FRes :=
  match v with
  | .nan s => (0xFF, if s then fIV else 0)
  | .inf _ => (0xFF, fIV)
  | .fin neg m e =>
    if m = 0 then (0, fNX)
    else
      let k := Int.ofNat (flog2 m) + e
      if k < -127 then (0, fNX + fUF)
      else
        let r := if k > 127 then 127 else k
        (((r + 127).toNat), if !neg && decide (m = 2 ^ flog2 m) && decide (r = k) then 0 else fNX)

/-- Rules X, N and M: a value to a floating-point format (R143 to R145). -/
def toFmt (f : FFmt) (rnd : Rnd) (sat : Sat) (v : FV) : FRes :=
  match f with
  | .e8m0 => toE8M0 v
  | f => match v with
    | .nan s => (nanOf f, if s || decide ((flay f).kind = .none) then fIV else 0)
    | .inf n => match (flay f).kind with
      | .ieee => packInf f sat n
      | .one => (if satLim sat then withSign f n (maxOf f) else nanOf f, fIV)
      | .none => (withSign f n (maxOf f), fIV)
    | .fin n m e => roundFin f rnd sat n m e false

/-- Converts a pattern between formats (R313). -/
def cvtF (dst src : FFmt) (rnd : Rnd) (sat : Sat) (x : Nat) : FRes := toFmt dst rnd sat (readF src (satFlush sat) x)

/-- An integer as a value. -/
def intV (z : Int) : FV := .fin (decide (z < 0)) z.natAbs 0

/-- Rules F and P: an integer to a floating-point format (R147). -/
def i2fF (dst : FFmt) (rnd : Rnd) (sat : Sat) (z : Int) : FRes := toFmt dst rnd sat (intV z)

/-- Rule I: a value to an integer between lo and hi (R146). -/
def f2iV (rnd : Rnd) (lo hi : Int) (v : FV) : Int × Nat :=
  match v with
  | .nan _ => (0, fIV)
  | .inf n => (if n then lo else hi, fIV)
  | .fin n m e =>
    let (k, inex) := roundAt n rnd m e false 0
    let z : Int := if n then -(k : Int) else k
    if z < lo then (lo, fIV) else if z > hi then (hi, fIV) else (z, if inex then fNX else 0)

/-- Width and signedness of an integer type code (R311). -/
def icodeW : ICode → Nat × Bool
  | .i32 => (32, true) | .u32 => (32, false) | .i16 => (16, true) | .u16 => (16, false)
  | .i8 => (8, true) | .u8 => (8, false) | .i4 => (4, true) | .u4 => (4, false)

/-- Limits of an integer type. -/
def intLo (w : Nat) (sg : Bool) : Int := if sg then -(2 ^ (w - 1) : Nat) else 0
def intHi (w : Nat) (sg : Bool) : Int := if sg then (2 ^ (w - 1) : Nat) - 1 else (2 ^ w : Nat) - 1

/-! The special functions (R307, R308). -/

/-- floor of a square root, n bits of result, highest first. -/
def isqrtGo (x : Nat) : Nat → Nat → Nat
  | 0, r => r
  | i + 1, r => let t := r + 2 ^ i; isqrtGo x i (if t * t ≤ x then t else r)
/-- floor of the square root. -/
def isqrt (x : Nat) : Nat := isqrtGo x (Nat.log2 x / 2 + 1) 0

/-- Quotient of two finite nonzero magnitudes with a remainder bit. -/
def divFin (m1 : Nat) (e1 : Int) (m2 : Nat) (e2 : Int) : Nat × Int × Bool :=
  let k := 40 + flog2 m2
  let n := m1 * 2 ^ k
  (n / m2, e1 - e2 - Int.ofNat k, decide (n % m2 ≠ 0))

/-- Square root of a finite nonzero magnitude. -/
def sqrtFin (m : Nat) (e : Int) : Nat × Int × Bool :=
  let odd := decide (e % 2 ≠ 0)
  let m := (if odd then 2 * m else m) * 2 ^ 64
  let e := (if odd then e - 1 else e) / 2 - 32
  let r := isqrt m
  (r, e, decide (r * r ≠ m))

/-- Reciprocal square root of a finite nonzero magnitude. -/
def rsqrtFin (m : Nat) (e : Int) : Nat × Int × Bool :=
  let odd := decide (e % 2 ≠ 0)
  let m := if odd then 2 * m else m
  let e := (if odd then e - 1 else e) / 2
  let k := 40 + flog2 m
  let r := isqrt (2 ^ (2 * k) / m)
  (r, -e - Int.ofNat k, decide (r * r * m ≠ 2 ^ (2 * k)))

/-- Sum of x^(2k+1)/(2k+1) with signs of alt, in units of 2^-p, where t is x in those units and x2 its square. -/
def atanGo (p : Nat) (alt : Bool) (x2 : Nat) : Nat → Nat → Nat → Int → Int
  | 0, _, _, acc => acc
  | n + 1, k, t, acc =>
    let term : Int := (t / (2 * k + 1) : Nat)
    atanGo p alt x2 n (k + 1) (t * x2 / 2 ^ p) (acc + (if alt && k % 2 == 1 then -term else term))

/-- pi in units of 2^-p (Machin's formula). -/
def piFix (p : Nat) : Nat :=
  let at' (q : Nat) : Int := atanGo p true (2 ^ p / (q * q)) (p / 2 + 2) 0 (2 ^ p / q) 0
  (16 * at' 5 - 4 * at' 239).toNat

/-- ln 2 in units of 2^-p: 2 atanh(1/3). -/
def ln2Fix (p : Nat) : Nat := 2 * (atanGo p false (2 ^ p / 9) (p / 2 + 2) 0 (2 ^ p / 3) 0).toNat

/-- Sum of y^k/k! over k of one parity, with the signs of sine and cosine, or of all k without signs. -/
def expGo (p y : Nat) : Nat → Nat → Nat → Nat → Nat
  | 0, _, _, acc => acc
  | n + 1, k, t, acc => expGo p y n (k + 1) (t * y / 2 ^ p / (k + 1)) (acc + t)

/-- exp(y) - 0 in units of 2^-p for y between 0 and 1. -/
def expFix (p y : Nat) : Nat := expGo p y (p + 4) 0 (2 ^ p) 0

/-- sin(y) in units of 2^-p for y between 0 and 2. -/
def sinGo (p y2 : Nat) : Nat → Nat → Nat → Int → Int
  | 0, _, _, acc => acc
  | n + 1, k, t, acc => sinGo p y2 n (k + 1) (t * y2 / 2 ^ p / ((2 * k + 2) * (2 * k + 3))) (acc + (if k % 2 == 1 then -(t : Int) else t))
def sinFix (p y : Nat) : Nat := (sinGo p (y * y / 2 ^ p) (p / 2 + 4) 0 y 0).toNat

/-- Rounds an irrational magnitude known to within err units of 2^e: none when the two ends round apart. -/
def roundNear (f : FFmt) (rnd : Rnd) (sat : Sat) (neg : Bool) (m err : Nat) (e : Int) : Option FRes :=
  let a := roundFin f rnd sat neg (m - err) e true
  let b := roundFin f rnd sat neg (m + err) e true
  if a = b then some a else none

/-- Refines an approximation until it decides the rounding (log 20: DEDUCED): value at precision p with an error below 2^16 units. -/
def refine (f : FFmt) (rnd : Rnd) (sat : Sat) (neg : Bool) (g : Nat → Nat × Int) : Nat → Nat → FRes
  | 0, p => let (m, e) := g p; roundFin f rnd sat neg m e true
  | n + 1, p =>
    let (m, e) := g p
    match roundNear f rnd sat neg m (2 ^ 16) e with
    | some r => r
    | none => refine f rnd sat neg g n (2 * p)

/-- A finite value as an integer times 2^-k, when its exponent is not below -k. -/
def asFix (m : Nat) (e : Int) (k : Nat) : Nat := m * 2 ^ (e + Int.ofNat k).toNat

/-- 2^x (R307). -/
def exp2V (f : FFmt) (rnd : Rnd) (sat : Sat) (neg : Bool) (m : Nat) (e : Int) : FRes :=
  let top := Int.ofNat (flog2 m) + e
  if m = 0 then roundFin f rnd sat false 1 0 false
  else if top ≥ 12 then (if neg then roundFin f rnd sat false 1 (-2000) true else roundFin f rnd sat false 1 2000 true)
  else if top < -30 then (if neg then roundFin f rnd sat false (2 ^ 40 - 1) (-40) true else roundFin f rnd sat false (2 ^ 40) (-40) true)
  else
    let z : Int := if neg then -(asFix m e 60 : Int) else (asFix m e 60 : Int)
    let i := z / (2 ^ 60 : Nat)
    let fr := (z % (2 ^ 60 : Nat)).toNat
    if fr = 0 then roundFin f rnd sat false 1 i false
    else refine f rnd sat false (fun p => (expFix p (fr * ln2Fix p / 2 ^ 60), i - Int.ofNat p)) 4 112

/-- log2 x for a positive finite x (R307). -/
def log2V (f : FFmt) (rnd : Rnd) (sat : Sat) (m : Nat) (e : Int) : FRes :=
  let b := flog2 m
  if m = 2 ^ b then (let k := Int.ofNat b + e; roundFin f rnd sat (decide (k < 0)) k.natAbs 0 false)
  else
    let big := decide (4 * m ≥ 6 * 2 ^ b)
    let b := if big then b + 1 else b
    let k := Int.ofNat b + e
    let d : Int := Int.ofNat m - (2 ^ b : Nat)
    let val (p : Nat) : Int :=
      let t := d.natAbs * 2 ^ p / (m + 2 ^ b)
      let a := (2 * (atanGo p false (t * t / 2 ^ p) (p / 2 + 4) 0 t 0).toNat) * 2 ^ p / ln2Fix p
      k * (2 ^ p : Nat) + (if d < 0 then -(a : Int) else a)
    refine f rnd sat (decide (val 112 < 0)) (fun p => ((val p).natAbs, -Int.ofNat p)) 4 112

/-- sin(pi r) for 0 < r < 1/2 or r = 1/2 given in units of 2^-60, or as small as m * 2^e. -/
def sinpiSmall (f : FFmt) (rnd : Rnd) (sat : Sat) (neg : Bool) (r : Nat) : FRes :=
  if r = 2 ^ 59 then roundFin f rnd sat neg 1 0 false
  else refine f rnd sat neg (fun p => (sinFix p (r * piFix p / 2 ^ 60), -Int.ofNat p)) 4 128

/-- Position of a finite value in one period of 2, in units of 2^-60, for values not below 2^-30. -/
def modTwo (m : Nat) (e : Int) : Nat := if e ≥ 1 then 0 else asFix m e 60 % 2 ^ 61

/-- sin(pi x) (R307, R308). -/
def sinpiV (f : FFmt) (rnd : Rnd) (sat : Sat) (neg : Bool) (m : Nat) (e : Int) : FRes :=
  if m = 0 then (withSign f neg 0, 0)
  else if Int.ofNat (flog2 m) + e < -30 then
    let p := 128
    let v := m * piFix p
    -- pi x less at most one part in 2^58 of itself
    (match roundNear f rnd sat neg (v - v / 2 ^ 57) (v / 2 ^ 57) (e - Int.ofNat p) with
      | some r => r
      | none => roundFin f rnd sat neg v (e - Int.ofNat p) true)
  else
    let x := modTwo m e
    if x % 2 ^ 60 = 0 then (withSign f neg 0, 0)
    else
      let lower := decide (x ≥ 2 ^ 60)
      let r := x % 2 ^ 60
      let r := if r > 2 ^ 59 then 2 ^ 60 - r else r
      sinpiSmall f rnd sat (neg != lower) r

/-- cos(pi x) (R307, R308). -/
def cospiV (f : FFmt) (rnd : Rnd) (sat : Sat) (m : Nat) (e : Int) : FRes :=
  if m = 0 then roundFin f rnd sat false 1 0 false
  else if Int.ofNat (flog2 m) + e < -30 then roundFin f rnd sat false (2 ^ 60 - 1) (-60) true
  else
    let x := modTwo m e
    let x := if x > 2 ^ 60 then 2 ^ 61 - x else x        -- 0 to 1
    if x = 2 ^ 59 then (0, 0)
    else
      let neg := decide (x > 2 ^ 59)
      let r := if neg then x - 2 ^ 59 else 2 ^ 59 - x
      sinpiSmall f rnd sat neg r

/-- Functions of FSFU with one operand. -/
inductive SFun where
  | rcp | rsqrt | sqrt | exp2 | log2 | sinpi | cospi
  deriving DecidableEq, Repr

/-- The quotient of two values (R308). -/
def divV (f : FFmt) (rnd : Rnd) (sat : Sat) (x y : FV) : FRes :=
  let neg := x.neg != y.neg
  match x, y with
  | .nan a, .nan b => packNan f (a || b)
  | .nan a, _ => packNan f a
  | _, .nan b => packNan f b
  | .inf _, .inf _ => packNan f true
  | .inf _, _ => packInf f sat neg
  | .fin _ _ _, .inf _ => (withSign f neg 0, 0)
  | .fin _ m1 e1, .fin _ m2 e2 =>
    if m2 = 0 then (if m1 = 0 then packNan f true else packPole f sat neg)
    else if m1 = 0 then (withSign f neg 0, 0)
    else let (q, e, st) := divFin m1 e1 m2 e2; roundFin f rnd sat neg q e st

/-- A special function of a value (R307, R308). -/
def sfuV (g : SFun) (f : FFmt) (rnd : Rnd) (sat : Sat) (x : FV) : FRes :=
  match x with
  | .nan s => packNan f s
  | .inf neg => match g with
    | .rcp => (withSign f neg 0, 0)
    | .rsqrt => if neg then packNan f true else (0, 0)
    | .sqrt => if neg then packNan f true else packInf f sat false
    | .exp2 => if neg then (0, 0) else packInf f sat false
    | .log2 => if neg then packNan f true else packInf f sat false
    | .sinpi => packNan f true
    | .cospi => packNan f true
  | .fin neg m e => match g with
    | .rcp => if m = 0 then packPole f sat neg else (let (q, d, st) := divFin 1 0 m e; roundFin f rnd sat neg q d st)
    | .rsqrt => if m = 0 then packPole f sat neg else if neg then packNan f true
                else (let (q, d, st) := rsqrtFin m e; roundFin f rnd sat false q d st)
    | .sqrt => if m = 0 then (withSign f neg 0, 0) else if neg then packNan f true
               else (let (q, d, st) := sqrtFin m e; roundFin f rnd sat false q d st)
    | .exp2 => exp2V f rnd sat neg m e
    | .log2 => if m = 0 then packPole f sat true else if neg then packNan f true else log2V f rnd sat m e
    | .sinpi => sinpiV f rnd sat neg m e
    | .cospi => cospiV f rnd sat m e

/-- The sum of two patterns (R299, R303). -/
def addF (f : FFmt) (rnd : Rnd) (sat : Sat) (x y : Nat) : FRes :=
  addV f rnd sat (readF f (satFlush sat) x) (readF f (satFlush sat) y)

/-- A rounding slot, with the mode of %fpc for .dyn (R135, R136). -/
def dynRnd (r : Rnd) (fpc : BitVec 32) : Rnd :=
  match r with
  | .dyn => match (fpc &&& 7).toNat with | 0 => .rn | 1 => .rz | 2 => .ru | 3 => .rd | _ => .rna
  | r => r

/-- Weight i of a CB2 index (R132): its sign, and its magnitude in halves. -/
def cb2W (x i : Nat) : Bool × Nat :=
  let neg := if i < 7 then x.testBit (8 + i) else (List.range 7).foldl (fun b k => b != x.testBit (8 + k)) false
  (neg, (if x.testBit i then 3 else 1) * (if x.testBit 15 then 2 else 1))

end Sys2Proof.Machine
end

