-- ==== Sys2Proof/Machine/Mem.lean ====
section
/-! DEFINITION. The stores of bytes, HBM behind its encryption and translation (R20, R21, R83 to R85, R232), cores, clusters and contexts by number. -/
namespace Sys2Proof.Machine
open Sys2Proof

/-- Changes the item of number k, if there is one. -/
def Tab.upd {α : Type} (t : Tab α) (k : Nat) (f : α → α) : Tab α := t.map (fun e => if e.1 = k then (e.1, f e.2) else e)

/-- The byte at an address; an unlisted address reads 0 (log 5: DESIGN CHOICE). -/
def Mem.get : Mem → Nat → Byte
  | [], _ => 0
  | (x, y) :: r, a => if x = a then y else Mem.get r a

/-- Puts a cell at its place, in place of one of the same address. -/
def Mem.ins : Mem → Nat → Byte → Mem
  | [], a, b => [(a, b)]
  | (x, y) :: r, a, b => if a < x then (a, b) :: (x, y) :: r else if a = x then (a, b) :: r else (x, y) :: Mem.ins r a b

/-- Writes one byte, keeping the canonical form: writing 0 removes the cell. -/
def Mem.put (m : Mem) (a : Nat) (b : Byte) : Mem := if b = 0 then m.filter (fun e => e.1 != a) else Mem.ins m a b

/-- Addresses at or above lo, strictly rising, no byte 0. -/
def Mem.wfFrom : Nat → Mem → Bool
  | _, [] => true
  | lo, (a, b) :: r => decide (lo ≤ a) && b != 0 && Mem.wfFrom (a + 1) r

/-- The canonical form of a memory. -/
def Mem.wf (m : Mem) : Bool := Mem.wfFrom 0 m

/-- n bytes from address a. -/
def Mem.read (m : Mem) (a : Nat) : Nat → List Byte
  | 0 => []
  | n + 1 => Mem.get m a :: Mem.read m (a + 1) n

/-- Writes bytes from address a. -/
def Mem.write (m : Mem) (a : Nat) : List Byte → Mem
  | [] => m
  | b :: bs => Mem.write (Mem.put m a b) (a + 1) bs

/-- The number that n bytes from address a hold (R5). -/
def Mem.readN (m : Mem) (a n : Nat) : Nat := fromLE (Mem.read m a n)
/-- Writes the low n bytes of a number (R5). -/
def Mem.writeN (m : Mem) (a n v : Nat) : Mem := Mem.write m a (toLE n v)

/-! Stores that hold undefined values until they are written (R69, R75). -/

/-- The byte at an address; an unlisted one is the free value of nonce k (log 5: DESIGN CHOICE). b sets the numbers of the store's values apart. -/
def Cells.get (k b : Nat) (m : Cells) (a : Nat) : Byte := match Tab.get m a with | some x => x | none => Config.freeByte k (b + a)
/-- Writes bytes from address a. -/
def Cells.write (m : Cells) (a : Nat) : List Byte → Cells
  | [] => m
  | b :: bs => Cells.write (Mem.ins m a b) (a + 1) bs
/-- The canonical form: addresses at or above lo, strictly rising. -/
def Cells.wfFrom : Nat → Cells → Bool
  | _, [] => true
  | lo, (a, _) :: r => decide (lo ≤ a) && Cells.wfFrom (a + 1) r
/-- The canonical form of such a store. -/
def Cells.wf (m : Cells) : Bool := Cells.wfFrom 0 m

/-- A byte of a workgroup's scratchpad, and of its tiles. -/
def Workgroup.sp (w : Workgroup) (a : Nat) : Byte := Cells.get w.fill 0 w.scratch a
def Workgroup.tm (w : Workgroup) (a : Nat) : Byte := Cells.get w.fill Config.scratchBytes w.tiles a
/-- n bytes of a scratchpad, and of the tiles. -/
def Workgroup.spBytes (w : Workgroup) (a n : Nat) : List Byte := (List.range n).map (fun i => w.sp (a + i))
def Workgroup.tmBytes (w : Workgroup) (a n : Nat) : List Byte := (List.range n).map (fun i => w.tm (a + i))
/-- A byte of a scratchpad as an access reads it: free where an oven operation whose completion is not acquired writes its record (R192). -/
def Workgroup.spSee (w : Workgroup) (a : Nat) : Byte :=
  match w.watch.find? (fun e => e.rec_.isSome && decide (e.lo ≤ a) && decide (a < e.hi)) with
  | some e => Config.freeByte (e.rec_.getD 0) a
  | none => w.sp a
/-- n bytes of a scratchpad as an access reads them. -/
def Workgroup.spRead (w : Workgroup) (a n : Nat) : List Byte := (List.range n).map (fun i => w.spSee (a + i))

/-! Parts of the machine by number. -/

/-- A core; one not listed is empty. -/
def State.core (s : State) (c : Nat) : Core := (Tab.get s.cores c).getD Core.empty
/-- Writes a core. -/
def State.setCore (s : State) (c : Nat) (k : Core) : State := { s with cores := Tab.set s.cores c k }
/-- Changes a core. -/
def State.modCore (s : State) (c : Nat) (f : Core → Core) : State := s.setCore c (f (s.core c))
/-- The group of a slot. Numbers at and above 32 hold exited groups whose registers are not yet released (R59). -/
def State.grp (s : State) (c g : Nat) : Option Group := Tab.get (s.core c).grps g
/-- Changes a group. -/
def State.modGrp (s : State) (c g : Nat) (f : Group → Group) : State := s.modCore c (fun k => { k with grps := Tab.upd k.grps g f })
/-- A workgroup of a core by its uid, with its slot. -/
def Core.wgOf (k : Core) (uid : Nat) : Option (Nat × Workgroup) := k.wgs.find? (fun e => e.2.uid == uid)
/-- Changes a workgroup of a core. -/
def State.modWg (s : State) (c uid : Nat) (f : Workgroup → Workgroup) : State :=
  s.modCore c (fun k => { k with wgs := k.wgs.map (fun e => if e.2.uid = uid then (e.1, f e.2) else e) })
/-- A physical cluster; one not listed is empty. -/
def State.cluster (s : State) (p : Nat) : Cluster := (Tab.get s.clusters p).getD Cluster.empty
/-- Changes a physical cluster. -/
def State.modCluster (s : State) (p : Nat) (f : Cluster → Cluster) : State := { s with clusters := Tab.set s.clusters p (f (s.cluster p)) }
/-- Changes a context. -/
def State.modCtx (s : State) (x : Nat) (f : Ctx → Ctx) : State := { s with ctxs := Tab.upd s.ctxs x f }
/-- Changes a launch. -/
def State.modLaunch (s : State) (l : Nat) (f : Launch → Launch) : State := { s with launches := Tab.upd s.launches l f }
/-- The physical cluster of a core. -/
def clusterOf (c : Nat) : Nat := c / 8
/-- The physical cluster that bears a logical number (R12). -/
def State.physOf (s : State) (l : Nat) : Nat := 16 * (l / 16) + (((s.dies[l / 16]?).getD Die.reset).map[l % 16]?).getD 0
/-- Two fresh numbers: the state advances its free-value counter (log 3: DESIGN CHOICE). -/
def State.tick (s : State) : State := { s with fresh := s.fresh + 1 }

/-! HBM. -/

/-- A physical address that no memory stands behind (R20). -/
def isHole (pa : Nat) : Bool := decide (pa / 2 ^ 36 ≥ 12) || decide (pa % 2 ^ 36 ≥ Config.stackBytes)
/-- The stack of a physical address (R20). -/
def stackOf (pa : Nat) : Nat := pa / 2 ^ 36
/-- The identity of the key in a slot: the slot and how often it was refilled (R232). -/
def State.keyId (s : State) (slot : Nat) : Nat := slot + 256 * (Tab.get s.fenaz.keys slot).getD 0

/-- A byte of HBM read under a key (R232, R234). -/
def State.hbmGet (s : State) (key pa : Nat) : Byte :=
  match Tab.get s.hbmKey (pa / 64) with
  | some k => if k = key then Mem.get s.hbm pa else Config.xtsOther k key pa (Mem.get s.hbm pa)
  | none => Mem.get s.hbm pa

/-- A line's bytes put under another key, as they then read (R232). -/
def State.rekey (s : State) (key line : Nat) : State :=
  match Tab.get s.hbmKey line with
  | some k =>
    if k = key then s
    else { s with hbm := Mem.write s.hbm (64 * line) ((List.range 64).map (fun i => s.hbmGet key (64 * line + i))), hbmKey := Tab.set s.hbmKey line key }
  | none => { s with hbmKey := Tab.set s.hbmKey line key }

/-- Writes a byte of HBM under a key. -/
def State.hbmPut (s : State) (key pa : Nat) (b : Byte) : State :=
  let s := s.rekey key (pa / 64)
  { s with hbm := Mem.put s.hbm pa b }

/-- What an access does (R85). -/
inductive Acc where
  | r | w | x
  deriving DecidableEq, Repr

/-- What a virtual address translates to (R83 to R86). -/
inductive Tr where
  | pa (a key : Nat)
  | window (sess dev addr : Nat)
  | absent
  | denied
  | hole
  | far
  deriving DecidableEq, Repr

/-- The page of a context that holds a virtual address (R85). -/
def Ctx.page (x : Ctx) (va : Nat) : Option Page := x.pages.find? (fun p => decide (p.va ≤ va) && decide (va < p.va + p.size))

/-- Whether a page allows an access (R85). -/
def Page.allows (p : Page) : Acc → Bool
  | .r => p.r
  | .w => p.w
  | .x => p.x

/-- The page of the system window that a context's sessions map at an address (R84). -/
def State.windowOf (s : State) (ctx va : Nat) : Option (Nat × Nat × Nat) :=
  s.sessions.findSome? (fun e =>
    if e.2.ctx = ctx then (e.2.pages.find? (fun p => p.1 == va / 4096)).map (fun p => (e.1, p.2.1, p.2.2 + va % 4096)) else none)

/-- Translation of one address in a context (R83, R84, R85, R21). -/
def State.translate (s : State) (ctx : Nat) (acc : Acc) (va : Nat) : Tr :=
  if va ≥ 2 ^ 57 then .far
  else if va ≥ 2 ^ 56 then
    match s.windowOf ctx va with
    | some (n, d, a) => .window n d a
    | none => .absent
  else match Tab.get s.ctxs ctx with
    | none => .absent
    | some x => match x.page va with
      | none => .absent
      | some p => if !p.allows acc then .denied
                  else if isHole (p.pa + (va - p.va)) then .hole
                  else .pa (p.pa + (va - p.va)) (s.keyId p.key)

/-- A byte of a context's global memory; what does not translate reads 0 (its accesses were checked before). -/
def State.glGet (s : State) (ctx va : Nat) : Byte :=
  match s.translate ctx .r va with
  | .pa a k => s.hbmGet k a
  | _ => 0

/-- A byte as the fetch of instructions reads it (R105). -/
def State.codeGet (s : State) (ctx va : Nat) : Byte :=
  match s.translate ctx .x va with
  | .pa a k => s.hbmGet k a
  | _ => 0

/-- A byte of global memory as an engine or an image reads it: through the system window it is another device's, a free value of nonce k (R84). -/
def State.glSee (s : State) (k ctx va : Nat) : Byte :=
  match s.translate ctx .r va with
  | .window _ _ _ => Config.freeByte k (2 ^ 60 + va)
  | _ => s.glGet ctx va
/-- n bytes of global memory as an engine or an image reads them. -/
def State.glBytes (s : State) (k ctx va n : Nat) : List Byte := (List.range n).map (fun i => s.glSee k ctx (va + i))

/-- Writes a byte of a context's global memory; what does not translate is not written. -/
def State.glPut (s : State) (ctx va : Nat) (b : Byte) : State :=
  match s.translate ctx .w va with
  | .pa a k => s.hbmPut k a b
  | _ => s

/-- n bytes of global memory. -/
def State.glRead (s : State) (ctx va : Nat) : Nat → List Byte
  | 0 => []
  | n + 1 => s.glGet ctx va :: State.glRead s ctx (va + 1) n

/-- Writes bytes of global memory. -/
def State.glWrite (s : State) (ctx va : Nat) : List Byte → State
  | [] => s
  | b :: bs => State.glWrite (s.glPut ctx va b) ctx (va + 1) bs

/-- The physical line of a global address, if it has one. -/
def State.lineOf (s : State) (ctx va : Nat) : Option Nat :=
  match s.translate ctx .r va with
  | .pa a _ => some (a / 64)
  | _ => none

/-- Whether no line and no synchronisation word that an engine holds carries a mark. -/
def State.unmarked (s : State) : Bool := s.hbmPoison.isEmpty && s.dies.all (fun d => d.words.all (fun w => w.bad.isEmpty))
/-- Whether the byte at a physical address is poisoned: its line, or its word in a synchronisation engine (R264, R266). -/
def State.paPoison (s : State) (pa : Nat) : Bool :=
  s.hbmPoison.contains (pa / 64) || s.dies.any (fun d => d.words.any (fun w => w.at_ == pa / 16 && w.bad.contains (pa / 4 % 4)))
/-- Whether some byte of a global range is poisoned (R266). -/
def State.glPoison (s : State) (ctx va n : Nat) : Bool :=
  !s.unmarked && (List.range n).any (fun i => match s.translate ctx .r (va + i) with | .pa a _ => s.paPoison a | _ => false)

/-- Clears the marks of whole 4-byte words of held synchronisation words that n bytes from a physical address cover. -/
def Die.cleanWords (d : Die) (covered : Nat → Bool) : Die :=
  { d with words := d.words.map (fun w => { w with bad := w.bad.filter (fun k => !(List.range 4).all (fun i => covered (16 * w.at_ + 4 * k + i))) }) }
/-- Clears the marks of the lines and of the held words whose every byte a test covers (R266). -/
def State.cleanBy (s : State) (covered : Nat → Bool) : State :=
  if s.unmarked then s
  else { s with hbmPoison := s.hbmPoison.filter (fun l => !(List.range 64).all (fun i => covered (64 * l + i))), dies := s.dies.map (fun d => d.cleanWords covered) }
/-- A store over whole lines and words clears their marks (R266): n bytes from va. -/
def State.glClean (s : State) (ctx va n : Nat) : State :=
  if s.unmarked then s
  else
    let pas := (List.range n).filterMap (fun i => match s.translate ctx .w (va + i) with | .pa a _ => some a | _ => none)
    s.cleanBy pas.contains

/-- Marks the lines of a global range that is written as poisoned (R266). -/
def State.glMark (s : State) (ctx va n : Nat) : State :=
  let ls := ((List.range n).filterMap (fun i => match s.translate ctx .w (va + i) with | .pa a _ => some (a / 64) | _ => none)).eraseDups
  { s with hbmPoison := s.hbmPoison ++ ls.filter (fun l => !s.hbmPoison.contains l) }

/-- Words 4-byte aligned that a range of bytes touches. -/
def wordsOf (a n : Nat) : List Nat := if n = 0 then [] else (List.range ((a + n - 1) / 4 - a / 4 + 1)).map (fun i => a / 4 + i)
/-- Words that a range of bytes covers whole. -/
def wholeWords (a n : Nat) : List Nat := (wordsOf a n).filter (fun w => decide (a ≤ 4 * w) && decide (4 * w + 4 ≤ a + n))

/-- Whether some word of a workgroup's scratchpad or tiles is poisoned. -/
def Workgroup.poisoned (w : Workgroup) (st : Store) (a n : Nat) : Bool := (wordsOf a n).any (fun i => w.poison.contains (st, i))
/-- Clears the marks of the words that a write covers whole (R266). -/
def Workgroup.clean (w : Workgroup) (st : Store) (a n : Nat) : Workgroup :=
  let ws := wholeWords a n
  { w with poison := w.poison.filter (fun e => !(decide (e.1 = st) && ws.contains e.2)) }
/-- Marks the words of a range. -/
def Workgroup.mark (w : Workgroup) (st : Store) (a n : Nat) : Workgroup :=
  { w with poison := w.poison ++ ((wordsOf a n).map (fun i => (st, i))).filter (fun e => !w.poison.contains e) }

/-- A write reaches what an oven operation not yet acquired reads, and is counted for MFENCE (R192). -/
def Workgroup.touch (w : Workgroup) (st : Store) (a n : Nat) : Workgroup :=
  { w with
    watch := w.watch.map (fun e => if e.rec_.isNone ∧ e.st = st ∧ a < e.hi ∧ e.lo < a + n then { e with hit := true } else e)
    writes := w.writes + 1
    wrote := w.wrote.filter (fun e => !(decide (e.st = st) && decide (a ≤ e.lo) && decide (e.hi ≤ a + n))) ++ [{ st := st, lo := a, hi := a + n, n := w.writes + 1 }] }
/-- A read reaches the record that an oven operation not yet acquired writes (R192). -/
def Workgroup.peek (w : Workgroup) (a n : Nat) : Workgroup :=
  if w.watch.all (fun e => e.rec_.isNone) then w
  else { w with watch := w.watch.map (fun e => if e.rec_.isSome ∧ a < e.hi ∧ e.lo < a + n then { e with hit := true } else e) }
/-- Whether something was written to a range since the count of writes stood at k (R192). -/
def Workgroup.since (w : Workgroup) (k : Nat) (st : Store) (lo hi : Nat) : Bool :=
  w.wrote.any (fun e => decide (e.st = st) && decide (k < e.n) && decide (e.lo < hi) && decide (lo < e.hi))

/-- Writes bytes of a scratchpad; whole words lose their marks (R266). Tags stay (R70). -/
def Workgroup.spWrite (w : Workgroup) (a : Nat) (bs : List Byte) : Workgroup :=
  let w := (w.clean .scratch a bs.length).touch .scratch a bs.length
  { w with scratch := Cells.write w.scratch a bs }
/-- Writes bytes of the tiles. -/
def Workgroup.tmWrite (w : Workgroup) (a : Nat) (bs : List Byte) : Workgroup :=
  let w := (w.clean .tile a bs.length).touch .tile a bs.length
  { w with tiles := Cells.write w.tiles a bs }

/-- The cluster-team unit of a workgroup on a physical cluster. -/
def State.team (s : State) (p launch unit : Nat) : Option Team :=
  (s.cluster p).teams.find? (fun t => t.launch == launch && t.unit == unit)
/-- Changes a cluster team. -/
def State.modTeam (s : State) (p launch unit : Nat) (f : Team → Team) : State :=
  s.modCluster p (fun k => { k with teams := k.teams.map (fun t => if t.launch = launch ∧ t.unit = unit then f t else t) })
/-- Bytes of a team's cluster SRAM. -/
def State.clRead (s : State) (p launch unit a n : Nat) : List Byte :=
  match s.team p launch unit with
  | some t => Mem.read t.mem a n
  | none => List.replicate n 0
/-- Writes bytes of a team's cluster SRAM (R79); whole words lose their marks. -/
def State.clPut (s : State) (p launch unit a : Nat) (bs : List Byte) : State :=
  s.modTeam p launch unit (fun t => { t with mem := Mem.write t.mem a bs, poison := t.poison.filter (fun w => !(wholeWords a bs.length).contains w) })

/-- Whether a residency entry's mirror holds a byte of a team's allocation (R80). -/
def ResEntry.holds (e : ResEntry) (launch unit a : Nat) : Bool :=
  e.launch == launch && e.unit == unit && decide (4096 * e.cloff ≤ a) && decide (a < 4096 * (e.cloff + e.len))
/-- A use of a team's allocation through .cl: the mirrors that it meets hold undefined values from then on (R81). -/
def State.clUse (s : State) (p launch unit a n : Nat) : State :=
  let met (e : ResEntry) : Bool := e.used.isNone && (List.range n).any (fun i => e.holds launch unit (a + i))
  if (s.cluster p).resid.any (fun e => met e.2) then
    s.modCluster p (fun k => { k with resid := k.resid.map (fun e => if met e.2 then (e.1, { e.2 with used := some s.fresh }) else e) })
  else s
/-- A byte of a team's cluster SRAM as an access through .cl reads it: undefined where a mirror lies (R81). -/
def State.clSee (s : State) (p launch unit a : Nat) : Byte :=
  match (s.cluster p).resid.find? (fun e => e.2.holds launch unit a) with
  | some e => Config.freeByte (e.2.used.getD s.fresh) (2 ^ 24 + a)
  | none => match s.team p launch unit with | some t => Mem.get t.mem a | none => 0
/-- n bytes of a team's cluster SRAM as an access through .cl reads them. -/
def State.clBytes (s : State) (p launch unit a n : Nat) : List Byte := (List.range n).map (fun i => s.clSee p launch unit (a + i))
/-- An access through .cl writes bytes (R79, R81). -/
def State.clWrite (s : State) (p launch unit a : Nat) (bs : List Byte) : State := (s.clUse p launch unit a bs.length).clPut p launch unit a bs

end Sys2Proof.Machine
end

