-- ==== Sys2Proof/Machine/Operands.lean ====
section
/-! DEFINITION. What each instruction reads and writes, its latency class, slot and roles (R14, R44, R46, R116), and the values of operands (R60 to R63, R108 to R110). -/
namespace Sys2Proof.Machine
open Sys2Proof

/-! Inline constants (R110). -/

/-- FP32 patterns of the entries 0x170 to 0x17F. -/
def fpTab : List Nat :=
  [0x3F000000, 0x3F800000, 0x40000000, 0x40800000, 0x41000000, 0x3E800000, 0xBF000000, 0xBF800000,
   0xC0000000, 0xC0800000, 0xC1000000, 0xBE800000, 0x3F317218, 0x3FB8AA3B, 0x7F800000, 0x7FC00000]

/-- The integer of an entry 0x150 to 0x16F. -/
def constZ (k : Nat) : Int := if k < 17 then k else 16 - (k : Int)

/-- An inline constant read as an integer of w bits. -/
def constI (w k : Nat) : Nat := if k < 32 then wrapN w (constZ k) else (fpTab[k - 32]?).getD 0

/-- An inline constant read by an integer operation of a 32-bit or packed type (R110). -/
def constIty (ty : ITy) (k : Nat) : Word :=
  if k ≥ 32 then BitVec.ofNat 32 ((fpTab[k - 32]?).getD 0)
  else match ty with
    | .i16x2 => BitVec.ofNat 32 (constI 16 k * 0x00010001)
    | .i8x4 => BitVec.ofNat 32 (constI 8 k * 0x01010101)
    | _ => BitVec.ofNat 32 (constI 32 k)

/-- The FP32 pattern of an inline constant. -/
def constF32 (k : Nat) : Nat := if k < 32 then (i2fF .f32 .rn .nosat (constZ k)).1 else (fpTab[k - 32]?).getD 0

/-- An inline constant read by a floating-point operation (R110). -/
def constFty (ty : FTy) (k : Nat) : Word :=
  match ty with
  | .f32 => BitVec.ofNat 32 (constF32 k)
  | .f16 => BitVec.ofNat 32 ((cvtF .f16 .f32 .rn .nosat (constF32 k)).1 * 0x00010001)
  | .bf16 => BitVec.ofNat 32 ((cvtF .bf16 .f32 .rn .nosat (constF32 k)).1 * 0x00010001)

/-! Register fields. -/

/-- A register field: its SUB (R249), the operand, how many v registers or s registers from it, and whether the instruction writes it. -/
structure Fld where
  sub : Nat
  o   : Opnd
  vn  : Nat
  sn  : Nat
  w   : Bool
  deriving DecidableEq, Repr

/-- A 32-bit destination, a 64-bit one, and sources. -/
def w32 (o : Opnd) : Fld := { sub := 0, o := o, vn := 1, sn := 1, w := true }
def w64 (o : Opnd) : Fld := { sub := 0, o := o, vn := 2, sn := 1, w := true }
def w128 (o : Opnd) : Fld := { sub := 0, o := o, vn := 4, sn := 1, w := true }
def r32 (k : Nat) (o : Opnd) : Fld := { sub := k, o := o, vn := 1, sn := 1, w := false }
def r64 (k : Nat) (o : Opnd) : Fld := { sub := k, o := o, vn := 2, sn := 1, w := false }
def r128 (k : Nat) (o : Opnd) : Fld := { sub := k, o := o, vn := 4, sn := 1, w := false }
def rs (k : Nat) (n : Fin 64) : Fld := { sub := k, o := .s n, vn := 1, sn := 1, w := false }
def rs2 (k : Nat) (n : Fin 64) : Fld := { sub := k, o := .s n, vn := 1, sn := 2, w := false }
def ws (n : Fin 64) : Fld := { sub := 0, o := .s n, vn := 1, sn := 1, w := true }
def ws2 (n : Fin 64) : Fld := { sub := 0, o := .s n, vn := 1, sn := 2, w := true }

/-- Whether an integer type is 64 bits wide (R268). -/
def wide : ITy → Bool | .i64 | .u64 => true | _ => false

/-- Fields by the width of a type. -/
def wI (ty : ITy) (o : Opnd) : Fld := if wide ty then w64 o else w32 o
def rI (ty : ITy) (k : Nat) (o : Opnd) : Fld := if wide ty then r64 k o else r32 k o

/-- Fields of loads, of stores and of atomics by size (R325, R329). -/
def wSz (sz : Size) (o : Opnd) : Fld := match sz with | .b64 => w64 o | .b128 => w128 o | _ => w32 o
def rSz (sz : Size) (k : Nat) (o : Opnd) : Fld := match sz with | .b64 => r64 k o | .b128 => r128 k o | _ => r32 k o
/-- The base of an address by space (R321). -/
def rBase (sp : Space) (o : Opnd) : Fld := match sp with | .gl => r64 1 o | _ => r32 1 o

/-- What an instruction uses: register fields, predicates read, predicates written, and the type that its inline constants take. -/
structure Use where
  fs : List Fld := []
  pr : List (Fin 8) := []
  pw : List (Fin 8) := []

def use3 (ty : ITy) (d a b : Opnd) : Use := { fs := [wI ty d, rI ty 1 a, rI ty 2 b] }
def useSh (ty : ITy) (d a b : Opnd) : Use := { fs := [wI ty d, rI ty 1 a, r32 2 b] }
def use2 (ty : ITy) (d a : Opnd) : Use := { fs := [wI ty d, rI ty 1 a] }
def useF3 (d a b : Opnd) : Use := { fs := [w32 d, r32 1 a, r32 2 b] }
def useF2 (d a : Opnd) : Use := { fs := [w32 d, r32 1 a] }
def useAB (a b : Fin 64) : Use := { fs := [rs 1 a, rs 2 b] }
def useAB2 (a b : Fin 64) : Use := { fs := [rs 1 a, rs2 2 b] }

/-- The type of LSCAN and LRED. -/
def lopTy : LOp → ITy | .int _ m => m.ty | .fadd _ _ => .i32

/-- Registers and predicates of every instruction; an event uses none. The control operand of BFX and BFI is one of 32 bits under .i64 too, which R290 does not say (log 73:
DEDUCED). -/
def useOf : Instr → Use
  | .brcNear _ cp _ _ _ _ => { pr := [cp] }
  | .brcFar _ cp _ _ _ _ => { pr := [cp] }
  | .jmpi _ a _ => { fs := [r32 1 a] }
  | .bkoff _ a => { fs := [r32 1 a] }
  | .shape _ n a => { fs := [{ sub := 1, o := .s a, vn := 1, sn := n.val + 1, w := false }] }
  | .spawn _ _ a b => { fs := [r32 1 a, r32 2 b] }
  | .elect _ d => { pw := [d] }
  | .voteAny _ d a => { pr := [a], pw := [d] }
  | .voteAll _ d a => { pr := [a], pw := [d] }
  | .voteUni _ d a => { pr := [a], pw := [d] }
  | .voteBallot _ d a => { fs := [ws d], pr := [a] }
  | .getsr _ _ _ d => { fs := [w32 d] }
  | .setsr _ _ _ a => { fs := [r32 1 a] }
  | .iadd _ m d a b => use3 m.ty d a b
  | .isub _ m d a b => use3 m.ty d a b
  | .imulLo _ m d a b => use3 m.ty d a b
  | .imulHi _ ty d a b => use3 ty d a b
  | .imad _ m d a b cc => { fs := [wI m.ty d, rI m.ty 1 a, rI m.ty 2 b, rI m.ty 3 cc] }
  | .idiv _ m d a b => use3 m.ty d a b
  | .irem _ m d a b => use3 m.ty d a b
  | .imin _ ty d a b => use3 ty d a b
  | .imax _ ty d a b => use3 ty d a b
  | .iabs _ m d a => use2 m.ty d a
  | .and _ ty d a b => use3 ty d a b
  | .or _ ty d a b => use3 ty d a b
  | .xor _ ty d a b => use3 ty d a b
  | .not _ ty d a => use2 ty d a
  | .shl _ ty d a b => useSh ty d a b
  | .shr _ ty d a b => useSh ty d a b
  | .sar _ ty d a b => useSh ty d a b
  | .rot _ ty d a b => useSh ty d a b
  | .bfx _ ty d a b => useSh ty d a b
  | .bfi _ ty d a b cc => { fs := [wI ty d, rI ty 1 a, rI ty 2 b, r32 3 cc] }
  | .bcntPop _ ty d a => use2 ty d a
  | .bcntClz _ ty d a => use2 ty d a
  | .bcntCtz _ ty d a => use2 ty d a
  | .icmp _ ty _ d a b => { fs := [rI ty 1 a, rI ty 2 b], pw := [d] }
  | .sel _ ty p _ d a b => { use3 ty d a b with pr := [p] }
  | .lea _ ty _ d a b => { fs := [w64 d, r64 1 a, rI ty 2 b] }
  | .mov _ ty d a => use2 ty d a
  | .plop _ f d a b => { pr := if f = .not then [a] else [a, b], pw := [d] }
  | .pmovTom _ d a => { fs := [ws d], pr := [a] }
  | .pmovFrm _ d a => { fs := [r32 1 a], pw := [d] }
  | .pmovPad _ d => { pw := [d] }
  | .pmovTov _ d a => { fs := [w32 d], pr := [a] }
  | .pmovFrv _ d a => { fs := [r32 1 a], pw := [d] }
  | .shflIdx _ d a b => useF3 d a b
  | .shflUp _ d a b => useF3 d a b
  | .shflDown _ d a b => useF3 d a b
  | .shflXor _ d a b => useF3 d a b
  | .lscan _ op _ d a => use2 (lopTy op) d a
  | .lred _ op d a => use2 (lopTy op) d a
  | .fadd _ _ d a b => useF3 d a b
  | .fsub _ _ d a b => useF3 d a b
  | .fmul _ _ d a b => useF3 d a b
  | .ffma _ _ d a b cc => { fs := [w32 d, r32 1 a, r32 2 b, r32 3 cc] }
  | .fmin _ _ _ d a b => useF3 d a b
  | .fmax _ _ _ d a b => useF3 d a b
  | .fabsAbs _ _ _ d a => useF2 d a
  | .fabsNeg _ _ _ d a => useF2 d a
  | .fcmp _ _ _ d a b => { fs := [r32 1 a, r32 2 b], pw := [d] }
  | .fsfuRcp _ _ d a => useF2 d a
  | .fsfuRsqrt _ _ d a => useF2 d a
  | .fsfuSqrt _ _ d a => useF2 d a
  | .fsfuExp2 _ _ d a => useF2 d a
  | .fsfuLog2 _ _ d a => useF2 d a
  | .fsfuSinpi _ _ d a => useF2 d a
  | .fsfuCospi _ _ d a => useF2 d a
  | .fsfuDiv _ _ d a b => useF3 d a b
  | .fdotX2 _ _ d a b cc => { fs := [w32 d, r32 1 a, r32 2 b, r32 3 cc] }
  | .fdotX4 _ _ d a b cc => { fs := [w32 d, r64 1 a, r64 2 b, r32 3 cc] }
  | .fcvt _ _ _ _ _ d a => useF2 d a
  | .i2f _ _ _ _ _ d a => useF2 d a
  | .f2i _ _ _ _ _ d a => useF2 d a
  | .fclassMask _ _ d a => useF2 d a
  | .fclassTest _ _ d a b => { fs := [r32 1 a, r32 2 b], pw := [d] }
  | .flagsTest _ _ d => { pw := [d] }
  | .flagsGor _ d => { fs := [ws d] }
  | .fpack _ _ _ _ d a b => { fs := [w32 d, r32 1 a, { sub := 2, o := .s b, vn := 1, sn := 1, w := true }] }
  | .funpk _ _ _ _ d a b => useF3 d a b
  | .ld _ sp sz _ _ d a => { fs := [wSz sz d, rBase sp a] }
  | .st _ sp sz _ a b => { fs := [rBase sp a, rSz sz 2 b] }
  | .ldf _ _ _ d a => useF2 d a
  | .ste _ _ a b => { fs := [r32 1 a, r32 2 b] }
  | .tag _ _ _ _ a => { fs := [r32 1 a] }
  | .atom _ _ sp sz _ _ d a b => { fs := [wSz sz d, rBase sp a, rSz sz 2 b] }
  | .atomCas _ sp sz _ d a b cc => { fs := [wSz sz d, rBase sp a, rSz sz 2 b, rSz sz 3 cc] }
  | .red _ _ sp sz _ _ a b => { fs := [rBase sp a, rSz sz 2 b] }
  | .swinit _ sp _ a b cc => { fs := [rBase sp a, r32 2 b, r32 3 cc] }
  | .swarrAny _ sp _ a b => { fs := [rBase sp a, r32 2 b] }
  | .swarrGen _ sp _ a b cc => { fs := [rBase sp a, r32 2 b, r32 3 cc] }
  | .swwait _ sp _ a b => { fs := [rBase sp a, r32 2 b] }
  | .copy _ _ _ _ a b cc => { fs := [rs 1 a, rs 2 b, rs 3 cc] }
  | .copyl _ a b => useAB a b
  | .fetch _ _ a b _ => useAB a b
  | .residPin _ _ a b => useAB a b
  | .residRel _ b => { fs := [rs 2 b] }
  | .residStat _ d b => { fs := [ws2 d, rs 2 b] }
  | .qctlOcc _ _ d => { fs := [w32 d] }
  | .qctlPerm _ _ d => { fs := [w32 d] }
  | .spill _ b a => { fs := [r32 1 a, r32 2 (.v b)] }
  | .fill _ d a => { fs := [w32 (.v d), r32 1 a] }
  | .pref _ _ a => { fs := [r64 1 a] }
  | .rkld _ _ _ _ a b => useAB a b
  | .mmul _ x => useAB x.a x.b
  | .mtopk _ x _ => useAB2 x.a x.b
  | .mnormA _ _ _ _ a b _ _ => useAB a b
  | .mnormB _ _ _ a b _ _ => useAB a b
  | .aallocAny _ a => { fs := [{ sub := 1, o := .s a, vn := 1, sn := 1, w := true }] }
  | .aband _ a b => useAB a b
  | .adrainNone _ _ _ _ _ _ a b => useAB2 a b
  | .adrainP24 _ _ _ _ _ _ a b => useAB2 a b
  | .adrainP48 _ _ _ _ _ _ a b => useAB2 a b
  | .aload _ _ _ _ a => { fs := [rs 1 a] }
  | .wrd _ a _ _ => { fs := [rs 1 a] }
  | .wmerge _ _ a b => useAB a b
  | .astat _ d _ => { fs := [w32 d] }
  | .selkSum _ a b _ => useAB a b
  | .selkExp _ a b _ => useAB a b
  | .sortr _ _ a b _ => useAB a b
  | .tidsetSet _ _ _ a => { fs := [rs 1 a] }
  | .tidget _ _ _ a => { fs := [rs 1 a] }
  | .cxdefOne _ _ _ a => { fs := [rs 1 a] }
  | .cxdefAnd _ _ _ _ a => { fs := [rs 1 a] }
  | .cxdefOr _ _ _ _ a => { fs := [rs 1 a] }
  | .cxsplit _ _ a b => useAB a b
  | .cxfill _ _ d _ _ => { fs := [w128 (.v d)] }
  | .cxcurSave _ _ a => { fs := [rs 1 a] }
  | .cxcurLoad _ _ a => { fs := [rs 1 a] }
  | .cxcurInfo _ _ d => { fs := [ws2 d] }
  | .walkdef _ _ _ a => { fs := [rs 1 a] }
  | .walk _ _ a b cc _ => { fs := [r64 1 a, r64 2 b, r32 3 cc] }
  | .ired _ _ _ _ a b _ => { fs := [r64 1 a, r64 2 b] }
  | .plev _ a => { fs := [r32 1 a] }
  | .sysRd _ _ d => { fs := [ws d] }
  | .sysWr _ _ a => { fs := [r32 1 a] }
  | _ => {}

/-- The registers of a field. -/
def Fld.regs (f : Fld) : List RegId :=
  match f.o with
  | .v n => (List.range f.vn).map (fun i => .v (n.val + i))
  | .s n => (List.range f.sn).map (fun i => .s (n.val + i))
  | .o n => [.o n.val]
  | .q n => [.q n.val]
  | _ => []

/-- Registers that an instruction reads, its guard among them. -/
def readsOf (i : Instr) (c : Ctl) : List RegId :=
  let u := useOf i
  ((u.fs.filter (fun f => !f.w)).flatMap Fld.regs) ++ ((c.pg :: u.pr).filter (fun p => p.val < 7)).map (fun p => RegId.p p.val)
    ++ (if c.q then [.q 0] else [])

/-- Registers that an instruction writes, q0 and q1 through the Q bit among them. -/
def writesOf (i : Instr) (c : Ctl) : List RegId :=
  let u := useOf i
  ((u.fs.filter (fun f => f.w)).flatMap Fld.regs) ++ (u.pw.filter (fun p => p.val < 7)).map (fun p => RegId.p p.val)
    ++ (if c.q then [.q 0, .q 1] else [])

/-- Issue slots (R14), families in the order of the opcode map. -/
def slotOf : Instr → Slot
  | .ld _ _ _ _ _ _ _ | .st _ _ _ _ _ _ | .ldf _ _ _ _ _ | .ste _ _ _ _ | .tag _ _ _ _ _ | .atom _ _ _ _ _ _ _ _ _
  | .atomCas _ _ _ _ _ _ _ _ | .red _ _ _ _ _ _ _ _ | .fence _ _ _ _ | .mfence _ | .swinit _ _ _ _ _ _ | .swarrAny _ _ _ _ _
  | .swarrGen _ _ _ _ _ _ | .swwait _ _ _ _ _ | .copy _ _ _ _ _ _ _ | .copyl _ _ _ | .fetch _ _ _ _ _ | .residPin _ _ _ _
  | .residRel _ _ | .residStat _ _ _ | .qctlOcc _ _ _ | .qctlPerm _ _ _ | .qctlReset _ _ | .spill _ _ _ | .fill _ _ _ | .pref _ _ _ => .memory
  | .rkld _ _ _ _ _ _ | .rkswKeep _ | .rkswDrop _ | .mmul _ _ | .mtopk _ _ _ | .mnormA _ _ _ _ _ _ _ _ | .mnormB _ _ _ _ _ _ _
  | .aalloc _ _ | .aallocAny _ _ | .afree _ _ | .aband _ _ _ | .adrainNone _ _ _ _ _ _ _ _ | .adrainP24 _ _ _ _ _ _ _ _
  | .adrainP48 _ _ _ _ _ _ _ _ | .aload _ _ _ _ _ | .azero _ _ | .wrd _ _ _ _ | .wmerge _ _ _ _ | .astat _ _ _ | .selkSum _ _ _ _
  | .selkExp _ _ _ _ | .sortr _ _ _ _ _ | .tidsetSet _ _ _ _ | .tidsetClr _ _ _ | .tidget _ _ _ _ | .cxdefOne _ _ _ _
  | .cxdefAnd _ _ _ _ _ | .cxdefOr _ _ _ _ _ | .cxsplit _ _ _ _ | .cxfill _ _ _ _ _ | .cxcurSave _ _ _ | .cxcurLoad _ _ _
  | .cxcurInfo _ _ _ | .cxcurDrop _ _ | .walkdef _ _ _ _ | .walk _ _ _ _ _ _ | .ired _ _ _ _ _ _ _ | .engwait _ _ | .plev _ _ => .matrix
  | _ => .vector

/-- Latency of the fixed classes (R116); none for the variable class. -/
def latOf : Instr → Option Nat
  | .mov _ _ _ _ => some 2
  | .iadd _ _ _ _ _ | .isub _ _ _ _ _ | .imulLo _ _ _ _ _ | .imulHi _ _ _ _ _ | .imad _ _ _ _ _ _ | .imin _ _ _ _ _ | .imax _ _ _ _ _
  | .iabs _ _ _ _ | .and _ _ _ _ _ | .or _ _ _ _ _ | .xor _ _ _ _ _ | .not _ _ _ _ | .shl _ _ _ _ _ | .shr _ _ _ _ _ | .sar _ _ _ _ _
  | .rot _ _ _ _ _ | .bfx _ _ _ _ _ | .bfi _ _ _ _ _ _ | .bcntPop _ _ _ _ | .bcntClz _ _ _ _ | .bcntCtz _ _ _ _ | .icmp _ _ _ _ _ _
  | .sel _ _ _ _ _ _ _ | .lea _ _ _ _ _ _ | .plop _ _ _ _ _ | .pmovTom _ _ _ | .pmovFrm _ _ _ | .pmovPad _ _ | .pmovTov _ _ _ | .pmovFrv _ _ _
  | .elect _ _ | .voteAny _ _ _ | .voteAll _ _ _ | .voteUni _ _ _ | .voteBallot _ _ _ => some 4
  | .fadd _ _ _ _ _ | .fsub _ _ _ _ _ | .fmul _ _ _ _ _ | .ffma _ _ _ _ _ _ | .fmin _ _ _ _ _ _ | .fmax _ _ _ _ _ _ | .fabsAbs _ _ _ _ _
  | .fabsNeg _ _ _ _ _ | .fcmp _ _ _ _ _ _ | .fcvt _ _ _ _ _ _ _ | .i2f _ _ _ _ _ _ _ | .f2i _ _ _ _ _ _ _ | .fclassMask _ _ _ _
  | .fclassTest _ _ _ _ _ | .fpack _ _ _ _ _ _ _ | .funpk _ _ _ _ _ _ _ => some 6
  | _ => none

/-- Instructions with a flags slot: they update %vfl unless NF is 1 (R141). -/
def flagOp : Instr → Bool
  | .fadd _ _ _ _ _ | .fsub _ _ _ _ _ | .fmul _ _ _ _ _ | .ffma _ _ _ _ _ _ | .fmin _ _ _ _ _ _ | .fmax _ _ _ _ _ _ | .fcmp _ _ _ _ _ _
  | .fsfuRcp _ _ _ _ | .fsfuRsqrt _ _ _ _ | .fsfuSqrt _ _ _ _ | .fsfuExp2 _ _ _ _ | .fsfuLog2 _ _ _ _ | .fsfuSinpi _ _ _ _
  | .fsfuCospi _ _ _ _ | .fsfuDiv _ _ _ _ _ | .fdotX2 _ _ _ _ _ _ | .fdotX4 _ _ _ _ _ _ | .fcvt _ _ _ _ _ _ _ | .i2f _ _ _ _ _ _ _
  | .f2i _ _ _ _ _ _ _ | .fpack _ _ _ _ _ _ _ | .funpk _ _ _ _ _ _ _ => true
  | .lscan _ (.fadd _ _) _ _ _ | .lred _ (.fadd _ _) _ _ => true
  | _ => false

/-- Instructions that read or write %vfl whole: they issue after every earlier update has retired (R142, R317). -/
def flagWait : Instr → Bool
  | .getsr _ _ n _ | .setsr _ _ n _ => n == 0x20
  | .flagsTest _ _ _ | .flagsClr _ _ | .flagsSet _ _ | .flagsGor _ _ => true
  | _ => false

/-- The scope of the release that an instruction of a lane makes (R181); none where it makes none. -/
def relOf : Instr → Option Scope
  | .st _ _ _ m _ _ | .atom _ _ _ _ _ m _ _ _ | .atomCas _ _ _ m _ _ _ _ | .red _ _ _ _ _ m _ _ => if m.ord = .rel ∨ m.ord = .ar then some m.scope else none
  | .fence _ sc o _ => if o = .rel ∨ o = .ar then some sc else none
  | .swarrAny _ _ m _ _ | .swarrGen _ _ m _ _ _ | .swinit _ _ m _ _ _ => if m.ord = .rel then some m.scope else none
  | .ste _ _ _ _ => some .core
  | _ => none

/-- Who may issue an instruction. -/
inductive Open where
  | all | vector | copy | matrix
  deriving DecidableEq, Repr

/-- The roles open to an instruction (R44). -/
def openTo : Instr → Open
  | .fadd _ _ _ _ _ | .fsub _ _ _ _ _ | .fmul _ _ _ _ _ | .ffma _ _ _ _ _ _ | .fmin _ _ _ _ _ _ | .fmax _ _ _ _ _ _ | .fabsAbs _ _ _ _ _
  | .fabsNeg _ _ _ _ _ | .fcmp _ _ _ _ _ _ | .fsfuRcp _ _ _ _ | .fsfuRsqrt _ _ _ _ | .fsfuSqrt _ _ _ _ | .fsfuExp2 _ _ _ _ | .fsfuLog2 _ _ _ _
  | .fsfuSinpi _ _ _ _ | .fsfuCospi _ _ _ _ | .fsfuDiv _ _ _ _ _ | .fdotX2 _ _ _ _ _ _ | .fdotX4 _ _ _ _ _ _ | .fcvt _ _ _ _ _ _ _
  | .i2f _ _ _ _ _ _ _ | .f2i _ _ _ _ _ _ _ | .fclassMask _ _ _ _ | .fclassTest _ _ _ _ _ | .flagsTest _ _ _ | .flagsClr _ _ | .flagsSet _ _
  | .flagsGor _ _ | .fpack _ _ _ _ _ _ _ | .funpk _ _ _ _ _ _ _
  | .adrainNone _ _ _ _ _ _ _ _ | .adrainP24 _ _ _ _ _ _ _ _ | .adrainP48 _ _ _ _ _ _ _ _ | .wrd _ _ _ _ | .astat _ _ _ | .selkSum _ _ _ _
  | .selkExp _ _ _ _ | .sortr _ _ _ _ _ | .cxdefOne _ _ _ _ | .cxdefAnd _ _ _ _ _ | .cxdefOr _ _ _ _ _ | .cxfill _ _ _ _ _ | .cxsplit _ _ _ _
  | .cxcurSave _ _ _ | .cxcurLoad _ _ _ | .cxcurInfo _ _ _ | .cxcurDrop _ _ => .vector
  | .copy _ _ _ _ _ _ _ | .copyl _ _ _ | .fetch _ _ _ _ _ | .residPin _ _ _ _ | .residRel _ _ | .residStat _ _ _ | .rkld _ _ _ _ _ _
  | .walk _ _ _ _ _ _ | .ired _ _ _ _ _ _ _ => .copy
  | .mfence _ | .rkswKeep _ | .rkswDrop _ | .mmul _ _ | .mtopk _ _ _ | .mnormA _ _ _ _ _ _ _ _ | .mnormB _ _ _ _ _ _ _ | .aalloc _ _ | .aallocAny _ _
  | .afree _ _ | .aband _ _ _ | .aload _ _ _ _ _ | .azero _ _ | .wmerge _ _ _ _ => .matrix
  | _ => .all

/-- Whether a role may issue an instruction (R44). -/
def roleOk (i : Instr) (r : Role) : Bool :=
  match openTo i, r with
  | .all, _ => true
  | .vector, .vector => true
  | .copy, .copy => true
  | .matrix, .matrix => true
  | _, _ => false

/-! Register files of a group. -/

/-- Keys of a lane register in RegFile. -/
def vKey (n l : Nat) : Nat := 64 * n + l
/-- A birth value of a 32-bit lane register (R60, log 3: DESIGN CHOICE): v, o and q under keys of their own. -/
def Group.v? (g : Group) (n l : Nat) : Word := (Tab.get g.v (vKey n l)).getD (Config.freeWord g.birth (vKey n l))
def Group.o? (g : Group) (n l : Nat) : Word := (Tab.get g.o (vKey n l)).getD (Config.freeWord g.birth (vKey (256 + n) l))
def Group.q? (g : Group) (n l : Nat) : Word := (Tab.get g.q (vKey n l)).getD (Config.freeWord g.birth (vKey (264 + n) l))
def Group.s? (g : Group) (n : Nat) : DWord := (Tab.get g.s n).getD (Config.freeDWord g.birth n)
/-- A predicate as a lane mask; p7 reads 1 in every lane (R60). -/
def Group.p? (g : Group) (n : Nat) : DWord :=
  if n = 7 then BitVec.allOnes 64 else (Tab.get g.p n).getD (Config.freeDWord g.birth (64 + n))
/-- The sticky flags of a lane (R140). -/
def Group.fl? (g : Group) (l : Nat) : BitVec 5 := (Tab.get g.vfl l).getD 0

/-- The value of a register in a lane, as a 64-bit number; scalars in lane 0, predicates as 0 or 1. -/
def Group.reg (g : Group) (r : RegId) (l : Nat) : DWord :=
  match r with
  | .v n => (g.v? n l).setWidth 64
  | .s n => g.s? n
  | .o n => (g.o? n l).setWidth 64
  | .q n => (g.q? n l).setWidth 64
  | .p n => if laneIn (g.p? n) l then 1 else 0

/-- Writes of lane registers, scalars and predicates. -/
def Group.setV (g : Group) (n l : Nat) (x : Word) : Group := { g with v := Tab.set g.v (vKey n l) x }
def Group.setO (g : Group) (n l : Nat) (x : Word) : Group := { g with o := Tab.set g.o (vKey n l) x }
def Group.setQ (g : Group) (n l : Nat) (x : Word) : Group := { g with q := Tab.set g.q (vKey n l) x }
def Group.setS (g : Group) (n : Nat) (x : DWord) : Group := { g with s := Tab.set g.s n x }
/-- A write to p7 is discarded (R60). -/
def Group.setP (g : Group) (n : Nat) (m : DWord) : Group := if n = 7 then g else { g with p := Tab.set g.p n m }
/-- Bits of one predicate in the lanes of a mask. -/
def Group.setPLanes (g : Group) (n : Nat) (mask val : DWord) : Group := g.setP n ((g.p? n &&& ~~~mask) ||| (val &&& mask))
/-- Raises flags in a lane (R140). -/
def Group.flag (g : Group) (l : Nat) (f : Nat) : Group :=
  if f = 0 then g else { g with vfl := Tab.set g.vfl l (g.fl? l ||| BitVec.ofNat 5 f) }

end Sys2Proof.Machine
end

