-- ==== Sys2Proof/Machine/Ops.lean ====
section
/-! DEFINITION. Shared operations: queues (R48), synchronisation words (R73), frontiers (R32, R35), statuses (R244), the end of groups and
workgroups (R33, R55, R59), taking a trap, entering its handler and returning from it (R249 to R256). -/
namespace Sys2Proof.Machine
open Sys2Proof

/-- What one exec answers. -/
abbrev Out := Host.Outcome State Fault Refusal

/-! Arbiters (R223 to R225). -/

/-- The die whose arbiters serve a stack. -/
def dieOfStack (st : Nat) : Nat := st / 6
/-- An arbiter's account after reset (log 9: DESIGN CHOICE). -/
def Arb.reset : Arb := { budget := 131071, floor := 128, next := (131071, 128), left := 131071, onFloor := false, queue := [] }
/-- The account of a physical cluster at a stack's arbiter (R223). -/
def State.arb (s : State) (st p : Nat) : Arb := (Tab.get s.arbs (32 * st + p)).getD Arb.reset

/-- Charges sectors at an arbiter and to a context's quota (R223, R225), and counts them (R237). -/
def State.charge1 (s : State) (ctx p st n : Nat) : State :=
  if n = 0 then s
  else
    let a := s.arb st p
    let s := { s with arbs := Tab.set s.arbs (32 * st + p) { a with left := a.left - n }, counts := { s.counts with sectors := s.counts.sectors + n } }
    s.modCtx ctx (fun x => { x with quota := Tab.upd x.quota (dieOfStack st) (fun q => (q.1, q.2 - n)) })

/-- Sectors of a list at a stack. -/
def atStack (st : Nat) (secs : List Nat) : Nat := (secs.filter (fun k => stackOf (32 * k) == st)).length

/-- Charges a list of distinct sectors, by number (R223). -/
def State.charge (s : State) (ctx p : Nat) (secs : List Nat) : State :=
  (List.range 12).foldl (fun s st => s.charge1 ctx p st (atStack st secs)) s

/-- The 32-byte sectors of a global range that lie in HBM. -/
def State.sectors (s : State) (ctx : Nat) (a : Acc) (va n : Nat) : List Nat :=
  ((List.range n).filterMap (fun i => match s.translate ctx a (va + i) with | .pa p _ => some (p / 32) | _ => none)).eraseDups

/-- A request at one arbiter (R223): charged where the remainder is above 0 and none waits before it, or the class is 0; else held in order of arrival. -/
def State.request1 (s : State) (ctx p tc id st n : Nat) : State :=
  let a := s.arb st p
  if n ≠ 0 ∧ tc ≠ 0 ∧ (a.left ≤ 0 ∨ a.queue ≠ []) then
    { s with arbs := Tab.set s.arbs (32 * st + p) { a with queue := a.queue ++ [{ id := id, ctx := ctx, n := n }] } }
  else s.charge1 ctx p st n
/-- The request of an access for a list of sectors, under a number (R223). -/
def State.request (s : State) (ctx p tc id : Nat) (secs : List Nat) : State :=
  (List.range 12).foldl (fun s st => s.request1 ctx p tc id st (atStack st secs)) s
/-- Whether an arbiter holds a request of a number. -/
def State.holds (s : State) (id : Nat) : Bool := s.arbs.any (fun a => a.2.queue.any (fun r => r.id == id))

/-- Whether the arbiters grant these sectors (R223). -/
def State.granted (s : State) (p tc : Nat) (secs : List Nat) : Bool :=
  decide (tc = 0) || (List.range 12).all (fun st => atStack st secs == 0 || (decide (0 < (s.arb st p).left) && (s.arb st p).queue.isEmpty))

/-- Grants the requests held at an arbiter, in order, while a remainder is above 0 (R223). -/
def State.grantHeld (s : State) (p st : Nat) : List ArbReq → State
  | [] => { s with arbs := Tab.set s.arbs (32 * st + p) { s.arb st p with queue := [] } }
  | r :: rs =>
    if (s.arb st p).left ≤ 0 then { s with arbs := Tab.set s.arbs (32 * st + p) { s.arb st p with queue := r :: rs } }
    else State.grantHeld (s.charge1 r.ctx p st r.n) p st rs

/-! Queues (R45 to R48). -/

/-- A declared, empty queue: every phase bit differs from the read phase, and the permits equal the depth. -/
def Queue.fresh (kind width depth : Nat) : Queue :=
  { kind := kind, width := width, depth := depth, slots := List.replicate depth { vals := [], phase := true }, wIdx := 0, wPhase := false,
    permits := depth, rIdx := 0, rPhase := false }

/-- Occupied slots: those from the read index to the write index. -/
def Queue.occ (q : Queue) : Nat := if q.wPhase = q.rPhase then q.wIdx - q.rIdx else q.depth - q.rIdx + q.wIdx

/-- Whether the slot at the read index is full (R48). -/
def Queue.ready (q : Queue) : Bool :=
  match q.slots[q.rIdx]? with
  | some x => x.phase == q.rPhase
  | none => false

/-- A push (R48). -/
def Queue.push (q : Queue) (vals : List DWord) : Queue :=
  let q := { q with permits := q.permits - 1, slots := q.slots.set q.wIdx { vals := vals, phase := q.wPhase } }
  if q.wIdx + 1 = q.depth then { q with wIdx := 0, wPhase := !q.wPhase } else { q with wIdx := q.wIdx + 1 }

/-- The values that a pop takes. -/
def Queue.front (q : Queue) : List DWord := match q.slots[q.rIdx]? with | some x => x.vals | none => []

/-- A pop (R48). -/
def Queue.pop (q : Queue) : Queue :=
  let q := { q with permits := q.permits + 1 }
  if q.rIdx + 1 = q.depth then { q with rIdx := 0, rPhase := !q.rPhase } else { q with rIdx := q.rIdx + 1 }

/-- The queue of a number in a workgroup. -/
def Workgroup.queue (w : Workgroup) (n : Nat) : Queue := (w.queues[n]?).getD (Queue.fresh 0 0 0)
/-- Changes a queue. -/
def Workgroup.modQueue (w : Workgroup) (n : Nat) (f : Queue → Queue) : Workgroup := { w with queues := w.queues.modify n f }

/-! Synchronisation words (R72, R73). -/

/-- A synchronisation word's fields. -/
structure SWord where
  target : Nat
  count  : Nat
  gen    : Nat
  ovr    : Bool
  stale  : Bool
  abort  : Bool
  ten    : Bool
  deriving DecidableEq, Repr

/-- The fields of a 128-bit image. -/
def SWord.ofNat (w : Nat) : SWord :=
  { target := bits w 31 0, count := bits w 63 32, gen := bits w 79 64, ovr := w.testBit 80, stale := w.testBit 81, abort := w.testBit 82, ten := w.testBit 83 }

/-- The image of a word, with bits [127:84] zero. -/
def SWord.toNat (w : SWord) : Nat :=
  w.target % 2 ^ 32 + 2 ^ 32 * (w.count % 2 ^ 32) + 2 ^ 64 * (w.gen % 65536) + 2 ^ 80 * w.ovr.toNat + 2 ^ 81 * w.stale.toNat + 2 ^ 82 * w.abort.toNat + 2 ^ 83 * w.ten.toNat

/-- An addition (R73). -/
def SWord.add (w : SWord) (n : Nat) (g : Option Nat) : SWord :=
  if w.abort then w
  else if g.isSome ∧ g ≠ some w.gen then { w with stale := true }
  else if w.target = 0 then { w with abort := true }
  else if w.count + n ≥ w.target then
    { w with gen := (w.gen + (w.count + n) / w.target) % 65536, count := (w.count + n) % w.target, ovr := w.ovr || decide (w.count + n > w.target) }
  else { w with count := w.count + n }

/-- Whether an addition passes TARGET (R73, R220). -/
def SWord.over (w : SWord) (n : Nat) (g : Option Nat) : Bool :=
  !w.abort && (g.isNone || g == some w.gen) && decide (w.target ≠ 0) && decide (w.count + n > w.target)

/-- Whether generation g is reached (R73). -/
def SWord.reached (w : SWord) (g : Nat) : Bool := decide ((w.gen + 65536 - g % 65536) % 65536 < 32768)

/-- Where a synchronisation word lies: in a workgroup's scratchpad, or in a context's global memory. -/
inductive Loc where
  | sp (core wg off : Nat)
  | gl (ctx va : Nat)
  deriving DecidableEq, Repr

/-- The 16 bytes of a word. -/
def State.word (s : State) : Loc → Nat
  | .sp c w a => match (s.core c).wgOf w with
    | some (_, g) => fromLE (g.spBytes a 16)
    | none => match s.images.find? (fun im => im.wg.uid == w) with
      | some im => fromLE (im.wg.spBytes a 16)
      | none => 0
  | .gl x va => fromLE (s.glRead x va 16)

/-- A word in the SRAM of a die's synchronisation engine, or in its overflow area when the SRAM is full (R17, R74). One of another owner's is dropped
first (R233): its bytes stand in HBM. -/
def Die.hold (d : Die) (w key : Nat) : Die :=
  if d.words.any (fun e => e.at_ == w && e.key == key) then d
  else
    let r := d.words.filter (fun e => e.at_ != w)
    { d with words := r ++ [{ at_ := w, key := key, outer := decide (Config.syncWords ≤ (r.filter (fun e => !e.outer)).length), bad := [] }] }
/-- The synchronisation engine of the die whose stack holds a global word takes it (R74). -/
def State.holdWord (s : State) (ctx va : Nat) : State :=
  match s.translate ctx .w va with
  | .pa a k => { s with dies := s.dies.modify (stackOf a / 6) (fun d => d.hold (a / 16) (k % 256)) }
  | _ => s

/-- Whether the synchronisation engine of its die holds the 16 bytes at a global address (R74). -/
def State.holds16 (s : State) (ctx : Nat) (acc : Acc) (va : Nat) : Bool :=
  match s.translate ctx acc va with
  | .pa a _ => decide (a % 16 = 0) && ((s.dies[stackOf a / 6]?).getD Die.reset).words.any (fun w => w.at_ == a / 16)
  | _ => false

/-- Writes the 16 bytes of a word, as an addition does: marks stay (R266). -/
def Workgroup.putWord (w : Workgroup) (a v : Nat) : Workgroup := { w.touch .scratch a 16 with scratch := Cells.write w.scratch a (toLE 16 v) }
/-- Writes the 16 bytes of a word, of an evicted workgroup's too (R258). -/
def State.setWord (s : State) (l : Loc) (v : Nat) : State :=
  match l with
  | .sp c w a => match (s.core c).wgOf w with
    | some _ => s.modWg c w (fun g => g.putWord a v)
    | none => { s with images := s.images.map (fun im => if im.wg.uid = w then { im with wg := im.wg.putWord a v } else im) }
  | .gl x va => (s.holdWord x va).glWrite x va (toLE 16 v)

/-- The lowest-numbered live group of a workgroup on a core (R220, R222). -/
def Core.lowest (k : Core) (wg : Nat) : Option (Nat × Group) := k.grps.find? (fun e => e.2.wg == wg && decide (e.1 < 32))

/-- A trap to be taken by a group of an evicted workgroup, or by its lowest live group when it has exited. -/
def Image.mark (im : Image) (uid : Nat) (t : TrapInfo) : Image :=
  let u := if im.grps.any (fun e => e.2.uid == uid) then uid else (im.grps.head?.map (fun e => e.2.uid)).getD uid
  { im with grps := im.grps.map (fun e => if e.2.uid = u then (e.1, { e.2 with imprec := e.2.imprec ++ [t] }) else e) }

/-- Marks an imprecise trap for a group, or for the lowest live group of its workgroup when it has exited (R249, R220). -/
def State.mark (s : State) (c wg uid : Nat) (t : TrapInfo) : State :=
  let k := s.core c
  match k.grps.find? (fun e => e.2.uid == uid && decide (e.1 < 32)) with
  | some (g, _) => s.modGrp c g (fun x => { x with imprec := x.imprec ++ [t] })
  | none => match k.lowest wg with
    | some (g, _) => s.modGrp c g (fun x => { x with imprec := x.imprec ++ [t] })
    | none => { s with images := s.images.map (fun im => if im.wg.uid = wg then im.mark uid t else im) }

/-- A trap to be taken at a group's next pick, which supplies PC and FMASK (R253). -/
def impTrap (no sub : Nat) : TrapInfo := { no := BitVec.ofNat 8 no, sub := BitVec.ofNat 8 sub, pc := 0, addr := 0, fmask := 0 }
/-- The trap of an engine operation that a fault stops after its issue: its frame names the instruction that issued it, as a precise trap's does (R249, R253,
log 48: DEDUCED). -/
def opTrap (no sub : Nat) (pc addr : DWord) : TrapInfo := { no := BitVec.ofNat 8 no, sub := BitVec.ofNat 8 sub, pc := pc, addr := addr, fmask := 0 }

/-- An addition to a word by the work of a group (R73, R220); none: the dispatcher's (R209). -/
def State.wordAdd (s : State) (l : Loc) (n : Nat) (g : Option Nat) (who : Option (Nat × Nat × Nat)) : State :=
  let w := SWord.ofNat (s.word l)
  let s' := s.setWord l (w.add n g).toNat
  match who with
  | some (c, wg, uid) => if w.over n g && w.ten then s'.mark c wg uid (impTrap 0x0E 0) else s'
  | none => s'

/-- Sets ABORT in a word (R267, R340). -/
def State.wordAbort (s : State) (l : Loc) : State := s.setWord l { SWord.ofNat (s.word l) with abort := true }.toNat

/-! Frontiers (R30 to R37). -/

/-- Lanes that go to a PC with a priority. -/
structure Move where
  mask : DWord
  pc   : DWord
  pri  : BitVec 16
  deriving DecidableEq, Repr

/-- Puts an entry into a frontier, by rising PC; equal PCs merge (R32). -/
def insertEntry : List Entry → Entry → List Entry
  | [], e => [e]
  | f :: r, e =>
    if f.pc = e.pc then { f with mask := f.mask ||| e.mask, pri := if e.pri.ult f.pri then f.pri else e.pri, age := max f.age e.age } :: r
    else if e.pc.ult f.pc then e :: f :: r
    else f :: insertEntry r e

/-- An entry that was passed over (R35). -/
def Entry.older (e : Entry) : Entry := { e with age := min 64 (e.age + 1) }

/-- The frontier after an issue of the entry at pc whose lanes move (R32, R35). Lanes in no move have left. -/
def advance (fr : List Entry) (pc : DWord) (mv : List Move) : List Entry :=
  (mv.filter (fun m => m.mask != 0)).foldl (fun f m => insertEntry f { pc := m.pc, pri := m.pri, mask := m.mask, age := 0 })
    ((fr.filter (fun e => e.pc != pc)).map Entry.older)

/-- Whether an entry goes before another at a pick: higher priority, then lower PC (R31). -/
def Entry.before (e f : Entry) : Bool := f.pri.ult e.pri || (decide (e.pri = f.pri) && e.pc.ult f.pc)

/-- The first entry of a list by the order of R31. -/
def bestEntry : List Entry → Option Entry
  | [] => none
  | e :: r => match bestEntry r with
    | none => some e
    | some f => if f.before e then some f else some e

/-- The entry that a group picks (R31, R35, R37). -/
def pick (fr : List Entry) (demoted : Option DWord) : Option Entry :=
  match bestEntry (fr.filter (fun e => e.age == 64)) with
  | some e => some e
  | none => match bestEntry (fr.filter (fun e => demoted != some e.pc)) with
    | some e => some e
    | none => bestEntry fr

/-- The entry a group picks next. -/
def Group.pick (g : Group) : Option Entry := Machine.pick g.fr g.demoted

/-- The lanes of a frontier (R253). -/
def liveMask (fr : List Entry) : DWord := fr.foldl (fun m e => m ||| e.mask) 0

/-! Statuses and failing launches (R244, R255). -/

/-- A command queue of a context. -/
def State.cmdq (s : State) (x q : Nat) : CmdQ :=
  match Tab.get s.ctxs x with
  | some k => (Tab.get k.queues q).getD CmdQ.closed
  | none => CmdQ.closed

/-- Changes a command queue. -/
def State.modQ (s : State) (x q : Nat) (f : CmdQ → CmdQ) : State :=
  s.modCtx x (fun k => { k with queues := Tab.set k.queues q (f ((Tab.get k.queues q).getD CmdQ.closed)) })

/-- Sends a status on a queue (R244); the device's SEQ rises (R240). -/
def State.status (s : State) (x q : Nat) (cseq : BitVec 32) (code trapno ntrap wg : Nat) : State :=
  let m : Status := { ctx := x, queue := q, seq := (s.cmdq x q).out, cseq := cseq, code := BitVec.ofNat 8 code, trapno := BitVec.ofNat 8 trapno,
                      ntrap := BitVec.ofNat 8 ntrap, wg := BitVec.ofNat 64 wg }
  let s := { s with outbox := s.outbox ++ [m] }
  s.modQ x q (fun k => { k with out := k.out + 1 })

/-- Discards the commands of a queue that have not started, each answered by flushed (R244). -/
def State.flush (s : State) (x q : Nat) : State :=
  let cs := (s.cmdq x q).cmds
  let s := (cs.filter (fun c => c.st == 0)).foldl (fun s c => s.status x q c.seq 0x06 0 0 0) s
  s.modQ x q (fun k => { k with cmds := k.cmds.filter (fun c => c.st != 0) })

/-- A queue enters the error state (R210, R240); one that is closing discards what has not started (R244). -/
def State.queueErr (s : State) (x q : Nat) : State :=
  let s := s.modQ x q (fun k => { k with err := true })
  if (s.cmdq x q).closing then s.flush x q else s

/-- A started launch fails: one status, and its queue enters the error state (R210, R244). -/
def State.failLaunch (s : State) (l code trapno ntrap wg : Nat) : State :=
  match Tab.get s.launches l with
  | none => s
  | some x =>
    if x.failed then s
    else
      let s := s.status x.ctx x.queue x.seq code trapno ntrap wg
      let s := s.queueErr x.ctx x.queue
      s.modLaunch l (fun y => { y with failed := true })

/-- Whether a rotation of a die is pending. -/
def State.rotating (s : State) (die : Nat) : Bool := match s.dies[die]? with | some d => d.rotPending | none => false

/-! Ends of groups and workgroups (R33, R55, R59). -/

/-- Releases a workgroup of a team; the last one releases the team and its residency entries (R212, R342). -/
def State.dropTeam (s : State) (p launch unit : Nat) : State :=
  let s := s.modTeam p launch unit (fun t => { t with refs := t.refs - 1 })
  match s.team p launch unit with
  | some t =>
    if t.refs = 0 then
      s.modCluster p (fun k => { k with teams := k.teams.filter (fun t => !(t.launch == launch && t.unit == unit)),
                                        resid := k.resid.filter (fun e => !(e.2.launch == launch && e.2.unit == unit)) })
    else s
  | none => s

/-- Moves a group out of its slot (R59): its registers stay until its writes have retired. -/
def Core.unslot (k : Core) (g : Nat) : Core :=
  match Tab.get k.grps g with
  | none => k
  | some x => { k with grps := Tab.set (Tab.del k.grps g) (32 + x.uid) { x with fr := [], status := .exited, kept := none, imprec := [] } }

/-- The slots of a workgroup's groups on a core. -/
def Core.slotsOf (k : Core) (wg : Nat) : List Nat := (k.grps.filter (fun e => e.2.wg == wg && decide (e.1 < 32))).map Prod.fst

/-- Frees what a workgroup holds on its core (R55, R76, R226, R350). -/
def Core.drop (k : Core) (wg : Nat) : Core :=
  let k := (k.slotsOf wg).foldl Core.unslot k
  let rack (r : Rack) : Rack := if r.owner = some wg then Rack.empty else r
  let mine (u : Nat) : Bool := k.grps.any (fun e => e.2.wg == wg && e.2.uid == u)
  { k with wgs := k.wgs.filter (fun e => e.2.uid != wg), imms := k.imms.filter (fun i => !mine i.grp), items := k.items.filter (fun i => i.wg != wg), active := rack k.active, shadow := rack k.shadow,
           lists := k.lists.filter (fun e => ((Tab.get k.banks (e.1 / 8)).bind Bank.owner) != some wg),
           banks := k.banks.filter (fun e => e.2.owner != some wg) }

/-- A workgroup ends: complete (R55), or released as at completion (R255). -/
def State.endWg (s : State) (c uid : Nat) : State :=
  match (s.core c).wgOf uid with
  | none => s
  | some (_, w) =>
    let s := s.modCore c (fun k => k.drop uid)
    let s := s.modLaunch w.launch (fun l => { l with done := l.done + 1 })
    s.dropTeam (clusterOf c) w.launch w.team

/-- Whether what an engine operation does keeps its workgroup's stores on the core until it is over. A walk's landing may find its workgroup complete: it
then lands nowhere (R55, R235). -/
def EngKind.onCore : EngKind → Bool
  | .copy src dst _ _ _ _ _ _ _ => !((decide (src = .gl) || decide (src = .cl)) && (decide (dst = .dgl) || decide (dst = .dcl)))
  | .resid _ _ _ _ _ => false
  | .ired _ _ _ _ => false
  | .walk _ _ => false
  | _ => true

/-- Whether a workgroup is complete (R55); its stores stay until the engine operations that need them are over (R59, log 35: DEDUCED). -/
def State.wgOver (s : State) (c uid : Nat) : Bool :=
  let k := s.core c
  match k.wgOf uid with
  | none => false
  | some (_, w) => (k.slotsOf uid).isEmpty && k.items.all (fun i => i.wg != uid) && w.formed.isEmpty
    && k.eng.all (fun o => o.wg != uid || !o.kind.onCore) && k.ovenQ.all (fun o => o.wg != uid)

/-- Completes a workgroup whose groups have all exited. -/
def State.settle (s : State) (c uid : Nat) : State := if s.wgOver c uid then s.endWg c uid else s

/-- A group whose frontier is empty has exited (R33, R59). -/
def State.exitGroup (s : State) (c g : Nat) : State :=
  match s.grp c g with
  | none => s
  | some x => (s.modCore c (fun k => k.unslot g)).settle c x.wg

/-! Traps (R249 to R256). -/

/-- A trap taken while the handler runs (R255): the launch fails with the first trap and the new one. -/
def State.doubleTrap (s : State) (c : Nat) (w : Workgroup) (first : Nat) (t : TrapInfo) : State :=
  (s.failLaunch w.launch 0x11 first t.no.toNat w.index).endWg c w.uid

/-- Taking a trap (R249, R251, R252): the group is trapped with the trap recorded; its workgroup halts, or, where it is halting already, the
trap is recorded with PEND; in the handler it is a double trap (R255). A wait that the trap finds is kept (R251). -/
def State.takeTrap (s : State) (c g : Nat) (t : TrapInfo) : State :=
  match s.grp c g with
  | none => s
  | some x => match (s.core c).wgOf x.wg with
    | none => s
    | some (_, w) =>
      if w.handler = some x.uid then s.doubleTrap c w ((x.trap.map (fun y => y.no.toNat)).getD 0) t
      else
        let keep : Option GStatus := match x.status with | .blocked _ | .parked _ => some x.status | _ => none
        let s := s.modCore c (fun k => { k with imms := k.imms.filter (fun i => i.grp != x.uid) })
        let s := s.modGrp c g (fun y => { y with status := .trapped, trap := some t, tpend := w.halt.isSome, kept := if w.halt.isSome then keep else none })
        if w.halt.isSome then s else s.modWg c w.uid (fun v => { v with halt := some { init := x.uid, frame := 0, wait := keep } })

/-- Bytes of a frame (R253). -/
def frameBytes : Nat := 0x440

/-- Where the frame of a slot lies (R250). -/
def Workgroup.frameAt (w : Workgroup) (g : Nat) : Nat := w.tframe.toNat + 0x800 * g

/-- Where RFT finds the frame of a slot: where the halt wrote it (R392). -/
def Workgroup.haltAt (w : Workgroup) (g : Nat) : Nat := (match w.halt with | some h => h.frame.toNat | none => 0) + 0x800 * g

/-- Whether every byte of a global range allows an access. -/
def State.allows (s : State) (ctx : Nat) (a : Acc) (va n : Nat) : Bool :=
  (List.range n).all (fun i => match s.translate ctx a (va + i) with | .pa _ _ => true | _ => false)

/-- The cause word of a group's frame (R254). -/
def causeWord (x : Group) (init : Bool) (wslot : Nat) : Nat :=
  let (no, sub) := match x.trap with | some t => (t.no.toNat, t.sub.toNat) | none => (0, 0)
  no + 2 ^ 8 * sub + 2 ^ 16 * init.toNat + 2 ^ 17 * x.tpend.toNat + 2 ^ 18 * (if init then 0 else min x.skid 16) + 2 ^ 24 * wslot

/-- A lane's record (R253). -/
def laneRecord (x : Group) (l : Nat) : List Byte :=
  if l ≥ x.width then toLE 16 0
  else match x.fr.find? (fun e => laneIn e.mask l) with
    | some e => toLE 8 e.pc.toNat ++ toLE 2 e.pri.toNat ++ toLE 1 e.age ++ toLE 5 0
    | none => toLE 8 ((Tab.get x.lastPc l).getD 0).toNat ++ toLE 8 0

/-- The bytes of a group's frame (R253). -/
def frameOf (x : Group) (init : Bool) (wslot : Nat) : List Byte :=
  let pc := match x.trap with | some t => t.pc | none => match x.pick with | some e => e.pc | none => 0
  let (addr, fm) := match x.trap with | some t => (t.addr, t.fmask) | none => (0, 0)
  toLE 8 (causeWord x init wslot) ++ toLE 8 pc.toNat ++ toLE 8 addr.toNat ++ toLE 8 fm.toNat ++ toLE 8 (liveMask x.fr).toNat
    ++ toLE 8 (x.s? 62).toNat ++ toLE 8 (x.s? 63).toNat ++ toLE 8 0 ++ (List.range 64).flatMap (laneRecord x)

/-- A frame written by the core (R253): whole lines lose their marks (R266), and its sectors are charged (R223). -/
def State.putFrame (s : State) (c : Nat) (w : Workgroup) (a : Nat) (bs : List Byte) : State :=
  let s := s.request w.ctx (clusterOf c) w.tc s.fresh (s.sectors w.ctx .w a bs.length)
  (s.glClean w.ctx a bs.length).glWrite w.ctx a bs

/-- A group whose instructions already issued have completed: their results have landed (R251, log 26: DEDUCED). -/
def Group.settled (x : Group) : Group := { x with pend := [] }

/-- The core writes a scalar register: a mark of its words goes (R266), and no earlier value of it is seen (R255). -/
def Group.putS (x : Group) (n : Nat) (v : DWord) : Group :=
  { x.setS n v with poison := x.poison.filter (fun e => e != (.sreg, n))
                    pend := x.pend.map (fun p => { p with old := p.old.filter (fun o => o.reg != .s n) }) }

/-- Enters the handler in the initiator (R255). -/
def Group.enter (x : Group) (frame : Nat) (cause : Nat) (pc : DWord) : Group :=
  let x := (x.putS 62 (BitVec.ofNat 64 frame)).putS 63 (BitVec.ofNat 64 cause)
  { x with fr := [{ pc := pc, pri := 0xFFFF, mask := liveMask x.fr, age := 0 }], demoted := none, status := .runnable, kept := none }

/-- Whether every group of a halting workgroup has stopped (R253): it is trapped, or parked, with its wait kept. -/
def Core.stopped (k : Core) (wg : Nat) : Bool :=
  k.grps.all (fun e => e.2.wg != wg || decide (e.1 ≥ 32) || decide (e.2.status = .trapped))

/-- Writes the frames of a halted workgroup's live groups and starts the handler, or fails the launch (R250, R253, R255). -/
def State.handle (s : State) (c : Nat) (wslot : Nat) (w : Workgroup) (init : Nat) : State :=
  let k := s.core c
  let live := k.grps.filter (fun e => e.2.wg == w.uid && decide (e.1 < 32))
  let ok := decide (w.tframe ≠ 0) && live.all (fun e => s.allows w.ctx .w (w.frameAt e.1) frameBytes)
  match live.find? (fun e => e.2.uid == init) with
  | none => s
  | some (g, x) =>
    let s := if ok then live.foldl (fun s e => s.putFrame c w (w.frameAt e.1) (frameOf e.2 (e.2.uid == init) wslot)) s else s
    let s := live.foldl (fun s e => s.modGrp c e.1 Group.settled) s
    let s := s.modCore c (fun k => { k with imms := k.imms.filter (fun i => live.all (fun e => e.2.uid != i.grp)) })
    if ok && decide (w.tvec ≠ 0) then
      let s := s.modGrp c g (fun y => y.enter (w.frameAt g) (causeWord x true wslot) (w.cb + w.tvec))
      s.modWg c w.uid (fun v => { v with handler := some init, halt := some { init := init, frame := w.tframe, wait := w.halt.bind Halt.wait } })
    else (s.failLaunch w.launch 0x10 ((x.trap.map (fun y => y.no.toNat)).getD 0) 0 w.index).endWg c w.uid

/-- A field of a frame as RFT reads it. -/
def State.frameField (s : State) (w : Workgroup) (g off n : Nat) : Nat := fromLE (s.glRead w.ctx (w.haltAt g + off) n)

/-- The frontier that R256 rebuilds from the frame of a slot. -/
def State.rebuilt (s : State) (w : Workgroup) (g width : Nat) : List Entry :=
  let live := BitVec.ofNat 64 (s.frameField w g 0x20 8)
  ((List.range width).filter (laneIn live)).foldl (fun f l =>
    insertEntry f { pc := BitVec.ofNat 64 (s.frameField w g (0x40 + 16 * l) 8), pri := BitVec.ofNat 16 (s.frameField w g (0x48 + 16 * l) 2),
                    mask := laneBit l, age := min 64 (s.frameField w g (0x4A + 16 * l) 1) }) []

/-- A group as it resumes from a halt (R251, R256, R257): a kept blocking wait covers the lanes still at its PC, a kept parking likewise. What a CALL or RET waits for it
waits for still (R275). A YIELD's demotion that was pending does not outlast the halt: the group resumes at the pick of R31 (R37, R256, log 77: DESIGN CHOICE). Lanes that
LIVE takes out have the PC of their record, last, as their last (R253, log 26: DEDUCED). -/
def Group.resume (x : Group) (fr : List Entry) (last : Nat → DWord) (s62 s63 : DWord) : Group :=
  let x := (x.putS 62 s62).putS 63 s63
  let at_ (pc : DWord) : DWord := ((fr.find? (fun e => e.pc == pc)).map Entry.mask).getD 0
  let free : GStatus := if x.due.isSome then .stalled 1 else .runnable
  let st : GStatus × Option GStatus := match x.kept with
    | some (.blocked w) =>
      if at_ w.pc &&& w.mask = 0 then (free, none)
      else (.blocked { w with mask := at_ w.pc &&& w.mask, done := w.done &&& at_ w.pc }, none)
    | some (.parked p) =>
      if at_ p.pc &&& p.mask = 0 then (free, none) else (.parked { p with mask := at_ p.pc &&& p.mask }, none)
    | _ => (free, none)
  let out := (lanesOf (liveMask x.fr &&& ~~~ liveMask fr)).foldl (fun t l => Tab.set t l (last l)) x.lastPc
  { x with lastPc := out, fr := fr, demoted := none, status := st.1, kept := st.2, trap := none, tpend := false, skid := 0 }

/-- The trap that a frame records (R253, R254). -/
def State.frameTrap (s : State) (w : Workgroup) (g : Nat) : TrapInfo :=
  { no := BitVec.ofNat 8 (s.frameField w g 0 1), sub := BitVec.ofNat 8 (s.frameField w g 1 1), pc := BitVec.ofNat 64 (s.frameField w g 8 8),
    addr := BitVec.ofNat 64 (s.frameField w g 0x10 8), fmask := BitVec.ofNat 64 (s.frameField w g 0x18 8) }

/-- The slots whose frame has PEND set, rising (R252). -/
def State.pending (s : State) (c : Nat) (w : Workgroup) : List Nat := ((s.core c).slotsOf w.uid).filter (fun g => (s.frameField w g 0 8).testBit 17)

/-- Returning from a trap (R256, R392): every live group's frontier, s62 and s63 come from its frame, and the workgroup's fetched instructions are
discarded. The trap of the lowest slot with PEND is taken as a new halt, and those of the others are recorded in it, to be taken after it (R252). -/
def State.returnTrap (s : State) (c : Nat) (w : Workgroup) : State :=
  let gs := (s.core c).slotsOf w.uid
  let wait (x : Group) : Group := if w.handler = some x.uid then { x with kept := w.halt.bind Halt.wait } else x
  let s1 := gs.foldl (fun t g => t.modGrp c g (fun x =>
    (wait x).resume (s.rebuilt w g x.width) (fun l => BitVec.ofNat 64 (s.frameField w g (0x40 + 16 * l) 8)) (BitVec.ofNat 64 (s.frameField w g 0x28 8)) (BitVec.ofNat 64 (s.frameField w g 0x30 8)))) s
  let s2 := s1.modWg c w.uid (fun v => { v with halt := none, handler := none, fetched := [] })
  let s3 := gs.foldl (fun t g => match t.grp c g with
    | some x => if x.fr.isEmpty then t.modCore c (fun k => k.unslot g) else t
    | none => t) s2
  let mine (t : State) (g : Nat) : Bool := match t.grp c g with | some y => y.wg == w.uid | none => false
  ((s.pending c w).foldl (fun t g => if mine t g then t.takeTrap c g (s.frameTrap w g) else t) s3).settle c w.uid

end Sys2Proof.Machine
end

