-- ==== Sys2Proof/Machine/Images.lean ====
section
/-! DEFINITION. Save images in HBM: the check of a segment, and segments as they stand there (R260, R262, R263). -/
namespace Sys2Proof.Machine
open Sys2Proof

/-- One byte through CRC-32C, bit by bit (R260). -/
def crcBits : Nat → Nat → Nat
  | 0, c => c
  | n + 1, c => crcBits n (if c % 2 = 1 then (c / 2) ^^^ 0x82F63B78 else c / 2)
/-- CRC-32C over bytes from a remainder on; the match has each remainder worked out before the next byte. -/
def crcBytes : List Byte → Nat → Nat
  | [], c => c
  | b :: r, c => match crcBits 8 (c ^^^ b.toNat) with
    | 0 => crcBytes r 0
    | n + 1 => crcBytes r (n + 1)
/-- CRC-32C (Castagnoli) of bytes. -/
def crc32c (bs : List Byte) : Word := BitVec.ofNat 32 (crcBytes bs 0xFFFFFFFF ^^^ 0xFFFFFFFF)

/-- The bytes 0x0 to 0xB of a segment's header. -/
def segHead (kind index seq len : Nat) : List Byte := toLE 2 kind ++ toLE 2 index ++ toLE 4 seq ++ toLE 4 len
/-- A segment as it is written. -/
def Segment.make (kind index seq : Nat) (data : List Byte) : Segment :=
  { kind := kind, index := index, seq := seq, len := data.length, crc := crc32c (segHead kind index seq data.length ++ data), data := data }
/-- Whether a segment's check fails. -/
def Segment.bad (g : Segment) : Bool := crc32c (segHead g.kind g.index g.seq g.len ++ g.data) != g.crc
/-- Bytes of the block of HBM that an image has (log 67: DESIGN CHOICE). -/
def imageSpan : Nat := 2 ^ 22
/-- The key of the owner of a context (R232). -/
def State.ownKey (s : State) (ctx : Nat) : Nat := s.keyId (match Tab.get s.ctxs ctx with | some x => x.key | none => 0)
/-- Bytes of HBM under a key. -/
def State.hbmRead (s : State) (key pa n : Nat) : List Byte := (List.range n).map (fun i => s.hbmGet key (pa + i))
/-- Writes bytes of HBM under a key; whole lines lose their marks (R266). -/
def State.hbmWrite (s : State) (key pa : Nat) (bs : List Byte) : State :=
  (bs.zipIdx).foldl (fun s e => s.hbmPut key (pa + e.2) e.1) (s.cleanBy (fun a => decide (pa ≤ a) && decide (a < pa + bs.length)))
/-- The sectors of n bytes of HBM. -/
def sectorsAt (pa n : Nat) : List Nat := (List.range (ceilDiv (pa % 32 + n) 32)).map (fun i => pa / 32 + i)

/-- A segment as it stands in memory (R260). -/
def Segment.bytes (g : Segment) : List Byte := segHead g.kind g.index g.seq g.len ++ toLE 4 g.crc.toNat ++ g.data
/-- The segment that stands at an address of HBM (R260); no more of it is read than an image has. -/
def State.segAt (s : State) (key a : Nat) : Segment :=
  let h := s.hbmRead key a 16
  let f (k m : Nat) : Nat := fromLE ((h.drop k).take m)
  { kind := f 0 2, index := f 2 2, seq := f 4 4, len := f 8 4, crc := BitVec.ofNat 32 (f 12 4), data := s.hbmRead key (a + 16) (min (f 8 4) imageSpan) }
/-- Whether a segment read at an address, number i of its image, fails its check: its SEQ, its CRC, or a poisoned line (R262, R266; log 68: DEDUCED). -/
def State.segFails (s : State) (a i : Nat) (g : Segment) : Bool :=
  g.seq != i || g.bad || g.data.length != g.len || s.hbmPoison.any (fun l => decide (a / 64 ≤ l) && decide (64 * l < a + 16 + g.data.length))

/-- Bytes of a granule's segment. -/
def granuleSpan : Nat := 16 + 256
/-- An absent granule's payload as its segment holds it now: number, address, SEQ; none where the segment fails its check (R263). -/
def State.granuleOf (s : State) (ctx : Nat) (e : Nat × Nat × Nat) : Option (List Byte) :=
  let g := s.segAt (s.ownKey ctx) e.2.1
  if s.segFails e.2.1 e.2.2 g || g.kind != 0x0A || g.index != e.1 || g.len != 256 then none else some g.data

end Sys2Proof.Machine
end

