-- ==== Sys2Proof/Machine/Issue.lean ====
section
/-! DEFINITION. One issue of an instruction: the checks of R119 from the illegal-operand trap on, the waits of R118 and R47, operand values,
results, and what every issue does to its group (R31 to R35, R46, R62 to R64, R117, R118). -/
namespace Sys2Proof.Machine
open Sys2Proof

/-- The length of an instruction in bytes (R102). -/
def lenBytes : Len → Nat | .w64 => 8 | .w96 => 12 | .w128 => 16

/-- An instruction being issued: the state, the group as it stood, its workgroup, the entry, the guard-true lanes, and what the pop took. -/
structure Iss where
  s     : State
  core  : Nat
  g     : Nat
  wslot : Nat
  gr    : Group
  wg    : Workgroup
  cur   : Cur
  i     : Instr
  c     : Ctl
  act   : DWord
  nonce : Nat
  pops  : List DWord

/-- A register's code for free choices (R62). -/
def RegId.code : RegId → Nat | .v n => n | .o n => 256 + n | .q n => 264 + n | .s n => 266 + n | .p n => 330 + n

/-- The older value of a register in a lane, if a pending write covers it. -/
def Pending.before (p : Pending) (r : RegId) (l : Nat) : Option DWord :=
  if p.landed then none else ((p.old.find? (fun o => o.reg == r)).bind (fun o => Tab.get o.lanes l))

/-- A value as an early read may see it: the newer or, by free choices, an older one (R62). -/
def seeFrom (nonce idx : Nat) (val : DWord) : List Pending → RegId → Nat → DWord
  | [], _, _ => val
  | p :: ps, r, l => match p.before r l with
    | none => seeFrom nonce idx val ps r l
    | some v => if Config.freeBool nonce idx then seeFrom nonce (idx + 65536) v ps r l else val

/-- A register of a lane as an issue reads it; scalars in lane 0 (R62). -/
def Group.see (g : Group) (nonce : Nat) (r : RegId) (l : Nat) : DWord :=
  if g.pend.isEmpty then g.reg r l else seeFrom nonce (64 * r.code + l) (g.reg r l) g.pend.reverse r l

/-- A predicate as an issue reads it. -/
def Group.seeP (g : Group) (nonce n : Nat) : DWord :=
  if g.pend.isEmpty then g.p? n else maskOf ((List.range 64).filter (fun l => g.see nonce (.p n) l != 0))

/-- The lanes of a mask whose guard is true (R106). -/
def Group.guard (g : Group) (nonce : Nat) (c : Ctl) (mask : DWord) : DWord :=
  mask &&& (if c.pn then ~~~ g.seeP nonce c.pg.val else g.seeP nonce c.pg.val)

/-- The issue that State.cur names. -/
def State.issue (s : State) (i : Instr) (c : Ctl) : Option Iss :=
  match s.cur with
  | none => none
  | some u => match s.grp u.core u.g with
    | none => none
    | some gr => match (s.core u.core).wgOf gr.wg with
      | none => none
      | some (ws, w) => some { s := s, core := u.core, g := u.g, wslot := ws, gr := gr, wg := w, cur := u, i := i, c := c,
                               act := gr.guard s.fresh c u.mask, nonce := s.fresh, pops := [] }

/-- The PC of the next instruction. -/
def Iss.next (x : Iss) : DWord := x.cur.pc + BitVec.ofNat 64 (lenBytes x.c.len)
/-- The active, guard-true lanes in ascending order. -/
def Iss.lanes (x : Iss) : List Nat := lanesOf x.act
/-- The lowest active, guard-true lane. -/
def Iss.low (x : Iss) : Option Nat := x.lanes.head?
/-- Lanes of the group's width. -/
def Iss.width (x : Iss) : Nat := x.gr.width

/-- A trap of this issue. -/
def Iss.trapInfo (x : Iss) (no sub addr : Nat) (lanes : DWord) : TrapInfo :=
  { no := BitVec.ofNat 8 no, sub := BitVec.ofNat 8 sub, pc := x.cur.pc, addr := BitVec.ofNat 64 addr, fmask := lanes }

/-! Checks before any effect. -/

/-- Special register numbers and which are read-only (R65). -/
def srKnown (n : Nat) : Bool := decide (n ≤ 6) || (decide (8 ≤ n) && decide (n ≤ 0x17)) || (decide (0x20 ≤ n) && decide (n ≤ 0x24))
def srRO (n : Nat) : Bool := decide (n < 0x20)

/-- Operands that are per-lane values: they forbid a scalar queue as destination (R46). -/
def perLane (w : Workgroup) (i : Instr) : Bool :=
  (useOf i).fs.any (fun f => !f.w && (match f.o with
    | .v _ | .o _ | .q _ => true
    | .h n => (w.queue n.val).kind == 2
    | _ => false))
  || !(useOf i).pr.isEmpty

/-- The illegal-operand check of one field (R45, R46, R60, R268). -/
def fieldBad (w : Workgroup) (g : Group) (i : Instr) (f : Fld) : Bool :=
  match f.o with
  | .v n => decide (n.val + f.vn > g.nregs)
  | .s n => decide (n.val + f.sn > 64)
  | .h n =>
    let q := w.queue n.val
    q.kind == 0 || (q.kind == 2 && (q.width != g.width || decide (f.vn > 1))) || (f.w && q.kind == 1 && perLane w i)
  | _ => false

/-- The second queue that an instruction names as a source (R46). -/
def secondQueue (i : Instr) : Option Nat :=
  let qs := (useOf i).fs.filter (fun f => !f.w && (match f.o with | .h _ => true | _ => false))
  (qs[1]?).map Fld.sub

/-- The SUB of the illegal-operand trap that the group's and workgroup's declarations give an instruction (R119 check 10). -/
def operandSub (w : Workgroup) (g : Group) (i : Instr) : Option Nat :=
  match (useOf i).fs.find? (fun f => fieldBad w g i f || (secondQueue i == some f.sub && !f.w)) with
  | some f => some f.sub
  | none => match i with
    | .spawn _ e _ _ => if e.val < w.rec_.spawns.length then none else some 4
    | .getsr _ _ n _ => if srKnown n.toNat then none else some 0
    | .fpack _ _ _ _ _ _ _ => if g.width < 32 then some 1 else none
    | .funpk _ _ _ _ _ _ _ => if g.width < 32 then some 1 else none
    | .setsr _ _ n _ => if srKnown n.toNat && !srRO n.toNat then none else some 1
    | .qctlOcc _ h _ => if (w.queue h.val).kind = 0 then some 4 else none
    | .qctlPerm _ h _ => if (w.queue h.val).kind = 0 then some 4 else none
    | .qctlReset _ h => if (w.queue h.val).kind = 0 then some 4 else none
    | _ => none

/-- Whether an instruction reads a register whose fixed-latency result is not yet due (R117). An instruction without an active, guard-true lane counts too:
as the reader, and as the one that writes (log 26: DEDUCED). -/
def undersized (g : Group) (i : Instr) (c : Ctl) : Bool := (readsOf i c).any (fun r => g.pend.any (fun p => p.old.any (fun o => o.reg == r)))

/-- Granules that an instruction touches (R61, R261). -/
def granulesOf (g : Group) (i : Instr) (c : Ctl) : List Nat :=
  (readsOf i c ++ writesOf i c).flatMap (fun r => match r with
    | .v n => (List.range (g.width / 8)).map (fun k => n / 8 * (g.width / 8) + k)
    | _ => [])

/-- Whether the scoreboard makes an instruction wait (R118). -/
def sbWaits (g : Group) (i : Instr) (c : Ctl) : Bool :=
  (c.sbw && !g.sb.isEmpty)
  || g.sb.any (fun e => e.regs.any (fun r => (readsOf i c ++ writesOf i c).contains r))
  || ((latOf i).isNone && !(writesOf i c).isEmpty && decide (g.sb.length ≥ 16))

/-- Whether an earlier update of %vfl of the group has not retired (R142). -/
def Group.flagsDue (g : Group) : Bool := g.sb.any (fun e => e.fl) || g.pend.any (fun p => p.fl && !p.landed)

/-- The queue that an instruction pops, and the one it pushes (R46). -/
def popOf (i : Instr) : Option Nat := (useOf i).fs.findSome? (fun f => match f.o with | .h n => if f.w then none else some n.val | _ => none)
def pushOf (i : Instr) : Option Nat := (useOf i).fs.findSome? (fun f => match f.o with | .h n => if f.w then some n.val else none | _ => none)

/-- Whether the queues that an instruction names let it issue (R46, R47). -/
def queuesReady (w : Workgroup) (i : Instr) : Bool :=
  (match popOf i with | some n => (w.queue n).ready | none => true)
  && (match pushOf i with | some n => decide (0 < (w.queue n).permits) || popOf i == some n | none => true)

/-- A register that an instruction reads in a lane and whose word is poisoned (R266); a predicate is two words, lanes 0 to 31 and 32 to 63. -/
def readsPoison (g : Group) (i : Instr) (c : Ctl) (act mask : DWord) : Bool :=
  !g.poison.isEmpty && (readsOf i c).any (fun r => match r with
    | .v n => (lanesOf act).any (fun l => g.poison.contains (.vreg, 64 * n + l))
    | .o n => (lanesOf act).any (fun l => g.poison.contains (.oreg, 64 * n + l))
    | .q n => (lanesOf act).any (fun l => g.poison.contains (.qreg, 64 * n + l))
    | .s n => g.poison.contains (.sreg, n)
    | .p n => (lanesOf mask).any (fun l => g.poison.contains (.preg, 2 * n + l / 32)))

/-- What stands before an instruction's own effect. -/
inductive Pre where
  | trap (t : TrapInfo)
  | wait
  | block
  | go
  deriving DecidableEq, Repr

/-- The checks of R119 from check 10 on, then the waits (R118, R263, R47). -/
def Iss.pre (x : Iss) : Pre :=
  match operandSub x.wg x.gr x.i with
  | some k => .trap (x.trapInfo 0x02 k 0 x.cur.mask)
  | none =>
    if !roleOk x.i x.gr.role then .trap (x.trapInfo 0x03 0 0 x.cur.mask)
    else if x.gr.gctl.getLsbD 0 && undersized x.gr x.i x.c then .trap (x.trapInfo 0x04 0 0 x.cur.mask)
    else match x.gr.absent.find? (fun e => (granulesOf x.gr x.i x.c).contains e.1) with
      | some e => if (x.s.granuleOf x.wg.ctx e).isNone then .trap (x.trapInfo 0x1F 0x0A 0 x.cur.mask) else .wait
      | none =>
        if sbWaits x.gr x.i x.c || (flagWait x.i && x.gr.flagsDue) then .wait
        else if !queuesReady x.wg x.i then .block
        else if readsPoison x.gr x.i x.c x.act x.cur.mask then .trap (x.trapInfo 0x1E 0 0 x.act)
        else .go

/-- The issue with its pop done (R46). -/
def Iss.popped (x : Iss) : Iss :=
  match popOf x.i with
  | none => x
  | some n => { x with pops := (x.wg.queue n).front, s := x.s.modWg x.core x.wg.uid (fun w => w.modQueue n Queue.pop) }

/-! Operand values. -/

/-- A register as this issue reads it. -/
def Iss.reg (x : Iss) (r : RegId) (l : Nat) : DWord := x.gr.see x.nonce r l
/-- A predicate as this issue reads it. -/
def Iss.pm (x : Iss) (n : Fin 8) : DWord := x.gr.seeP x.nonce n.val
/-- A popped value: a scalar entry goes to every lane (R46). -/
def Iss.popV (x : Iss) (l : Nat) : DWord :=
  match popOf x.i with
  | some n => if (x.wg.queue n).kind = 1 then (x.pops[0]?).getD 0 else (x.pops[l]?).getD 0
  | none => 0

/-- The value of an operand in a lane. wd: the operand is 64 bits wide; kc: what an inline constant reads as. -/
def Iss.val (x : Iss) (wd : Bool) (kc : Nat → DWord) (o : Opnd) (l : Nat) : DWord :=
  match o with
  | .v n => if wd then (x.reg (.v (n.val + 1)) l <<< 32) ||| x.reg (.v n.val) l else x.reg (.v n.val) l
  | .s n => x.reg (.s n.val) 0
  | .o n => x.reg (.o n.val) l
  | .q n => x.reg (.q n.val) l
  | .k n => kc n.val
  | .h _ => x.popV l
  | .imm32 w => w.signExtend 64
  | .imm64 w => w

/-- Inline constants as 64-bit integers (R110). -/
def kI64 (k : Nat) : DWord := BitVec.ofNat 64 (constI 64 k)
/-- Inline constants of an integer type. -/
def kTy (ty : ITy) (k : Nat) : DWord := if wide ty then kI64 k else (constIty ty k).setWidth 64
/-- Inline constants of a floating-point type. -/
def kF (ty : FTy) (k : Nat) : DWord := (constFty ty k).setWidth 64

/-- An operand read as a 32-bit integer. -/
def Iss.w32 (x : Iss) (o : Opnd) (l : Nat) : Nat := (x.val false (kTy .i32) o l).toNat % 2 ^ 32
/-- An operand read as a 64-bit integer. -/
def Iss.w64 (x : Iss) (o : Opnd) (l : Nat) : Nat := (x.val true kI64 o l).toNat
/-- A scalar register's 64 bits. -/
def Iss.sv (x : Iss) (n : Fin 64) : Nat := (x.reg (.s n.val) 0).toNat
/-- A scalar register's 64 bits by number. -/
def Iss.sn (x : Iss) (n : Nat) : Nat := (x.reg (.s n) 0).toNat

/-! Results. -/

/-- Changes the issuing group in a state. -/
def Iss.modG (x : Iss) (s : State) (f : Group → Group) : State := s.modGrp x.core x.g f
/-- Changes the issuing group's workgroup in a state. -/
def Iss.modW (x : Iss) (s : State) (f : Workgroup → Workgroup) : State := s.modWg x.core x.wg.uid f

/-- Writes of a register whose words carry marks clear the marks (R266). -/
def Group.cleanV (g : Group) (n l : Nat) : Group := if g.poison.isEmpty then g else { g with poison := g.poison.filter (fun e => e != (.vreg, 64 * n + l)) }
def Group.cleanS (g : Group) (n : Nat) : Group := if g.poison.isEmpty then g else { g with poison := g.poison.filter (fun e => e != (.sreg, n)) }
def Group.cleanO (g : Group) (n l : Nat) : Group := if g.poison.isEmpty then g else { g with poison := g.poison.filter (fun e => e != (.oreg, 64 * n + l)) }
def Group.cleanQ (g : Group) (n l : Nat) : Group := if g.poison.isEmpty then g else { g with poison := g.poison.filter (fun e => e != (.qreg, 64 * n + l)) }
/-- A write of a predicate in the lanes of act clears the mark of a word whose lanes it covers. -/
def Group.cleanP (g : Group) (n : Nat) (act : DWord) : Group :=
  if g.poison.isEmpty then g
  else
    let whole (h : Nat) : Bool := (List.range g.width).all (fun l => l / 32 != h || laneIn act l)
    { g with poison := g.poison.filter (fun e => !((e == (.preg, 2 * n) && whole 0) || (e == (.preg, 2 * n + 1) && whole 1))) }

/-- Writes one lane of a destination register; wd: 64 bits wide. -/
def Group.putLane (g : Group) (wd : Bool) (o : Opnd) (l : Nat) (v : DWord) : Group :=
  match o with
  | .v n =>
    let g := (g.setV n.val l (v.setWidth 32)).cleanV n.val l
    if wd then (g.setV (n.val + 1) l ((v >>> 32).setWidth 32)).cleanV (n.val + 1) l else g
  | .o n => (g.setO n.val l (v.setWidth 32)).cleanO n.val l
  | .q n => (g.setQ n.val l (v.setWidth 32)).cleanQ n.val l
  | _ => g

/-- Writes a destination register with per-lane results; a scalar takes the lowest lane's (R63). -/
def Group.putD (g : Group) (wd : Bool) (o : Opnd) (act : DWord) (f : Nat → DWord) : Group :=
  match o with
  | .s n => match (lanesOf act).head? with
    | some l => (g.setS n.val (f l)).cleanS n.val
    | none => g
  | _ => (lanesOf act).foldl (fun g l => g.putLane wd o l (f l)) g

/-- The mark of q0 in a lane, as it was, goes to q1 (R266). -/
def Group.carryQ (g old : Group) (l : Nat) : Group := if old.poison.contains (.qreg, l) then { g with poison := g.poison ++ [(.qreg, 64 + l)] } else g
/-- The Q bit (R64): q1 takes the old q0 with its mark (R266), and q0 the low 32 bits of the result; a scalar result is broadcast. -/
def Group.shiftQ (g old : Group) (o : Opnd) (act : DWord) (f : Nat → DWord) : Group :=
  let r (l : Nat) : DWord := match o with | .s _ => f ((lanesOf act).head?.getD 0) | _ => f l
  (lanesOf act).foldl (fun g l => ((((g.setQ 1 l (old.q? 0 l)).cleanQ 1 l).carryQ old l).setQ 0 l ((r l).setWidth 32)).cleanQ 0 l) g

/-- The entry that a push puts into a queue (R46). -/
def pushEntry (kind width : Nat) (act : DWord) (f : Nat → DWord) : List DWord :=
  if kind = 1 then [match (lanesOf act).head? with | some l => f l | none => 0]
  else (List.range width).map (fun l => if laneIn act l then f l &&& 0xFFFFFFFF else 0)

/-- Writes a destination: register or queue, and q0, q1 through the Q bit. The shift comes after the write to D: with D = q1, q1 ends with the old q0, and the
result stays in q0 alone (R64 names D = q0 only, log 59: DESIGN CHOICE). -/
def Iss.write (x : Iss) (wd : Bool) (o : Opnd) (f : Nat → DWord) : State :=
  let s := match o with
    | .h n => x.modW x.s (fun w => w.modQueue n.val (fun q => q.push (pushEntry q.kind x.width x.act f)))
    | _ => x.modG x.s (fun g => g.putD wd o x.act f)
  if x.c.q then x.modG s (fun g => g.shiftQ x.gr o x.act f) else s

/-- Writes a predicate in the active, guard-true lanes. -/
def Iss.writeP (x : Iss) (d : Fin 8) (f : Nat → Bool) : State :=
  x.modG x.s (fun g => (g.setPLanes d.val x.act (maskOf (x.lanes.filter f))).cleanP d.val x.act)

/-! What an instruction's own effect answers. -/

/-- An instruction done: the state, where its lanes go, and a status other than the stall count's. -/
structure Res where
  s  : State
  mv : List Move
  st : Option GStatus := none

/-- What an instruction's own effect answers: done; a trap; a trap that leaves a record beside it (R380); a stall with nothing done, with or without a status of its own; a blocking point with what is done; a parked access, with or without a state to keep;
a state that holds the group as it goes on (RFT);
a stall whose place in the order of the oven queue the state holds (R347). -/
inductive Eff where
  | ok (r : Res)
  | trap (t : TrapInfo)
  | trapIn (s : State) (t : TrapInfo)
  | wait
  | stall (st : GStatus)
  | block (s : State) (done : DWord) (abort lost : Bool)
  | park (addr : Nat)
  | parkIn (s : State) (addr : Nat)
  | jump (s : State)
  | hold (s : State)

/-- The whole entry goes to the next instruction with its priority. -/
def Iss.thru (x : Iss) : List Move := [{ mask := x.cur.mask, pc := x.next, pri := x.cur.pri }]
/-- Done, and the lanes go on. -/
def Iss.ok (x : Iss) (s : State) : Eff := .ok { s := s, mv := x.thru }
/-- A trap of the issue. -/
def Iss.fault (x : Iss) (no sub addr : Nat) (lanes : List Nat) : Eff := .trap (x.trapInfo no sub addr (maskOf lanes))
/-- A trap that concerns the active, guard-true lanes. -/
def Iss.faultA (x : Iss) (no sub addr : Nat) : Eff := .trap (x.trapInfo no sub addr x.act)

/-- The lanes done of a waiting instruction issued again (R219, R259). -/
def Iss.doneMask (x : Iss) : DWord :=
  match x.gr.kept with
  | some (.blocked w) => if w.pc = x.cur.pc then w.done else 0
  | _ => 0

/-! What every issue does to its group. -/

/-- Fixed-latency results after an issue that stalls n cycles (R117). -/
def agePend (n : Nat) (ps : List Pending) : List Pending := (ps.map (fun p => { p with left := p.left - n })).filter (fun p => p.left != 0)

/-- The values that an issue's writes replaced, for the registers it writes (R62). -/
def oldVals (old new : Group) (rs : List RegId) : List OldVal :=
  rs.map (fun r =>
    let ls := match r with | .s _ => [0] | _ => List.range old.width
    { reg := r, lanes := (ls.filter (fun l => old.reg r l != new.reg r l)).map (fun l => (l, old.reg r l)) })

/-- The stall of an instruction (R117). -/
def stallOf (c : Ctl) : Nat := max c.stl.val 1

/-- The PC of a kept wait. -/
def GStatus.waitPc : GStatus → Option DWord
  | .blocked w => some w.pc
  | .parked p => some p.pc
  | _ => none

/-- The stores of a group after an issue that made more: a release at dev or sys, and an MFENCE, mark those that stand before it (R191, R192). -/
def ownAfter (x : Iss) (before : Nat) (own : List OwnStore) : List OwnStore :=
  let k := own.length - before
  let rel := match relOf x.i with | some .dev | some .sys => true | _ => false
  let fen := match x.i with | .mfence _ => x.act != 0 | _ => false
  if !rel && !fen then own
  else own.take k ++ ((own.drop k).map (fun o => { o with rel := o.rel || (rel && laneIn x.act o.lane), fen := o.fen || fen })).filter (fun o => !(o.rel && o.fen))

/-- The group after an issue (R32, R35, R37, R117, R118). halted: its workgroup is halting through another group (R251). -/
def Group.after (g : Group) (x : Iss) (r : Res) (halted : Bool) : Group :=
  let n := stallOf x.c
  let ws := writesOf x.i x.c
  let gone := x.cur.mask &&& ~~~ (r.mv.foldl (fun m v => m ||| v.mask) 0)
  let pend := agePend n g.pend
  let fl := flagOp x.i && !x.c.nf
  let pend := match latOf x.i with
    | some lat => if lat ≤ n ∨ (ws = [] ∧ fl = false) then pend else pend ++ [{ old := oldVals x.gr g ws, left := lat - n, landed := false, fl := fl, nonce := x.nonce }]
    | none => pend
  let sb := if (latOf x.i).isNone && !ws.isEmpty && x.act != 0 then g.sb ++ [{ regs := ws, req := x.nonce, fl := fl }] else g.sb
  { g with
    fr := advance g.fr x.cur.pc r.mv
    demoted := match x.i with | .yield _ => some x.next | _ => none
    status := r.st.getD (.stalled n)
    kept := if (g.kept.bind GStatus.waitPc) = some x.cur.pc then none else g.kept
    pend := pend
    sb := sb
    skid := if halted then g.skid + 1 else g.skid
    own := ownAfter x x.gr.own.length g.own
    mfence := match x.i with | .mfence _ => if x.act = 0 then g.mfence else x.wg.writes | _ => g.mfence
    lastPc := (lanesOf gone).foldl (fun t l => Tab.set t l x.cur.pc) g.lastPc }

/-- Ends an issue. -/
def State.endIssue (s : State) : State := { s with cur := none, fresh := s.fresh + 1 }

/-- Writes of scalar registers that an oven operation names, or is to name (R118, R192): the registers of a group by 64 * uid + number. -/
def Iss.touchRegs (x : Iss) (s : State) : State :=
  if x.gr.role != .matrix || x.act == 0 then s
  else (writesOf x.i x.c).foldl (fun s r => match r with
    | .s n => x.modW s (fun w => w.touch .sreg (64 * x.gr.uid + n) 1)
    | _ => s) s

/-- The state after an instruction is done (R31 to R35); a group whose frontier is empty has exited (R33). -/
def Iss.finish (x : Iss) (r : Res) : State :=
  let halted := x.wg.halt.isSome && x.wg.handler != some x.gr.uid
  let s := (x.touchRegs r.s).modGrp x.core x.g (fun g => g.after x r halted)
  let s := s.endIssue
  match s.grp x.core x.g with
  | some g => if g.fr.isEmpty then s.exitGroup x.core x.g else s
  | none => s

/-- Entries of a core's fault buffer (R86). -/
def Core.faults (k : Core) : Nat :=
  (k.grps.filter (fun e => match e.2.status, e.2.kept with | .parked p, _ => p.inBuf | _, some (.parked p) => p.inBuf | _, _ => false)).length

/-- Parks the issuing group (R86). -/
def Iss.park (x : Iss) (s : State) (addr : Nat) : State :=
  let p : Park := { instr := x.i, pc := x.cur.pc, mask := x.cur.mask, addr := BitVec.ofNat 64 addr,
                    inBuf := decide ((s.core x.core).faults < Config.faultBuffer), fetch := false, late := none }
  x.modG s (fun g => { g with status := .parked p, kept := none })

/-- Blocks the issuing group (R218). -/
def Iss.blockAt (x : Iss) (s : State) (done : DWord) (abort lost : Bool) : State :=
  x.modG s (fun g => { g with status := .blocked { instr := x.i, pc := x.cur.pc, mask := x.cur.mask, done := done, abort := abort, lost := lost }, kept := none })

/-- The state that an effect leads to; s is the state before the issue. -/
def Iss.conclude (x : Iss) (s : State) : Eff → State
  | .ok r => x.finish r
  | .trap t => (s.takeTrap x.core x.g t).endIssue
  | .trapIn s' t => (s'.takeTrap x.core x.g t).endIssue
  | .wait => { s with cur := none }
  | .stall st => (x.modG s (fun g => { g with status := st })).endIssue
  | .block s' d a l => (x.blockAt s' d a l).endIssue
  | .park a => (x.park s a).endIssue
  | .parkIn s' a => (x.park s' a).endIssue
  | .jump s' => s'.endIssue
  | .hold s' => { s' with cur := none }

/-- Executes an instruction: checks, waits, then its own effect. -/
def issued (i : Instr) (c : Ctl) (body : Iss → Eff) (s : State) : Out :=
  match s.issue i c with
  | none => .fault .noIssue
  | some x => match x.pre with
    | .trap t => .next ((s.takeTrap x.core x.g t).endIssue)
    | .wait => .next { s with cur := none }
    | .block => .next ((x.blockAt s 0 false false).endIssue)
    | .go => .next (x.conclude s (body x.popped))

end Sys2Proof.Machine
end

