-- ==== Sys2Proof/Machine/Access.lean ====
section
/-! DEFINITION. Accesses to memory by the lanes of an instruction: addresses (R321), checks (R324), reads, writes and their charges (R81, R223, R266). -/
namespace Sys2Proof.Machine
open Sys2Proof

/-- Bytes of a size slot (R114). -/
def szBytes : Size → Nat | .b8 => 1 | .b16 => 2 | .b32 => 4 | .b64 => 8 | .b128 => 16

/-! Addresses of lanes (R321). -/

/-- Bytes of private memory per lane. -/
def Iss.privSize (x : Iss) : Nat := x.wg.rec_.priv
/-- priv(L) (R84, R274). -/
def Iss.privOf (x : Iss) (l : Nat) : Nat := x.gr.priv + x.privSize * l
/-- The physical cluster of the issue. -/
def Iss.clu (x : Iss) : Nat := clusterOf x.core

/-- The address of a lane. -/
def Iss.addr (x : Iss) (sp : Space) (a : Opnd) (ofs : BitVec 24) (l : Nat) : Nat :=
  match sp with
  | .gl => wrapN 64 (x.w64 a l + ofs.toInt)
  | .sp | .cl => wrapN 32 (x.w32 a l + ofs.toInt)
  | .pv => wrapN 64 (x.privOf l + x.w32 a l + ofs.toInt)

/-- Whether an access of n bytes breaks the bounds of its space, and the trap (R69, R79, R83, R321). -/
def Iss.outside (x : Iss) (sp : Space) (l a n : Nat) : Bool :=
  match sp with
  | .gl => decide (a ≥ 2 ^ 57)
  | .sp => decide (a + n > x.wg.rec_.scratch)
  | .cl => decide (a + n > x.wg.rec_.clsram)
  | .pv => decide (a < x.privOf l) || decide (a + n > x.privOf l + x.privSize)

/-- The trap of a broken bound; w: the access writes. -/
def boundTrap (sp : Space) (w : Bool) : Nat × Nat :=
  match sp with | .gl => (0x09, 0) | .sp => (0x07, 0) | .cl => (0x08, 0) | .pv => (0x0A, w.toNat)

/-- Whether a space lies in global memory. -/
def inGlobal : Space → Bool | .gl | .pv => true | _ => false

/-- The lanes of a list of (lane, address) that meet a test; the lowest's address. -/
def failing (ls : List (Nat × Nat)) (p : Nat → Nat → Bool) : Option (List Nat × Nat) :=
  match ls.filter (fun e => p e.1 e.2) with
  | [] => none
  | e :: r => some ((e :: r).map Prod.fst, e.2)

/-- SUB of a permission trap at an address: 0 where the access reads and may not, else 1 (R249). -/
def Iss.permSub (x : Iss) (accs : List Acc) (a : Nat) : Nat := if accs.contains .r && x.s.translate x.wg.ctx .r a == .denied then 0 else 1

/-- Translation checks over lanes (R324 check 4): absent pages park; then permission, with the SUB of the lowest lane that fails it; then holes. -/
def Iss.checkTr (x : Iss) (accs : List Acc) (ls : List (Nat × Nat)) : Option Eff :=
  match failing ls (fun _ a => accs.any (fun c => x.s.translate x.wg.ctx c a == .absent)) with
  | some (_, a) => some (.park a)
  | none => match failing ls (fun _ a => accs.any (fun c => x.s.translate x.wg.ctx c a == .denied)) with
    | some (bad, a) => some (x.fault 0x0A (x.permSub accs a) a bad)
    | none => match failing ls (fun _ a => accs.any (fun c => x.s.translate x.wg.ctx c a == .hole)) with
      | some (bad, a) => some (x.fault 0x0B 0 a bad)
      | none => none

/-- The checks 2 to 4 of R324 for accesses of n bytes by lanes at addresses. -/
def Iss.check (x : Iss) (sp : Space) (n : Nat) (accs : List Acc) (ls : List (Nat × Nat)) : Option Eff :=
  match failing ls (fun _ a => a % n != 0) with
  | some (bad, a) => some (x.fault 0x06 0 a bad)
  | none => match failing ls (fun l a => x.outside sp l a n) with
    | some (bad, a) => let t := boundTrap sp (!accs.contains .r); some (x.fault t.1 t.2 a bad)
    | none => if inGlobal sp then x.checkTr accs ls else none

/-! Reads and writes. -/

/-- The mirror that serves a global load (R81): team and offset in its allocation. -/
def State.mirror (s : State) (ctx p va n : Nat) : Option (Nat × Nat × Nat) :=
  match (s.cluster p).resid.find? (fun e => e.2.ctx == ctx && !e.2.ld && decide (e.2.vbase ≤ va) && decide (va + n ≤ e.2.vbase + 4096 * e.2.len)) with
  | some (_, e) => some (e.launch, e.unit, 4096 * e.cloff + (va - e.vbase))
  | none => none

/-- The operation that filled the mirror which serves a global load (R201). -/
def State.mirFill (s : State) (ctx p va n : Nat) : Option Nat :=
  ((s.cluster p).resid.find? (fun e => e.2.ctx == ctx && !e.2.ld && decide (e.2.vbase ≤ va) && decide (va + n ≤ e.2.vbase + 4096 * e.2.len))).map (fun e => e.2.fill)

/-- A byte of a mirror as a global load reads it: undefined once its range was used through .cl (R81, R190). -/
def State.mirSee (s : State) (p launch unit a : Nat) : Byte :=
  match (s.cluster p).resid.find? (fun e => e.2.holds launch unit a && e.2.used.isSome) with
  | some e => Config.freeByte (e.2.used.getD 0) (2 ^ 24 + a)
  | none => match s.team p launch unit with | some t => Mem.get t.mem a | none => 0

/-- n bytes of a space as an instruction reads them; mir: a load, which a mirror may serve. Those of the system window are another device's: free (R84). -/
def Iss.read (x : Iss) (s : State) (sp : Space) (mir : Bool) (a n : Nat) : List Byte :=
  match sp with
  | .gl =>
    match (if mir then s.mirror x.wg.ctx x.clu a n else none) with
    | some (l, u, o) => (List.range n).map (fun i => s.mirSee x.clu l u (o + i))
    | none => s.glBytes x.nonce x.wg.ctx a n
  | .pv => s.glRead x.wg.ctx a n
  | .sp => match (s.core x.core).wgOf x.wg.uid with | some (_, w) => w.spRead a n | none => List.replicate n 0
  | .cl => s.clBytes x.clu x.wg.launch x.wg.team a n

/-- What reads of n bytes at addresses leave: a mirror that they meet through .cl is undefined from then on (R81), and an oven operation whose record they
reach has undefined results (R192). -/
def Iss.peek (x : Iss) (s : State) (sp : Space) (n : Nat) (as : List Nat) : State :=
  match sp with
  | .sp => x.modW s (fun w => as.foldl (fun w a => w.peek a n) w)
  | .cl => as.foldl (fun s a => s.clUse x.clu x.wg.launch x.wg.team a n) s
  | _ => s

/-- Whether a read of n bytes returns a poisoned value (R266). -/
def Iss.poisonAt (x : Iss) (sp : Space) (mir : Bool) (a n : Nat) : Bool :=
  let team (l u o : Nat) : Bool := match x.s.team x.clu l u with | some t => (wordsOf o n).any t.poison.contains | none => false
  match sp with
  | .gl => match (if mir then x.s.mirror x.wg.ctx x.clu a n else none) with
    | some (l, u, o) => team l u o
    | none => x.s.glPoison x.wg.ctx a n
  | .pv => x.s.glPoison x.wg.ctx a n
  | .sp => !x.wg.poison.isEmpty && x.wg.poisoned .scratch a n
  | .cl => team x.wg.launch x.wg.team a

/-- A lane that reads poisoned bytes of its private memory (R266). -/
def Iss.poisonFault (x : Iss) (sp : Space) (mir : Bool) (n : Nat) (ls : List (Nat × Nat)) : Option Eff :=
  match failing ls (fun _ a => x.poisonAt sp mir a n) with
  | some (bad, a) => some (x.fault 0x1E 0 a bad)
  | none => none

/-- The group notes a store of n bytes by a lane, before it is performed: its engines may still miss it (R191, R192). -/
def Iss.note (x : Iss) (s : State) (sp : Space) (l a n : Nat) : State :=
  match inGlobal sp, s.translate x.wg.ctx .w a with
  | true, .pa p k => x.modG s (fun g => { g with own :=
      { lane := l, va := a, pa := p, n := n, line := (List.range 64).map (fun i => s.hbmGet k (64 * (p / 64) + i)), rel := false, fen := false } :: g.own })
  | _, _ => s

/-- Writes bytes to a space. -/
def Iss.store (x : Iss) (s : State) (sp : Space) (a : Nat) (bs : List Byte) : State :=
  match sp with
  | .gl | .pv => s.glWrite x.wg.ctx a bs
  | .sp => x.modW s (fun w => w.spWrite a bs)
  | .cl => s.clWrite x.clu x.wg.launch x.wg.team a bs

/-- Marks of lines that the stores of an instruction cover whole together are cleared (R266). -/
def Iss.cleanLines (x : Iss) (s : State) (ranges : List (Nat × Nat)) : State :=
  if s.unmarked then s
  else
    let pas := ranges.filterMap (fun e => match s.translate x.wg.ctx .w e.1 with | .pa p _ => some (p, e.2) | _ => none)
    s.cleanBy (fun a => pas.any (fun e => decide (e.1 ≤ a) && decide (a < e.1 + e.2)))

/-- The sectors that accesses of n bytes at global addresses touch. -/
def Iss.secs (x : Iss) (sp : Space) (mir : Bool) (acc : Acc) (n : Nat) (as : List Nat) : List Nat :=
  if inGlobal sp then
    (as.filterMap (fun a =>
      if mir && (match sp with | .gl => (x.s.mirror x.wg.ctx x.clu a n).isSome | _ => false) then none
      else match x.s.translate x.wg.ctx acc a with | .pa p _ => some (p / 32) | _ => none)).eraseDups
  else []

/-- Requests sectors for an issue (R223). -/
def Iss.ask (x : Iss) (s : State) (secs : List Nat) : State := s.request x.wg.ctx x.clu x.wg.tc x.nonce secs
/-- Requests the sectors of the accesses of an instruction; mir: loads, which a mirror may serve (R223). -/
def Iss.charge (x : Iss) (s : State) (sp : Space) (mir : Bool) (acc : Acc) (n : Nat) (as : List Nat) : State := x.ask s (x.secs sp mir acc n as)

/-- The window address of a global address (R84). -/
def Iss.window (x : Iss) (acc : Acc) (a : Nat) : Option (Nat × Nat × Nat) :=
  match x.s.translate x.wg.ctx acc a with | .window n d p => some (n, d, p) | _ => none

/-- The place of a synchronisation word named by an instruction (R72). -/
def Iss.loc (x : Iss) (sp : Space) (a : Nat) : Loc :=
  match sp with | .sp => .sp x.core x.wg.uid a | _ => .gl x.wg.ctx a

/-- Who issued, as additions record it (R220). -/
def Iss.who (x : Iss) : Nat × Nat × Nat := (x.core, x.wg.uid, x.gr.uid)

end Sys2Proof.Machine
end

