-- ==== Sys2Proof/Machine/Banks.lean ====
section
/-! DEFINITION. Accumulator banks and winner lists (R76, R77), and the window of R192: from the issue of an oven operation to the acquire of its completion. -/
namespace Sys2Proof.Machine
open Sys2Proof

/-- A bank of a core. -/
def Core.bank (k : Core) (i : Nat) : Bank := (Tab.get k.banks i).getD Bank.empty
/-- Changes a bank. -/
def Core.modBank (k : Core) (i : Nat) (f : Bank → Bank) : Core := { k with banks := Tab.set k.banks i (f (k.bank i)) }
/-- A winner list of a core. -/
def Core.wlist (k : Core) (i : Nat) : WList := (Tab.get k.lists i).getD WList.empty
/-- Writes a list whole; the marks of its words clear (R266). -/
def Core.setList (k : Core) (i : Nat) (l : WList) : Core :=
  { k with lists := Tab.set k.lists i l, poison := k.poison.filter (fun e => !(decide (e.1 = .winner) && e.2 / 36 == i)) }
/-- Sets the eight lists of a bank to count 0 (R358, R362). -/
def Core.clearLists (k : Core) (i : Nat) : Core := (List.range 8).foldl (fun k j => k.setList (8 * i + j) WList.empty) k
/-- Element n of a bank, 192 * row + column; of a bank just claimed, a free value (R76, R358). -/
def Bank.elem (b : Bank) (n : Nat) : Nat :=
  match Tab.get b.elems n with
  | some w => w.toNat
  | none => match b.fill with | some k => (Config.freeWord k n).toNat | none => 0

/-- Banks that an oven operation of m rows from bank f names (R348). -/
def banksOf (f m : Nat) : List Nat := (List.range (ceilDiv m 8)).map (fun i => f + i)

/-- Whether a bank is the workgroup's. -/
def Core.owns (k : Core) (wg i : Nat) : Bool := (k.bank i).owner == some wg
/-- Whether an operation names a bank. -/
def OvenOp.names (o : OvenOp) (i : Nat) : Bool := (banksOf o.x.af.val o.x.m.toNat).contains i
/-- Whether an oven operation in flight names a bank (R358). -/
def Core.queued (k : Core) (i : Nat) : Bool := k.ovenQ.any (fun o => o.names i)
/-- Whether a bank stands in the window of an oven operation: in flight, or complete and not acquired (R192). -/
def Core.busy (k : Core) (i : Nat) : Bool := k.queued i || k.wgs.any (fun e => e.2.done.any (fun d => d.banks.contains i))

/-- Rows of a drain, if an operation is one: first row and count. -/
def EngOp.drains (o : EngOp) : Option (Nat × Nat) :=
  match o.kind with
  | .adrain _ _ _ _ _ _ _ _ rho nr _ _ _ => some (rho, nr)
  | _ => none
/-- Whether a drain in flight reads a bank. -/
def EngOp.drainsBank (o : EngOp) (i : Nat) : Bool := match o.drains with | some (r, n) => decide (r / 8 ≤ i) && decide (8 * i < r + n) | none => false
/-- Drains in flight on banks that are being written: what they read of them is undefined (R192). -/
def Core.early (k : Core) (bs : List Nat) : Core :=
  { k with eng := k.eng.map (fun o => { o with early := o.early ++ bs.filter (fun b => o.drainsBank b && !o.early.contains b) }) }
/-- Banks whose contents are no operation's any more: claimed or released. -/
def Core.forget (k : Core) (bs : List Nat) : Core :=
  { k with wgs := k.wgs.map (fun e => (e.1, { e.2 with done := e.2.done.map (fun d =>
      { d with banks := d.banks.filter (fun b => !bs.contains b), rows := d.rows.filter (fun r => !bs.contains (r.1 / 8)),
               lists := d.lists.filter (fun l => !bs.contains (l / 8)), stats := d.stats.filter (fun b => !bs.contains b) }) })) }
/-- An operation of the oven queue replaces columns of rows, lists and the status of banks: what earlier operations left there stands no more (R347, R369). -/
def Core.replace (k : Core) (cols : Tab Nat) (lists stats : List Nat) : Core :=
  { k with wgs := k.wgs.map (fun e => (e.1, { e.2 with done := e.2.done.map (fun d =>
      { d with rows := d.rows.map (fun r => match Tab.get cols r.1 with | some n => (r.1, max r.2 n) | none => r),
               lists := d.lists.filter (fun l => !lists.contains l), stats := d.stats.filter (fun b => !stats.contains b) }) })) }
/-- A read of banks reaches the operations in whose window they stand: their results are undefined (R192). -/
def Core.peekBanks (k : Core) (bs : List Nat) : Core :=
  { k with
    ovenQ := k.ovenQ.map (fun o => { o with bad := o.bad || bs.any o.names })
    wgs := k.wgs.map (fun e => (e.1, { e.2 with done := e.2.done.map (fun d => { d with bad := d.bad || bs.any d.banks.contains }) })) }

/-- Whether what an operation wrote is undefined when its completion is acquired (R192). -/
def OvenDone.spoilt (d : OvenDone) (w : Workgroup) : Bool := d.bad || w.watch.any (fun e => e.op == d.id && e.hit)

/-- A bank whose row r of an operation of n columns holds undefined results from a column on (R192). -/
def Bank.ruin (b : Bank) (nonce r from_ n : Nat) : Bank :=
  { b with elems := ((List.range n).drop from_).foldl (fun t j => Tab.set t (192 * (r % 8) + j) (Config.freeWord nonce (192 * r + j))) b.elems }
/-- A bank whose status holds undefined bits of an operation (R158, R192). -/
def Bank.ruinStat (b : Bank) (nonce i : Nat) : Bank :=
  { b with status := (b.status &&& 0x60#7) ||| BitVec.ofNat 7 ((Config.freeWord nonce (100000 + i)).toNat % 32) }
/-- What of an operation's results still stands in banks and lists becomes undefined; what a later operation of the queue put there stays (R192, R347). -/
def Core.ruin (k : Core) (wg : Nat) (d : OvenDone) (o : OvenOp) : Core :=
  let f := 8 * o.x.af.val
  let k := d.rows.foldl (fun k e => if k.owns wg (e.1 / 8) then k.modBank (e.1 / 8) (fun b => b.ruin d.nonce (e.1 - f) e.2 o.x.n.toNat) else k) k
  let k := d.stats.foldl (fun k i => if k.owns wg i then k.modBank i (fun b => b.ruinStat d.nonce i) else k) k
  d.lists.foldl (fun k l => if k.owns wg (l / 8) then k.setList l { WList.empty with k := o.k, abs := o.abs, free := some (d.nonce + (l - f)) } else k) k

/-- Bytes of a range of n from a that its workgroup has not written since an operation's results stood there, by their place in the range. -/
def OvenDone.standing (d : OvenDone) (w : Workgroup) (st : Store) (a n : Nat) : List Nat := (List.range n).filter (fun i => !w.since d.at_ st (a + i) (a + i + 1))
/-- What an operation wrote becomes undefined where nothing was written since: banks and lists, its record, its companions (R192). -/
def State.ruin (s : State) (c wg : Nat) (w : Workgroup) (d : OvenDone) : State :=
  let s := match d.op with
    | some o =>
      let s := s.modCore c (fun k => k.ruin wg d o)
      match o.topk, o.rofs with
      | true, some a => s.modWg c wg (fun v => { v with
          scratch := (d.standing w .scratch a (384 * o.x.m.toNat)).foldl (fun m i => Cells.write m (a + i) [Config.freeByte d.nonce i]) v.scratch })
      | _, _ => s
    | none => s
  match d.norm with
  | some (a, n) => (d.standing w .hbm a n).foldl (fun s i => s.glWrite w.ctx (a + i) [Config.freeByte d.nonce i]) s
  | none => s

/-- The completions of a workgroup's oven operations that meet a test are acquired (R192): their windows end. The companions of an MNORM count as written then,
for the MFENCE that must follow (R357). -/
def State.acquire (s : State) (c wg : Nat) (p : OvenDone → Bool) : State :=
  match (s.core c).wgOf wg with
  | none => s
  | some (_, w) =>
    let ds := w.done.filter p
    if ds.isEmpty then s
    else
      let s := ds.foldl (fun s d => if d.spoilt w then s.ruin c wg w d else s) s
      s.modWg c wg (fun v =>
        let v := ds.foldl (fun v d => match d.norm with | some (a, n) => v.touch .hbm a n | none => v) v
        { v with done := v.done.filter (fun d => !p d), watch := v.watch.filter (fun e => !ds.any (fun d => d.id == e.op)) })

/-- Whether a wait for a generation of a word acquires a completion (R194): its addition stands at or before the one that reached the generation. -/
def OvenDone.reachedBy (d : OvenDone) (off g : Nat) (abort : Bool) : Bool :=
  d.word == some off && (abort || decide ((g + 65536 - d.gen % 65536) % 65536 < 32768))

end Sys2Proof.Machine
end

