-- ==== Sys2Proof/Machine/Control.lean ====
section
/-! DEFINITION. Control flow, spawning, voting and special registers (R104, R271 to R284). -/
namespace Sys2Proof.Machine
open Sys2Proof

/-- The lanes whose guard is false go to the next instruction and keep their priority (R269). -/
def Iss.rest (x : Iss) : Move := { mask := x.cur.mask &&& ~~~ x.act, pc := x.next, pri := x.cur.pri }

/-- A PC a signed number of 4-byte words away (R107). -/
def Iss.rel (x : Iss) (words : Int) : DWord := x.cur.pc + BitVec.ofInt 64 (4 * words)

/-- A frontier whose lanes at a PC pass to PC + 4 (R104). -/
def padPast (fr : List Entry) (pc : DWord) : List Entry :=
  (fr.filter (fun e => e.pc == pc)).foldl (fun f e => insertEntry f { e with pc := e.pc + 4 }) (fr.filter (fun e => e.pc != pc))

/-- PAD: the entry's lanes pass to PC + 4 without an issue (R104); a demotion follows them (R37). -/
def execPad (s : State) : Out :=
  match s.cur with
  | none => .fault .noIssue
  | some u => match s.grp u.core u.g with
    | none => .fault .noIssue
    | some _ =>
      .next { s.modGrp u.core u.g (fun g => { g with fr := padPast g.fr u.pc, demoted := if g.demoted = some u.pc then some (u.pc + 4) else g.demoted }) with cur := none }

/-- NOP (R271). -/
def execNop (c : Ctl) (s : State) : Out := issued (.nop c) c (fun x => x.ok x.s) s

/-- BRA (R273). -/
def execBra (c : Ctl) (tgt : BitVec 28) (p1 : BitVec 16) (s : State) : Out :=
  issued (.bra c tgt p1) c (fun x => .ok { s := x.s, mv := [{ mask := x.act, pc := x.rel tgt.toInt, pri := p1 }, x.rest] }) s

/-- The effect of BRC (R273). -/
def brcEff (cp : Fin 8) (cn : Bool) (tgt : Int) (p1 p2 : BitVec 16) (x : Iss) : Eff :=
  let t := if cn then ~~~ x.pm cp else x.pm cp
  .ok { s := x.s, mv := [{ mask := x.act &&& t, pc := x.rel tgt, pri := p1 }, { mask := x.act &&& ~~~ t, pc := x.next, pri := p2 }, x.rest] }

/-- BRC, near form (R273). -/
def execBrcNear (c : Ctl) (cp : Fin 8) (cn : Bool) (tgt : BitVec 8) (p1 p2 : BitVec 16) (s : State) : Out :=
  issued (.brcNear c cp cn tgt p1 p2) c (brcEff cp cn tgt.toInt p1 p2) s
/-- BRC, far form (R273). -/
def execBrcFar (c : Ctl) (cp : Fin 8) (cn : Bool) (tgt : BitVec 32) (p1 p2 : BitVec 16) (s : State) : Out :=
  issued (.brcFar c cp cn tgt p1 p2) c (brcEff cp cn tgt.toInt p1 p2) s

/-- JMPI (R273): each lane goes to CB plus its own offset. -/
def execJmpi (c : Ctl) (a : Opnd) (p1 : BitVec 16) (s : State) : Out :=
  issued (.jmpi c a p1) c (fun x =>
    let mv := x.lanes.map (fun l => { mask := laneBit l, pc := x.wg.cb + BitVec.ofNat 64 (x.w32 a l), pri := p1 })
    .ok { s := x.s, mv := mv ++ [x.rest] }) s

/-! Call stacks in private memory (R274, R275). -/

/-- The depth of a lane's call stack. -/
def Iss.depth (x : Iss) (l : Nat) : Nat := fromLE (x.s.glRead x.wg.ctx (x.privOf l) 4)
/-- The greatest depth (R274). -/
def Iss.maxDepth (x : Iss) : Nat := if x.privSize < 32 then 0 else (x.privSize - 16) / 16
/-- Addresses of the lanes' stacks. -/
def Iss.stacks (x : Iss) : List (Nat × Nat) := x.lanes.map (fun l => (l, x.privOf l))

/-- The group's next pick waits for the accesses of this issue (R275). -/
def Iss.await (x : Iss) (s : State) : State := x.modG s (fun g => { g with due := some x.nonce })

/-- A lane's push of a frame. -/
def pushFrame (x : Iss) (s : State) (p2 : BitVec 16) (l : Nat) : State :=
  let d := x.depth l
  let b := x.privOf l
  let s := s.glWrite x.wg.ctx (b + 16 + 16 * d) (toLE 8 x.next.toNat ++ toLE 2 p2.toNat ++ toLE 6 0)
  s.glWrite x.wg.ctx b (toLE 4 (d + 1))

/-- The effect of CALL (R275, R276). -/
def callEff (tgt : Int) (p1 p2 : BitVec 16) (x : Iss) : Eff :=
  match x.checkTr [.r] x.stacks with
  | some e => e
  | none => match x.poisonFault .pv false 4 x.stacks with
    | some e => e
    | none => match failing x.stacks (fun l _ => decide (x.depth l ≥ x.maxDepth)) with
      | some (bad, _) => x.fault 0x0A 1 (x.privOf (bad.headD 0) + 16 + 16 * x.depth (bad.headD 0)) bad
      | none =>
        let ls := x.stacks.flatMap (fun e => [(e.1, e.2), (e.1, e.2 + 16 + 16 * x.depth e.1)])
        match x.checkTr [.w] ls with
        | some e => e
        | none =>
          let s := x.lanes.foldl (fun s l => pushFrame x s p2 l) x.s
          let s := x.await (x.ask s (x.secs .pv false .r 4 (x.stacks.map Prod.snd) ++ x.secs .pv false .w 16 (ls.map Prod.snd)))
          .ok { s := s, mv := [{ mask := x.act, pc := x.rel tgt, pri := p1 }, x.rest] }

/-- CALL, near form (R275). -/
def execCallNear (c : Ctl) (tgt : BitVec 12) (p1 p2 : BitVec 16) (s : State) : Out :=
  issued (.callNear c tgt p1 p2) c (callEff tgt.toInt p1 p2) s
/-- CALL, far form (R275). -/
def execCallFar (c : Ctl) (tgt : BitVec 32) (p1 p2 : BitVec 16) (s : State) : Out :=
  issued (.callFar c tgt p1 p2) c (callEff tgt.toInt p1 p2) s

/-- The effect of RET (R275). -/
def retEff (x : Iss) : Eff :=
  match x.checkTr [.r] x.stacks with
  | some e => e
  | none => match x.poisonFault .pv false 4 x.stacks with
    | some e => e
    | none => match failing x.stacks (fun l _ => decide (x.depth l = 0)) with
      | some (bad, a) => x.fault 0x0A 0 a bad
      | none =>
        let top (l : Nat) : Nat := x.privOf l + 16 * x.depth l
        let ls := x.lanes.map (fun l => (l, top l))
        match x.checkTr [.r] ls with
        | some e => e
        | none => match x.poisonFault .pv false 10 ls with
          | some e => e
          | none => match x.checkTr [.w] x.stacks with
            | some e => e
            | none =>
              let s := x.lanes.foldl (fun s l => s.glWrite x.wg.ctx (x.privOf l) (toLE 4 (x.depth l - 1))) x.s
              let s := x.await (x.ask s (x.secs .pv false .r 16 (x.stacks.map Prod.snd ++ ls.map Prod.snd) ++ x.secs .pv false .w 4 (x.stacks.map Prod.snd)))
              let pc (l : Nat) : DWord := BitVec.ofNat 64 (fromLE (x.s.glRead x.wg.ctx (top l) 8))
              let pri (l : Nat) : BitVec 16 := BitVec.ofNat 16 (fromLE (x.s.glRead x.wg.ctx (top l + 8) 2))
              .ok { s := s, mv := x.lanes.map (fun l => { mask := laneBit l, pc := pc l, pri := pri l }) ++ [x.rest] }

/-- RET (R275). -/
def execRet (c : Ctl) (s : State) : Out := issued (.ret c) c retEff s

/-- EXIT (R278): guard-true lanes leave the frontier. -/
def execExit (c : Ctl) (s : State) : Out := issued (.exit c) c (fun x => .ok { s := x.s, mv := [x.rest] }) s

/-- YIELD (R278, R37): the lanes go on, and their entry is demoted for one pick. -/
def execYield (c : Ctl) (s : State) : Out := issued (.yield c) c (fun x => x.ok x.s) s

/-- BKOFF (R278): the group issues nothing for the stall plus c cycles. -/
def execBkoff (c : Ctl) (a : Opnd) (s : State) : Out :=
  issued (.bkoff c a) c (fun x =>
    let n := if x.act = 0 then 0 else min (x.w32 a 0) 65535
    .ok { s := x.s, mv := x.thru, st := if n = 0 then none else some (.bkoff (stallOf c + n)) }) s

/-- Whether a bucket matches the extents of a SHAPE (R56). -/
def Bucket.matches (b : Bucket) (xs : List Nat) : Bool :=
  ((xs.zip b.dims).all (fun e => decide (e.2.1 ≤ e.1) && decide (e.1 ≤ e.2.2)))

/-- The pad mask of SHAPE (R57). -/
def padMask (width lvl1 x0 : Nat) : DWord := maskOf ((List.range width).filter (fun i => decide (lvl1 * width + i ≥ x0)))

/-- SHAPE (R56, R57, R279). -/
def execShape (c : Ctl) (n : Fin 4) (a : Fin 64) (s : State) : Out :=
  issued (.shape c n a) c (fun x =>
    let xs := (List.range (n.val + 1)).map (fun d => x.sn (a.val + d) % 2 ^ 32)
    match x.wg.rec_.buckets.find? (fun b => b.matches xs) with
    | none => .trap (x.trapInfo 0x0D 0 0 x.cur.mask)
    | some b => .ok { s := x.modG x.s (fun g => { g with padm := padMask x.width x.gr.idx (xs.headD 0) }),
                      mv := [{ mask := x.cur.mask, pc := x.wg.cb + BitVec.ofNat 64 b.entry, pri := b.pri }] }) s

/-- Items in the proofer of a core, those of formed groups that wait among them (R51, R54). -/
def Core.itemCount (k : Core) : Nat := k.items.length + (k.wgs.map (fun e => (e.2.formed.map (fun f => f.2.2.length)).sum)).sum

/-- Enters items into a core's proofer (R51). -/
def State.enter (s : State) (c wg e : Nat) (items : List (Word × Word)) : State :=
  s.modCore c (fun k => { k with items := k.items ++ items.map (fun p => { wg := wg, e := e, p0 := p.1, p1 := p.2 }) })

/-- SPAWN (R50, R51, R280): one item per guard-true lane; without room for all the group stalls. -/
def execSpawn (c : Ctl) (e : Fin 4) (a b : Opnd) (s : State) : Out :=
  issued (.spawn c e a b) c (fun x =>
    let items := x.lanes.map (fun l => (BitVec.ofNat 32 (x.w32 a l), BitVec.ofNat 32 (x.w32 b l)))
    if (x.s.core x.core).itemCount + items.length > Config.prooferItems ∧ items ≠ [] then .stall (.spawning x.i x.cur.pc x.cur.mask items)
    else x.ok (x.s.enter x.core x.wg.uid e.val items)) s

/-- ELECT (R282). -/
def execElect (c : Ctl) (d : Fin 8) (s : State) : Out :=
  issued (.elect c d) c (fun x => x.ok (x.writeP d (fun l => x.low == some l))) s

/-- VOTE .any (R282). -/
def execVoteAny (c : Ctl) (d a : Fin 8) (s : State) : Out :=
  issued (.voteAny c d a) c (fun x => x.ok (x.writeP d (fun _ => x.pm a &&& x.act != 0))) s
/-- VOTE .all (R282). -/
def execVoteAll (c : Ctl) (d a : Fin 8) (s : State) : Out :=
  issued (.voteAll c d a) c (fun x => x.ok (x.writeP d (fun _ => x.pm a &&& x.act == x.act))) s
/-- VOTE .uni (R282). -/
def execVoteUni (c : Ctl) (d a : Fin 8) (s : State) : Out :=
  issued (.voteUni c d a) c (fun x => x.ok (x.writeP d (fun _ => x.pm a &&& x.act == x.act || x.pm a &&& x.act == 0))) s
/-- VOTE .ballot (R282). -/
def execVoteBallot (c : Ctl) (d : Fin 64) (a : Fin 8) (s : State) : Out :=
  issued (.voteBallot c d a) c (fun x => x.ok (x.write false (.s d) (fun _ => x.pm a &&& x.act))) s

/-! Special registers (R65, R283, R284). -/

/-- The value of a special register as a lane reads it. -/
def Iss.sr (x : Iss) (n l : Nat) : DWord :=
  let nat (k : Nat) : DWord := BitVec.ofNat 64 k
  match n with
  | 0x00 => nat l
  | 0x01 => nat x.g
  | 0x02 => nat x.wslot
  | 0x03 => nat (x.core % 8)
  | 0x04 => nat x.wg.clu
  | 0x05 => nat (x.core / 128)
  | 0x06 => nat x.wg.ctx
  | 0x08 => nat l
  | 0x09 => nat x.gr.idx
  | 0x10 => nat x.width
  | 0x20 => (x.gr.fl? l).setWidth 64
  | 0x21 => x.gr.fpc.setWidth 64
  | 0x22 => x.gr.gstat
  | 0x23 => x.gr.gctl.setWidth 64
  | 0x24 => x.gr.padm
  | _ => if n < 0x10 then nat ((x.wg.lvl[n - 0x0A]?).getD 0) else nat ((x.wg.ext[n - 0x11]?).getD 1)

/-- Reading %gstat clears WST (R66, R284). -/
def clearWst (v : DWord) : DWord := v &&& ~~~ 0xF00

/-- GETSR (R284): an s destination takes the whole register, a v or o destination a half of it. -/
def execGetsr (c : Ctl) (hi : Bool) (num : BitVec 8) (d : Opnd) (s : State) : Out :=
  issued (.getsr c hi num d) c (fun x =>
    let whole := match d with | .s _ => true | _ => false
    let s := x.write false d (fun l => if whole then x.sr num.toNat l else if hi then x.sr num.toNat l >>> 32 else x.sr num.toNat l &&& 0xFFFFFFFF)
    x.ok (if num = 0x22 ∧ x.act ≠ 0 then x.modG s (fun g => { g with gstat := clearWst g.gstat }) else s)) s

/-- Whether SETSR takes all 64 bits of its source (R284). -/
def srWhole : Opnd → Bool | .v _ | .o _ | .q _ => false | _ => true

/-- The value that SETSR writes, from lane l's source: a 32-bit source replaces one half of the old value (R284). -/
def Iss.srNew (x : Iss) (hi : Bool) (a : Opnd) (old : DWord) (l : Nat) : DWord :=
  if srWhole a then BitVec.ofNat 64 (x.w64 a l)
  else if hi then ((old &&& 0xFFFFFFFF) ||| (BitVec.ofNat 64 (x.w32 a l) <<< 32))
  else ((old &&& ~~~ (0xFFFFFFFF : DWord)) ||| BitVec.ofNat 64 (x.w32 a l))

/-- A special register written (R57, R66, R67, R136, R284). -/
def Group.setSr (g : Group) (n : Nat) (v : DWord) : Group :=
  match n with
  | 0x21 => { g with fpc := (v &&& 7).setWidth 32 }
  | 0x22 => if v.getLsbD 0 then { g with gstat := g.gstat &&& ~~~ 1 } else g
  | 0x23 => { g with gctl := (v &&& 3).setWidth 32 }
  | 0x24 => { g with padm := v &&& fullMask g.width }
  | _ => g

/-- SETSR (R284); %vfl takes bits [4:0] of each lane's source, under .lo and .hi alike (R140). -/
def execSetsr (c : Ctl) (hi : Bool) (num : BitVec 8) (a : Opnd) (s : State) : Out :=
  issued (.setsr c hi num a) c (fun x =>
    match x.low with
    | none => x.ok x.s
    | some l0 =>
      if num = 0x20 then
        x.ok (x.modG x.s (fun g => { g with vfl := x.lanes.foldl (fun t l => Tab.set t l (BitVec.ofNat 5 (x.w32 a l))) g.vfl }))
      else
        let v := x.srNew hi a (if num = 0x22 then 0 else x.sr num.toNat l0) l0   -- the half of %gstat that is kept is not written
        if num = 0x21 ∧ (v &&& 7).toNat ≥ 5 then .trap (x.trapInfo 0x02 1 0 x.act)
        else x.ok (x.modG x.s (fun g => g.setSr num.toNat v))) s

end Sys2Proof.Machine
end

