-- ==== Sys2Proof/Machine/Integer.lean ====
section
/-! DEFINITION. Integer, address and move instructions (R285 to R294). -/
namespace Sys2Proof.Machine
open Sys2Proof

/-- Width of an element, elements, signedness (R112). -/
def tyW : ITy → Nat | .i32 | .u32 => 32 | .i64 | .u64 => 64 | .i16x2 => 16 | .i8x4 => 8
def tyN : ITy → Nat | .i16x2 => 2 | .i8x4 => 4 | _ => 1
def tySigned : ITy → Bool | .u32 | .u64 => false | _ => true

/-- Element e of a value as the type reads it (R286). -/
def elemZ (ty : ITy) (v e : Nat) : Int :=
  let u := v / 2 ^ (tyW ty * e) % 2 ^ tyW ty
  if tySigned ty then sextN u (tyW ty) else u

/-- The least and the greatest value of a type. -/
def tyMin (ty : ITy) : Int := if tySigned ty then -((2 : Int) ^ (tyW ty - 1)) else 0
def tyMax (ty : ITy) : Int := if tySigned ty then (2 : Int) ^ (tyW ty - 1) - 1 else (2 : Int) ^ tyW ty - 1

/-- Limits a value to a range (R120). -/
def satZ (lo hi z : Int) : Int := if z < lo then lo else if hi < z then hi else z

/-- An exact result put into a type: wrapped, or saturated first (R286). -/
def putZ (ty : ITy) (sat : Bool) (z : Int) : Nat := wrapN (tyW ty) (if sat then satZ (tyMin ty) (tyMax ty) z else z)

/-- The elements of a result, the lowest first, put side by side. -/
def join (w : Nat) : List Nat → Nat
  | [] => 0
  | x :: xs => x + 2 ^ w * join w xs

/-- An operation on every element (R286). -/
def perElem (ty : ITy) (sat : Bool) (f : Nat → Int) : Nat := join (tyW ty) ((List.range (tyN ty)).map (fun e => putZ ty sat (f e)))

/-- An operand as its type's bits. -/
def Iss.vt (x : Iss) (ty : ITy) (o : Opnd) (l : Nat) : Nat := (x.val (wide ty) (kTy ty) o l).toNat % 2 ^ (tyW ty * tyN ty)

/-- Writes the results of an element-wise operation of two operands. -/
def bin (ty : ITy) (sat : Bool) (d a b : Opnd) (f : Int → Int → Int) (x : Iss) : Eff :=
  x.ok (x.write (wide ty) d (fun l => BitVec.ofNat 64 (perElem ty sat (fun e => f (elemZ ty (x.vt ty a l) e) (elemZ ty (x.vt ty b l) e)))))

/-- Writes the results of an operation on whole words. -/
def words (ty : ITy) (d : Opnd) (f : Nat → Nat) (x : Iss) : Eff := x.ok (x.write (wide ty) d (fun l => BitVec.ofNat 64 (f l)))

/-- IADD (R286). -/
def execIadd (c : Ctl) (m : IMod) (d a b : Opnd) (s : State) : Out := issued (.iadd c m d a b) c (bin m.ty m.sat d a b (fun x y => x + y)) s
/-- ISUB (R286). -/
def execIsub (c : Ctl) (m : IMod) (d a b : Opnd) (s : State) : Out := issued (.isub c m d a b) c (bin m.ty m.sat d a b (fun x y => x - y)) s
/-- IMUL .lo (R286). -/
def execImulLo (c : Ctl) (m : IMod) (d a b : Opnd) (s : State) : Out := issued (.imulLo c m d a b) c (bin m.ty m.sat d a b (fun x y => x * y)) s
/-- IMUL .hi (R286): floor(x × y / 2^w). -/
def execImulHi (c : Ctl) (ty : ITy) (d a b : Opnd) (s : State) : Out :=
  issued (.imulHi c ty d a b) c (bin ty false d a b (fun x y => x * y / (2 ^ tyW ty : Nat))) s
/-- IMAD (R286). -/
def execImad (c : Ctl) (m : IMod) (d a b cc : Opnd) (s : State) : Out :=
  issued (.imad c m d a b cc) c (fun x => x.ok (x.write (wide m.ty) d (fun l => BitVec.ofNat 64 (perElem m.ty m.sat (fun e =>
    elemZ m.ty (x.vt m.ty a l) e * elemZ m.ty (x.vt m.ty b l) e + elemZ m.ty (x.vt m.ty cc l) e))))) s
/-- IMIN (R286). -/
def execImin (c : Ctl) (ty : ITy) (d a b : Opnd) (s : State) : Out := issued (.imin c ty d a b) c (bin ty false d a b (fun x y => min x y)) s
/-- IMAX (R286). -/
def execImax (c : Ctl) (ty : ITy) (d a b : Opnd) (s : State) : Out := issued (.imax c ty d a b) c (bin ty false d a b (fun x y => max x y)) s
/-- IABS (R286). -/
def execIabs (c : Ctl) (m : IMod) (d a : Opnd) (s : State) : Out := issued (.iabs c m d a) c (bin m.ty m.sat d a a (fun x _ => if x < 0 then -x else x)) s

/-- Quotient truncated toward zero; by 0, all ones (R287). -/
def divZ (ty : ITy) (sat : Bool) (x y : Int) : Nat := if y = 0 then 2 ^ tyW ty - 1 else putZ ty sat (Int.tdiv x y)
/-- Remainder with the sign of x; by 0, x (R287). -/
def remZ (x y : Int) : Int := if y = 0 then x else Int.tmod x y

/-- IDIV (R287). -/
def execIdiv (c : Ctl) (m : IMod) (d a b : Opnd) (s : State) : Out :=
  issued (.idiv c m d a b) c (fun x => words m.ty d (fun l => join (tyW m.ty) ((List.range (tyN m.ty)).map (fun e =>
    divZ m.ty m.sat (elemZ m.ty (x.vt m.ty a l) e) (elemZ m.ty (x.vt m.ty b l) e)))) x) s
/-- IREM (R287). -/
def execIrem (c : Ctl) (m : IMod) (d a b : Opnd) (s : State) : Out := issued (.irem c m d a b) c (bin m.ty m.sat d a b remZ) s

/-- AND (R288). -/
def execAnd (c : Ctl) (ty : ITy) (d a b : Opnd) (s : State) : Out := issued (.and c ty d a b) c (fun x => words ty d (fun l => x.vt ty a l &&& x.vt ty b l) x) s
/-- OR (R288). -/
def execOr (c : Ctl) (ty : ITy) (d a b : Opnd) (s : State) : Out := issued (.or c ty d a b) c (fun x => words ty d (fun l => x.vt ty a l ||| x.vt ty b l) x) s
/-- XOR (R288). -/
def execXor (c : Ctl) (ty : ITy) (d a b : Opnd) (s : State) : Out := issued (.xor c ty d a b) c (fun x => words ty d (fun l => x.vt ty a l ^^^ x.vt ty b l) x) s
/-- NOT (R288). -/
def execNot (c : Ctl) (ty : ITy) (d a : Opnd) (s : State) : Out :=
  issued (.not c ty d a) c (fun x => words ty d (fun l => 2 ^ (tyW ty * tyN ty) - 1 - x.vt ty a l) x) s

/-- The count of element e: low32(B) for 64-bit types, B's element otherwise (R288, R289). -/
def countOf (x : Iss) (ty : ITy) (b : Opnd) (l e : Nat) : Nat :=
  if wide ty then x.w32 b l else (x.val false (kTy ty) b l).toNat % 2 ^ 32 / 2 ^ (tyW ty * e) % 2 ^ tyW ty

/-- Writes the results of a shift of every element; f takes the width, the element's bits and the count. -/
def shift (ty : ITy) (d a b : Opnd) (f : Nat → Nat → Nat → Nat) (x : Iss) : Eff :=
  words ty d (fun l => join (tyW ty) ((List.range (tyN ty)).map (fun e =>
    f (tyW ty) (x.vt ty a l / 2 ^ (tyW ty * e) % 2 ^ tyW ty) (countOf x ty b l e)))) x

/-- Shifts and rotation of w bits (R288). -/
def shlN (w x c : Nat) : Nat := if c ≥ w then 0 else (x <<< c) % 2 ^ w
def shrN (w x c : Nat) : Nat := if c ≥ w then 0 else x >>> c
def sarN (w x c : Nat) : Nat := if x.testBit (w - 1) then (if c ≥ w then 2 ^ w - 1 else (x >>> c) + (2 ^ w - 2 ^ (w - c))) else shrN w x c
def rotN (w x c : Nat) : Nat := ((x <<< (c % w)) ||| (x >>> (w - c % w))) % 2 ^ w

/-- SHL (R288). -/
def execShl (c : Ctl) (ty : ITy) (d a b : Opnd) (s : State) : Out := issued (.shl c ty d a b) c (shift ty d a b shlN) s
/-- SHR (R288). -/
def execShr (c : Ctl) (ty : ITy) (d a b : Opnd) (s : State) : Out := issued (.shr c ty d a b) c (shift ty d a b shrN) s
/-- SAR (R288): an unsigned type fills with 0. -/
def execSar (c : Ctl) (ty : ITy) (d a b : Opnd) (s : State) : Out := issued (.sar c ty d a b) c (shift ty d a b (if tySigned ty then sarN else shrN)) s
/-- ROT (R288). -/
def execRot (c : Ctl) (ty : ITy) (d a b : Opnd) (s : State) : Out := issued (.rot c ty d a b) c (shift ty d a b rotN) s

/-- The length that a control gives in a word of w bits (R291). -/
def fieldLen (w ctl : Nat) : Nat := if bits ctl 7 0 ≥ w then 0 else min (bits ctl 15 8) (w - bits ctl 7 0)

/-- A field extracted (R291). -/
def bfxN (ty : ITy) (x ctl : Nat) : Nat :=
  let n := fieldLen (tyW ty) ctl
  let f := (x >>> bits ctl 7 0) % 2 ^ n
  if n = 0 then 0 else if tySigned ty then wrapN (tyW ty) (sextN f n) else f

/-- A field inserted (R291). -/
def bfiN (w x y ctl : Nat) : Nat :=
  let n := fieldLen w ctl
  let p := bits ctl 7 0
  x % 2 ^ p + (y % 2 ^ n) * 2 ^ p + (x >>> (p + n)) * 2 ^ (p + n)

/-- BFX (R291). -/
def execBfx (c : Ctl) (ty : ITy) (d a b : Opnd) (s : State) : Out := issued (.bfx c ty d a b) c (fun x => words ty d (fun l => bfxN ty (x.vt ty a l) (x.w32 b l)) x) s
/-- BFI (R291). -/
def execBfi (c : Ctl) (ty : ITy) (d a b cc : Opnd) (s : State) : Out :=
  issued (.bfi c ty d a b cc) c (fun x => words ty d (fun l => if fieldLen (tyW ty) (x.w32 cc l) = 0 then x.vt ty a l else bfiN (tyW ty) (x.vt ty a l) (x.vt ty b l) (x.w32 cc l)) x) s

/-- Number of 1 bits; leading and trailing zeros of w bits (R291). -/
def popN (w x : Nat) : Nat := ((List.range w).filter (fun i => x.testBit i)).length
def clzN (w x : Nat) : Nat := if x = 0 then w else w - 1 - flog2 x
def ctzN (w x : Nat) : Nat := ((List.range w).find? (fun i => x.testBit i)).getD w

/-- A count of every element. -/
def bcnt (ty : ITy) (d a : Opnd) (f : Nat → Nat → Nat) (x : Iss) : Eff :=
  words ty d (fun l => join (tyW ty) ((List.range (tyN ty)).map (fun e => f (tyW ty) (x.vt ty a l / 2 ^ (tyW ty * e) % 2 ^ tyW ty)))) x

/-- BCNT .pop (R291). -/
def execBcntPop (c : Ctl) (ty : ITy) (d a : Opnd) (s : State) : Out := issued (.bcntPop c ty d a) c (bcnt ty d a popN) s
/-- BCNT .clz (R291). -/
def execBcntClz (c : Ctl) (ty : ITy) (d a : Opnd) (s : State) : Out := issued (.bcntClz c ty d a) c (bcnt ty d a clzN) s
/-- BCNT .ctz (R291). -/
def execBcntCtz (c : Ctl) (ty : ITy) (d a : Opnd) (s : State) : Out := issued (.bcntCtz c ty d a) c (bcnt ty d a ctzN) s

/-- A comparison of integers (R292). -/
def icmpZ : ICond → Int → Int → Bool
  | .eq, x, y => x == y
  | .ne, x, y => x != y
  | .lt, x, y => decide (x < y)
  | .le, x, y => decide (x ≤ y)
  | .gt, x, y => decide (y < x)
  | .ge, x, y => decide (y ≤ x)

/-- ICMP (R292). -/
def execIcmp (c : Ctl) (ty : ITy) (cond : ICond) (d : Fin 8) (a b : Opnd) (s : State) : Out :=
  issued (.icmp c ty cond d a b) c (fun x => x.ok (x.writeP d (fun l => icmpZ cond (elemZ ty (x.vt ty a l) 0) (elemZ ty (x.vt ty b l) 0)))) s

/-- SEL (R292). -/
def execSel (c : Ctl) (ty : ITy) (p : Fin 8) (neg : Bool) (d a b : Opnd) (s : State) : Out :=
  issued (.sel c ty p neg d a b) c (fun x => words ty d (fun l => if laneIn (x.pm p) l != neg then x.vt ty a l else x.vt ty b l) x) s

/-- LEA (R293). -/
def execLea (c : Ctl) (ty : ITy) (sh : Fin 16) (d a b : Opnd) (s : State) : Out :=
  issued (.lea c ty sh d a b) c (fun x => x.ok (x.write true d (fun l =>
    BitVec.ofNat 64 (x.w64 a l) + (BitVec.ofInt 64 (elemZ ty (x.vt ty b l) 0) <<< sh.val)))) s

/-- MOV (R294). -/
def execMov (c : Ctl) (ty : ITy) (d a : Opnd) (s : State) : Out := issued (.mov c ty d a) c (fun x => words ty d (fun l => x.vt ty a l) x) s

end Sys2Proof.Machine
end

