-- ==== Sys2Proof/Machine/CrossLane.lean ====
section
/-! DEFINITION. Predicates, shuffles, scans and reductions over lanes (R295 to R299). -/
namespace Sys2Proof.Machine
open Sys2Proof

/-- A function of two predicate masks (R295). -/
def plopM : PFun → DWord → DWord → DWord
  | .and, a, b => a &&& b
  | .or, a, b => a ||| b
  | .xor, a, b => a ^^^ b
  | .andn, a, b => a &&& ~~~ b
  | .orn, a, b => a ||| ~~~ b
  | .not, a, _ => ~~~ a

/-- PLOP (R295). -/
def execPlop (c : Ctl) (f : PFun) (d a b : Fin 8) (s : State) : Out :=
  issued (.plop c f d a b) c (fun x => x.ok (x.writeP d (laneIn (plopM f (x.pm a) (x.pm b))))) s
/-- PMOV .tom (R296). -/
def execPmovTom (c : Ctl) (d : Fin 64) (a : Fin 8) (s : State) : Out :=
  issued (.pmovTom c d a) c (fun x => x.ok (x.write false (.s d) (fun _ => x.pm a &&& x.act))) s
/-- PMOV .frm (R296). -/
def execPmovFrm (c : Ctl) (d : Fin 8) (a : Opnd) (s : State) : Out :=
  issued (.pmovFrm c d a) c (fun x => x.ok (x.writeP d (fun l => (x.w64 a 0).testBit l))) s
/-- PMOV .pad (R296). -/
def execPmovPad (c : Ctl) (d : Fin 8) (s : State) : Out := issued (.pmovPad c d) c (fun x => x.ok (x.writeP d (laneIn x.gr.padm))) s
/-- PMOV .tov (R296). -/
def execPmovTov (c : Ctl) (d : Opnd) (a : Fin 8) (s : State) : Out :=
  issued (.pmovTov c d a) c (fun x => x.ok (x.write false d (fun l => if laneIn (x.pm a) l then 1 else 0))) s
/-- PMOV .frv (R296). -/
def execPmovFrv (c : Ctl) (d : Fin 8) (a : Opnd) (s : State) : Out :=
  issued (.pmovFrv c d a) c (fun x => x.ok (x.writeP d (fun l => x.w32 a l != 0))) s

/-- SHFL: each lane reads A as it stands in a lane of the group, active or not (R297). -/
def shfl (d a b : Opnd) (f : Nat → Nat → Nat → Nat) (x : Iss) : Eff :=
  x.ok (x.write false d (fun l => BitVec.ofNat 64 (x.w32 a (f x.width l (x.w32 b l)))))

/-- SHFL .idx (R297). -/
def execShflIdx (c : Ctl) (d a b : Opnd) (s : State) : Out := issued (.shflIdx c d a b) c (shfl d a b (fun w _ y => y % w)) s
/-- SHFL .up (R297). -/
def execShflUp (c : Ctl) (d a b : Opnd) (s : State) : Out := issued (.shflUp c d a b) c (shfl d a b (fun _ l y => if l < y then l else l - y)) s
/-- SHFL .down (R297). -/
def execShflDown (c : Ctl) (d a b : Opnd) (s : State) : Out := issued (.shflDown c d a b) c (shfl d a b (fun w l y => if l + y ≥ w then l else l + y)) s
/-- SHFL .xor (R297). -/
def execShflXor (c : Ctl) (d a b : Opnd) (s : State) : Out := issued (.shflXor c d a b) c (shfl d a b (fun w l y => if l ^^^ y ≥ w then l else l ^^^ y)) s

/-- The identity of a scan (R299). -/
def scanId : LOp → Nat
  | .int .add _ | .int .or _ | .int .xor _ => 0
  | .int .and m => 2 ^ tyW m.ty - 1
  | .int .min m => wrapN (tyW m.ty) (tyMax m.ty)
  | .int .max m => wrapN (tyW m.ty) (tyMin m.ty)
  | .fadd _ _ => 0x80000000

/-- One step of a scan: the new value and the flags it raises (R299). -/
def scanStep (rm : Rnd) : LOp → Nat → Nat → Nat × Nat
  | .int .add m, a, x => (putZ m.ty m.sat (elemZ m.ty a 0 + elemZ m.ty x 0), 0)
  | .int .min m, a, x => (putZ m.ty m.sat (min (elemZ m.ty a 0) (elemZ m.ty x 0)), 0)
  | .int .max m, a, x => (putZ m.ty m.sat (max (elemZ m.ty a 0) (elemZ m.ty x 0)), 0)
  | .int .and _, a, x => (a &&& x, 0)
  | .int .or _, a, x => (a ||| x, 0)
  | .int .xor _, a, x => (a ^^^ x, 0)
  | .fadd _ sat, a, x => addF .f32 rm sat a x

/-- The steps of a scan over lanes: lane, value before, value after, flags. -/
def scanList (rm : Rnd) (op : LOp) (f : Nat → Nat) : Nat → List Nat → List (Nat × Nat × Nat × Nat)
  | _, [] => []
  | acc, l :: ls => let r := scanStep rm op acc (f l); (l, acc, r.1, r.2) :: scanList rm op f r.1 ls

/-- The operand of a scan: constants read as FP32 under .fadd (R110, R298). -/
def scanArg (op : LOp) (a : Opnd) (x : Iss) (l : Nat) : Nat :=
  match op with
  | .int _ m => x.vt m.ty a l
  | .fadd _ _ => (x.val false (kF .f32) a l).toNat % 2 ^ 32

/-- The scan of an issue. -/
def scanOf (op : LOp) (a : Opnd) (x : Iss) : List (Nat × Nat × Nat × Nat) :=
  let rm := match op with | .fadd r _ => dynRnd r x.gr.fpc | _ => .rn
  scanList rm op (scanArg op a x) (scanId op) x.lanes

/-- LSCAN (R299). -/
def execLscan (c : Ctl) (op : LOp) (exc : Bool) (d a : Opnd) (s : State) : Out :=
  issued (.lscan c op exc d a) c (fun x =>
    let r := scanOf op a x
    let s := x.write (wide (lopTy op)) d (fun l => match r.find? (fun e => e.1 == l) with
      | some e => BitVec.ofNat 64 (if exc then e.2.1 else e.2.2.1)
      | none => 0)
    x.ok (if c.nf then s else x.modG s (fun g => r.foldl (fun g e => g.flag e.1 e.2.2.2) g))) s

/-- LRED (R299). -/
def execLred (c : Ctl) (op : LOp) (d a : Opnd) (s : State) : Out :=
  issued (.lred c op d a) c (fun x =>
    let r := scanOf op a x
    let v := match r.getLast? with | some e => e.2.2.1 | none => 0
    let fl := r.foldl (fun f e => f ||| e.2.2.2) 0
    let s := x.write (wide (lopTy op)) d (fun _ => BitVec.ofNat 64 v)
    x.ok (if c.nf then s else x.modG s (fun g => x.lanes.foldl (fun g l => g.flag l fl) g))) s

end Sys2Proof.Machine
end

