-- ==== Sys2Proof/Machine/FloatOps.lean ====
section
/-! DEFINITION. Floating-point and conversion instructions (R300 to R320). -/
namespace Sys2Proof.Machine
open Sys2Proof

/-- The format of a vector type, its width and its elements (R126). -/
def ftyF : FTy → FFmt | .f32 => .f32 | .f16 => .f16 | .bf16 => .bf16
def ftyW : FTy → Nat | .f32 => 32 | _ => 16
def ftyN : FTy → Nat | .f32 => 1 | _ => 2

/-- An operand as the bits of a type. -/
def Iss.fv (x : Iss) (ty : FTy) (o : Opnd) (l : Nat) : Nat := (x.val false (kF ty) o l).toNat % 2 ^ 32
/-- Element h of a lane's bits (R126). -/
def felem (ty : FTy) (v h : Nat) : Nat := v / 2 ^ (ftyW ty * h) % 2 ^ ftyW ty
/-- The rounding of an instruction at issue. -/
def Iss.rm (x : Iss) (r : Rnd) : Rnd := dynRnd r x.gr.fpc

/-- Raises flags in lanes unless NF is 1 (R141). -/
def Iss.flags (x : Iss) (s : State) (f : Nat → Nat) : State :=
  if x.c.nf then s else x.modG s (fun g => x.lanes.foldl (fun g l => g.flag l (f l)) g)

/-- Results of a packed operation, and the OR of their flags (R126). -/
def packed (ty : FTy) (f : Nat → FRes) : Nat × Nat :=
  let r := (List.range (ftyN ty)).map f
  (join (ftyW ty) (r.map Prod.fst), r.foldl (fun a e => a ||| e.2) 0)

/-- Writes results with flags: f gives a lane's result and flags. -/
def fput (d : Opnd) (f : Nat → Nat × Nat) (x : Iss) : Eff :=
  x.ok (x.flags (x.write false d (fun l => BitVec.ofNat 64 (f l).1)) (fun l => (f l).2))

/-- A value of an element of an operand, flushed as the saturation slot says. -/
def Iss.fe (x : Iss) (m : FMod) (o : Opnd) (l h : Nat) : FV := readF (ftyF m.ty) (satFlush m.sat) (felem m.ty (x.fv m.ty o l) h)

/-- FADD (R303). -/
def execFadd (c : Ctl) (m : FMod) (d a b : Opnd) (s : State) : Out :=
  issued (.fadd c m d a b) c (fun x => fput d (fun l => packed m.ty (fun h => addV (ftyF m.ty) (x.rm m.rnd) m.sat (x.fe m a l h) (x.fe m b l h))) x) s
/-- FSUB (R303). -/
def execFsub (c : Ctl) (m : FMod) (d a b : Opnd) (s : State) : Out :=
  issued (.fsub c m d a b) c (fun x => fput d (fun l => packed m.ty (fun h => addV (ftyF m.ty) (x.rm m.rnd) m.sat (x.fe m a l h) (x.fe m b l h).flip)) x) s
/-- FMUL (R303). -/
def execFmul (c : Ctl) (m : FMod) (d a b : Opnd) (s : State) : Out :=
  issued (.fmul c m d a b) c (fun x => fput d (fun l => packed m.ty (fun h => mulV (ftyF m.ty) (x.rm m.rnd) m.sat (x.fe m a l h) (x.fe m b l h))) x) s
/-- FFMA (R303). -/
def execFfma (c : Ctl) (m : FMod) (d a b cc : Opnd) (s : State) : Out :=
  issued (.ffma c m d a b cc) c (fun x => fput d (fun l => packed m.ty (fun h =>
    fmaV (ftyF m.ty) (x.rm m.rnd) m.sat (x.fe m a l h) (x.fe m b l h) (x.fe m cc l h))) x) s

/-- A smaller or larger operand (R304). -/
def minmax (big : Bool) (ty : FTy) (sat : Sat) (d a b : Opnd) (x : Iss) : Eff :=
  fput d (fun l => packed ty (fun h => minmaxF (ftyF ty) (satFlush sat) big (felem ty (x.fv ty a l) h) (felem ty (x.fv ty b l) h))) x

/-- FMIN (R304). -/
def execFmin (c : Ctl) (ty : FTy) (sat : Sat) (d a b : Opnd) (s : State) : Out := issued (.fmin c ty sat d a b) c (minmax false ty sat d a b) s
/-- FMAX (R304). -/
def execFmax (c : Ctl) (ty : FTy) (sat : Sat) (d a b : Opnd) (s : State) : Out := issued (.fmax c ty sat d a b) c (minmax true ty sat d a b) s

/-- FABS of a pattern (R305). -/
def fabsF (f : FFmt) (neg ftz : Bool) (x : Nat) : Nat :=
  if (readF f false x).isNan then nanOf f
  else
    let y := flushBits f ftz x
    let m := y % 2 ^ (fwidth f - 1)
    if neg then withSign f (!fneg f y) m else m

/-- FABS .abs (R305). -/
def execFabsAbs (c : Ctl) (ty : FTy) (sat : Sat) (d a : Opnd) (s : State) : Out :=
  issued (.fabsAbs c ty sat d a) c (fun x => fput d (fun l => packed ty (fun h => (fabsF (ftyF ty) false (satFlush sat) (felem ty (x.fv ty a l) h), 0))) x) s
/-- FABS .neg (R305). -/
def execFabsNeg (c : Ctl) (ty : FTy) (sat : Sat) (d a : Opnd) (s : State) : Out :=
  issued (.fabsNeg c ty sat d a) c (fun x => fput d (fun l => packed ty (fun h => (fabsF (ftyF ty) true (satFlush sat) (felem ty (x.fv ty a l) h), 0))) x) s

/-- FCMP (R306). -/
def execFcmp (c : Ctl) (cond : FCond) (ftz : Bool) (d : Fin 8) (a b : Opnd) (s : State) : Out :=
  issued (.fcmp c cond ftz d a b) c (fun x =>
    let r (l : Nat) : Bool × Nat := fcmpF cond ftz (x.fv .f32 a l) (x.fv .f32 b l)
    x.ok (x.flags (x.writeP d (fun l => (r l).1)) (fun l => (r l).2))) s

/-- A special function of one operand (R308). -/
def sfu (g : SFun) (m : FMod) (d a : Opnd) (x : Iss) : Eff :=
  fput d (fun l => packed m.ty (fun h => sfuV g (ftyF m.ty) (x.rm m.rnd) m.sat (x.fe m a l h))) x

/-- FSFU .rcp (R308). -/
def execFsfuRcp (c : Ctl) (m : FMod) (d a : Opnd) (s : State) : Out := issued (.fsfuRcp c m d a) c (sfu .rcp m d a) s
/-- FSFU .rsqrt (R308). -/
def execFsfuRsqrt (c : Ctl) (m : FMod) (d a : Opnd) (s : State) : Out := issued (.fsfuRsqrt c m d a) c (sfu .rsqrt m d a) s
/-- FSFU .sqrt (R308). -/
def execFsfuSqrt (c : Ctl) (m : FMod) (d a : Opnd) (s : State) : Out := issued (.fsfuSqrt c m d a) c (sfu .sqrt m d a) s
/-- FSFU .exp2 (R308). -/
def execFsfuExp2 (c : Ctl) (m : FMod) (d a : Opnd) (s : State) : Out := issued (.fsfuExp2 c m d a) c (sfu .exp2 m d a) s
/-- FSFU .log2 (R308). -/
def execFsfuLog2 (c : Ctl) (m : FMod) (d a : Opnd) (s : State) : Out := issued (.fsfuLog2 c m d a) c (sfu .log2 m d a) s
/-- FSFU .sinpi (R308). -/
def execFsfuSinpi (c : Ctl) (m : FMod) (d a : Opnd) (s : State) : Out := issued (.fsfuSinpi c m d a) c (sfu .sinpi m d a) s
/-- FSFU .cospi (R308). -/
def execFsfuCospi (c : Ctl) (m : FMod) (d a : Opnd) (s : State) : Out := issued (.fsfuCospi c m d a) c (sfu .cospi m d a) s
/-- FSFU .div (R308). -/
def execFsfuDiv (c : Ctl) (m : FMod) (d a b : Opnd) (s : State) : Out :=
  issued (.fsfuDiv c m d a b) c (fun x => fput d (fun l => packed m.ty (fun h => divV (ftyF m.ty) (x.rm m.rnd) m.sat (x.fe m a l h) (x.fe m b l h))) x) s

/-- An element widened to FP32, and read under the MOD of the FP32 step: a subnormal FP16 is a normal FP32 there, which is not flushed (R310). -/
def widened (f : FFmt) (sat : Sat) (v : Nat) : FV := readF f (satFlush sat && decide (f ≠ .f16)) v

/-- A chain of fused steps (R310): the FP32 accumulator and the OR of the flags. -/
def dotChain (f : FFmt) (rm : Rnd) (sat : Sat) : Nat × Nat → List (Nat × Nat) → Nat × Nat
  | r, [] => r
  | (acc, fl), (a, b) :: es =>
    let t := fmaV .f32 rm sat (widened f sat a) (widened f sat b) (readF .f32 (satFlush sat) acc)
    dotChain f rm sat (t.1, fl ||| t.2) es

/-- FDOT .x2 (R310). -/
def execFdotX2 (c : Ctl) (m : FMod) (d a b cc : Opnd) (s : State) : Out :=
  issued (.fdotX2 c m d a b cc) c (fun x => fput d (fun l => dotChain (ftyF m.ty) (x.rm m.rnd) m.sat (x.fv .f32 cc l, 0)
    ((List.range 2).map (fun e => (felem m.ty (x.fv m.ty a l) e, felem m.ty (x.fv m.ty b l) e)))) x) s
/-- FDOT .x4 (R310). -/
def execFdotX4 (c : Ctl) (m : FMod) (d a b cc : Opnd) (s : State) : Out :=
  issued (.fdotX4 c m d a b cc) c (fun x => fput d (fun l => dotChain (ftyF m.ty) (x.rm m.rnd) m.sat (x.fv .f32 cc l, 0)
    ((List.range 4).map (fun e => (bits (x.w64 a l) (16 * e + 15) (16 * e), bits (x.w64 b l) (16 * e + 15) (16 * e))))) x) s

/-- Inline constants under a source format (R300). -/
def kFmt (f : FFmt) (k : Nat) : DWord :=
  match f with | .f16 => kF .f16 k | .bf16 => kF .bf16 k | _ => kF .f32 k

/-- The source element of a conversion (R311). -/
def Iss.src (x : Iss) (f : FFmt) (o : Opnd) (l : Nat) : Nat := (x.val false (kFmt f) o l).toNat % 2 ^ fwidth f

/-- FCVT (R313). -/
def execFcvt (c : Ctl) (dst src : FFmt) (rnd : Rnd) (sat : Sat) (d a : Opnd) (s : State) : Out :=
  issued (.fcvt c dst src rnd sat d a) c (fun x => fput d (fun l => cvtF dst src (x.rm rnd) sat (x.src src a l)) x) s

/-- An integer of a type code in the low bits of a lane (R311). -/
def icodeZ (t : ICode) (v : Nat) : Int := if (icodeW t).2 then sextN v (icodeW t).1 else ((v % 2 ^ (icodeW t).1 : Nat) : Int)

/-- I2F (R314). -/
def execI2f (c : Ctl) (dst : FFmt) (src : ICode) (rnd : Rnd) (sat : Sat) (d a : Opnd) (s : State) : Out :=
  issued (.i2f c dst src rnd sat d a) c (fun x => fput d (fun l => i2fF dst (x.rm rnd) sat (icodeZ src (x.w32 a l))) x) s

/-- F2I (R314): a signed result is sign-extended to 32 bits. -/
def execF2i (c : Ctl) (dst : ICode) (src : FFmt) (rnd : Rnd) (ftz : Bool) (d a : Opnd) (s : State) : Out :=
  issued (.f2i c dst src rnd ftz d a) c (fun x => fput d (fun l =>
    let t := icodeW dst
    let r := f2iV (x.rm rnd) (intLo t.1 t.2) (intHi t.1 t.2) (readF src ftz (x.src src a l))
    (wrapN 32 r.1, r.2)) x) s

/-- The class bits of a lane (R315). -/
def classBits (ty : FTy) (v : Nat) : Nat := join 16 ((List.range (ftyN ty)).map (fun h => 2 ^ fclassF (ftyF ty) (felem ty v h)))

/-- FCLASS .mask (R315). -/
def execFclassMask (c : Ctl) (ty : FTy) (d a : Opnd) (s : State) : Out :=
  issued (.fclassMask c ty d a) c (fun x => x.ok (x.write false d (fun l => BitVec.ofNat 64 (classBits ty (x.fv ty a l))))) s
/-- FCLASS .test (R315). -/
def execFclassTest (c : Ctl) (ty : FTy) (d : Fin 8) (a b : Opnd) (s : State) : Out :=
  issued (.fclassTest c ty d a b) c (fun x => x.ok (x.writeP d (fun l => classBits ty (x.fv ty a l) &&& x.w32 b l != 0))) s

/-- FLAGS .test (R316). -/
def execFlagsTest (c : Ctl) (mask : BitVec 5) (d : Fin 8) (s : State) : Out :=
  issued (.flagsTest c mask d) c (fun x => x.ok (x.writeP d (fun l => x.gr.fl? l &&& mask != 0))) s
/-- FLAGS .clr (R316). -/
def execFlagsClr (c : Ctl) (mask : BitVec 5) (s : State) : Out :=
  issued (.flagsClr c mask) c (fun x => x.ok (x.modG x.s (fun g => { g with vfl := x.lanes.foldl (fun t l => Tab.set t l (x.gr.fl? l &&& ~~~ mask)) g.vfl }))) s
/-- FLAGS .set (R316). -/
def execFlagsSet (c : Ctl) (mask : BitVec 5) (s : State) : Out :=
  issued (.flagsSet c mask) c (fun x => x.ok (x.modG x.s (fun g => { g with vfl := x.lanes.foldl (fun t l => Tab.set t l (x.gr.fl? l ||| mask)) g.vfl }))) s
/-- FLAGS .gor (R316). -/
def execFlagsGor (c : Ctl) (d : Fin 64) (s : State) : Out :=
  issued (.flagsGor c d) c (fun x => x.ok (x.write false (.s d) (fun _ => (x.lanes.foldl (fun m l => m ||| x.gr.fl? l) (0 : BitVec 5)).setWidth 64))) s

/-! Block packing (R318 to R320). -/

/-- Format, element width, words and emax of a block format (R318). -/
def bfmtF : BFmt → FFmt | .e5m2 => .e5m2 | .e4m3 => .e4m3 | .e3m2 => .e3m2 | .e2m3 => .e2m3 | _ => .e2m1
def bfmtB : BFmt → Nat | .e5m2 | .e4m3 => 8 | .e3m2 | .e2m3 => 6 | _ => 4
def bfmtD : BFmt → Nat | .e5m2 | .e4m3 => 8 | .e3m2 | .e2m3 => 6 | .e2m1 => 4 | .cb2 => 2
def bfmtMax : BFmt → Int | .e5m2 => 15 | .e4m3 => 8 | .e3m2 => 4 | _ => 2

/-- One packed segment: scale byte, the stream, and each element's flags (R319). -/
structure PackRes where
  e     : Nat
  strm  : Nat
  flags : List (Nat × Nat)

/-- Packs the values of a segment's lanes, given by element index (R319). -/
def packSeg (f : BFmt) (rm : Rnd) (ftz : Bool) (xs : List (Nat × FV)) : PackRes :=
  if xs.any (fun e => e.2.isNan || e.2.isInf) then
    { e := 0xFF, strm := 0, flags := xs.map (fun e => (e.1, if e.2.isSig || e.2.isInf then fIV else 0)) }
  else
    let logs : List Int := xs.filterMap (fun e => match e.2 with | .fin _ m k => if m = 0 then none else some (Int.ofNat (flog2 m) + k) | _ => none)
    let sc : Int := match logs with
      | [] => 0
      | z :: zs => max (zs.foldl max z - bfmtMax f) (-127)
    let codes := xs.map (fun e => match e.2 with
      | .fin n m k => (e.1, toFmt (bfmtF f) rm (if ftz then .satftz else .sat) (.fin n m (k - sc)))
      | _ => (e.1, (0, 0)))
    { e := (sc + 127).toNat, strm := codes.foldl (fun a c => a + c.2.1 * 2 ^ (bfmtB f * c.1)) 0, flags := codes.map (fun c => (c.1, c.2.2)) }

/-- FPACK (R319). -/
def execFpack (c : Ctl) (f : BFmt) (rnd : Rnd) (ftz : Bool) (d a : Opnd) (b : Fin 64) (s : State) : Out :=
  issued (.fpack c f rnd ftz d a b) c (fun x =>
    let seg (g : Nat) : PackRes := packSeg f (x.rm rnd) ftz
      ((x.lanes.filter (fun l => l / 32 == g)).map (fun l => (l % 32, readF .f32 ftz (x.fv .f32 a l))))
    let used (g : Nat) : Bool := x.lanes.any (fun l => l / 32 == g)
    let s := x.write false d (fun l => if l % 32 < bfmtD f then BitVec.ofNat 64 ((seg (l / 32)).strm >>> (32 * (l % 32)) % 2 ^ 32) else 0)
    let sc : Nat := (if used 0 then (seg 0).e else 0) + 256 * (if used 1 then (seg 1).e else 0)
    let s := if x.act = 0 then s else x.modG s (fun g => (g.setS b.val (BitVec.ofNat 64 sc)).cleanS b.val)
    x.ok (x.flags s (fun l => (Tab.get (seg (l / 32)).flags (l % 32)).getD 0))) s

/-- Stream element j of a block's words as a value (R320, R132). -/
def unpackElem (f : BFmt) (strm j : Nat) : FV :=
  match f with
  | .cb2 => let w := cb2W (strm >>> (16 * (j / 8)) % 65536) (j % 8); .fin w.1 w.2 (-1)
  | f => readF (bfmtF f) false (strm >>> (bfmtB f * j) % 2 ^ bfmtB f)

/-- FUNPK (R320). -/
def execFunpk (c : Ctl) (f : BFmt) (rnd : Rnd) (sat : Sat) (d a b : Opnd) (s : State) : Out :=
  issued (.funpk c f rnd sat d a b) c (fun x => fput d (fun l =>
    let g := l / 32
    let strm := join 32 ((List.range (bfmtD f)).map (fun i => x.w32 a (32 * g + i)))
    let e := bits (x.w32 b l) (8 * g + 7) (8 * g)
    if e = 0xFF then (nanOf .f32, fIV)
    else
      let v := match unpackElem f strm (l % 32) with
        | .fin n m k => FV.fin n m (k + (e : Int) - 127)
        | v => v
      toFmt .f32 (x.rm rnd) sat v) x) s

end Sys2Proof.Machine
end

