-- ==== Sys2Proof/Machine/MemOps.lean ====
section
/-! DEFINITION. Loads, stores, tags, atomics, fences, spills, queue control and prefetch (R325 to R332, R343 to R345, R90). -/
namespace Sys2Proof.Machine
open Sys2Proof

/-! Lanes that complete one by one. -/

/-- The active lanes still to be done of an instruction whose lanes complete one by one (R259). -/
def Iss.todo (x : Iss) : DWord := x.act &&& ~~~ x.doneMask

/-- Writes a destination in some of the active lanes; a scalar takes the lowest active lane's value only (R63). -/
def Iss.land (x : Iss) (s : State) (some_ : DWord) (wd : Bool) (o : Opnd) (f : Nat → DWord) : State :=
  match o with
  | .s _ => match x.low with
    | some l => if laneIn some_ l then x.modG s (fun g => g.putD wd o (laneBit l) f) else s
    | none => s
  | _ => x.modG s (fun g => g.putD wd o some_ f)

/-- Lanes of a mask whose address lies in the system window. -/
def Iss.winLanes (x : Iss) (acc : Acc) (ls : List (Nat × Nat)) : List (Nat × Nat) := ls.filter (fun e => (x.window acc e.2).isSome)
/-- Whether a session of a window address is lost or closed (R235, R267). -/
def Iss.lostAt (x : Iss) (acc : Acc) (a : Nat) : Bool :=
  match x.window acc a with
  | some (n, _, _) => match Tab.get x.s.sessions n with | some e => e.lost || e.closed | none => true
  | none => false

/-- Sends a request through the window (R84), with the priority code point of its class (R245). -/
def Iss.send (x : Iss) (s : State) (acc : Acc) (a size data : Nat) (r : WReq) : State :=
  match x.window acc a with
  | some (n, d, p) =>
    if x.lostAt acc a then s
    else { s with winOut := s.winOut ++ [{ session := n, dev := d, addr := p, size := size, data := data, req := r, pcp := (s.fenaz.pcp[x.wg.tc]?).getD 0 }] }
  | none => s

/-- Whether the instruction is issued for the first time, not again after a wait. -/
def Iss.firstIssue (x : Iss) : Bool :=
  match x.gr.kept with
  | some (.blocked w) => decide (w.pc ≠ x.cur.pc)
  | _ => true

/-- The lowest lane of a window access whose session is lost (R267). -/
def Iss.lostFault (x : Iss) (acc : Acc) (ls : List (Nat × Nat)) : Option Eff :=
  match failing ls (fun _ a => x.lostAt acc a) with
  | some (bad, a) => some (x.fault 0x23 0 a bad)
  | none => none

/-! LD and ST (R325, R326). -/

/-- The value that a load of n bytes gives a destination. -/
def extend (sz : Size) (sx : Bool) (o : Opnd) (v : Nat) : DWord :=
  let n := 8 * szBytes sz
  match o with
  | .s _ => if sx then BitVec.ofInt 64 (sextN v n) else BitVec.ofNat 64 (v % 2 ^ n)
  | _ => if sx && decide (n < 32) then BitVec.ofNat 64 (wrapN 32 (sextN v n)) else BitVec.ofNat 64 (v % 2 ^ n)

/-- Writes loaded values: 16 bytes go to four registers (R325). -/
def Iss.landSz (x : Iss) (s : State) (some_ : DWord) (sz : Size) (sx : Bool) (d : Opnd) (f : Nat → Nat) : State :=
  match sz, d with
  | .b128, .v n =>
    (List.range 4).foldl (fun s i => x.land s some_ false (.v (Fin.ofNat 256 (n.val + i))) (fun l => BitVec.ofNat 64 (f l >>> (32 * i) % 2 ^ 32))) s
  | .b64, _ => x.land s some_ true d (fun l => BitVec.ofNat 64 (f l))
  | _, _ => x.land s some_ false d (fun l => extend sz sx d (f l))

/-- LD (R326): while lanes wait for remote data the group is blocked (R218). -/
def ldEff (sp : Space) (sz : Size) (sx : Bool) (m : Xm) (d a : Opnd) (x : Iss) : Eff :=
  let n := szBytes sz
  let ls := (lanesOf x.todo).map (fun l => (l, x.addr sp a m.ofs l))
  match x.check sp n [.r] ls with
  | some e => e
  | none =>
    let win := if inGlobal sp then x.winLanes .r ls else []
    match x.lostFault .r win with
    | some e => e
    | none =>
      if win ≠ [] then
        .block (if x.firstIssue then win.foldl (fun s e => x.send s .r e.2 n 0 .ld) x.s else x.s) x.doneMask false false
      else match x.poisonFault sp true n ls with
        | some e => e
        | none =>
          let s := x.landSz x.s x.todo sz sx d (fun l => fromLE (x.read x.s sp true (x.addr sp a m.ofs l) n))
          x.ok (x.charge (x.peek s sp n (ls.map Prod.snd)) sp true .r n (ls.map Prod.snd))

/-- LD (R326). -/
def execLd (c : Ctl) (sp : Space) (sz : Size) (sx : Bool) (x : Xm) (d a : Opnd) (s : State) : Out :=
  issued (.ld c sp sz sx x d a) c (ldEff sp sz sx x d a) s

/-- The bytes that a store takes from its data operand (R325). -/
def Iss.data (x : Iss) (sz : Size) (b : Opnd) (l : Nat) : Nat :=
  match sz, b with
  | .b128, .v n => join 32 ((List.range 4).map (fun i => (x.reg (.v (n.val + i)) l).toNat % 2 ^ 32))
  | .b64, _ => x.w64 b l
  | _, _ => x.w32 b l % 2 ^ (8 * szBytes sz)

/-- ST (R326): lanes store in ascending order, so the highest lane's bytes remain (R205). -/
def stEff (sp : Space) (sz : Size) (m : Xm) (a b : Opnd) (x : Iss) : Eff :=
  let n := szBytes sz
  let ls := x.lanes.map (fun l => (l, x.addr sp a m.ofs l))
  match x.check sp n [.w] ls with
  | some e => e
  | none =>
    let s := if inGlobal sp then x.cleanLines x.s (ls.map (fun e => (e.2, n))) else x.s
    let s := ls.foldl (fun s e => x.send (x.store (x.note s sp e.1 e.2 n) sp e.2 (toLE n (x.data sz b e.1))) .w e.2 n (x.data sz b e.1) .st) s
    x.ok (x.charge s sp false .w n (ls.map Prod.snd))

/-- ST (R326). -/
def execSt (c : Ctl) (sp : Space) (sz : Size) (x : Xm) (a b : Opnd) (s : State) : Out := issued (.st c sp sz x a b) c (stEff sp sz x a b) s

/-! Full and empty tags (R70, R71, R328). -/

/-- Whether a scratchpad word is full. -/
def Workgroup.full (w : Workgroup) (i : Nat) : Bool := w.tags.contains i
/-- Sets a word's tag, keeping the list rising. -/
def Workgroup.setTag (w : Workgroup) (i : Nat) (f : Bool) : Workgroup :=
  let r := w.tags.filter (fun k => k != i)
  { w with tags := if f then r.filter (fun k => decide (k < i)) ++ [i] ++ r.filter (fun k => decide (i < k)) else r }

/-- The workgroup of an issue in a state. -/
def Iss.wgIn (x : Iss) (s : State) : Workgroup := match (s.core x.core).wgOf x.wg.uid with | some (_, w) => w | none => x.wg

/-- One pass of LDF over its lanes in ascending order: those whose word is full complete (R71, R328). -/
def ldfPass (clr : Bool) (d : Opnd) (adr : Nat → Nat) (x : Iss) (s : State) : List Nat → State × DWord
  | [] => (s, 0)
  | l :: ls =>
    let i := adr l / 4
    if (x.wgIn s).full i then
      let v := fromLE ((x.wgIn s).spRead (adr l) 4)
      let s := x.modG s (fun g => g.putLane false d l (BitVec.ofNat 64 v))
      let s := x.modW s (fun w => if clr then (w.peek (adr l) 4).setTag i false else w.peek (adr l) 4)
      let r := ldfPass clr d adr x s ls
      (r.1, r.2 ||| laneBit l)
    else ldfPass clr d adr x s ls

/-- One pass of STE: lanes whose word is empty write it and set it full (R71, R328). -/
def stePass (b : Opnd) (adr : Nat → Nat) (x : Iss) (s : State) : List Nat → State × DWord
  | [] => (s, 0)
  | l :: ls =>
    let i := adr l / 4
    if (x.wgIn s).full i then stePass b adr x s ls
    else
      let s := x.modW s (fun w => (w.spWrite (adr l) (toLE 4 (x.w32 b l))).setTag i true)
      let r := stePass b adr x s ls
      (r.1, r.2 ||| laneBit l)

/-- What LDF or STE answers: done when every active lane is, else blocked (R218, R328). -/
def tagWait (adr : Nat → Nat) (load : Bool) (pass : State → List Nat → State × DWord) (x : Iss) : Eff :=
  let ls := (lanesOf x.todo).map (fun l => (l, adr l))
  match x.check .sp 4 [.r] ls with
  | some e => e
  | none => match (if load then x.poisonFault .sp false 4 (ls.filter (fun e => x.wg.full (e.2 / 4))) else none) with
    | some e => e
    | none =>
      let r := pass x.s (lanesOf x.todo)
      let done := x.doneMask ||| r.2
      if x.act &&& ~~~ done = 0 then x.ok r.1 else .block r.1 done false false

/-- LDF (R328). -/
def ldfEff (clr : Bool) (ofs : BitVec 24) (d a : Opnd) (x : Iss) : Eff := tagWait (x.addr .sp a ofs) true (ldfPass clr d (x.addr .sp a ofs) x) x
/-- STE (R328). -/
def steEff (ofs : BitVec 24) (a b : Opnd) (x : Iss) : Eff := tagWait (x.addr .sp a ofs) false (stePass b (x.addr .sp a ofs) x) x

/-- LDF (R328). -/
def execLdf (c : Ctl) (clr : Bool) (ofs : BitVec 24) (d a : Opnd) (s : State) : Out := issued (.ldf c clr ofs d a) c (ldfEff clr ofs d a) s
/-- STE (R328). -/
def execSte (c : Ctl) (ofs : BitVec 24) (a b : Opnd) (s : State) : Out := issued (.ste c ofs a b) c (steEff ofs a b) s

/-- TAG (R328). -/
def execTag (c : Ctl) (sz : Size) (full : Bool) (ofs : BitVec 24) (a : Opnd) (s : State) : Out :=
  issued (.tag c sz full ofs a) c (fun x =>
    let n := szBytes sz
    let ls := x.lanes.map (fun l => (l, x.addr .sp a ofs l))
    match x.check .sp n [.w] ls with
    | some e => e
    | none => x.ok (x.modW x.s (fun w => ls.foldl (fun w e => (List.range (n / 4)).foldl (fun w i => w.setTag (e.2 / 4 + i) full) w) w))) s

/-! Atomics (R202 to R204, R329, R330). -/

/-- g of an atomic operation on w bits (R329). -/
def atomG (op : AOp) (u : Bool) (w a b : Nat) : Nat :=
  let less := if u then decide (a < b) else decide (sextN a w < sextN b w)
  match op with
  | .add => (a + b) % 2 ^ w
  | .min => if less then a else b
  | .max => if less then b else a
  | .and => a &&& b
  | .or => a ||| b
  | .xor => a ^^^ b
  | .exch => b
  | .fadd => (addF .f32 .rn .nosat a b).1
  | .bfadd => join 16 ((List.range 2).map (fun h => (addF .bf16 .rn .nosat (felem .bf16 a h) (felem .bf16 b h)).1))

/-- The old values that the lanes after the first see, and the operand of the one request (R203). -/
def prefixes (g : Nat → Nat → Nat) (o : Nat) : Nat → List (Nat × Nat) → List (Nat × Nat) × Nat
  | p, [] => ([], p)
  | p, (l, y) :: r => let q := prefixes g o (g p y) r; ((l, g o p) :: q.1, q.2)

/-- One address's lanes of an ATOM or RED (R330): old values by lane, and the new value. -/
def atomOne (g : Nat → Nat → Nat) (o : Nat) : List (Nat × Nat) → List (Nat × Nat) × Nat
  | [] => ([], o)
  | (l, y) :: r => let q := prefixes g o y r; ((l, o) :: q.1, g o q.2)

/-- The operand of the one request that the lanes of an address make (R203). -/
def reduced (g : Nat → Nat → Nat) : List (Nat × Nat) → Nat
  | [] => 0
  | (_, y) :: r => r.foldl (fun p e => g p e.2) y

/-- One address's lanes of a CAS (R204, R330). -/
def casOne : Nat → List (Nat × Nat × Nat) → List (Nat × Nat) × Nat
  | v, [] => ([], v)
  | v, (l, y, c) :: r => let q := casOne (if v = y then c else v) r; ((l, v) :: q.1, q.2)

/-- A read-modify-write of poisoned words of a space leaves their marks (R266); in global memory the write left them. -/
def Iss.markAt (x : Iss) (s : State) (sp : Space) (a n : Nat) : State :=
  match sp with
  | .gl | .pv => s
  | .sp => x.modW s (fun w => w.mark .scratch a n)
  | .cl => s.modTeam x.clu x.wg.launch x.wg.team (fun t => { t with poison := t.poison ++ (wordsOf a n).filter (fun w => !t.poison.contains w) })

/-- Read-modify-writes, one per distinct address (R187, R330): old values by lane. one gives an address's old values and new value. -/
def rmwAll (sp : Space) (n : Nat) (one : Nat → List Nat → List (Nat × Nat) × Nat) (x : Iss) (ls : List (Nat × Nat)) (s : State) :
    List Nat → State × List (Nat × Nat)
  | [] => (s, [])
  | a :: as =>
    let on := (ls.filter (fun e => e.2 == a)).map Prod.fst
    let r := one (fromLE (x.read s sp false a n)) on
    let s1 := x.store (x.peek (x.note s sp (on.headD 0) a n) sp n [a]) sp a (toLE n r.2)
    let s1 := if x.poisonAt sp false a n then x.markAt s1 sp a n else s1
    let q := rmwAll sp n one x ls s1 as
    (q.1, r.1 ++ q.2)

/-- An atomic: checks, window requests, then the read-modify-writes. ret: old values are returned (to d). -/
def atomEff (sp : Space) (sz : Size) (m : Xm) (a : Opnd) (ret : Option Opnd) (one : Iss → Nat → List Nat → List (Nat × Nat) × Nat)
    (req : Iss → List Nat → List (Nat × WReq)) (x : Iss) : Eff :=
  let n := szBytes sz
  let ls := (lanesOf x.todo).map (fun l => (l, x.addr sp a m.ofs l))
  match x.check sp n [.r, .w] ls with
  | some e => e
  | none =>
    let win := if inGlobal sp then x.winLanes .w ls else []
    let out (s : State) : State := ((win.map Prod.snd).eraseDups).foldl (fun s p =>
      (req x ((win.filter (fun e => e.2 == p)).map Prod.fst)).foldl (fun s r => x.send s .w p n r.1 r.2) s) s
    match (if ret.isSome then x.lostFault .w win else none) with
    | some e => e
    | none =>
      if win ≠ [] ∧ ret.isSome then .block (if x.firstIssue then out x.s else x.s) x.doneMask false false
      else
        let loc := ls.filter (fun e => !win.contains e)
        match (if ret.isSome then x.poisonFault sp false n loc else none) with
        | some e => e
        | none =>
          let r := rmwAll sp n (one x) x loc (if ret.isSome then x.s else out x.s) ((loc.map Prod.snd).eraseDups)
          let s := match ret with
            | some d => x.landSz r.1 x.todo sz false d (fun l => (Tab.get r.2 l).getD 0)
            | none => r.1
          x.ok (x.charge s sp false .w n (loc.map Prod.snd))

/-- The B operand of an atomic: an inline constant of .fadd is FP32, and of .bfadd BF16 in both halves (R110). -/
def Iss.atomB (x : Iss) (op : AOp) (sz : Size) (b : Opnd) (l : Nat) : Nat :=
  match op, b with
  | .fadd, .k n => (constFty .f32 n.val).toNat
  | .bfadd, .k n => (constFty .bf16 n.val).toNat
  | _, _ => x.data sz b l
/-- Lanes with their B operands. -/
def Iss.withB (x : Iss) (op : AOp) (sz : Size) (b : Opnd) (ls : List Nat) : List (Nat × Nat) := ls.map (fun l => (l, x.atomB op sz b l))

/-- The effect of ATOM and RED other than .cas. -/
def atomOp (op : AOp) (sp : Space) (sz : Size) (u : Bool) (m : Xm) (ret : Option Opnd) (a b : Opnd) : Iss → Eff :=
  atomEff sp sz m a ret (fun x o ls => atomOne (atomG op u (8 * szBytes sz)) o (x.withB op sz b ls))
    (fun x ls => [(reduced (atomG op u (8 * szBytes sz)) (x.withB op sz b ls), .rmw op u ret.isSome)])

/-- The effect of ATOM .cas. -/
def casOp (sp : Space) (sz : Size) (m : Xm) (d a b cc : Opnd) : Iss → Eff :=
  atomEff sp sz m a (some d) (fun x o ls => casOne o (ls.map (fun l => (l, x.data sz b l, x.data sz cc l))))
    (fun x ls => ls.map (fun l => (x.data sz b l, .cas (x.data sz cc l))))

/-- ATOM (R330). -/
def execAtom (c : Ctl) (op : AOp) (sp : Space) (sz : Size) (u : Bool) (x : Xm) (d a b : Opnd) (s : State) : Out :=
  issued (.atom c op sp sz u x d a b) c (atomOp op sp sz u x (some d) a b) s
/-- ATOM .cas (R330). -/
def execAtomCas (c : Ctl) (sp : Space) (sz : Size) (x : Xm) (d a b cc : Opnd) (s : State) : Out :=
  issued (.atomCas c sp sz x d a b cc) c (casOp sp sz x d a b cc) s
/-- RED (R330). -/
def execRed (c : Ctl) (op : AOp) (sp : Space) (sz : Size) (u : Bool) (x : Xm) (a b : Opnd) (s : State) : Out :=
  issued (.red c op sp sz u x a b) c (atomOp op sp sz u x none a b) s

/-! Fences (R331, R332). -/

/-- FENCE (R331): every access of the model is performed at its issue, in one order of all, so the wait is over at once (log 6: DESIGN CHOICE). -/
def execFence (c : Ctl) (scope : Scope) (ord : MOrd) (rmt : Bool) (s : State) : Out := issued (.fence c scope ord rmt) c (fun x => x.ok x.s) s

/-- MFENCE (R332): a stall until every earlier register write of the group has retired. The writes of operands that stand before it are noted in the group (R192). -/
def execMfence (c : Ctl) (s : State) : Out :=
  issued (.mfence c) c (fun x => if x.gr.sb.isEmpty && x.gr.pend.all (fun p => p.landed) then x.ok x.s else .wait) s

/-! QCTL (R343). -/

/-- A group command acts only when a lane is active and guard-true (R323). -/
def Iss.command (x : Iss) (f : Iss → Eff) : Eff := if x.act = 0 then x.ok x.s else f x

/-- QCTL on a queue, which operandSub has found declared whatever the guard (R119, R343). -/
def qctl (h : Fin 8) (f : Iss → Queue → Eff) (x : Iss) : Eff := x.command (fun x => f x (x.wg.queue h.val))

/-- QCTL .occ (R343). -/
def execQctlOcc (c : Ctl) (h : Fin 8) (d : Opnd) (s : State) : Out :=
  issued (.qctlOcc c h d) c (qctl h (fun x q => x.ok (x.write false d (fun _ => BitVec.ofNat 64 q.occ)))) s
/-- QCTL .perm (R343). -/
def execQctlPerm (c : Ctl) (h : Fin 8) (d : Opnd) (s : State) : Out :=
  issued (.qctlPerm c h d) c (qctl h (fun x q => x.ok (x.write false d (fun _ => BitVec.ofNat 64 q.permits)))) s
/-- QCTL .reset (R343). -/
def execQctlReset (c : Ctl) (h : Fin 8) (s : State) : Out :=
  issued (.qctlReset c h) c (qctl h (fun x _ => x.ok (x.modW x.s (fun w => w.modQueue h.val (fun q => Queue.fresh q.kind q.width q.depth))))) s

/-! SPILL, FILL and PREF (R90, R344, R345). -/

/-- The checks of a spill slot at an address (R344). -/
def spillCheck (wr : Bool) (a : Nat) (x : Iss) : Option Eff :=
  let n := 8 + 4 * x.width
  let l := x.lanes.headD 0
  if a % 8 ≠ 0 then some (x.faultA 0x06 0 a)
  else if a + n > x.privOf 0 + x.privSize then some (x.faultA 0x0A wr.toNat a)
  else match x.checkTr [if wr then .w else .r] [(l, a), (l, a + n - 1)] with
    | some (.trap t) => some (.trap { t with fmask := x.act })
    | e => e

/-- A lane's delta from the base, as a signed number (R90). -/
def delta (b v : Nat) : Int := sextN (v + 2 ^ 32 - b) 32

/-- Whether every delta fits in w bits. -/
def fits (w : Nat) (ds : List Int) : Bool := ds.all (fun d => decide (-(2 ^ (w - 1) : Nat) ≤ d) && decide (d < (2 ^ (w - 1) : Nat)))

/-- The format that SPILL chooses: the smallest that holds the values (R90). -/
def spillFmt (ds : List Int) : Nat := if ds.all (fun d => d == 0) then 1 else if fits 8 ds then 2 else if fits 16 ds then 3 else 0

/-- The bytes of a spill slot (R90): vals gives the stored lanes' values. -/
def spillBytes (width : Nat) (vals : List (Nat × Nat)) : List Byte :=
  let b := match vals with | e :: _ => e.2 | [] => 0
  let k := spillFmt (vals.map (fun e => delta b e.2))
  let lane (w l : Nat) : List Byte := match Tab.get vals l with
    | some v => toLE w (if k = 0 then v else wrapN 32 (delta b v))
    | none => toLE w 0
  let dat : List Byte := match k with
    | 0 => (List.range width).flatMap (lane 4)
    | 1 => toLE 4 b
    | 2 => toLE 4 b ++ (List.range width).flatMap (lane 1)
    | _ => toLE 4 b ++ (List.range width).flatMap (lane 2)
  let body := toLE 8 k ++ dat
  body ++ List.replicate (8 + 4 * width - body.length) 0

/-- SPILL (R90, R344). -/
def execSpill (c : Ctl) (b : Fin 256) (a : Opnd) (s : State) : Out :=
  issued (.spill c b a) c (fun x => x.command (fun x =>
    let p := x.privOf 0 + x.w32 a 0
    match spillCheck true p x with
    | some e => e
    | none =>
      let vals := x.lanes.map (fun l => (l, (x.reg (.v b.val) l).toNat % 2 ^ 32))
      let n := 8 + 4 * x.width
      let s := (x.s.glClean x.wg.ctx p n).glWrite x.wg.ctx p (spillBytes x.width vals)
      let s := x.ask s (x.s.sectors x.wg.ctx .w p n)
      x.ok (x.modG s (fun g => { g with spills := Tab.set g.spills p x.act })))) s

/-- The value that FILL rebuilds for a lane from a slot's bytes (R90). -/
def fillLane (bs : List Byte) (l : Nat) : Nat :=
  let at_ (i n : Nat) : Nat := fromLE ((bs.drop i).take n)
  let b := at_ 8 4
  match at_ 0 1 with
  | 0 => at_ (8 + 4 * l) 4
  | 1 => b
  | 2 => wrapN 32 (b + sextN (at_ (12 + l) 1) 8)
  | _ => wrapN 32 (b + sextN (at_ (12 + 2 * l) 2) 16)

/-- FILL (R90, R344): a lane that SPILL did not store takes an undefined value. -/
def execFill (c : Ctl) (d : Fin 256) (a : Opnd) (s : State) : Out :=
  issued (.fill c d a) c (fun x => x.command (fun x =>
    let p := x.privOf 0 + x.w32 a 0
    let n := 8 + 4 * x.width
    match spillCheck false p x with
    | some e => e
    | none =>
      if x.s.glPoison x.wg.ctx p n then x.faultA 0x1E 0 p
      else
        let bs := x.s.glRead x.wg.ctx p n
        if fromLE (bs.take 1) ≥ 4 then x.faultA 0x1B 0 p
        else
          let stored := (Tab.get x.gr.spills p).getD (BitVec.allOnes 64)
          let s := x.write false (.v d) (fun l => if laneIn stored l then BitVec.ofNat 64 (fillLane bs l) else (Config.freeWord x.nonce l).setWidth 64)
          x.ok (x.ask s (x.s.sectors x.wg.ctx .r p n)))) s

/-- A line goes into a fetch unit's cache, in place of the oldest where it is full (R15, R345); bad: its poisoned words. Its bytes are those of memory, since no
read through the cache may be older (R197). -/
def Core.cacheLine (k : Core) (ctx line : Nat) (bad : List Nat) : Core :=
  let r := k.fcache.filter (fun e => !(e.ctx == ctx && e.line == line))
  { k with fcache := r.drop (r.length + 1 - Config.fetchLines) ++ [{ ctx := ctx, line := line, bad := bad }] }

/-- PREF (R345): the line of each lane's address that translates and is present goes into the fetch unit's cache; it makes no event and raises no fault. -/
def execPref (c : Ctl) (ofs : BitVec 24) (a : Opnd) (s : State) : Out :=
  issued (.pref c ofs a) c (fun x =>
    let as := (x.lanes.map (fun l => x.addr .gl a ofs l)).filter (fun p => (x.s.lineOf x.wg.ctx p).isSome)
    let bad (p : Nat) : List Nat := (List.range 16).filter (fun k => x.s.glPoison x.wg.ctx (64 * (p / 64) + 4 * k) 4)
    let s := x.s.modCore x.core (fun k => as.foldl (fun k p => k.cacheLine x.wg.ctx (p / 64) (bad p)) k)
    x.ok (x.ask s ((as.flatMap (fun p => x.s.sectors x.wg.ctx .r (64 * (p / 64)) 64)).eraseDups))) s

end Sys2Proof.Machine
end

