-- ==== Sys2Proof/Machine/Sync.lean ====
section
/-! DEFINITION. Synchronisation words: SWINIT, SWARR and SWWAIT (R72, R73, R333, R334). -/
namespace Sys2Proof.Machine
open Sys2Proof

/-- The binding of a word named by an address of an issue (R267). -/
def Iss.bindingOf (x : Iss) (sp : Space) (a : Nat) : Bound → Bool :=
  fun b => b.addr == a && (match sp with | .sp => b.wg == some x.wg.uid | _ => b.wg == none && b.ctx == x.wg.ctx)

/-- The image that SWINIT writes (R334). -/
def swImage (target c : Nat) : Nat :=
  { target := target, count := 0, gen := bits c 15 0, ovr := c.testBit 16, stale := c.testBit 17, abort := c.testBit 18, ten := c.testBit 19 : SWord }.toNat

/-- SWINIT (R334): it ends the word's binding to a session (R267). -/
def execSwinit (c : Ctl) (sp : Space) (x : Xm) (a b cc : Opnd) (s : State) : Out :=
  issued (.swinit c sp x a b cc) c (fun y =>
    let ls := y.lanes.map (fun l => (l, y.addr sp a x.ofs l))
    match failing ls (fun l _ => bits (y.w32 cc l) 31 20 != 0) with
    | some (bad, _) => y.fault 0x02 3 0 bad
    | none => match y.check sp 16 [.w] ls with
      | some e => e
      | none =>
        let s := if inGlobal sp then y.cleanLines y.s (ls.map (fun e => (e.2, 16))) else y.s
        let s := ls.foldl (fun s e =>
          let v := swImage (y.w32 b e.1) (y.w32 cc e.1)
          let s := if inGlobal sp then s.holdWord y.wg.ctx e.2 else s
          let s := y.send (y.store (y.note s sp e.1 e.2 16) sp e.2 (toLE 16 v)) .w e.2 16 v .st
          { s with bound := s.bound.filter (fun k => !y.bindingOf sp e.2 k) }) s
        y.ok (y.charge s sp false .w 16 (ls.map Prod.snd))) s

/-- SWARR: one addition per lane, in ascending order (R71, R73, R334). -/
def swarrEff (sp : Space) (m : Xm) (a b : Opnd) (gen : Iss → Nat → Option Nat) (x : Iss) : Eff :=
  let ls := x.lanes.map (fun l => (l, x.addr sp a m.ofs l))
  match x.check sp 16 [.r, .w] ls with
  | some e => e
  | none =>
    let s := ls.foldl (fun s e =>
      let n := x.w32 b e.1
      if inGlobal sp ∧ (x.window .w e.2).isSome then x.send s .w e.2 16 n (.add (gen x e.1))
      else (x.note s sp e.1 e.2 16).wordAdd (x.loc sp e.2) n (gen x e.1) (some x.who)) x.s
    x.ok (x.charge s sp false .w 16 (ls.map Prod.snd))

/-- SWARR .any (R334). -/
def execSwarrAny (c : Ctl) (sp : Space) (x : Xm) (a b : Opnd) (s : State) : Out :=
  issued (.swarrAny c sp x a b) c (swarrEff sp x a b (fun _ _ => none)) s
/-- SWARR .gen (R334). -/
def execSwarrGen (c : Ctl) (sp : Space) (x : Xm) (a b cc : Opnd) (s : State) : Out :=
  issued (.swarrGen c sp x a b cc) c (swarrEff sp x a b (fun y l => some (bits (y.w32 cc l) 15 0))) s

/-- Whether a lane's word lets it go on, and whether it found ABORT (R334). -/
def Iss.swLane (x : Iss) (sp : Space) (a g : Nat) : Bool × Bool :=
  if inGlobal sp ∧ (x.window .r a).isSome then (false, false)
  else
    let w := SWord.ofNat (x.s.word (x.loc sp a))
    (w.reached g || w.abort, w.abort)

/-- What a wait kept of earlier lanes: a lane that found ABORT, a lane woken by a lost session. -/
def Iss.woken (x : Iss) : Bool × Bool :=
  match x.gr.kept with
  | some (.blocked w) => if w.pc = x.cur.pc then (w.abort, w.lost) else (false, false)
  | _ => (false, false)

/-- Lanes whose word lets them go on, and whether one of them found ABORT. -/
def Iss.swPass (x : Iss) (sp : Space) (m : Xm) (a b : Opnd) : DWord × Bool :=
  (lanesOf x.todo).foldl (fun r l =>
    let t := x.swLane sp (x.addr sp a m.ofs l) (x.w32 b l % 65536)
    if t.1 then (r.1 ||| laneBit l, r.2 || t.2) else r) (0, false)

/-- WST as a wait ends (R334). -/
def wstOf (abort lost : Bool) : DWord := if lost then 0x200 else if abort then 0x100 else 0

/-- The lanes that a wait lets go on acquire the completions of oven operations counted on their words (R192, R194): at scope grp, those of their own group (R178). -/
def Iss.swAcquire (x : Iss) (s : State) (sp : Space) (m : Xm) (a b : Opnd) (lanes : DWord) : State :=
  if inGlobal sp then s
  else (lanesOf lanes).foldl (fun s l =>
    let p := x.addr sp a m.ofs l
    s.acquire x.core x.wg.uid (fun d => (decide (m.scope ≠ .grp) || d.grp == x.gr.uid) && d.reachedBy p (x.w32 b l % 65536) (x.swLane sp p 0).2)) s

/-- SWWAIT (R334): lanes complete one by one, those of a lost session too (R218, R267); the group is blocked until all have (R218). -/
def swwaitEff (sp : Space) (m : Xm) (a b : Opnd) (x : Iss) : Eff :=
  let ls := (lanesOf x.todo).map (fun l => (l, x.addr sp a m.ofs l))
  match x.check sp 16 [.r] ls with
  | some e => e
  | none => match x.poisonFault sp false 16 ls with
    | some e => e
    | none =>
      let r := x.swPass sp m a b
      let gone := maskOf ((ls.filter (fun e => inGlobal sp && x.lostAt .r e.2)).map Prod.fst)
      let done := x.doneMask ||| r.1 ||| gone
      let ab := x.woken.1 || r.2
      let lost := x.woken.2 || gone != 0
      let s := x.swAcquire x.s sp m a b r.1
      if x.act &&& ~~~ done = 0 then
        x.ok (if x.act = 0 then s else x.modG s (fun g => { g with gstat := clearWst g.gstat ||| wstOf ab lost }))
      else
        let win := ls.filter (fun e => decide (inGlobal sp = true) && (x.window .r e.2).isSome)
        .block (if x.firstIssue then win.foldl (fun s e => x.send s .r e.2 16 0 .ld) s else s) done ab lost

/-- SWWAIT (R334). -/
def execSwwait (c : Ctl) (sp : Space) (x : Xm) (a b : Opnd) (s : State) : Out := issued (.swwait c sp x a b) c (swwaitEff sp x a b) s

end Sys2Proof.Machine
end

