-- ==== Sys2Proof/Machine/Engine.lean ====
section
/-! DEFINITION. What the engines share: tensor entries (R87, R127 to R130), the stores that an engine reads and writes, completions (R347),
and the checks of a group's global ranges (R324). -/
namespace Sys2Proof.Machine
open Sys2Proof

/-- An event of the device: it has its effect where its condition holds (log 4: DESIGN CHOICE). -/
def event (r : Option State) : Out := match r with | some s => .next s | none => .fault .notEnabled

/-! Tensor entries. -/

/-- The fields of a tensor entry (R87). -/
structure Ten where
  fmt    : Nat
  ndim   : Nat
  slay   : Nat
  senc   : Nat
  cbs    : Nat
  tscale : Nat
  base   : Nat
  e0     : Nat
  e1     : Nat
  e2     : Nat
  e3     : Nat
  s1     : Nat
  s2     : Nat
  s3     : Nat
  sbase  : Nat
  nbase  : Nat
  ibase  : Nat
  pbase  : Nat
  deriving DecidableEq, Repr

/-- The fields of a 128-byte image. -/
def Ten.of (t : BitVec 1024) : Ten :=
  let f (hi lo : Nat) : Nat := bits t.toNat hi lo
  { fmt := f 3 0, ndim := f 5 4, slay := f 7 6, senc := f 10 8, cbs := f 12 11, tscale := f 63 32, base := f 127 64,
    e0 := f 159 128, e1 := f 191 160, e2 := f 223 192, e3 := f 255 224, s1 := f 287 256, s2 := f 319 288, s3 := f 351 320,
    sbase := f 447 384, nbase := f 511 448, ibase := f 575 512, pbase := f 639 576 }

/-- VALID of an entry. -/
def tenValid (t : BitVec 1024) : Bool := t.getLsbD 31

/-- Whether TIDSET accepts an image (R87). -/
def tenLegal (t : BitVec 1024) : Bool :=
  let d := Ten.of t
  decide (d.fmt < 12) && decide (d.slay ≠ 3) && decide (d.senc ≠ 7) && decide (d.cbs = 0) && decide (bits t.toNat 30 13 = 0)
    && decide (bits t.toNat 383 352 = 0) && decide (bits t.toNat 1023 640 = 0)
    && !(decide (d.slay ≠ 0) && [7, 8, 11].contains d.fmt) && !(decide (d.fmt = 9) && decide (d.senc ≠ 0))

/-- The entry of a context; one never written reads as zeros (R372). -/
def State.tensor (s : State) (ctx n : Nat) : BitVec 1024 :=
  match Tab.get s.ctxs ctx with | some x => (Tab.get x.tens n).getD 0 | none => 0

/-- A stride of a declared dimension that fails the packing (R130). -/
def Ten.odd (t : Ten) : Bool :=
  (([t.s1, t.s2, t.s3]).take t.ndim).any (fun s =>
    (decide (t.slay = 1) && s % 32 != 0) || (decide (t.fmt = 9) && s % 8 != 0) || ((t.fmt == 4 || t.fmt == 5) && decide (t.slay = 2) && s % 4 != 0))

/-- Bits of an element by format code; a CB2 weight takes 2 (R127). -/
def fmtBits (f : Nat) : Nat :=
  match f with | 0 | 1 => 16 | 2 | 3 | 7 => 8 | 4 | 5 => 6 | 6 | 8 => 4 | 9 => 2 | _ => 32

/-- Bytes of element data of a block of 32, and of the block in memory (R128). -/
def blockData (f : Nat) : Nat := 4 * fmtBits f
def blockSize (f : Nat) : Nat := blockData f + 1

/-! Stores as engines reach them. -/

/-- n bytes of the place that a tensor's BASE names (R349). -/
def State.eRead (s : State) (c wg ctx : Nat) (sp : BSpace) (a n : Nat) : List Byte :=
  match sp with
  | .gl => s.glRead ctx a n
  | .sp => match (s.core c).wgOf wg with | some (_, w) => w.spRead a n | none => List.replicate n 0
  | .tm => match (s.core c).wgOf wg with | some (_, w) => w.tmBytes a n | none => List.replicate n 0

/-- A read by an engine may reach the record of an oven operation in its window (R192). -/
def State.ePeek (s : State) (c wg : Nat) (sp : BSpace) (rs : List (Nat × Nat)) : State :=
  match sp with
  | .sp => s.modWg c wg (fun w => rs.foldl (fun w r => w.peek r.1 (r.2 - r.1)) w)
  | _ => s

/-- Whether some of these bytes are poisoned (R266). -/
def State.ePoison (s : State) (c wg ctx : Nat) (sp : BSpace) (a n : Nat) : Bool :=
  match sp with
  | .gl => s.glPoison ctx a n
  | .sp => match (s.core c).wgOf wg with | some (_, w) => w.poisoned .scratch a n | none => false
  | .tm => match (s.core c).wgOf wg with | some (_, w) => w.poisoned .tile a n | none => false

/-- Writes bytes there. -/
def State.eWrite (s : State) (c wg ctx : Nat) (sp : BSpace) (a : Nat) (bs : List Byte) : State :=
  match sp with
  | .gl => (s.glClean ctx a bs.length).glWrite ctx a bs
  | .sp => s.modWg c wg (fun w => w.spWrite a bs)
  | .tm => s.modWg c wg (fun w => w.tmWrite a bs)

/-- What stands in the way of an engine's global access: an address not present, or one denied or in a hole (R86, R340). -/
inductive Way where
  | clear
  | absent (va : Nat)
  | bad
  deriving DecidableEq, Repr

/-- The way of an access to n bytes. -/
def State.way (s : State) (ctx : Nat) (a : Acc) (va n : Nat) : Way :=
  let vs := (List.range n).map (fun i => va + i)
  match vs.find? (fun v => s.translate ctx a v == .absent) with
  | some v => .absent v
  | none => if vs.any (fun v => match s.translate ctx a v with | .denied | .hole | .far => true | _ => false) then .bad else .clear

/-- The class of a launch. -/
def State.tcOf (s : State) (l : Nat) : Nat := match Tab.get s.launches l with | some x => x.tc | none => 3

/-! Operations of engines. -/

/-- Starts an engine operation of this issue (R347, R389). -/
def Iss.start (x : Iss) (s : State) (cls : Nat) (word : Option Nat) (k : EngKind) (early : List Nat := []) (bad : Bool := false) : State :=
  let op : EngOp := { id := s.nextId, wg := x.wg.uid, grp := x.gr.uid, cls := cls, pc := x.cur.pc, ctx := x.wg.ctx, launch := x.wg.launch, team := x.wg.team,
                      word := word, kind := k, parked := none, early := early, bad := bad, nonce := s.fresh, lane := x.low.getD 0 }
  { s.modCore x.core (fun c => { c with eng := c.eng ++ [op] }) with nextId := s.nextId + 1, fresh := s.fresh + 1 }

/-- A word that a transfer of a session names is bound to the session, in each of the workgroups (R267): as: addresses that the transfer reaches (R84). -/
def Iss.bindTo (x : Iss) (s : State) (word : Option Nat) (wgs : List Nat) (as : List (Acc × Nat)) : State :=
  match word with
  | none => s
  | some o =>
    let ns := (as.filterMap (fun e => (x.window e.1 e.2).map Prod.fst)).eraseDups
    { s with bound := s.bound ++ ns.flatMap (fun n => wgs.map (fun v => { ctx := x.wg.ctx, wg := some v, addr := o, sess := n })) }

/-- An engine operation of a core by its number. -/
def Core.op (k : Core) (id : Nat) : Option EngOp := k.eng.find? (fun o => o.id == id)
/-- Changes an engine operation. -/
def State.modOp (s : State) (c id : Nat) (f : EngOp → EngOp) : State :=
  s.modCore c (fun k => { k with eng := k.eng.map (fun o => if o.id = id then f o else o) })
/-- Removes an engine operation, the last of a workgroup that is otherwise complete ends it (R55). -/
def State.dropOp (s : State) (c id : Nat) : State :=
  let s1 := s.modCore c (fun k => { k with eng := k.eng.filter (fun o => o.id != id) })
  match (s.core c).op id with
  | some o => s1.settle c o.wg
  | none => s1

/-- Replaces an operation, or removes it. -/
def State.putOp (s : State) (c id : Nat) (o : Option EngOp) : State := match o with | some o => s.modOp c id (fun _ => o) | none => s.dropOp c id

/-- An addition to the operation's word, if it has one. -/
def State.opAdd (s : State) (c : Nat) (o : EngOp) (n : Nat) : State :=
  match o.word with
  | some a => s.wordAdd (.sp c o.wg a) n none (some (c, o.wg, o.grp))
  | none => s

/-- Sets ABORT in the operation's word (R340). -/
def State.opAbort (s : State) (c : Nat) (o : EngOp) : State :=
  match o.word with | some a => s.wordAbort (.sp c o.wg a) | none => s

/-- The operation ends with its completion addition of 32 (R347). -/
def State.opDone (s : State) (c : Nat) (o : EngOp) : State := (s.opAdd c o 32).dropOp c o.id

/-- An engine operation that read poisoned data: its group takes trap 0x1E, SUB 1, at its next issue (R266). -/
def State.opPoison (s : State) (c : Nat) (o : EngOp) (b : Bool) : State := if b then s.mark c o.wg o.grp (impTrap 0x1E 1) else s

/-- A word offset of an engine instruction: 0xFFFF_FFFF names none (R347). -/
def wordOf (w : Nat) : Option Nat := if w = 0xFFFFFFFF then none else some w

/-! Checks of group commands and engine instructions (R323, R324, R346). -/

/-- Translation checks over accesses of a group (R324 check 4): absence first, then permission, then holes. -/
def Iss.checkAll (x : Iss) (as : List (Acc × Nat)) : Option Eff :=
  let bad (p : Acc × Nat → Bool) : Option Nat := (as.find? p).map Prod.snd
  let tr (e : Acc × Nat) : Tr := x.s.translate x.wg.ctx e.1 e.2
  match bad (fun e => tr e == .absent) with
  | some a => some (.park a)
  | none => match as.find? (fun e => tr e == .denied) with
    | some (c, a) => some (x.faultA 0x0A (if c = .r then 0 else 1) a)
    | none => match bad (fun e => tr e == .hole) with
      | some a => some (x.faultA 0x0B 0 a)
      | none => none

/-- Addresses of a global range in steps. -/
def span (a : Acc) (va n step : Nat) : List (Acc × Nat) := (List.range (ceilDiv n step)).map (fun i => (a, va + step * i))

/-- The first check that fails. -/
def firstOf : List (Option Eff) → Option Eff
  | [] => none
  | some e :: _ => some e
  | none :: r => firstOf r

/-- A check of a group: the trap when a condition holds. -/
def Iss.failIf (x : Iss) (b : Bool) (no sub addr : Nat) : Option Eff := if b then some (x.faultA no sub addr) else none

/-- Alignment and bound of a word that an instruction names by offset (R324, R347). -/
def Iss.wordMis (x : Iss) (w : Option Nat) : Option Eff := match w with | some a => x.failIf (a % 16 != 0) 0x06 0 a | none => none
def Iss.wordOut (x : Iss) (w : Option Nat) : Option Eff := match w with | some a => x.failIf (decide (a + 16 > x.wg.rec_.scratch)) 0x07 0 a | none => none

/-- Runs an effect once the checks pass. -/
def checked (cs : List (Option Eff)) (k : Unit → Eff) : Eff := match firstOf cs with | some e => e | none => k ()

/-- The entry of a tensor that an instruction names. -/
def Iss.ten (x : Iss) (t : Fin 256) : BitVec 1024 := x.s.tensor x.wg.ctx t.val
/-- The checks 1 and 2 of R346 over the tensors that an instruction names; bad tells which entries it cannot use. -/
def Iss.tenCheck (x : Iss) (ts : List (Fin 256 × (Ten → Bool))) : List (Option Eff) :=
  let at_ (p : Fin 256 × (Ten → Bool) → Bool) (no : Nat) : Option Eff := match ts.find? p with | some e => some (x.faultA no e.1.val 0) | none => none
  [at_ (fun e => !tenValid (x.ten e.1)) 0x15, at_ (fun e => e.2 (Ten.of (x.ten e.1))) 0x16]

end Sys2Proof.Machine
end

