-- ==== Sys2Proof/Machine/Copy.lean ====
section
/-! DEFINITION. COPY, COPYL, FETCH and RESID, and the landings of their transfers (R335 to R342, R80, R81, R193 to R197). -/
namespace Sys2Proof.Machine
open Sys2Proof

/-! One copy (R335, R336). -/

/-- What one COPY or one entry of COPYL asks. -/
structure CopyReq where
  src  : CSrc
  dst  : CDst
  sa   : Nat
  da   : Nat
  n    : Nat
  mask : Nat
  gen  : Option (BitVec 16)
  sf   : Bool
  rsv  : Bool
  ofs  : Int
  deriving DecidableEq, Repr

/-- Word offset: -1 names none. -/
def CopyReq.word (r : CopyReq) : Option Int := if r.ofs = -1 then none else some r.ofs

/-- Bits of an address that must be 0 (R335), and the end of a tile range. -/
def srcBits (k : CSrc) (a n tiles : Nat) : Bool :=
  match k with
  | .gl => false
  | .sp => decide (a ≥ 2 ^ 19)
  | .cl => decide (a ≥ 2 ^ 23)
  | .tm => decide (a ≥ 2 ^ 16) || decide (a + n > 4096 * tiles)
def dstBits (k : CDst) (a n tiles : Nat) : Bool :=
  match k with
  | .dgl => false
  | .dsp => decide (a ≥ 2 ^ 19)
  | .dcl => decide (a ≥ 2 ^ 23)
  | .dtm => decide (a ≥ 2 ^ 16) || decide (a + n > 4096 * tiles)

/-- The operand-value check: SUB 3 for the control word, 1 for the source, 2 for the destination (R335, R336). -/
def CopyReq.sub (r : CopyReq) (tiles : Nat) : Option Nat :=
  if r.n = 0 ∨ r.rsv = true ∨ (r.mask ≠ 0 ∧ (r.dst = .dgl ∨ r.dst = .dcl)) ∨ (r.sf = true ∧ r.dst ≠ .dsp) then some 3
  else if srcBits r.src r.sa r.n tiles then some 1
  else if dstBits r.dst r.da r.n tiles then some 2
  else none

/-- Copy alignment (R336): the address that fails. -/
def CopyReq.skew (r : CopyReq) : Option Nat :=
  if r.sa % 32 ≠ 0 then some r.sa else if r.da % 32 ≠ 0 then some r.da else if r.n % 32 ≠ 0 then some r.sa else none

/-- The bound that a copy breaks: trap number and address (R324 check 3, R336). -/
def CopyReq.out (r : CopyReq) (w : Workgroup) : Option (Nat × Nat) :=
  let lim (no a size : Nat) : Option (Nat × Nat) := if a + r.n > size then some (no, a) else none
  let s := match r.src with
    | .gl => lim 0x09 r.sa (2 ^ 57) | .sp => lim 0x07 r.sa w.rec_.scratch | .cl => lim 0x08 r.sa w.rec_.clsram | .tm => none
  let d := match r.dst with
    | .dgl => lim 0x09 r.da (2 ^ 57) | .dsp => lim 0x07 r.da w.rec_.scratch | .dcl => lim 0x08 r.da w.rec_.clsram | .dtm => none
  let k := match r.word with
    | some o => if o < 0 ∨ o + 16 > w.rec_.scratch then some (0x07, wrapN 32 o) else none
    | none => none
  (s.or d).or k

/-- The global accesses of a copy, by sector. -/
def CopyReq.spans (r : CopyReq) : List (Acc × Nat) :=
  (if r.src = .gl then span .r r.sa r.n 32 else []) ++ (if r.dst = .dgl then span .w r.da r.n 32 else [])

/-- Whether source and destination ranges overlap in one store (R336). -/
def CopyReq.overlap (r : CopyReq) : Bool :=
  (match r.src, r.dst with | .gl, .dgl | .sp, .dsp | .cl, .dcl | .tm, .dtm => true | _, _ => false)
  && decide (r.sa < r.da + r.n) && decide (r.da < r.sa + r.n)

/-- The oldest workgroup of the same launch and team on a core (R336). -/
def Core.oldest (k : Core) (launch team : Nat) : Option Workgroup :=
  (k.wgs.map Prod.snd).foldl (fun b w =>
    if w.launch = launch ∧ w.team = team then (match b with | some v => if w.order < v.order then some w else b | none => some w) else b) none

/-- The receivers of a copy (R336). -/
def Iss.receivers (x : Iss) (r : CopyReq) : List Recv :=
  if r.mask = 0 then [{ wg := x.wg.uid, next := 0, out := [] }]
  else ((List.range 8).filter (fun k => r.mask.testBit k)).filterMap (fun k =>
    ((x.s.core (8 * x.clu + k)).oldest x.wg.launch x.wg.team).map (fun w => { wg := w.uid, next := 0, out := [] }))

/-- An address in each page of a copy's sides that lie in global memory. -/
def copyEnds (src : CSrc) (dst : CDst) (sa da n : Nat) : List (Acc × Nat) :=
  (if src = .gl then span .r sa n 4096 ++ [(.r, sa + n - 1)] else []) ++ (if dst = .dgl then span .w da n 4096 ++ [(.w, da + n - 1)] else [])

/-- Starts one copy, unless it has no receiver; a word that a transfer of a session names is bound to the session (R267). -/
def Iss.startCopy (x : Iss) (s : State) (r : CopyReq) : State :=
  let w := r.word.map Int.toNat
  let rcv := x.receivers r
  if rcv.isEmpty then s
  else
    x.bindTo (x.start s 1 w (.copy r.src r.dst r.sa r.da r.n r.gen r.sf r.overlap rcv)) w (rcv.map Recv.wg) (copyEnds r.src r.dst r.sa r.da r.n)

/-- The request of a COPY: C gives NBYTES, MASK, GEN, GV and SF (R335). -/
def copyReq (src : CSrc) (dst : CDst) (ofs : BitVec 24) (a b c : Nat) : CopyReq :=
  { src := src, dst := dst, sa := a, da := b, n := bits c 31 0, mask := bits c 39 32,
    gen := if c.testBit 56 then some (BitVec.ofNat 16 (bits c 55 40)) else none, sf := c.testBit 57, rsv := bits c 63 58 != 0, ofs := ofs.toInt }

/-- COPY (R335, R336). -/
def execCopy (c : Ctl) (src : CSrc) (dst : CDst) (ofs : BitVec 24) (a b cc : Fin 64) (s : State) : Out :=
  issued (.copy c src dst ofs a b cc) c (fun x => x.command (fun x =>
    let r := copyReq src dst ofs (x.sv a) (x.sv b) (x.sv cc)
    checked
      [(r.sub x.wg.rec_.tiles).map (fun k => x.faultA 0x02 k 0),
       r.skew.map (fun p => x.faultA 0x1C 0 p),
       x.wordMis (r.word.map (fun o => wrapN 32 o)),
       (r.out x.wg).map (fun p => x.faultA p.1 0 p.2),
       x.checkAll r.spans]
      (fun _ => x.ok (x.startCopy x.s r)))) s

/-! COPYL (R337, R338). -/

/-- The request of a list entry: 32 bytes as a number. -/
def entryReq (e : Nat) : CopyReq :=
  let f (hi lo : Nat) : Nat := bits e hi lo
  { src := match f 185 184 with | 0 => .gl | 1 => .sp | 2 => .cl | _ => .tm,
    dst := match f 187 186 with | 0 => .dsp | 1 => .dcl | 2 => .dgl | _ => .dtm,
    sa := f 63 0, da := f 127 64, n := f 159 128, mask := f 183 176,
    gen := if e.testBit 188 then some (BitVec.ofNat 16 (f 175 160)) else none,
    sf := e.testBit 189, rsv := f 191 190 != 0 || f 255 216 != 0, ofs := sextN (f 215 192) 24 }

/-- The first entry of a list that fails a check: its trap, with the entry's address where the check gives no other. R338 names that address for a malformed field only; it
is that of a failed alignment too (log 76: DESIGN CHOICE). -/
def Iss.entryFail (x : Iss) (es : List (Nat × CopyReq)) (f : CopyReq → Option (Nat × Nat × Option Nat)) : Option Eff :=
  es.findSome? (fun e => (f e.2).map (fun t => x.faultA t.1 t.2.1 (t.2.2.getD e.1)))

/-- COPYL (R337, R338); the frame's address of a failed alignment is the entry's in the list (log 76: DESIGN CHOICE). -/
def execCopyl (c : Ctl) (a b : Fin 64) (s : State) : Out :=
  issued (.copyl c a b) c (fun x => x.command (fun x =>
    let p := x.sv a
    let n := x.sv b
    checked
      [x.failIf (decide (n = 0) || decide (n > 4096)) 0x02 2 0, x.failIf (p % 32 != 0) 0x06 0 p,
       x.failIf (decide (p + 32 * n > 2 ^ 57)) 0x09 0 p, x.checkAll (span .r p (32 * n) 32),
       x.failIf (x.s.glPoison x.wg.ctx p (32 * n)) 0x1E 0 p]
      (fun _ =>
        let es := (List.range n).map (fun i => (p + 32 * i, entryReq (fromLE (x.s.glBytes x.nonce x.wg.ctx (p + 32 * i) 32))))
        checked
          [x.entryFail es (fun r => (r.sub x.wg.rec_.tiles).map (fun _ => (0x02, 2, none))),
           x.entryFail es (fun r => r.skew.map (fun _ => (0x1C, 0, none))),
           x.entryFail es (fun r => r.word.bind (fun o => if o % 16 = 0 then none else some (0x06, 0, some (wrapN 32 o)))),
           x.entryFail es (fun r => (r.out x.wg).map (fun q => (q.1, 0, some q.2))),
           x.checkAll (es.flatMap (fun e => e.2.spans))]
          (fun _ => x.ok (es.foldl (fun s e => x.startCopy s e.2) (x.ask x.s (x.s.sectors x.wg.ctx .r p (32 * n)))))))) s

/-! Arrivals (R193, R195, R336). -/

/-- The core of a cluster on which a workgroup is resident. -/
def State.coreOf (s : State) (p uid : Nat) : Option Nat := (List.range 8).findSome? (fun k => if ((s.core (8 * p + k)).wgOf uid).isSome then some (8 * p + k) else none)

/-- The workgroup of an operation on its core, or as its save image holds it (R258). -/
def State.holder (s : State) (c wg : Nat) : Option Workgroup :=
  match (s.core c).wgOf wg with
  | some (_, w) => some w
  | none => (s.images.find? (fun im => im.wg.uid == wg)).map Image.wg

/-- A source sector with the marks of its words (R266); what comes through the window is another device's, a free value. -/
def State.srcSector (s : State) (c : Nat) (o : EngOp) (src : CSrc) (a : Nat) : List Byte × List Bool :=
  let wg := s.holder c o.wg
  let ws (f : Nat → Bool) : List Bool := (List.range 8).map (fun i => f (a / 4 + i))
  match src with
  | .gl => match s.translate o.ctx .r a with
    | .window _ _ _ => ((List.range 32).map (fun i => Config.freeByte o.nonce (2 ^ 60 + a + i)), List.replicate 8 false)
    | _ => (s.glRead o.ctx a 32, List.replicate 8 (s.glPoison o.ctx a 32))
  | .sp => match wg with | some w => (w.spRead a 32, ws (fun i => w.poison.contains (.scratch, i))) | none => (List.replicate 32 0, [])
  | .tm => match wg with | some w => (w.tmBytes a 32, ws (fun i => w.poison.contains (.tile, i))) | none => (List.replicate 32 0, [])
  | .cl =>
    match s.team (clusterOf c) o.launch o.team with
    | some t => (s.clBytes (clusterOf c) o.launch o.team a 32, ws t.poison.contains)
    | none => (List.replicate 32 0, [])

/-- Marks of the words of a sector set (R266). -/
def sectorMarks (st : Store) (a : Nat) (ms : List Bool) : List (Store × Nat) := ((List.range 8).filter (fun i => (ms[i]?).getD false)).map (fun i => (st, a / 4 + i))

/-- What a read of a source sector leaves: a mirror read through .cl, or a record read early, is undefined from then on (R81, R192). -/
def State.srcPeek (s : State) (c : Nat) (o : EngOp) (src : CSrc) (a : Nat) : State :=
  match src with
  | .sp => s.ePeek c o.wg .sp [(a, a + 32)]
  | .cl => s.clUse (clusterOf c) o.launch o.team a 32
  | _ => s

/-- Writes a sector at a receiver on core rc, for a workgroup of class tc. clear: with this sector the transfer has replaced every byte of the line of global memory
that it lies in by bytes without a mark, so that the line loses its mark (R266). -/
def State.putSector (s : State) (c rc : Nat) (o : EngOp) (dst : CDst) (wg a : Nat) (bs : List Byte) (ms : List Bool) (clear : Bool) : State :=
  match dst with
  | .dsp => s.modWg rc wg (fun w => let w := w.spWrite a bs; { w with poison := w.poison ++ sectorMarks .scratch a ms })
  | .dtm => s.modWg rc wg (fun w => let w := w.tmWrite a bs; { w with poison := w.poison ++ sectorMarks .tile a ms })
  | .dcl =>
    let s := s.clWrite (clusterOf c) o.launch o.team a bs
    s.modTeam (clusterOf c) o.launch o.team (fun t => { t with poison := t.poison ++ (sectorMarks .clsram a ms).map Prod.snd })
  | .dgl => match s.translate o.ctx .w a with
    | .window n d p => { s with winOut := s.winOut ++ [{ session := n, dev := d, addr := p, size := 32, data := fromLE bs, req := .st,
                                                            pcp := (s.fenaz.pcp[s.tcOf o.launch]?).getD 0 }] }
    | _ =>
      let s := if clear then s.glClean o.ctx (a / 64 * 64) 64 else s
      let s := s.glWrite o.ctx a bs
      if ms.contains true then s.glMark o.ctx a 32 else s

/-- Sets the tags of the words of a sector full (R70). -/
def Workgroup.tagSector (w : Workgroup) (a : Nat) : Workgroup := (List.range 8).foldl (fun w i => w.setTag (a / 4 + i) true) w

/-- Sectors that a copy's sector charges (R223). -/
def State.copySecs (s : State) (o : EngOp) (src : CSrc) (dst : CDst) (a b : Nat) : List Nat :=
  (if src = .gl then s.sectors o.ctx .r a 32 else []) ++ (if dst = .dgl then s.sectors o.ctx .w b 32 else [])

/-- What a sector's translation says (R86, R257). -/
def State.copyWay (s : State) (o : EngOp) (src : CSrc) (dst : CDst) (a b : Nat) : Way :=
  match (if src = .gl then s.way o.ctx .r a 32 else .clear) with
  | .clear => if dst = .dgl then s.way o.ctx .w b 32 else .clear
  | w => w

/-- Bytes of a sector that lie in the overlap of source and destination, as they land (R336). -/
def overlapped (o : EngOp) (overlap own : Bool) (sa n b : Nat) (bs : List Byte) : List Byte :=
  if overlap && own then
    bs.zipIdx.map (fun e => if decide (sa ≤ b + e.2) && decide (b + e.2 < sa + n) then Config.freeByte o.nonce (b + e.2) else e.1)
  else bs

/-- Whether with this sector, which is marked or not, a transfer has replaced all bytes of a line of global memory by bytes without a mark (R266): the other sector of
the line has landed before it, unmarked. r.out holds the sectors landed, as copyNext gives it. -/
def Recv.clears (r : Recv) (da : Nat) (marked : Bool) : Bool :=
  let b := da + 32 * r.next
  let other := if b % 64 = 0 then r.next + 1 else r.next - 1
  (decide (b % 64 = 0) || decide (0 < r.next)) && r.out.contains other && !r.bad.contains other && !marked

/-- A sector of a copy lands in a receiver: r.next is its number, r.out the sectors that have landed (R336). -/
def State.landSector (s : State) (c rc : Nat) (o : EngOp) (src : CSrc) (dst : CDst) (sa da n : Nat) (gen : Option (BitVec 16)) (sf ov : Bool) (r : Recv) : State :=
  let a := sa + 32 * r.next
  let b := da + 32 * r.next
  let q := s.srcSector c o src a
  let s := (s.charge o.ctx (clusterOf c) (s.copySecs o src dst a b)).srcPeek c o src a
  let s := s.putSector c rc o dst r.wg b (overlapped o ov (r.wg == o.wg) sa n b q.1) q.2 (r.clears da (q.2.contains true))
  let s := if dst = .dgl then s.modWg c o.wg (fun w => w.touch .hbm da n) else s
  let s := if sf then s.modWg rc r.wg (fun w => w.tagSector b) else s
  match o.word with
  | some k => if dst = .dgl then s else s.wordAdd (.sp rc r.wg k) 32 (gen.map BitVec.toNat) (some (c, o.wg, o.grp))
  | none => s

/-- The sectors of a receiver that have landed, if it takes them in any order. -/
def Recv.landed (r : Recv) : List Nat := List.range r.next ++ r.out

/-- The next sector of an operation's receiver number j, with the sectors landed; of a transfer into global memory j is the sector, since they land in any
order (R193). -/
def copyNext (o : EngOp) (j : Nat) : Option Recv :=
  match o.kind with
  | .copy _ dst _ _ n _ _ _ rcv =>
    if dst = .dgl then (rcv[0]?).bind (fun r => if 32 * j < n ∧ r.next ≤ j ∧ r.out.contains j = false then some { r with next := j, out := r.landed } else none)
    else (rcv[j]?).bind (fun r => if 32 * r.next < n then some r else none)
  | _ => none

/-- The first number from n on that is not in a list. -/
def upFrom (os : List Nat) : Nat → Nat → Nat
  | 0, n => n
  | f + 1, n => if os.contains n then upFrom os f (n + 1) else n

/-- A receiver after its sector k landed, marked or not. -/
def Recv.took (r : Recv) (k : Nat) (marked : Bool) : Recv :=
  let os := k :: r.out
  let n := upFrom os os.length r.next
  { r with next := n, out := os.filter (fun i => decide (n < i)), bad := if marked then k :: r.bad else r.bad }

/-- The operation after a sector, marked or not, landed at receiver j; none when every sector of a transfer into the cluster has landed. -/
def copyAfter (o : EngOp) (j : Nat) (marked : Bool) : Option EngOp :=
  match o.kind with
  | .copy src dst sa da n gen sf ov rcv =>
    let rcv := if dst = .dgl then rcv.modify 0 (fun r => r.took j marked) else rcv.modify j (fun r => { r with next := r.next + 1 })
    if dst ≠ .dgl ∧ rcv.all (fun r => decide (32 * r.next ≥ n)) then none else some { o with kind := .copy src dst sa da n gen sf ov rcv }
  | _ => none

/-- COPY_SECTOR_ARRIVAL (R193, R195, R223, R336): rcv numbers the receiver, and the sector of a transfer into global memory. A receiver that is gone takes
nothing. -/
def execCopySectorArrival (core op rcv : Nat) (s : State) : Out :=
  event (match (s.core core).op op with
    | none => none
    | some o => match o.kind, copyNext o rcv with
      | .copy src dst sa da n gen sf ov _, some r =>
        if o.parked.isSome then none
        else match s.copyWay o src dst (sa + 32 * r.next) (da + 32 * r.next) with
          | .absent va => some (s.modOp core op (fun o => { o with parked := some (BitVec.ofNat 64 va) }))
          | .bad => some ((s.opAbort core o).dropOp core op)
          | .clear =>
            if !s.granted (clusterOf core) (s.tcOf o.launch) (s.copySecs o src dst (sa + 32 * r.next) (da + 32 * r.next)) then none
            else match (if dst = .dgl then some core else s.coreOf (clusterOf core) r.wg) with
              | some rc => some ((s.landSector core rc o src dst sa da n gen sf ov r).putOp core op (copyAfter o rcv ((s.srcSector core o src (sa + 32 * r.next)).2.contains true)))
              | none => some (s.putOp core op (copyAfter o rcv false))
      | _, _ => none)

/-- COPY_GLOBAL_COMPLETION (R336): after every sector, NBYTES are added to the issuer's word. -/
def execCopyGlobalCompletion (core op : Nat) (s : State) : Out :=
  event (match (s.core core).op op with
    | none => none
    | some o => match o.kind with
      | .copy _ .dgl _ _ n gen _ _ rcv =>
        if rcv.all (fun r => decide (32 * r.next ≥ n)) then
          let s := match o.word with
            | some k => s.wordAdd (.sp core o.wg k) n (gen.map BitVec.toNat) (some (core, o.wg, o.grp))
            | none => s
          some (s.dropOp core op)
        else none
      | _ => none)

/-! FETCH (R339, R340). -/

/-- Bytes of a row of a table (R339). -/
def Ten.rowBytes (t : Ten) : Nat :=
  if t.slay = 1 then ceilDiv t.e0 32 * blockSize t.fmt
  else if t.fmt = 9 then 2 * ceilDiv t.e0 8
  else ceilDiv (t.e0 * fmtBits t.fmt) 8

/-- The pitch of a row in scratchpad. -/
def Ten.pitch (t : Ten) : Nat := ceilDiv t.rowBytes 32 * 32

/-- Elements that the packing keeps together: a block, a CB2 index, or one element (R127, R128). -/
def Ten.unit (t : Ten) : Nat := if t.slay = 1 then 32 else if t.fmt = 9 then 8 else 1
/-- Bits of such a unit. -/
def Ten.unitBits (t : Ten) : Nat := if t.slay = 1 then 8 * blockSize t.fmt else if t.fmt = 9 then 16 else fmtBits t.fmt
/-- Whether row i starts a unit of the packing; else it is read element by element (R130). -/
def Ten.rowWhole (t : Ten) (i : Nat) : Bool := i * t.s1 % t.unit == 0

/-- First bit of row i, from BASE: that of the unit that holds its first element. -/
def Ten.rowBit (t : Ten) (i : Nat) : Nat := i * t.s1 / t.unit * t.unitBits

/-- Address of the first byte of row i, and the bytes that it touches. -/
def Ten.rowAt (t : Ten) (i : Nat) : Nat × Nat :=
  let b := t.rowBit i
  (t.base + b / 8, if t.e0 = 0 then 0 else ceilDiv (b % 8 + ceilDiv (i * t.s1 % t.unit + t.e0) t.unit * t.unitBits) 8)

/-- Bit of an element from the start of a unit, and its bits there: of a CB2 weight, its index. -/
def Ten.cell (t : Ten) (e : Nat) : Nat × Nat :=
  let b := e / t.unit * t.unitBits
  if t.fmt = 9 then (b + 16 * (e % t.unit / 8), 16) else (b + fmtBits t.fmt * (e % t.unit), fmtBits t.fmt)

/-- Bits of a CB2 weight in its index: magnitude, sign and plane (R132). -/
def cb2Bits (x i : Nat) : Bool × Bool × Bool :=
  (x.testBit i, if i < 7 then x.testBit (8 + i) else (List.range 7).foldl (fun b k => Bool.xor b (x.testBit (8 + k))) false, x.testBit 15)

/-- The CB2 index of eight weights: bits of its own for magnitudes and for the signs of the first seven; the plane where all agree, else a free bit; the sign of the
eighth follows from the others (R132, log 31: DESIGN CHOICE). -/
def cb2Pack (free : Bool) (ws : List (Bool × Bool × Bool)) : Nat :=
  let at_ (i : Nat) : Bool × Bool × Bool := (ws[i]?).getD (false, false, false)
  let plane := if ws.all (fun w => w.2.2) then true else if ws.any (fun w => w.2.2) then free else false
  (List.range 8).foldl (fun v i => v + 2 ^ i * (at_ i).1.toNat) 0 + (List.range 7).foldl (fun v i => v + 2 ^ (8 + i) * (at_ i).2.1.toNat) 0 + 2 ^ 15 * plane.toNat

/-- Unit u of a row that is read element by element (R130): v holds the units that it touches, sh is the place of its first element in the first of them.
Elements beyond EXT0 are zeros (R128). The scale of a block is that of the block that its elements come from; where they come from two, a free byte (log 31: DESIGN
CHOICE). -/
def Ten.reunit (t : Ten) (free : Nat → Byte) (v sh u : Nat) : Nat :=
  let elem (j : Nat) : Nat := let c := t.cell (sh + j); v / 2 ^ c.1 % 2 ^ c.2
  let js := ((List.range t.unit).map (fun i => t.unit * u + i)).filter (fun j => decide (j < t.e0))
  let cb (k : Nat) : Nat := cb2Pack ((free (8 * u + k)).getLsbD 0)
    ((js.filter (fun j => (j - t.unit * u) / 8 == k)).map (fun j => cb2Bits (elem j) ((sh + j) % 8)))
  let data := if t.fmt = 9 then (List.range (t.unit / 8)).foldl (fun r k => r + 2 ^ (16 * k) * cb k) 0
    else js.foldl (fun r j => r + 2 ^ (fmtBits t.fmt * (j - t.unit * u)) * elem j) 0
  if t.slay ≠ 1 then data
  else
    let from_ := (js.map (fun j => (sh + j) / 32)).eraseDups
    let scale := match from_ with
      | [b] => v / 2 ^ (b * t.unitBits + 8 * blockData t.fmt) % 256
      | _ => (free (2 ^ 19 + u)).toNat
    data + 2 ^ (8 * blockData t.fmt) * scale

/-- The bytes of row i as they land: shifted to start at bit 0; bits beyond the last element of a sub-byte row are free (log 31: DESIGN CHOICE). -/
def State.rowOf (s : State) (o : EngOp) (t : Ten) (i : Nat) : List Byte :=
  let p := t.rowAt i
  let free (k : Nat) : Byte := Config.freeByte o.nonce (2 ^ 20 * i + k)
  let v := fromLE (s.glBytes o.nonce o.ctx p.1 p.2) >>> (t.rowBit i % 8)
  if !t.rowWhole i then
    toLE t.rowBytes ((List.range (ceilDiv t.e0 t.unit)).foldl (fun r u => r + 2 ^ (t.unitBits * u) * t.reunit free v (i * t.s1 % t.unit) u) 0)
  else
    let used := t.e0 * fmtBits t.fmt
    toLE t.rowBytes (if t.slay ≠ 1 ∧ t.fmt ≠ 9 ∧ used % 8 ≠ 0
      then v % 2 ^ used + 2 ^ used * ((free (t.rowBytes - 1)).toNat >>> (used % 8)) else v)

/-- Ranges of source bytes, from the first that row i touches, that byte k of the row as it lands comes from. -/
def Ten.sources (t : Ten) (i k : Nat) : List (Nat × Nat) :=
  if t.rowWhole i then [(k, if t.rowBit i % 8 = 0 then 1 else 2)]
  else
    let sh := i * t.s1 % t.unit
    let bits := t.unitBits
    let u := 8 * k / bits
    let r := 8 * k % bits
    let js := if t.slay = 1 ∧ r ≥ 8 * blockData t.fmt then List.range 32
      else if t.fmt = 9 then (List.range 8).map (fun q => 8 * (r / 16) + q)
      else (List.range (ceilDiv (r + 8) (fmtBits t.fmt))).filter (fun q => decide (r / fmtBits t.fmt ≤ q))
    ((js.map (fun j => t.unit * u + j)).filter (fun j => decide (j < t.e0))).map (fun j =>
      let c := t.cell (sh + j)
      if t.slay = 1 ∧ r ≥ 8 * blockData t.fmt then ((sh + j) / 32 * (bits / 8) + blockData t.fmt, 1) else (c.1 / 8, ceilDiv (c.1 % 8 + c.2) 8))

/-- FETCH (R339, R340). -/
def execFetch (c : Ctl) (ta : Fin 256) (a b : Fin 64) (word : Word) (s : State) : Out :=
  issued (.fetch c ta a b word) c (fun x => x.command (fun x =>
    let p := x.sv a
    let n := bits (x.sv b) 31 0
    let dest := bits (x.sv b) 50 32
    let t := Ten.of (x.ten ta)
    let w := wordOf word.toNat
    checked
      ([x.failIf (decide (n = 0) || decide (n > 65536) || bits (x.sv b) 63 51 != 0) 0x02 2 0]
        ++ x.tenCheck [(ta, fun t => t.ndim == 0 || t.senc != 0)]
        ++ [x.failIf (p % 4 != 0) 0x06 0 p, x.failIf (dest % 32 != 0) 0x06 0 dest, x.wordMis w,
            x.failIf (decide (p + 4 * n > 2 ^ 57)) 0x09 0 p, x.failIf (decide (dest + n * t.pitch > x.wg.rec_.scratch)) 0x07 0 dest, x.wordOut w,
            x.checkAll (span .r p (4 * n) 4)])
      (fun _ => x.ok (x.bindTo (x.start x.s 2 w (.fetch (x.ten ta) p n dest (List.range n) [])) w [x.wg.uid] [(.r, p), (.r, t.base)])))) s

/-- Whether a byte that the fetch unit reads is poisoned: in memory, or in a line of its cache (R264, R266). -/
def State.fetchBad (s : State) (c ctx a : Nat) : Bool :=
  s.glPoison ctx a 1 || (s.core c).fcache.any (fun e => e.ctx == ctx && e.line == a / 64 && e.bad.contains (a / 4 % 16))
/-- The lines that a read by the fetch unit touches stand in its cache afterwards (R15; log 61: DESIGN CHOICE). -/
def State.fetchFill (s : State) (c ctx a n : Nat) : State :=
  let ls := (((List.range n).map (fun i => (a + i) / 64)).eraseDups).filter (fun l => (s.lineOf ctx (64 * l)).isSome)
  s.modCore c (fun k => ls.foldl (fun k l =>
    if k.fcache.any (fun e => e.ctx == ctx && e.line == l) then k
    else k.cacheLine ctx l ((List.range 16).filter (fun q => s.glPoison ctx (64 * l + 4 * q) 4))) k)

/-- A row of a fetch lands, with its marks (R266, R339). -/
def State.landRow (s : State) (c : Nat) (o : EngOp) (t : Ten) (x dest row : Nat) : State :=
  let inside := decide (x < t.e1)
  let p := t.rowAt x
  let bs := if inside then s.rowOf o t x else List.replicate t.rowBytes 0
  let d := dest + row * t.pitch
  let bad (k : Nat) : Bool := decide (k < t.rowBytes) && (t.sources x k).any (fun e => (List.range (min e.2 (p.2 - e.1))).any (fun q => s.fetchBad c o.ctx (p.1 + e.1 + q)))
  let clean := s.unmarked && (s.core c).fcache.all (fun e => e.bad.isEmpty)
  let marked := if !inside || clean then [] else (List.range (t.pitch / 4)).filter (fun k => (List.range 4).any (fun q => bad (4 * k + q)))
  let s := if inside then (s.charge o.ctx (clusterOf c) (s.sectors o.ctx .r p.1 p.2)).fetchFill c o.ctx p.1 p.2 else s
  let s := s.modWg c o.wg (fun w => let w := w.spWrite d (bs ++ List.replicate (t.pitch - t.rowBytes) 0)
                                    { w with poison := w.poison ++ marked.map (fun k => (.scratch, d / 4 + k)) })
  s.opAdd c o t.pitch

/-- The index of a row of a fetch: as it was read, or as the fetch unit reads it now (R197). -/
def State.fetchIndex (s : State) (o : EngOp) (list row : Nat) (seen : Tab Nat) : Nat :=
  match Tab.get seen row with | some i => i | none => fromLE (s.glBytes o.nonce o.ctx (list + 4 * row) 4)
/-- The sectors that the read of an index and of its row take; inside: the row is in the table. -/
def State.fetchSecs (s : State) (o : EngOp) (t : Ten) (list row i : Nat) (seen : Tab Nat) : List Nat :=
  let p := t.rowAt i
  (if (Tab.get seen row).isSome then [] else s.sectors o.ctx .r (list + 4 * row) 4) ++ (if i < t.e1 then s.sectors o.ctx .r p.1 p.2 else [])

/-- FETCH_ROW_LANDING (R197, R339, R340): each index is read once; a fetch that parks at its row keeps it. -/
def execFetchRowLanding (core op row : Nat) (s : State) : Out :=
  event (match (s.core core).op op with
    | none => none
    | some o => match o.kind with
      | .fetch tab list n dest rows seen =>
        if o.parked.isSome || !rows.contains row then none
        else
          let t := Ten.of tab
          match (if (Tab.get seen row).isSome then .clear else s.way o.ctx .r (list + 4 * row) 4) with
          | .absent va => some (s.modOp core op (fun o => { o with parked := some (BitVec.ofNat 64 va) }))
          | .bad => some ((s.opAbort core o).dropOp core op)
          | .clear =>
            let i := s.fetchIndex o list row seen
            let p := t.rowAt i
            match (if i < t.e1 then s.way o.ctx .r p.1 p.2 else .clear) with
            | .absent va => some (s.modOp core op (fun o => { o with parked := some (BitVec.ofNat 64 va), kind := .fetch tab list n dest rows (Tab.set seen row i) }))
            | .bad => some ((s.opAbort core o).dropOp core op)
            | .clear =>
              if !s.granted (clusterOf core) (s.tcOf o.launch) (s.fetchSecs o t list row i seen) then none
              else
                let rest := rows.filter (fun r => r != row)
                let s := if (Tab.get seen row).isSome then s else s.charge o.ctx (clusterOf core) (s.sectors o.ctx .r (list + 4 * row) 4)
                some ((s.landRow core o t i dest row).putOp core op (if rest.isEmpty then none else some { o with kind := .fetch tab list n dest rest (Tab.del seen row) }))
      | _ => none)

/-! RESID (R80, R81, R341, R342). -/

/-- Fields of RESID's control word. -/
def residPages (b : Nat) : Nat := bits b 11 0
def residCloff (b : Nat) : Nat := bits b 22 12
def residEntry (b : Nat) : Nat := bits b 29 24
/-- A set reserved bit of the control word. -/
def residRsv (b : Nat) : Bool := b.testBit 23 || bits b 63 30 != 0

/-- Whether two ranges meet. -/
def meet (a n b m : Nat) : Bool := decide (a < b + m) && decide (b < a + n)

/-- Whether a pin overlaps another valid entry of the context (R81). -/
def pinOverlap (t : Tab ResEntry) (ctx e va pages cloff : Nat) : Bool :=
  t.any (fun r => r.1 != e && r.2.ctx == ctx && (meet va (4096 * pages) r.2.vbase (4096 * r.2.len) || meet cloff pages r.2.cloff r.2.len))

/-- RESID .pin (R342). NPAGES of 0 or above 2,048, for which R341 gives a range and no fate, raises illegal-operand, SUB 2 (log 75: DESIGN CHOICE). -/
def execResidPin (c : Ctl) (ofs : BitVec 24) (a b : Fin 64) (s : State) : Out :=
  issued (.residPin c ofs a b) c (fun x => x.command (fun x =>
    let va := x.sv a
    let ct := x.sv b
    let e := residEntry ct
    let n := residPages ct
    let tab := (x.s.cluster x.clu).resid
    let w : Option Nat := if ofs.toInt = -1 then none else some (wrapN 32 ofs.toInt)
    checked
      [x.failIf (match Tab.get tab e with | some r => r.ctx != x.wg.ctx | none => false) 0x1D 0 0,
       x.failIf (pinOverlap tab x.wg.ctx e va n (residCloff ct)) 0x1D 0 0,
       x.failIf (decide (4096 * (residCloff ct + n) > x.wg.rec_.clsram)) 0x08 0 (4096 * residCloff ct),
       x.failIf (decide (2 ^ 56 ≤ va) && decide (va < 2 ^ 57)) 0x02 1 0,
       x.failIf (residRsv ct || decide (n = 0) || decide (n > 2048)) 0x02 2 0,
       x.failIf (va % 4096 != 0) 0x06 0 va, x.wordMis w,
       x.failIf (decide (va + 4096 * n > 2 ^ 57)) 0x09 0 va, x.wordOut w,
       x.checkAll (span .r va (4096 * n) 4096)]
      (fun _ =>
        let r : ResEntry := { ld := true, vbase := va, len := n, cloff := residCloff ct, ctx := x.wg.ctx, launch := x.wg.launch, unit := x.wg.team, used := none, fill := x.s.nextId }
        let s := x.s.modCluster x.clu (fun k => { k with resid := Tab.set k.resid e r })
        x.ok (x.bindTo (x.start s 1 w (.resid e va n (residCloff ct) 0)) w [x.wg.uid] [(.r, va + 4096 * n - 1)])))) s

/-- The entry of a RESID's control word, if it is the context's. -/
def Iss.ownEntry (x : Iss) (e : Nat) : Option ResEntry :=
  (Tab.get (x.s.cluster x.clu).resid e).bind (fun r => if r.ctx = x.wg.ctx then some r else none)

/-- The control word of .rel and .stat: every field but ENTRY is 0; for another value of NPAGES or CLOFF R341 gives no fate, and it is illegal-operand, SUB 2
(log 75: DESIGN CHOICE). -/
def Iss.residOnly (x : Iss) (b : Fin 64) : Option Eff := x.failIf (residRsv (x.sv b) || residPages (x.sv b) != 0 || residCloff (x.sv b) != 0) 0x02 2 0

/-- RESID .rel (R342): a stall while the fill is in flight. -/
def execResidRel (c : Ctl) (b : Fin 64) (s : State) : Out :=
  issued (.residRel c b) c (fun x => x.command (fun x =>
    checked [x.residOnly b] (fun _ =>
      match x.ownEntry (residEntry (x.sv b)) with
      | none => x.ok x.s
      | some r => if r.ld then .wait else x.ok (x.s.modCluster x.clu (fun k => { k with resid := Tab.del k.resid (residEntry (x.sv b)) }))))) s

/-- The image of a residency entry (R80). -/
def ResEntry.image (r : ResEntry) : Nat × Nat := (1 + 2 * r.ld.toNat + r.vbase % 2 ^ 57 / 4096 * 4096, r.len % 4096 + 2 ^ 12 * (r.cloff % 2048) + 2 ^ 23 * (r.ctx % 256))

/-- RESID .stat (R342). -/
def execResidStat (c : Ctl) (d b : Fin 64) (s : State) : Out :=
  issued (.residStat c d b) c (fun x => x.command (fun x =>
    checked [x.residOnly b] (fun _ =>
      let im := match x.ownEntry (residEntry (x.sv b)) with | some r => r.image | none => (0, 0)
      x.ok (x.modG x.s (fun g => (((g.setS d.val (BitVec.ofNat 64 im.1)).cleanS d.val).setS (d.val + 1) (BitVec.ofNat 64 im.2)).cleanS (d.val + 1)))))) s

/-- The mirror filled from memory, with the marks of its lines (R266). -/
def State.fillMirror (s : State) (p : Nat) (o : EngOp) (unit va n cloff : Nat) : State :=
  let bs := s.glBytes o.nonce o.ctx va (4096 * n)
  let marks := if s.unmarked then [] else (List.range (1024 * n)).filter (fun k => s.glPoison o.ctx (va + 4 * k) 4)
  let s := s.charge o.ctx p (s.sectors o.ctx .r va (4096 * n))
  let s := s.clPut p o.launch unit (4096 * cloff) bs
  s.modTeam p o.launch unit (fun t => { t with poison := t.poison ++ marks.map (fun k => 1024 * cloff + k) })

/-- A fill that a fault ends: the word is aborted (R340), and its entry is void. -/
def State.fillFail (s : State) (c : Nat) (o : EngOp) (e va n cloff : Nat) : State :=
  let mine (r : ResEntry) : Bool := r.ld && decide (r.ctx = o.ctx) && decide (r.launch = o.launch) && decide (r.vbase = va) && decide (r.len = n) && decide (r.cloff = cloff)
  ((s.opAbort c o).dropOp c o.id).modCluster (clusterOf c) (fun k => { k with resid := k.resid.filter (fun r => !(r.1 == e && mine r.2)) })

/-- RESID_FILL_COMPLETION (R342): the fill ends, LD becomes 0, then the bytes are added to the word. -/
def execResidFillCompletion (core op : Nat) (s : State) : Out :=
  event (match (s.core core).op op with
    | none => none
    | some o => match o.kind with
      | .resid e va n cloff _ =>
        if o.parked.isSome then none
        else match s.way o.ctx .r va (4096 * n) with
          | .absent a => some (s.modOp core op (fun o => { o with parked := some (BitVec.ofNat 64 a) }))
          | .bad => some (s.fillFail core o e va n cloff)
          | .clear =>
            let p := clusterOf core
            let mine (r : ResEntry) : Bool := decide (r.ctx = o.ctx) && decide (r.launch = o.launch) && decide (r.vbase = va) && decide (r.len = n) && decide (r.cloff = cloff)
            let unit := match Tab.get (s.cluster p).resid e with | some r => r.unit | none => 0
            if !s.granted p (s.tcOf o.launch) (s.sectors o.ctx .r va (4096 * n)) then none
            else
              let s := match Tab.get (s.cluster p).resid e with
                | some r => if mine r then (s.fillMirror p o unit va n cloff).modCluster p (fun k => { k with resid := Tab.set k.resid e { r with ld := false } }) else s
                | none => s
              some ((s.opAdd core o (4096 * n)).dropOp core op)
      | _ => none)

end Sys2Proof.Machine
end

