-- ==== Sys2Proof/Machine/OvenArith.lean ====
section
/-! DEFINITION. The oven's arithmetic (R127 to R134, R149 to R173): elements of tensors, alignment into blocks, racks with their sidecars, chains,
bounds of exact top-k, winner lists. -/
namespace Sys2Proof.Machine
open Sys2Proof

/-! Elements. -/

/-- An exact value m * 2^e, or a non-finite one (R134). -/
inductive EV where
  | fin (m e : Int)
  | bad
  deriving DecidableEq, Repr

/-- An exact number m * 2^e. -/
abbrev Dy := Int × Int

/-- Values of K that a macro group holds of a B format (R24). -/
def kgOf (f : Nat) : Nat := match f with | 0 | 1 => 16 | 6 | 8 | 9 => 64 | _ => 32
/-- Bit-planes of an A format (R24). -/
def planesOf (f : Nat) : Nat := match f with | 0 => 12 | 1 => 14 | 2 => 10 | 6 => 6 | 8 => 4 | _ => 8
/-- Cell width of a B format (R151). -/
def cellW (f : Nat) : Nat := match f with | 0 | 1 => 16 | 6 | 8 | 9 => 4 | _ => 8
/-- The floating-point format of a tensor's format code (R87). -/
def tenF (f : Nat) : FFmt := match f with | 0 => .bf16 | 1 => .f16 | 2 => .e4m3 | 3 => .e5m2 | 4 => .e3m2 | 5 => .e2m3 | 6 => .e2m1 | _ => .f32
/-- Integer formats of the oven. -/
def isIntF (f : Nat) : Bool := f == 7 || f == 8

/-- The value of an element's pattern under a scale byte (R131, R132, R152). A CB2 pattern is 8 * index + position; its value is doubled with
the doubling in the exponent. -/
def elemEV (f pat scale : Nat) : EV :=
  if scale = 255 then .bad
  else match f with
  | 7 => .fin (sextN pat 8) 0
  | 8 => .fin (sextN pat 4) 0
  | 9 => let (neg, h) := cb2W (pat / 8) (pat % 8); .fin (if neg then -(h : Int) else h) (Int.ofNat scale - 128)
  | f => match readF (tenF f) false pat with
    | .fin neg m e => .fin (if neg then -(m : Int) else m) (e + Int.ofNat scale - 127)
    | _ => .bad

/-- Where the bytes of element j of a stream at base lie (R127): address, bytes, and the bit of the first byte. -/
def Ten.place (t : Ten) (base j : Nat) : Nat × Nat × Nat :=
  if t.fmt = 9 then (base + 2 * (j / 8), 2, 0)
  else let b := fmtBits t.fmt * j; (base + b / 8, (b % 8 + fmtBits t.fmt + 7) / 8, b % 8)

/-- Where element (i0, i1) lies (R127, R128), and its scale byte, if it has one (R128, R129). -/
def Ten.elemAt (t : Ten) (i0 i1 : Nat) : (Nat × Nat × Nat) × Option Nat :=
  let row := i1 * t.s1
  if t.slay = 1 then
    let b := t.base + (row / 32 + i0 / 32) * blockSize t.fmt
    (t.place b (i0 % 32), some (b + blockData t.fmt))
  else (t.place t.base (row + i0), if t.slay = 2 then some (t.sbase + i0 / 32 + ceilDiv t.e0 32 * i1) else none)

/-- A number of n bytes at an address, as an engine reads it. -/
abbrev Rdr := Nat → Nat → Nat

/-- The value of the element (i0, i1) of stored data. -/
def Ten.stored (t : Ten) (rd : Rdr) (i0 i1 : Nat) : EV :=
  let (p, sc) := t.elemAt i0 i1
  let v := rd p.1 p.2.1 / 2 ^ p.2.2 % 2 ^ (if t.fmt = 9 then 16 else fmtBits t.fmt)
  let j := if t.slay = 1 then i0 % 32 else i1 * t.s1 + i0
  elemEV t.fmt (if t.fmt = 9 then 8 * v + j % 8 else v) (match sc with | some a => rd a 1 | none => 127)

/-- N, M and the field width of a re-pruned tensor (R160). -/
def pruneOf (senc : Nat) : Nat × Nat × Nat := if senc = 1 then (2, 4, 2) else (4, 8, 3)
/-- Bytes of a row of the metadata stream (R160). -/
def Ten.metaRow (t : Ten) (senc : Nat) : Nat := let (n, m, w) := pruneOf senc; 4 * ceilDiv (t.e0 * n * w) (m * 32)
/-- The position field of kept value v of row y (R160): its bytes from IBASE, and its first bit in them. -/
def Ten.metaAt (t : Ten) (senc v y : Nat) : Nat × Nat × Nat :=
  let (_, _, w) := pruneOf senc
  (t.ibase + y * t.metaRow senc + v * w / 8, (v * w % 8 + w + 7) / 8, v * w % 8)
/-- A position field. -/
def Ten.metaPos (t : Ten) (rd : Rdr) (v y : Nat) : Nat :=
  let p := t.metaAt t.senc v y
  rd p.1 p.2.1 / 2 ^ p.2.2 % 2 ^ (pruneOf t.senc).2.2

/-- The element (x, y) of an operand of the oven (R150, R350): zero beyond the extents, and where a 2:4 or 4:8 tensor keeps nothing. The scale of a kept value is that
of the block of its stored place (log 36: DEDUCED). -/
def Ten.elem (t : Ten) (rd : Rdr) (x y : Nat) : EV :=
  if x ≥ t.e0 ∨ y ≥ t.e1 then .fin 0 0
  else if t.senc = 0 then t.stored rd x y
  else
    let (n, m, _) := pruneOf t.senc
    match (List.range n).find? (fun i => decide ((x / m * n + i) * m < t.e0 * n) && t.metaPos rd (x / m * n + i) y == x % m) with
    | some i => t.stored rd (x / m * n + i) y
    | none => .fin 0 0

/-- The bytes that reading elements [x0, x1) of row y needs, as ranges [lo, hi): data, scales and positions (R346). -/
def Ten.rowRanges (t : Ten) (x0 x1 y : Nat) : List (Nat × Nat) :=
  let (n, m, w) := pruneOf t.senc
  let x1 := min x1 t.e0
  let u0 := if t.senc = 0 then x0 else x0 / m * n
  let u1 := if t.senc = 0 then x1 else min (((x1 - 1) / m + 1) * n) (ceilDiv (t.e0 * n) m)
  if x0 ≥ x1 ∨ u0 ≥ u1 ∨ y ≥ t.e1 then []
  else
    let lo := (t.elemAt u0 y).1.1
    let last := (t.elemAt (u1 - 1) y).1
    let data := if t.slay = 1 then let b := t.base + y * t.s1 / 32 * blockSize t.fmt; (b + u0 / 32 * blockSize t.fmt, b + ((u1 - 1) / 32 + 1) * blockSize t.fmt)
                else (lo, last.1 + last.2.1)
    let nb := ceilDiv t.e0 32
    [data] ++ (if t.slay = 2 then [(t.sbase + u0 / 32 + nb * y, t.sbase + (u1 - 1) / 32 + nb * y + 1)] else [])
      ++ (if t.senc = 0 then [] else let r := t.ibase + y * t.metaRow t.senc; [(r + u0 * w / 8, r + (u1 * w + 7) / 8)])

/-- The ranges of elements [x0, x1) of rows [y0, y1). -/
def Ten.ranges (t : Ten) (x0 x1 y0 y1 : Nat) : List (Nat × Nat) :=
  (List.range (min y1 t.e1 - y0)).flatMap (fun i => t.rowRanges x0 x1 (y0 + i))

/-! Blocks (R151 to R154). -/

/-- m * 2^sh rounded to an integer, ties to even. -/
def rnShift (m sh : Int) : Int :=
  if 0 ≤ sh then m * 2 ^ sh.toNat
  else let (n, _) := roundAt (decide (m < 0)) .rn m.natAbs 0 false (-sh); if m < 0 then -(n : Int) else n

/-- floor(log2 |x|) of a number that is not zero. -/
def Dy.top (x : Dy) : Int := Int.ofNat (flog2 x.1.natAbs) + x.2

/-- The largest exponent of the elements that are not zero. -/
def topOf (xs : List Dy) : Option Int :=
  xs.foldl (fun b x => if x.1 = 0 then b else match b with | some k => some (if k < Dy.top x then Dy.top x else k) | none => some (Dy.top x)) none

/-- The block-fixed form of R151 with cells of w bits; a block of zeros lists none. -/
def alignBlock (w : Nat) (xs : List Dy) : Block :=
  match topOf xs with
  | none => { wt := 2 - (w : Int), q := [], bad := false }
  | some eb => { wt := eb - (w - 2 : Int), q := xs.map (fun x => rnShift x.1 (x.2 + (w - 2 : Int) - eb)), bad := false }

/-- An oven block of a format (R151, R152, R154). -/
def blockOf (f w : Nat) (vs : List EV) : Block :=
  if vs.any (fun v => match v with | .bad => true | _ => false) then { wt := 0, q := [], bad := true }
  else
    let xs : List Dy := vs.map (fun v => match v with | .fin m e => (m, e) | .bad => (0, 0))
    let zero := xs.all (fun x => x.1 == 0)
    if isIntF f then { wt := 0, q := if zero then [] else xs.map Prod.fst, bad := false }
    else if f = 9 then
      if zero then { wt := 0, q := [], bad := false }
      else
        let es := (xs.filter (fun x => x.1 != 0)).map Prod.snd
        let top := es.foldl (fun a b => if a < b then b else a) (es.headD 0)
        { wt := top, q := xs.map (fun x => rnShift x.1 (x.2 - top)), bad := false }
    else alignBlock w xs

/-- An exact sum. -/
def Dy.add (x y : Dy) : Dy :=
  if x.1 = 0 then y else if y.1 = 0 then x
  else let e := if x.2 ≤ y.2 then x.2 else y.2; (x.1 * 2 ^ (x.2 - e).toNat + y.1 * 2 ^ (y.2 - e).toNat, e)
/-- An exact product. -/
def Dy.mul (x y : Dy) : Dy := (x.1 * y.1, x.2 + y.2)
/-- x < y. -/
def Dy.lt (x y : Dy) : Bool := decide ((Dy.add x (-y.1, y.2)).1 < 0)
/-- Sum of a list. -/
def Dy.sum (xs : List Dy) : Dy := xs.foldl Dy.add (0, 0)

/-- A block of zeros of a column not listed. -/
def Block.zero : Block := { wt := 0, q := [], bad := false }

/-- The columns of a rack and its sum column (R150 to R153): elem gives column and K-offset in the step. -/
def rackCols (f ncols : Nat) (elem : Nat → Nat → EV) : List (List Block) × List Block :=
  let kg := kgOf f
  let ks (g : Nat) : List Nat := (List.range kg).map (fun i => kg * g + i)
  let cols := (List.range ncols).map (fun c => (List.range 32).map (fun g => blockOf f (cellW f) ((ks g).map (elem c))))
  let sum := (List.range 32).map (fun g =>
    if cols.any (fun bs => ((bs[g]?).getD Block.zero).bad) then { wt := 0, q := [], bad := true }
    else alignBlock 24 ((ks g).map (fun k => Dy.sum ((List.range ncols).map (fun c => match elem c k with | .fin m e => (m, e) | .bad => (0, 0))))))
  (cols, sum)

/-! Parity of a rack (R15, R265). -/

/-- The cells of a macro group's column by cell row, of a format (R15): a 16-bit integer takes two, the low byte first, and two 4-bit ones share one, the first in
its low half; a block of zeros lists none (log 62: DESIGN CHOICE). -/
def Block.cells (f : Nat) (b : Block) : List Nat :=
  match cellW f with
  | 16 => b.q.flatMap (fun z => [wrapN 16 z % 256, wrapN 16 z / 256])
  | 8 => b.q.map (wrapN 8)
  | _ => (List.range (b.q.length / 2)).map (fun i => wrapN 4 ((b.q[2 * i]?).getD 0) + 16 * wrapN 4 ((b.q[2 * i + 1]?).getD 0))
/-- Two cell rows' parities joined; one that lists nothing is zeros. -/
def xorRows : List Nat → List Nat → List Nat
  | [], ys => ys
  | xs, [] => xs
  | x :: xs, y :: ys => (x ^^^ y) :: xorRows xs ys
/-- The parity of the cell rows of macro group g (R265). -/
def parityOf (f : Nat) (cols : List (List Block)) (g : Nat) : List Nat :=
  cols.foldl (fun p col => match col[g]? with | some b => xorRows p (b.cells f) | none => p) []
/-- Whether macro group g of a rack matches its parity column. -/
def Rack.sound (r : Rack) (g : Nat) : Bool :=
  let p := parityOf r.fmt r.cols g
  (List.range 32).all (fun i => (p[i]?).getD 0 == (((r.par[g]?).getD [])[i]?).getD 0)
/-- A rack after the oven has read its rows: a mismatch sets the mark (R265). -/
def Rack.checked (r : Rack) : Rack := if (List.range 32).all r.sound then r else { r with poison := true }
/-- An integer of a block with one bit of one of its cells flipped: k is the cell row. -/
def Block.flip (f : Nat) (b : Block) (k bit : Nat) : Block :=
  if b.bad then b
  else
    let q := if b.q = [] then List.replicate (kgOf f) 0 else b.q
    match cellW f with
    | 16 => { b with q := q.modify (k / 2) (fun z => sextN (wrapN 16 z ^^^ 2 ^ (8 * (k % 2) + bit)) 16) }
    | 8 => { b with q := q.modify k (fun z => sextN (wrapN 8 z ^^^ 2 ^ bit) 8) }
    | _ => { b with q := q.modify (2 * k + bit / 4) (fun z => sextN (wrapN 4 z ^^^ 2 ^ (bit % 4)) 4) }
/-- A rack with one bit flipped, of the cell of a column in a row of a macro group: n numbers bit, column, row and group, from the lowest. -/
def Rack.flip (r : Rack) (n : Nat) : Rack :=
  let (bit, col, k, g) := (n % 8, n / 8 % 192, n / 1536 % 32, n / 49152 % 32)
  let cols := r.cols ++ List.replicate (col + 1 - r.cols.length) (List.replicate 32 Block.zero)
  { r with cols := cols.modify col (fun c => c.modify g (fun b => b.flip r.fmt k bit)) }

/-- The blocks of one row of A in one step (R154). -/
def rowBlocks (f kg : Nat) (elem : Nat → EV) : List Block :=
  (List.range 32).map (fun g => blockOf f (planesOf f) ((List.range kg).map (fun i => elem (kg * g + i))))

/-- The mark of a non-finite block (R163). -/
def nonFinite : Nat := 0xFFFFFFFF

/-- A bound of B as 16-bit significand and exponent (R153, R163, R395). -/
def boundWord (sigma : Nat) (beta : Int) : Nat :=
  if sigma = 0 then 0
  else
    let d := ((List.range 64).find? (fun d => decide (ceilDiv sigma (2 ^ d) < 2 ^ 16))).getD 0
    let sig := ceilDiv sigma (2 ^ d)
    let ex := beta + Int.ofNat d
    if sig = 0xFFFF ∧ ex = -1 then 0x8000 else sig + 2 ^ 16 * wrapN 16 ex

/-- The norm of a block of B (R153). -/
def Block.norm (b : Block) : Nat := if b.bad then nonFinite else boundWord (b.q.map Int.natAbs).sum b.wt
/-! The payload of a rack in a save image (R15, R78, R261): its cells bit for bit, row by row of each macro group; per column and group the sidecar's word and
the block weight; per group the sum column's mark, weight and cells; status, tensor, format and step (the order is log 67's: DESIGN CHOICE). -/

/-- Bytes of the cells, of the sidecar with the weights, and of the sum column. -/
def rackCells : Nat := 32 * 32 * 192
def rackNorms : Nat := 192 * 32 * 6
def rackSums : Nat := 32 * 195
/-- Code of a rack's status. -/
def RStatus.code : RStatus → Nat | .empty => 0 | .loading => 1 | .ready => 2
/-- A block of a rack by column and macro group. -/
def Rack.blockAt (r : Rack) (c g : Nat) : Block := ((r.cols[c]?).bind (fun bs => bs[g]?)).getD Block.zero
/-- The payload. -/
def Rack.payload (r : Rack) : List Byte :=
  let tail := toLE 1 r.status.code ++ toLE 2 r.ten ++ toLE 1 r.fmt ++ toLE 4 r.step
  match r.free with
  | some k => (List.range (rackCells + rackNorms + rackSums)).map (Config.freeByte k) ++ tail
  | none =>
    (List.range 32).flatMap (fun g =>
      let cs := (List.range 192).map (fun c => (r.blockAt c g).cells r.fmt)
      (List.range 32).flatMap (fun i => cs.map (fun b => BitVec.ofNat 8 ((b[i]?).getD 0))))
    ++ (List.range 192).flatMap (fun c => (List.range 32).flatMap (fun g => let b := r.blockAt c g; toLE 4 b.norm ++ toLE 2 (wrapN 16 b.wt)))
    ++ (List.range 32).flatMap (fun g =>
      let b := (r.sum[g]?).getD Block.zero
      toLE 1 b.bad.toNat ++ toLE 2 (wrapN 16 b.wt) ++ (List.range 64).flatMap (fun i => toLE 3 (wrapN 24 ((b.q[i]?).getD 0))))
    ++ tail
/-- A block from its cell rows. -/
def Block.ofCells (f : Nat) (x : Nat → Nat) (wt : Int) (bad : Bool) : Block :=
  if bad then { wt := 0, q := [], bad := true }
  else
    let q : List Int := match cellW f with
      | 16 => (List.range 16).map (fun i => sextN (x (2 * i) + 256 * x (2 * i + 1)) 16)
      | 8 => (List.range 32).map (fun i => sextN (x i) 8)
      | _ => (List.range 64).map (fun i => sextN (x (i / 2) / 16 ^ (i % 2) % 16) 4)
    { wt := wt, q := q, bad := false }
/-- A rack as a payload gives it; its parity column is that of the cells. -/
def Rack.ofPayload (r : Rack) (bs : List Byte) : Rack :=
  let f (o n : Nat) : Nat := fromLE ((bs.drop o).take n)
  let n0 := rackCells
  let s0 := rackCells + rackNorms
  let t0 := s0 + rackSums
  let fmt := f (t0 + 3) 1
  let cols := (List.range 192).map (fun c => (List.range 32).map (fun g =>
    let o := n0 + 6 * (32 * c + g)
    Block.ofCells fmt (fun i => f (192 * (32 * g + i) + c) 1) (sextN (f (o + 4) 2) 16) (f o 4 == nonFinite)))
  let sum : List Block := (List.range 32).map (fun g =>
    let o := s0 + 195 * g
    if f o 1 = 0 then { wt := sextN (f (o + 1) 2) 16, q := (List.range (kgOf fmt)).map (fun i => sextN (f (o + 3 + 3 * i) 3) 24), bad := false } else { wt := 0, q := [], bad := true })
  { r with status := (match f t0 1 with | 1 => .loading | 2 => .ready | _ => .empty), ten := f (t0 + 1) 2, fmt := fmt, step := f (t0 + 4) 4, cols := cols, sum := sum,
           par := (List.range 32).map (parityOf fmt cols), free := none }

/-- The bound of a block of A (R163). -/
def Block.peak (b : Block) : Nat :=
  let m := (b.q.map Int.natAbs).foldl max 0
  if b.bad then nonFinite else if m = 0 then 0 else m + 2 ^ 16 * wrapN 16 b.wt

/-- The value of a bound word; none: non-finite (R163). -/
def boundOf (w : Nat) : Option Dy := if w = nonFinite then none else some ((w % 2 ^ 16 : Nat), sextN (w / 2 ^ 16) 16)

/-- A companion smaller than the true bound, or a missing non-finite mark (R163). -/
def boundLow (comp true_ : Nat) : Bool :=
  match boundOf comp, boundOf true_ with
  | none, _ => false
  | some _, none => true
  | some a, some b => Dy.lt a b

/-! Chains (R155 to R158). -/

/-- 1.0 and the default NaN. -/
def oneF : Nat := 0x3F800000
def nanF : Nat := 0x7FC00000

/-- Whether an FP32 pattern is a NaN. -/
def isNanF (x : Nat) : Bool := (readF .f32 false x).isNan

/-- Status bits of a rounding (R158). -/
def ovenStat (r : FRes) : Nat :=
  (if isNanF r.1 then 1 else 0) + (if r.2 &&& fOF ≠ 0 then 2 else 0) + (if r.2 &&& fUF ≠ 0 then 4 else 0) + (if r.2 &&& fNX ≠ 0 then 8 else 0)

/-- The exact partial S_b (R155). -/
def partialOf (a b : Block) : Int := ((a.q.zip b.q).map (fun p => p.1 * p.2)).sum

/-- The block value v_b with its status (R155). -/
def blockVal (a b : Block) : Nat × Nat :=
  if a.bad || b.bad then (nanF, 1)
  else
    let s := partialOf a b
    let r := roundFin .f32 .rn .nosat (decide (s < 0)) s.natAbs (a.wt + b.wt) false
    (r.1, ovenStat r)

/-- The chains of an element: even, odd, and the status gathered (R156). -/
structure Chain where
  even : Nat
  odd  : Option Nat
  st   : Nat
  deriving DecidableEq, Repr

/-- FP32 sum with its status. -/
def addO (x y st : Nat) : Nat × Nat := let r := addF .f32 .rn .nosat x y; (r.1, st ||| ovenStat r)

/-- Adds a block value to its chain. -/
def Chain.add (c : Chain) (isEven : Bool) (v : Nat × Nat) : Chain :=
  let st := c.st ||| v.2
  if isEven then let r := addO c.even v.1 st; { c with even := r.1, st := r.2 }
  else match c.odd with
    | none => { c with odd := some v.1, st := st }
    | some o => let r := addO o v.1 st; { c with odd := some r.1, st := r.2 }

/-- The chains over blocks in ascending order, the first even. -/
def Chain.over (c : Chain) (as bs : List Block) : Chain :=
  ((as.zip bs).foldl (fun (p : Chain × Bool) e => (p.1.add p.2 (blockVal e.1 e.2), !p.2)) (c, true)).1

/-- The combination, the tensor scale and the prior (R156). -/
def Chain.result (c : Chain) (t prior : Nat) : Nat × Nat :=
  let r := match c.odd with | none => (c.even, c.st) | some o => addO c.even o c.st
  if t = oneF then r
  else
    let p := mulV .f32 .rn .nosat (readF .f32 false r.1) (readF .f32 false t)
    addO prior p.1 (r.2 ||| ovenStat p)

/-- The chains at the start. -/
def Chain.start (t prior : Nat) : Chain := { even := if t = oneF then prior else 0, odd := none, st := 0 }

/-- An element after an operation in FP32 mode (R156). -/
def fpElem (t prior : Nat) (as bs : List Block) : Nat × Nat := ((Chain.start t prior).over as bs).result t prior

/-- An element after an operation in INT32 mode (R157), SAT as bit 4. -/
def intElem (prior : Nat) (as bs : List Block) : Nat × Nat :=
  let r := (as.zip bs).foldl (fun (p : Int × Nat) e =>
    let z := p.1 + partialOf e.1 e.2
    if z > 2 ^ 31 - 1 then (2 ^ 31 - 1, 16) else if z < -2 ^ 31 then (-2 ^ 31, 16) else (z, p.2)) (sextN prior 32, 0)
  (wrapN 32 r.1, r.2)

/-! Ranking and winner lists (R149, R171, R173). -/

/-- Whether a value ranks strictly above another (R149). -/
def beats (abs : Bool) (x y : Nat) : Bool :=
  if isNanF x then false
  else if isNanF y then true
  else if abs then decide (x % 2 ^ 31 > y % 2 ^ 31)
  else cmpV (readF .f32 false x) (readF .f32 false y) == .gt

/-- Inserts an element before the first that does not go before it. -/
def insertBy {α : Type} (goes : α → α → Bool) (x : α) : List α → List α
  | [] => [x]
  | y :: r => if goes x y then x :: y :: r else y :: insertBy goes x r
/-- Sorts by an order, equal elements in their order. -/
def sortBy {α : Type} (goes : α → α → Bool) (xs : List α) : List α := xs.foldl (fun r x => insertBy goes x r) []

/-- Entries by rank, the lower index first on ties (R149). -/
def rankGoes (abs : Bool) (x y : Nat × Nat) : Bool := beats abs x.1 y.1 || (!beats abs y.1 x.1 && decide (x.2 < y.2))

/-- A value as a list holds it (R149). -/
def clean (x : Nat) : Nat := if isNanF x then nanF else x

/-- Two chains over values, by turns (R171, R174). -/
def twoChains (xs : List (Bool × Nat)) : Option Nat × Option Nat :=
  xs.foldl (fun p e =>
    let add (c : Option Nat) : Option Nat := match c with | none => some e.2 | some v => some (addF .f32 .rn .nosat v e.2).1
    if e.1 then (add p.1, p.2) else (p.1, add p.2)) (none, none)
/-- Their combination (R171, R174). Where both chains are empty it is +0; where the even one alone is, R174 gives it no value, and it is taken as +0 (log 72: DESIGN CHOICE). -/
def joinChains (p : Option Nat × Option Nat) : Nat :=
  match p with
  | (none, none) => 0
  | (some e, none) => e
  | (e, some o) => (addF .f32 .rn .nosat (e.getD 0) o).1

/-- The selected sum of values in list order (R171). -/
def selSum (vs : List Nat) : Nat := clean (joinChains (twoChains (vs.zipIdx.map (fun e => (e.2 % 2 == 0, e.1)))))

/-- A winner list of entries already ranked (R77). -/
def wlistOf (k : Nat) (abs : Bool) (tot : Nat) (es : List (Nat × Nat)) : WList :=
  { k := k, abs := abs, tot := BitVec.ofNat 32 tot, sel := BitVec.ofNat 32 (selSum (es.map Prod.fst)),
    ents := es.map (fun e => (BitVec.ofNat 32 e.1, BitVec.ofNat 32 e.2)), free := none }

/-- The 144-byte image of a list (R77). -/
def WList.image (l : WList) : List Byte :=
  match l.free with
  | some n => (List.range 144).map (Config.freeByte n)
  | none =>
    let es := l.ents.take 16
    toLE 4 es.length ++ toLE 4 (l.k + 2 ^ 16 * l.abs.toNat) ++ toLE 4 l.tot.toNat ++ toLE 4 l.sel.toNat
      ++ es.flatMap (fun e => toLE 4 e.1.toNat ++ toLE 4 e.2.toNat) ++ List.replicate (8 * (16 - es.length)) 0

/-- A list merged with the entries and the total of an image (R173); wd's entry goes first among equals. -/
def WList.merge (l : WList) (es : List (Nat × Nat)) (tot : Nat) : WList :=
  let pool := l.ents.map (fun e => (e.1.toNat, e.2.toNat)) ++ es.map (fun e => (clean e.1, e.2))
  let r := wlistOf l.k l.abs (clean (addF .f32 .rn .nosat l.tot.toNat tot).1) ((sortBy (rankGoes l.abs) pool).take l.k)
  { r with free := l.free }

/-! The bound unit (R164 to R167). -/

/-- M_j: none when a companion is non-finite. -/
def boundSum (as ns : List Word) : Option Dy :=
  (as.zip ns).foldl (fun p e => match p, boundOf e.1.toNat, boundOf e.2.toNat with
    | some m, some a, some n => some (Dy.add m (Dy.mul a n))
    | _, _, _ => none) (some (0, 0))

/-- G_r over the exact M_j. -/
def unitG (ms : List (Option Dy)) : Int :=
  match topOf (ms.filterMap id) with | some k => k + 1 | none => -149

/-- x in units of 2^(g - 46), rounded up or down. -/
def unitsOf (g : Int) (up : Bool) (x : Dy) : Int :=
  let sh := x.2 + 46 - g
  if 0 ≤ sh then x.1 * 2 ^ sh.toNat
  else
    let d : Int := (2 ^ (-sh).toNat : Nat)
    if up then -((-x.1) / d) else x.1 / d

/-- A term or sum in units, infinite beyond the fixed-point range (R164). -/
def capB (g : Int) (z : Int) : Bnd := if z > 2 ^ 47 - 1 then .pinf else if z < -(2 ^ 47 - 1) then .ninf else .fin z (g - 46)
/-- An exact sum of terms; of two opposite infinities the outer one stands. -/
def addB (g : Int) (up : Bool) (x y : Bnd) : Bnd :=
  match x, y with
  | .fin a _, .fin b _ => capB g (a + b)
  | .ninf, .pinf => if up then .pinf else .ninf
  | .pinf, .ninf => if up then .pinf else .ninf
  | .fin _ _, b => b
  | a, _ => a
/-- The negative. -/
def Bnd.neg : Bnd → Bnd | .ninf => .pinf | .pinf => .ninf | .fin m e => .fin (-m) e
/-- x < y (R149). -/
def Bnd.lt : Bnd → Bnd → Bool
  | .ninf, .ninf => false
  | .ninf, _ => true
  | .pinf, _ => false
  | .fin _ _, .ninf => false
  | .fin _ _, .pinf => true
  | .fin a e, .fin b f => Dy.lt (a, e) (b, f)
/-- The larger. -/
def Bnd.max (x y : Bnd) : Bnd := if x.lt y then y else x

/-- ulp24 of R165. -/
def ulp24 (x : Dy) : Dy := if x.1 = 0 then (1, -149) else (1, (if Dy.top x < -126 then -126 else Dy.top x) - 23)

/-- E_j in units, rounded up as one term (R165). t: the tensor scale. -/
def slack (g : Int) (t nrem : Nat) (m : Dy) : Bnd :=
  let u := Dy.mul ((nrem + 1 : Nat), 0) (ulp24 m)
  match (if t = oneF then none else match readF .f32 false t with | .fin _ tm te => some (tm, te) | _ => none) with
  | none => capB g (unitsOf g true u)
  | some (tm, te) =>
    let n := Dy.add (Dy.mul u ((tm : Int), 0)) (1, -149 - te)
    let sh := n.2 + 46 - g
    capB g (if 0 ≤ sh then -((-(n.1 * 2 ^ sh.toNat)) / (tm : Int)) else -((-n.1) / ((tm : Int) * (2 ^ (-sh).toNat : Nat))))

/-- Whether T leaves every column unbounded (R164). -/
def badT (t : Nat) : Bool := match readF .f32 false t with | .fin _ m _ => m == 0 | _ => true

/-- UB_j and LB_j, and in ABS mode UBa_j and LBa_j (R164, R165). -/
def boundsOf (abs : Bool) (g : Int) (t nrem : Nat) (m : Option Dy) (v : Option Dy) (r : Dy) : Bnd × Bnd :=
  let p : Bnd × Bnd := match m, v with
    | some m, some v =>
      if badT t || (m.1 != 0 && decide (Dy.top m ≥ 127)) then (.pinf, .ninf)
      else
        let sv : Dy := if fneg .f32 t then (-v.1, v.2) else v
        let r := capB g (unitsOf g true r)
        let e := slack g t nrem m
        (addB g true (addB g true (capB g (unitsOf g true sv)) r) e,
         addB g false (addB g false (capB g (unitsOf g false sv)) r.neg) e.neg)
    | _, _ => (.pinf, .ninf)
  if abs then
    let mag (b : Bnd) : Bnd := if b.lt (.fin 0 0) then b.neg else b
    ((mag p.1).max (mag p.2), if (Bnd.fin 0 0).lt p.2 then p.2 else if p.1.lt (.fin 0 0) then p.1.neg else .fin 0 0)
  else p

/-- The exact sum of the chains; none when one is not finite. -/
def Chain.exact (c : Chain) : Option Dy :=
  let f (x : Nat) : Option Dy := match readF .f32 false x with | .fin n m e => some (if n then -(m : Int) else m, e) | _ => none
  match f c.even, c.odd with
  | some a, none => some a
  | some a, some o => (f o).map (Dy.add a)
  | none, _ => none

/-- The partial of a step's blocks from the planes done, p still to come (R165). -/
def planePart (p : Nat) (as bs : List Block) : Dy :=
  Dy.sum ((as.zip bs).map (fun e => (((e.1.q.zip e.2.q).map (fun (x : Int × Int) => x.1 / (2 : Int) ^ p * (2 : Int) ^ p * x.2)).sum, e.1.wt + e.2.wt)))

/-- R_j from a step's blocks with p planes to come, and from later steps (R165). ns, aL, nL: companions. -/
def restOf (p : Nat) (as : List Block) (ns aL nL : List Word) : Dy :=
  let now := if p = 0 then (0, 0) else Dy.sum ((as.zip ns).map (fun e => match boundOf e.2.toNat with
    | some n => Dy.mul n ((2 ^ p : Nat), e.1.wt)
    | none => (0, 0)))
  Dy.add now ((boundSum aL nL).getD (0, 0))

/-- The k-th largest of bounds, if there are k. -/
def kthLargest (k : Nat) (bs : List Bnd) : Option Bnd := (sortBy (fun x y => y.lt x) bs)[k - 1]?

end Sys2Proof.Machine
end

