-- ==== Sys2Proof/Machine/Oven.lean ====
section
/-! DEFINITION. Instructions of the oven, the accumulators, the winner lists and the selection unit at their issue (R346 to R368). -/
namespace Sys2Proof.Machine
open Sys2Proof

/-! Modes. -/

/-- The tensor scale T of two entries (R156). -/
def scaleT (a b : Ten) : Nat := (mulV .f32 .rn .nosat (readF .f32 false a.tscale) (readF .f32 false b.tscale)).1
/-- The tensor scale of an operation. -/
def OvenOp.t (o : OvenOp) : Nat := scaleT (Ten.of o.da) (Ten.of o.db)
/-- The mode in which an operation writes its banks (R157, R355). -/
def modeOf (topk : Bool) (a b : Ten) : BMode := if !topk && isIntF a.fmt && isIntF b.fmt && scaleT a b == oneF then .int32 else .fp32
/-- The mode of an operation. -/
def OvenOp.mode (o : OvenOp) : BMode := modeOf o.topk (Ten.of o.da) (Ten.of o.db)
/-- A bank's mode as the operations of the oven queue that issued before place n set it (R347, R353). -/
def Core.qmode (k : Core) (n i : Nat) : BMode :=
  let sets : List (Nat × BMode) := (k.ovenQ.filter (fun o => o.names i)).map (fun o => (o.id, o.mode))
    ++ k.imms.filterMap (fun t => if t.bank = some i then t.mode.map (fun m => (t.seq, m)) else none)
  let last := (sets.filter (fun e => decide (e.1 < n))).foldl (fun (b : Option (Nat × BMode)) e => match b with | some p => if p.1 < e.1 then some e else b | none => some e) none
  match last with | some e => e.2 | none => (k.bank i).mode

/-! The order of the oven queue (R347). -/

/-- The place that the issuing group holds in the order of the oven queue, if it waits there. -/
def Iss.ticket (x : Iss) : Option Imm := (x.s.core x.core).imms.find? (fun t => t.grp == x.gr.uid)
/-- The place of the issue in that order: the one it holds, or the next. -/
def Iss.seqNo (x : Iss) : Nat := match x.ticket with | some t => t.seq | none => x.s.nextId
/-- Whether everything that issued to the oven queue before a place has been performed. -/
def Core.turn (k : Core) (n : Nat) : Bool := k.ovenQ.all (fun o => decide (n < o.id)) && k.imms.all (fun t => decide (n ≤ t.seq))
/-- An immediate instruction of the oven queue is performed in its turn, when the oven is ready for it; else its group is stalled and keeps its place (R347). -/
def Iss.inOrder (x : Iss) (bank : Option Nat) (mode : Option BMode) (ready : Bool) (f : Iss → Eff) : Eff :=
  if (x.s.core x.core).turn x.seqNo && ready then
    f { x with s := x.s.modCore x.core (fun k => { k with imms := k.imms.filter (fun t => t.grp != x.gr.uid) }) }
  else match x.ticket with
    | some _ => .wait
    | none =>
      let s := x.s.modCore x.core (fun k => { k with imms := k.imms ++ [{ grp := x.gr.uid, seq := x.s.nextId, bank := bank, mode := mode }] })
      .hold { s with nextId := s.nextId + 1 }

/-! Checks (R346). -/

/-- Ranges of scratchpad or tiles that lie outside what the workgroup has. -/
def Iss.room (x : Iss) (sp : BSpace) (rs : List (Nat × Nat)) : Option Eff :=
  match sp with
  | .gl => none
  | .sp => (rs.find? (fun r => decide (r.2 > x.wg.rec_.scratch))).map (fun r => x.faultA 0x07 0 r.1)
  | .tm => (rs.find? (fun r => decide (r.2 > 4096 * x.wg.rec_.tiles))).map (fun _ => x.faultA 0x02 4 0)

/-- The first of a list that fails, as a trap whose SUB is the number found. -/
def Iss.firstBad (x : Iss) (no : Nat) (xs : List Nat) (bad : Nat → Bool) (sub : Nat → Nat) : Option Eff := (xs.find? bad).map (fun i => x.faultA no (sub i) 0)

/-- Bank ownership (R76). -/
def Iss.ownBanks (x : Iss) (bs : List Nat) : Option Eff := x.firstBad 0x10 bs (fun i => !(x.s.core x.core).owns x.wg.uid i) id
/-- Bank mode (R157). -/
def Iss.modeBanks (x : Iss) (bs : List Nat) (m : BMode) : Option Eff :=
  x.firstBad 0x13 bs (fun i => let q := (x.s.core x.core).qmode x.seqNo i; decide (q ≠ .unset) && decide (q ≠ m)) id
/-- Whether a rack is another workgroup's. -/
def Rack.foreign (r : Rack) (wg : Nat) : Bool := decide (r.status ≠ .empty) && (match r.owner with | some o => o != wg | none => false)

/-- Rows that an operation reads: unclaimed banks with UAT, then the band (R346, R359). -/
def Iss.readRows (x : Iss) (rows : List Nat) : List (Option Eff) :=
  let own (r : Nat) : Bool := (x.s.core x.core).owns x.wg.uid (r / 8)
  [if x.gr.gctl.getLsbD 1 then x.firstBad 0x11 rows (fun r => !own r) (fun r => r / 8) else none,
   x.firstBad 0x12 rows (fun r => decide (r < x.gr.band.1) || decide (r ≥ x.gr.band.1 + x.gr.band.2)) (fun r => r / 8)]
/-- Sets %gstat.UAB (R66, R76). -/
def setUab (g : Group) : Group := { g with gstat := g.gstat ||| 1 }

/-- Ranges of an oven operand in scratchpad or tiles, watched until its completion is acquired (R192). -/
def watches (id : Nat) (sp : BSpace) (rs : List (Nat × Nat)) : List Watch :=
  match sp with
  | .gl => []
  | .sp => rs.map (fun r => { op := id, st := .scratch, lo := r.1, hi := r.2, rec_ := none, hit := false })
  | .tm => rs.map (fun r => { op := id, st := .tile, lo := r.1, hi := r.2, rec_ := none, hit := false })
/-- The scalar registers that an oven operation names, watched too (R118, R192). -/
def Iss.watchRegs (x : Iss) (id : Nat) (ns : List Nat) : List Watch :=
  ns.map (fun n => { op := id, st := .sreg, lo := 64 * x.gr.uid + n, hi := 64 * x.gr.uid + n + 1, rec_ := none, hit := false })
/-- Adds watches to the issuing workgroup. -/
def Iss.watch (x : Iss) (s : State) (ws : List Watch) : State := x.modW s (fun w => { w with watch := w.watch ++ ws })

/-- Whether an oven operation lacks its MFENCE (R191, R192): since the group's last one, its workgroup wrote to an operand range of a store, to a scalar register that
it names, or to companions that it reads; or the group's own stores to global operands stand after it; or an MNORM that writes the companions is not acquired. -/
def Iss.unfenced (x : Iss) (sp : BSpace) (rs comp : List (Nat × Nat)) (regs : List Nat) : Bool :=
  let since (st : Store) (r : Nat × Nat) : Bool := x.wg.since x.gr.mfence st r.1 r.2
  let own (r : Nat × Nat) : Bool := x.gr.own.any (fun o => !o.fen && decide (o.va < r.2) && decide (r.1 < o.va + o.n))
  let norm (r : Nat × Nat) (b : Nat × Nat) : Bool := decide (b.1 < r.2) && decide (r.1 < b.1 + b.2)
  let run : List (Nat × Nat) := ((x.s.core x.core).eng.filter (fun o => o.wg == x.wg.uid)).filterMap (fun o => match o.kind with
    | .mnorm _ _ tab _ _ _ n st => some ((Ten.of tab).nbase, 128 * st * n)
    | _ => none)
  (match sp with
    | .sp => rs.any (since .scratch)
    | .tm => rs.any (since .tile)
    | .gl => rs.any (fun r => own r || since .hbm r))
  || comp.any (fun r => own r || since .hbm r || run.any (norm r) || x.wg.done.any (fun d => match d.norm with | some b => norm r b | none => false))
  || regs.any (fun n => since .sreg (64 * x.gr.uid + n, 64 * x.gr.uid + n + 1))

/-! RKLD, RKSW. -/

/-- What RKLD and MNORM .b cannot use (R350, R130). -/
def badB (t : Ten) : Bool := decide (t.fmt > 9) || decide (t.senc > 2) || t.ndim == 0 || t.odd
/-- What MMUL, MTOPK and MNORM .a cannot use as A (R353). -/
def badA (t : Ten) : Bool := decide (t.fmt > 8) || t.senc != 0 || t.ndim == 0 || t.odd

/-- RKLD (R349, R350). -/
def execRkld (c : Ctl) (sp : BSpace) (ovr : Bool) (ta : Fin 256) (a b : Fin 64) (s : State) : Out :=
  issued (.rkld c sp ovr ta a b) c (fun x => x.command (fun x =>
    let t := Ten.of (x.ten ta)
    let j0 := bits (x.sv a) 31 0
    let st := bits (x.sv a) 63 32
    let w := wordOf (bits (x.sv b) 31 0)
    let sh := (x.s.core x.core).shadow
    let k0 := 32 * kgOf t.fmt * st
    checked
      (x.tenCheck [(ta, badB)] ++
       [x.failIf (decide (st > 4094)) 0x02 1 0, x.wordMis w, x.room sp (t.ranges k0 (k0 + 32 * kgOf t.fmt) j0 (j0 + 192)), x.wordOut w,
        x.failIf (ovr && sh.foreign x.wg.uid) 0x14 1 0])
      (fun _ =>
        if decide (sh.status = .loading) || (decide (sh.status = .ready) && (!ovr || sh.foreign x.wg.uid)) then .wait
        else
          let s := x.s.modCore x.core (fun k => { k with shadow := { Rack.empty with status := .loading, owner := some x.wg.uid, ten := ta.val, fmt := t.fmt, step := st } })
          x.ok (x.bindTo (x.start s 1 w (.rkld sp (x.ten ta) j0 st)) w [x.wg.uid] (if sp = .gl then [(.r, t.base)] else []))))) s

/-- RKSW (R351): performed in its turn, when no rack is loading. -/
def rksw (drop : Bool) (x : Iss) : Eff :=
  x.command (fun x => x.inOrder none none (decide ((x.s.core x.core).shadow.status ≠ .loading)) (fun x =>
    let k := x.s.core x.core
    if k.active.foreign x.wg.uid then x.faultA 0x14 0 0
    else if k.shadow.foreign x.wg.uid then x.faultA 0x14 1 0
    else x.ok (x.s.modCore x.core (fun k => { k with active := k.shadow, shadow := if drop then Rack.empty else k.active }))))

/-- RKSW .keep (R351). -/
def execRkswKeep (c : Ctl) (s : State) : Out := issued (.rkswKeep c) c (rksw false) s
/-- RKSW .drop (R351). -/
def execRkswDrop (c : Ctl) (s : State) : Out := issued (.rkswDrop c) c (rksw true) s

/-! MMUL, MTOPK, MNORM. -/

/-- MMUL and MTOPK at their issue (R352 to R355): checks, then an entry of the oven queue. -/
def ovenEff (topk abs : Bool) (o : OvenArgs) (x : Iss) : Eff :=
  x.command (fun x =>
    let da := x.ten o.ta
    let db := x.ten o.tb
    let ta := Ten.of da
    let tb := Ten.of db
    let (st, m, n) := (o.s.toNat, o.m.toNat, o.n.toNat)
    let (r0, s0) := (bits (x.sv o.a) 31 0, bits (x.sv o.a) 63 32)
    let sn := x.sv o.b
    let sn1 := if topk then x.sn (o.b.val + 1) else 0
    let w := wordOf (bits sn 31 0)
    let rofs := if topk then wordOf (bits sn 63 32) else none
    let k := x.s.core x.core
    let kg := kgOf tb.fmt
    let rs := ta.ranges (32 * kg * s0) (32 * kg * (s0 + st)) r0 (r0 + m)
    let bs := banksOf o.af.val m
    let md := modeOf topk ta tb
    checked
      (x.tenCheck [(o.ta, badA), (o.tb, fun t => decide (t.fmt > 9) || t.ndim == 0 || t.odd)] ++
       [x.failIf (st == 0 || decide (st > 4095) || m == 0 || decide (m > 96) || n == 0 || decide (n > 192) || decide (8 * o.af.val + m > 96)) 0x02 4 0,
        x.failIf (topk && (bits sn1 63 40 != 0 || (sn1.testBit 39 && bits sn1 38 36 == x.core % 8))) 0x02 2 0,
        x.wordMis w, (rofs.bind (fun a => x.failIf (a % 4 != 0) 0x06 0 a)),
        x.wordOut w, (rofs.bind (fun a => x.failIf (decide (a + 384 * m > x.wg.rec_.scratch)) 0x07 0 a)), x.room o.space rs,
        x.ownBanks bs, x.modeBanks bs md,
        x.failIf (o.res && (decide (k.active.status ≠ .ready) || k.active.fmt != tb.fmt || k.active.owner != some x.wg.uid)) 0x14 0 0])
      (fun _ =>
        let id := x.s.nextId
        let regs := [o.a.val, o.b.val] ++ if topk then [o.b.val + 1] else []
        let comp := if topk then [(ta.nbase, ta.nbase + 128 * st * m), (tb.nbase, tb.nbase + 128 * st * n)] else []
        let record : List Watch := match rofs with
          | some a => [{ op := id, st := .scratch, lo := a, hi := a + 384 * m, rec_ := some x.s.fresh, hit := false }]
          | none => []
        let op : OvenOp :=
          { id := id, ctx := x.wg.ctx, launch := x.wg.launch, wg := x.wg.uid, grp := x.gr.uid, pc := x.cur.pc, word := w, x := o, topk := topk, abs := abs, da := da, db := db,
            r0 := r0, s0 := s0, rofs := rofs, cbase := BitVec.ofNat 32 (bits sn1 31 0), k := bits sn1 35 32 + 1,
            part := if sn1.testBit 39 then some (bits sn1 38 36) else none, nonce := x.s.fresh, steps := [], rows := [], compA := [], compB := [],
            bad := x.unfenced o.space rs comp regs || bs.any (fun i => k.eng.any (fun o => o.drainsBank i)), poison := false, sent := false, pxm := none, ncm := false, row := 0, plane := 0, thr := List.replicate m .ninf,
            dead := List.replicate m (List.replicate n none), rowEnd := List.replicate m none, parked := none, lane := x.low.getD 0 }
        let s := x.s.modCore x.core (fun k => { k.early bs with ovenQ := k.ovenQ ++ [op] })
        let s := { s with nextId := id + 1, fresh := s.fresh + 1 }
        let s := x.bindTo s w [x.wg.uid] ((if o.space = .gl then [(.r, ta.base)] else []) ++ (if topk then [(.r, ta.nbase), (.r, tb.nbase)] else []))
        x.ok (x.watch s (watches id o.space rs ++ x.watchRegs id regs ++ record))))

/-- MMUL (R352, R353). -/
def execMmul (c : Ctl) (o : OvenArgs) (s : State) : Out := issued (.mmul c o) c (ovenEff false false o) s
/-- MTOPK (R354, R355). -/
def execMtopk (c : Ctl) (o : OvenArgs) (abs : Bool) (s : State) : Out := issued (.mtopk c o abs) c (ovenEff true abs o) s

/-- MNORM at its issue (R356, R357). tb: under .a, the tensor whose format fixes kg. -/
def mnormEff (isB : Bool) (sp : BSpace) (ta : Fin 256) (tb : Option (Fin 256)) (a b : Fin 64) (st : BitVec 16) (n : BitVec 8) (x : Iss) : Eff :=
  x.command (fun x =>
    let d := x.ten ta
    let t := Ten.of d
    let db := match tb with | some i => x.ten i | none => d
    let (r0, s0) := (bits (x.sv a) 31 0, bits (x.sv a) 63 32)
    let w := wordOf (bits (x.sv b) 31 0)
    let kg := kgOf (Ten.of db).fmt
    let rs := t.ranges (32 * kg * s0) (32 * kg * (s0 + st.toNat)) r0 (r0 + n.toNat)
    checked
      (x.tenCheck ((ta, if isB then badB else badA) :: (match tb with | some i => [(i, fun t => decide (t.fmt > 9) || t.odd)] | none => [])) ++
       [x.failIf (st == 0 || decide (st.toNat > 4095) || n == 0 || decide (n.toNat > (if isB then 192 else 96))) 0x02 4 0,
        x.failIf (t.nbase % 4 != 0) 0x06 0 t.nbase, x.wordMis w, x.room sp rs, x.wordOut w])
      (fun _ =>
        let id := x.s.nextId
        let s := x.start x.s 0 w (.mnorm isB sp d db r0 s0 n.toNat st.toNat) [] (x.unfenced sp rs [] [a.val, b.val])
        let s := x.bindTo s w [x.wg.uid] ((if sp = .gl then [(.r, t.base)] else []) ++ [(.w, t.nbase)])
        x.ok (x.watch s (watches id sp rs ++ x.watchRegs id [a.val, b.val]))))

/-- MNORM .a (R356, R357). -/
def execMnormA (c : Ctl) (sp : BSpace) (ta tb : Fin 256) (a b : Fin 64) (st : BitVec 16) (n : BitVec 8) (s : State) : Out :=
  issued (.mnormA c sp ta tb a b st n) c (mnormEff false sp ta (some tb) a b st n) s
/-- MNORM .b (R356, R357). -/
def execMnormB (c : Ctl) (sp : BSpace) (ta : Fin 256) (a b : Fin 64) (st : BitVec 16) (n : BitVec 8) (s : State) : Out :=
  issued (.mnormB c sp ta a b st n) c (mnormEff true sp ta none a b st n) s

/-! Banks and bands. -/

/-- Banks that a workgroup holds. -/
def Core.held (k : Core) (wg : Nat) : Nat := ((List.range 12).filter (k.owns wg)).length
/-- A claim (R358): elements undefined, mode unset, status and lists cleared. -/
def Core.claim (k : Core) (wg i nonce : Nat) : Core :=
  (k.modBank i (fun _ => { owner := some wg, mode := .unset, status := 0, elems := [], fill := some nonce })).clearLists i

/-- AALLOC (R358). -/
def execAalloc (c : Ctl) (bk : Fin 12) (s : State) : Out :=
  issued (.aalloc c bk) c (fun x => x.command (fun x =>
    let k := x.s.core x.core
    if k.owns x.wg.uid bk.val then x.ok x.s
    else if (k.bank bk.val).owner.isSome || decide (k.held x.wg.uid ≥ x.wg.rec_.banks) then x.faultA 0x10 bk.val 0
    else x.ok (x.s.modCore x.core (fun k => k.claim x.wg.uid bk.val x.s.fresh)))) s

/-- AALLOC .any (R358). -/
def execAallocAny (c : Ctl) (a : Fin 64) (s : State) : Out :=
  issued (.aallocAny c a) c (fun x => x.command (fun x =>
    let k := x.s.core x.core
    match (List.range 12).find? (fun i => (k.bank i).owner.isNone) with
    | none => x.faultA 0x10 0xFF 0
    | some i =>
      if k.held x.wg.uid ≥ x.wg.rec_.banks then x.faultA 0x10 0xFF 0
      else
        let s := x.s.modCore x.core (fun k => k.claim x.wg.uid i x.s.fresh)
        x.ok (x.modG s (fun g => (g.setS a.val (BitVec.ofNat 64 i)).cleanS a.val)))) s

/-- AFREE (R358): it waits for the operations on the bank. -/
def execAfree (c : Ctl) (bk : Fin 12) (s : State) : Out :=
  issued (.afree c bk) c (fun x => x.command (fun x =>
    let k := x.s.core x.core
    match (k.bank bk.val).owner with
    | none => x.ok x.s
    | some o =>
      if o ≠ x.wg.uid then x.faultA 0x10 bk.val 0
      else if k.queued bk.val || k.imms.any (fun t => t.bank == some bk.val) || k.eng.any (fun o => o.drainsBank bk.val) then .wait
      else x.ok (x.s.modCore x.core (fun k => { k.forget [bk.val] with banks := Tab.del k.banks bk.val, lists := k.lists.filter (fun e => e.1 / 8 != bk.val) })))) s

/-- ABAND (R359). -/
def execAband (c : Ctl) (a b : Fin 64) (s : State) : Out :=
  issued (.aband c a b) c (fun x => x.command (fun x =>
    let v := x.sv a
    let w := x.sv b
    let ok := decide (v < 32) && (match x.s.grp x.core v with | some g => g.wg == x.wg.uid && decide (g.role = .vector) | none => false)
    checked
      [x.failIf (!ok) 0x02 1 0, x.failIf (w.testBit 7 || bits w 63 15 != 0 || decide (bits w 6 0 + bits w 14 8 > 96)) 0x02 2 0]
      (fun _ => x.ok (x.s.modGrp x.core v (fun g => { g with band := (bits w 6 0, bits w 14 8) }))))) s

/-! ADRAIN. -/

/-- First output column and count of columns that a drain writes (R361), and a row's bits from BASE. -/
def drainCols (prune co nc : Nat) : Nat × Nat := if prune = 0 then (co, nc) else let (n, m, _) := pruneOf prune; (co * n / m, nc * n / m)
/-- First bit of row i's data, from BASE, and the bits written; a stride that NDIM does not declare is not read (R130). -/
def Ten.drainBits (t : Ten) (prune ro co nc i : Nat) : Nat × Nat :=
  let (c0, n) := drainCols prune co nc
  ((c0 + (if t.ndim = 0 then 0 else (ro + i) * t.s1)) * fmtBits t.fmt, n * fmtBits t.fmt)
/-- The metadata words of row i: address, words, first bit, bits (R160). -/
def Ten.drainMeta (t : Ten) (prune ro co nc i : Nat) : Nat × Nat × Nat × Nat :=
  let (n, m, w) := pruneOf prune
  let b := co / m * n * w
  let len := nc * n / m * w
  (t.ibase + (ro + i) * t.metaRow prune + 4 * (b / 32), ceilDiv (b % 32 + len) 32, b % 32, len)
/-- The ranges that a drain writes. -/
def Ten.drainRanges (t : Ten) (prune ro co nr nc : Nat) : List (Nat × Nat) :=
  (List.range nr).flatMap (fun i =>
    let (b, n) := t.drainBits prune ro co nc i
    let (a, w, _, _) := t.drainMeta prune ro co nc i
    (t.base + b / 8, t.base + (b + n + 7) / 8) :: (if prune = 0 then [] else [(a, a + 4 * w)]))

/-- ADRAIN at its issue (R360, R361). prune: 0, 1 for 2:4, 2 for 4:8. -/
def adrainEff (prune : Nat) (sp : BSpace) (mx : Bool) (rnd : Rnd) (sat : Sat) (ta : Fin 256) (a b : Fin 64) (x : Iss) : Eff :=
  x.command (fun x =>
    let d := x.ten ta
    let t := Ten.of d
    let (ro, co) := (bits (x.sv a) 31 0, bits (x.sv a) 63 32)
    let sn := x.sv b
    let mxa := x.sn (b.val + 1)
    let (rho, nr, c0, nc) := (bits sn 6 0, bits sn 14 8, bits sn 23 16, bits sn 31 24 + 1)
    let w := wordOf (bits sn 63 32)
    let (_, m, _) := pruneOf prune
    let rows := (List.range nr).map (fun i => rho + i)
    let k := x.s.core x.core
    checked
      (x.tenCheck [(ta, fun t => t.fmt == 9 || t.slay != 0 || t.senc != prune || t.odd)] ++
       [x.failIf (sn.testBit 7 || sn.testBit 15 || nr == 0 || decide (rho + nr > 96) || decide (c0 + nc > 192)) 0x02 2 0,
        x.failIf (decide (prune ≠ 0) && (c0 % m != 0 || co % m != 0 || nc % m != 0)) 0x17 0 0,
        x.failIf ((List.range nr).any (fun i => let p := t.drainBits prune ro co nc i; p.1 % 8 != 0 || p.2 % 8 != 0)) 0x17 0 0,
        x.failIf (mx && mxa % 4 != 0) 0x06 0 mxa, x.wordMis w, x.room sp (t.drainRanges prune ro co nr nc), x.wordOut w] ++ x.readRows rows)
      (fun _ =>
        let bs := ((List.range nr).map (fun i => (rho + i) / 8)).eraseDups
        let zero := bs.filter (fun i => !k.owns x.wg.uid i)
        let early := bs.filter (fun i => k.owns x.wg.uid i && k.busy i)
        let s := x.s.modCore x.core (fun k => k.peekBanks early)
        let s := x.start s 4 w (.adrain prune sp (if mx then some (BitVec.ofNat 64 mxa) else none) (dynRnd rnd x.gr.fpc) sat d ro co rho nr c0 nc zero) early
        x.ok (x.bindTo s w [x.wg.uid] ((if sp = .gl then [(.w, t.base)] else []) ++ (if mx then [(.w, mxa)] else [])))))

/-- ADRAIN .none (R360, R361). -/
def execAdrainNone (c : Ctl) (sp : BSpace) (mx : Bool) (rnd : Rnd) (sat : Sat) (ta : Fin 256) (a b : Fin 64) (s : State) : Out :=
  issued (.adrainNone c sp mx rnd sat ta a b) c (adrainEff 0 sp mx rnd sat ta a b) s
/-- ADRAIN .p24 (R160, R360, R361). -/
def execAdrainP24 (c : Ctl) (sp : BSpace) (mx : Bool) (rnd : Rnd) (sat : Sat) (ta : Fin 256) (a b : Fin 64) (s : State) : Out :=
  issued (.adrainP24 c sp mx rnd sat ta a b) c (adrainEff 1 sp mx rnd sat ta a b) s
/-- ADRAIN .p48 (R160, R360, R361). -/
def execAdrainP48 (c : Ctl) (sp : BSpace) (mx : Bool) (rnd : Rnd) (sat : Sat) (ta : Fin 256) (a b : Fin 64) (s : State) : Out :=
  issued (.adrainP48 c sp mx rnd sat ta a b) c (adrainEff 2 sp mx rnd sat ta a b) s

/-! ALOAD, AZERO. -/

/-- The words of a bank lose their marks, and take those of a source (R266). -/
def Core.bankMarks (k : Core) (i : Nat) (bad : Nat → Bool) : Core :=
  { k with poison := k.poison.filter (fun e => !(decide (e.1 = .bank) && e.2 / 1536 == i)) ++ ((List.range 1536).filter bad).map (fun n => (.bank, 1536 * i + n)) }

/-- ALOAD (R362). -/
def execAload (c : Ctl) (tm i32 : Bool) (bk : Fin 12) (a : Fin 64) (s : State) : Out :=
  issued (.aload c tm i32 bk a) c (fun x => x.command (fun x =>
    let p := x.sv a
    let md : BMode := if i32 then .int32 else .fp32
    let sp : BSpace := if tm then .tm else .sp
    checked
      [x.failIf (tm && decide (p + 6144 > 4096 * x.wg.rec_.tiles)) 0x02 1 0, x.failIf (p % 16 != 0) 0x06 0 p,
       x.failIf (!tm && decide (p + 6144 > x.wg.rec_.scratch)) 0x07 0 p, x.ownBanks [bk.val], x.modeBanks [bk.val] md]
      (fun _ => x.inOrder (some bk.val) (some md) true (fun x =>
          let s := x.s.ePeek x.core x.wg.uid sp [(p, p + 6144)]
          let bs := x.s.eRead x.core x.wg.uid x.wg.ctx sp p 6144
          let es : Tab Word := (List.range 1536).map (fun n => (n, BitVec.ofNat 32 (fromLE ((bs.drop (4 * n)).take 4))))
          x.ok (s.modCore x.core (fun k =>
            (((k.early [bk.val]).replace ((List.range 8).map (fun r => (8 * bk.val + r, 192))) [] []).bankMarks bk.val (fun n => !x.wg.poison.isEmpty && x.s.ePoison x.core x.wg.uid x.wg.ctx sp (p + 4 * n) 4)).modBank bk.val
              (fun b => { b with mode := md, elems := es, fill := none }))))))) s

/-- AZERO (R362). -/
def execAzero (c : Ctl) (bk : Fin 12) (s : State) : Out :=
  issued (.azero c bk) c (fun x => x.command (fun x =>
    checked [x.ownBanks [bk.val]]
      (fun _ => x.inOrder (some bk.val) (some .unset) true (fun x => x.ok (x.s.modCore x.core (fun k =>
          ((((k.early [bk.val]).replace ((List.range 8).map (fun r => (8 * bk.val + r, 192))) ((List.range 8).map (fun r => 8 * bk.val + r)) [bk.val]).bankMarks bk.val (fun _ => false)).modBank bk.val
            (fun b => { b with mode := .unset, status := 0, elems := [], fill := none })).clearLists bk.val)))))) s

/-! Winner lists and status. -/

/-- The image of a list that WRD writes: zeros for an unclaimed bank (R363), free bytes in the window of an oven operation on the bank (R192). -/
def Iss.listImage (x : Iss) (r : Nat) : List Byte :=
  let k := x.s.core x.core
  if !k.owns x.wg.uid (r / 8) then List.replicate 144 0
  else if k.busy (r / 8) then (List.range 144).map (fun i => Config.freeByte x.s.fresh (144 * r + i))
  else (k.wlist r).image

/-- WRD (R363); marks go with the words (R266). -/
def execWrd (c : Ctl) (a : Fin 64) (w : Fin 96) (n : BitVec 7) (s : State) : Out :=
  issued (.wrd c a w n) c (fun x => x.command (fun x =>
    let p := x.sv a
    let rows := (List.range n.toNat).map (fun i => w.val + i)
    let k := x.s.core x.core
    checked
      ([x.failIf (n == 0 || decide (w.val + n.toNat > 96)) 0x02 4 0, x.failIf (p % 16 != 0) 0x06 0 p,
        x.failIf (decide (p + 144 * n.toNat > x.wg.rec_.scratch)) 0x07 0 p] ++ x.readRows rows)
      (fun _ =>
        let early := ((rows.map (fun r => r / 8)).eraseDups).filter (fun i => k.owns x.wg.uid i && k.busy i)
        let s := x.modW (x.s.modCore x.core (fun k => k.peekBanks early)) (fun v => v.spWrite p (rows.flatMap x.listImage))
        let bad := (rows.zipIdx.filter (fun e => k.owns x.wg.uid (e.1 / 8))).flatMap (fun e =>
          ((List.range 36).filter (fun i => k.poison.contains (.winner, 36 * e.1 + i))).map (fun i => p + 144 * e.2 + 4 * i))
        let s := bad.foldl (fun s a => x.modW s (fun v => v.mark .scratch a 4)) s
        x.ok (if rows.all (fun r => k.owns x.wg.uid (r / 8)) then s else x.modG s setUab)))) s

/-- The entries of a list image with a column base (R173): count, entries, total. -/
def imageList (bs : List Byte) (base : Nat) : Nat × List (Nat × Nat) × Nat :=
  let f (i n : Nat) : Nat := fromLE ((bs.drop i).take n)
  let c := f 0 4
  (c, (List.range (min c 16)).map (fun e => (f (16 + 8 * e) 4, (f (20 + 8 * e) 4 + base) % 2 ^ 32)), f 8 4)

/-- WMERGE (R173, R364). -/
def execWmerge (c : Ctl) (w : Fin 96) (a b : Fin 64) (s : State) : Out :=
  issued (.wmerge c w a b) c (fun x => x.command (fun x =>
    let p := x.sv a
    let (n, _, _) := imageList (x.read x.s .cl false p 144) (bits (x.sv b) 31 0)
    checked
      [x.failIf (p % 16 != 0) 0x06 0 p, x.failIf (decide (p + 144 > x.wg.rec_.clsram)) 0x08 0 p, x.failIf (decide (n > 16)) 0x02 1 0, x.ownBanks [w.val / 8]]
      (fun _ => x.inOrder (some (w.val / 8)) none true (fun x =>
          let k := x.s.core x.core
          let bad := x.poisonAt .cl false p 144 || (List.range 36).any (fun i => k.poison.contains (.winner, 36 * w.val + i))
          let (_, es, tot) := imageList (x.read x.s .cl false p 144) (bits (x.sv b) 31 0)
          let l := (k.wlist w.val).merge es tot
          let s := (x.peek x.s .cl 144 [p]).modCore x.core (fun k => k.setList w.val (if bad then { l with free := some x.s.fresh } else l))
          x.ok (if bad then s.mark x.core x.wg.uid x.gr.uid (impTrap 0x1E 1) else s))))) s

/-- The status word of a bank (R365). -/
def Bank.word (b : Bank) : Nat := b.status.toNat + 256 * (match b.mode with | .unset => 0 | .fp32 => 1 | .int32 => 2)

/-- ASTAT (R365). -/
def execAstat (c : Ctl) (d : Opnd) (bk : Fin 12) (s : State) : Out :=
  issued (.astat c d bk) c (fun x => x.command (fun x =>
    let k := x.s.core x.core
    if k.owns x.wg.uid bk.val then
      let v := if k.busy bk.val then (Config.freeWord x.s.fresh bk.val).toNat else (k.bank bk.val).word
      let x := if k.busy bk.val then { x with s := x.s.modCore x.core (fun k => k.peekBanks [bk.val]) } else x
      x.ok (x.write false d (fun _ => BitVec.ofNat 64 v))
    else if x.gr.gctl.getLsbD 1 then x.faultA 0x11 bk.val 0
    else x.ok (x.modG (x.write false d (fun _ => 0)) setUab))) s

/-! SELK, SORTR. -/

/-- SELK at its issue (R366, R367). -/
def selkEff (exp : Bool) (a b : Fin 64) (word : Word) (x : Iss) : Eff :=
  x.command (fun x =>
    let (src, len) := (bits (x.sv a) 31 0, bits (x.sv a) 63 32)
    let (dst, k) := (bits (x.sv b) 31 0, bits (x.sv b) 40 32)
    let w := wordOf word.toNat
    let sz := x.wg.rec_.scratch
    checked
      [x.failIf (decide (len > 65536)) 0x18 0 0, x.failIf (k == 0 || decide (k > 256) || bits (x.sv b) 63 41 != 0) 0x02 2 0,
       x.failIf (src % 4 != 0) 0x06 0 src, x.failIf (dst % 4 != 0) 0x06 0 dst, x.wordMis w,
       x.failIf (len != 0 && decide (src + 4 * len > sz)) 0x07 0 src, x.failIf (decide (dst + 16 + 8 * k > sz)) 0x07 0 dst, x.wordOut w]
      (fun _ => x.ok (x.start x.s 3 w (.selk exp src len dst k))))

/-- SELK .sum (R366, R367). -/
def execSelkSum (c : Ctl) (a b : Fin 64) (word : Word) (s : State) : Out := issued (.selkSum c a b word) c (selkEff false a b word) s
/-- SELK .exp (R175, R366, R367). -/
def execSelkExp (c : Ctl) (a b : Fin 64) (word : Word) (s : State) : Out := issued (.selkExp c a b word) c (selkEff true a b word) s

/-- SORTR (R368). -/
def execSortr (c : Ctl) (asc : Bool) (a b : Fin 64) (word : Word) (s : State) : Out :=
  issued (.sortr c asc a b word) c (fun x => x.command (fun x =>
    let (src, len) := (bits (x.sv a) 31 0, bits (x.sv a) 63 32)
    let (dst, nr) := (bits (x.sv b) 31 0, bits (x.sv b) 47 32)
    let w := wordOf word.toNat
    let sz := x.wg.rec_.scratch
    checked
      [x.failIf (decide (len > 4096)) 0x18 0 0, x.failIf (len == 0) 0x02 1 0, x.failIf (nr == 0 || bits (x.sv b) 63 48 != 0) 0x02 2 0,
       x.failIf (src % 8 != 0) 0x06 0 src, x.failIf (dst % 8 != 0) 0x06 0 dst, x.wordMis w,
       x.failIf (decide (src + 8 * len * nr > sz)) 0x07 0 src, x.failIf (decide (dst + 8 * len * nr > sz)) 0x07 0 dst, x.wordOut w]
      (fun _ => x.ok (x.start x.s 3 w (.sortr asc src len dst nr))))) s

end Sys2Proof.Machine
end

