-- ==== Sys2Proof/Machine/Sifter.lean ====
section
/-! DEFINITION. Tensor identifiers and the sifter: TIDSET, TIDGET, CXDEF, CXSPLIT, CXFILL and CXCUR (R370 to R382, R398 to R400). -/
namespace Sys2Proof.Machine
open Sys2Proof

/-! Images in memory (R372, R383). -/

/-- The space of an image. -/
def imSpace : ImSpace → Space | .gl => .gl | .sp => .sp | .cl => .cl

/-- The checks of an image of n bytes: alignment, bounds, translation, a lost session, and poison of a read (R324, R266, R267,
R372). -/
def Iss.imCheck (x : Iss) (sp : ImSpace) (acc : Acc) (a n : Nat) : List (Option Eff) :=
  let t := boundTrap (imSpace sp) (acc == .w)
  [x.failIf (a % 16 != 0) 0x06 0 a,
   x.failIf (match sp with | .gl => decide (a + n > 2 ^ 57) | .sp => decide (a + n > x.wg.rec_.scratch) | .cl => decide (a + n > x.wg.rec_.clsram)) t.1 t.2 a,
   (match sp with | .gl => x.checkAll (span acc a n 16) | _ => none),
   x.failIf (acc == .r && (match sp with | .gl => x.lostAt acc a | _ => false)) 0x23 0 a,
   x.failIf (acc == .r && x.poisonAt (imSpace sp) false a n) 0x1E 0 a]

/-- Charges the sectors of an image in global memory. -/
def Iss.imCharge (x : Iss) (s : State) (sp : ImSpace) (acc : Acc) (a n : Nat) : State :=
  match sp with | .gl => x.ask s (x.s.sectors x.wg.ctx acc a n) | _ => s

/-- The group notes a store of an image (R191). -/
def Iss.imNote (x : Iss) (s : State) (sp : ImSpace) (a n : Nat) : State := (lanesOf x.act).foldl (fun s l => x.note s (imSpace sp) l a n) s
/-- An image goes out to a session's device, 16 bytes at a request (R84). -/
def Iss.imSend (x : Iss) (s : State) (sp : ImSpace) (a : Nat) (bs : List Byte) : State :=
  match sp with
  | .gl => (List.range (bs.length / 16)).foldl (fun s i => x.send s .w (a + 16 * i) 16 (fromLE ((bs.drop (16 * i)).take 16)) .st) s
  | _ => s

/-- TIDSET .set (R87, R372, R373). -/
def execTidsetSet (c : Ctl) (sp : ImSpace) (ta : Fin 256) (a : Fin 64) (s : State) : Out :=
  issued (.tidsetSet c sp ta a) c (fun x => x.command (fun x =>
    let p := x.sv a
    checked (x.imCheck sp .r p 128) (fun _ =>
      let t : BitVec 1024 := BitVec.ofNat 1024 (fromLE (x.read x.s (imSpace sp) false p 128))
      if !tenLegal t then x.faultA 0x16 ta.val 0
      else x.ok ((x.imCharge (x.peek x.s (imSpace sp) 128 [p]) sp .r p 128).modCtx x.wg.ctx (fun k => { k with tens := Tab.set k.tens ta.val (t ||| BitVec.ofNat 1024 (2 ^ 31)) }))))) s

/-- TIDSET .clr (R372). -/
def execTidsetClr (c : Ctl) (sp : ImSpace) (ta : Fin 256) (s : State) : Out :=
  issued (.tidsetClr c sp ta) c (fun x => x.command (fun x =>
    x.ok (x.s.modCtx x.wg.ctx (fun k => { k with tens := Tab.del k.tens ta.val })))) s

/-- TIDGET (R372, R373). -/
def execTidget (c : Ctl) (sp : ImSpace) (ta : Fin 256) (a : Fin 64) (s : State) : Out :=
  issued (.tidget c sp ta a) c (fun x => x.command (fun x =>
    let p := x.sv a
    checked (x.imCheck sp .w p 128) (fun _ =>
      let s := x.cleanLines x.s (match sp with | .gl => [(p, 128)] | _ => [])
      let bs := toLE 128 (x.ten ta).toNat
      x.ok (x.imCharge (x.imSend (x.store (x.imNote s sp p 128) (imSpace sp) p bs) sp p bs) sp .w p 128)))) s

/-! Streams (R374, R375). -/

/-- What a reading of a stream has read: address, bytes, value (R197). -/
abbrev Memo := List (Nat × Nat × Nat)

/-- What ends a reading of a stream: an absent page, with what the reading has read; a fault; or an element or pointer out of order with the stream, its position
and address. -/
inductive Stop where
  | park (va : Nat) (seen : Memo)
  | trap (no sub addr : Nat)
  | unsorted (fsb fpt : Bool) (pos addr : Nat)
  deriving DecidableEq, Repr

/-- A computation of a reading, which keeps what it has read. -/
abbrev Rdg := StateT Memo (Except Stop)
/-- The reading stops. -/
def Rdg.stop {α : Type} (e : Stop) : Rdg α := fun _ => .error e

/-- A reader of n bytes at an address. read: a read of the reading, made once. look: what stands there, for what the sifter finds without reading it (R400): found
once in a reading, and no read that a fault or a mark could meet; only a page that is not present holds it up (log 33: DESIGN CHOICE). -/
structure Rd where
  read : Nat → Nat → Rdg Nat
  look : Nat → Nat → Rdg Nat
/-- A reader that only looks. -/
def Rd.blind (rd : Rd) : Rd := { read := rd.look, look := rd.look }

/-- A coordinate with its value position, its element position, the address of its element, and whether its pair is out of order (COO). -/
structure SItem where
  c    : Nat
  vp   : Nat
  ep   : Nat
  addr : Nat
  bad  : Bool
  deriving DecidableEq, Repr

/-- Item k of a sorted COO row: n entries are left from entry i. -/
def cooItem (rd : Rd) (t : Ten) (r : Nat) : Nat → Nat → Option (Nat × Nat) → Nat → Rdg (Option SItem)
  | 0, _, _, _ => pure none
  | n + 1, i, prev, k => do
    let row ← rd.read (t.ibase + 8 * i) 4
    let col ← rd.read (t.ibase + 8 * i + 4) 4
    let bad := match prev with | some p => !(decide (p.1 < row) || (p.1 == row && decide (p.2 < col))) | none => false
    if row = r then
      if k = 0 then pure (some { c := col, vp := i, ep := i, addr := t.ibase + 8 * i, bad := bad })
      else cooItem rd t r n (i + 1) (some (row, col)) (k - 1)
    else cooItem rd t r n (i + 1) (some (row, col)) k

/-- Coordinates of a bitmap's word w. -/
def wordBits (t : Ten) (w v : Nat) : List Nat := ((List.range 64).filter (fun b => v.testBit b && decide (64 * w + b < t.e0))).map (fun b => 64 * w + b)

/-- Item k of a bitmap row: n words are left from word w. The words from w0 on are read; those before it only count (R400). -/
def bitItem (rd : Rd) (t : Ten) (base w0 : Nat) : Nat → Nat → Nat → Rdg (Option Nat)
  | 0, _, _ => pure none
  | n + 1, w, k => do
    let l := wordBits t w (← if w < w0 then rd.look (base + 8 * w) 8 else rd.read (base + 8 * w) 8)
    match l[k]? with
    | some c => pure (some c)
    | none => bitItem rd t base w0 n (w + 1) (k - l.length)

/-- A code of a run-length delta row: the coordinates it stands for, from y, the previous coordinate plus 1. -/
def runOf (code y : Nat) : Nat × Nat :=
  if code.testBit 15 then (y + bits code 7 0, bits code 14 8 + 2) else (y + bits code 14 0, 1)

/-- Coordinate k of a run-length delta row and its code's index: n codes are left from code i. -/
def runItem (rd : Rd) (t : Ten) : Nat → Nat → Nat → Nat → Rdg (Option (Nat × Nat))
  | 0, _, _, _ => pure none
  | n + 1, i, y, k => do
    let u := runOf (← rd.read (t.ibase + 2 * i) 2) y
    if k < u.2 then pure (some (u.1 + k, i)) else runItem rd t n (i + 1) (u.1 + u.2) (k - u.2)

/-- The row that a stream reads: a B stream of one row serves every row (R377, R398). -/
def streamRow (t : Ten) (isB : Bool) (r : Nat) : Nat := if isB && t.ndim == 0 then 0 else r

/-- Words of a bitmap row. -/
def Ten.rowWords (t : Ten) : Nat := ceilDiv t.e0 64

/-- Item k of a row of a stream (R374). w0: the first word of a bitmap row that is read. -/
def streamItem (rd : Rd) (t : Ten) (r w0 k : Nat) : Rdg (Option SItem) :=
  match t.senc with
  | 3 => do
    let p0 ← rd.read (t.pbase + 4 * r) 4
    let p1 ← rd.read (t.pbase + 4 * (r + 1)) 4
    if p0 + k < p1 then do
      let c ← rd.read (t.ibase + 4 * (p0 + k)) 4
      pure (some { c := c, vp := p0 + k, ep := p0 + k, addr := t.ibase + 4 * (p0 + k), bad := false })
    else pure none
  | 4 => do cooItem rd t r (← rd.read t.pbase 4) 0 none k
  | 5 => do
    match ← bitItem rd t (t.ibase + 8 * (r * t.rowWords)) w0 t.rowWords 0 k with
    | none => pure none
    | some c =>
      let p ← if t.pbase = 0 then pure (r * t.e0 + c) else (· + k) <$> rd.read (t.pbase + 4 * r) 4
      pure (some { c := c, vp := p, ep := c, addr := 0, bad := false })
  | 6 => do
    let q0 ← rd.read (t.pbase + 8 * r) 4
    let q1 ← rd.read (t.pbase + 8 * (r + 1)) 4
    match ← runItem rd t (q1 - q0) q0 0 k with
    | none => pure none
    | some (c, i) => do
      let v ← rd.read (t.pbase + 8 * r + 4) 4
      pure (some { c := c, vp := v + k, ep := i, addr := t.ibase + 2 * i, bad := false })
  | _ => pure (if k < t.e0 then some { c := k, vp := (if t.ndim = 0 then k else r * t.s1 + k), ep := k, addr := 0, bad := false } else none)

/-- A row pointer smaller than the one before it (R375, R380): the stop that it makes. -/
def pointerCheck (rd : Rd) (t : Ten) (fsb : Bool) (r : Nat) : Rdg Unit :=
  let chk (step : Nat) : Rdg Unit := do
    let p0 ← rd.read (t.pbase + 4 * step * r) 4
    let p1 ← rd.read (t.pbase + 4 * step * (r + 1)) 4
    if p1 < p0 then Rdg.stop (.unsorted fsb true (step * (r + 1)) (t.pbase + 4 * step * (r + 1))) else pure ()
  match t.senc with | 3 => chk 1 | 6 => chk 2 | _ => pure ()

/-- Entries of a COO row, and set bits of bitmap words, counted. -/
def cooCount (rd : Rd) (t : Ten) (r : Nat) : Nat → Nat → Rdg Nat
  | 0, _ => pure 0
  | n + 1, i => do
    let row ← rd.read (t.ibase + 8 * i) 4
    let m ← cooCount rd t r n (i + 1)
    pure (m + (if row = r then 1 else 0))
def bitCount (rd : Rd) (t : Ten) (base : Nat) : Nat → Nat → Rdg Nat
  | 0, _ => pure 0
  | n + 1, w => do
    let v ← rd.read (base + 8 * w) 8
    let m ← bitCount rd t base n (w + 1)
    pure (m + (wordBits t w v).length)

/-- The length of a row of A (R378): from the row pointers, whose order is checked for every row (R375), or by scanning. -/
def streamLen (rd : Rd) (t : Ten) (r : Nat) : Rdg Nat := do
  pointerCheck rd t false r
  let diff (a b : Nat) : Rdg Nat := do
    let p0 ← rd.read a 4
    let p1 ← rd.read b 4
    pure (p1 - p0)
  match t.senc with
  | 3 => diff (t.pbase + 4 * r) (t.pbase + 4 * (r + 1))
  | 4 => do cooCount rd t r (← rd.read t.pbase 4) 0
  | 5 => if t.pbase = 0 then bitCount rd t (t.ibase + 8 * (r * t.rowWords)) t.rowWords 0 else diff (t.pbase + 4 * r) (t.pbase + 4 * (r + 1))
  | 6 => diff (t.pbase + 8 * r + 4) (t.pbase + 8 * (r + 1) + 4)
  | _ => pure t.e0

/-- Item k of a chunk that begins at item lo, checked for its order against the item before it, which the cursor knows (R375, R400). -/
def orderedItem (rd : Rd) (t : Ten) (fsb : Bool) (r w0 lo k : Nat) : Rdg (Option SItem) := do
  match ← streamItem rd t r w0 k with
  | none => pure none
  | some e =>
    let low ← if lo < k then (match · with | some p => decide (e.c ≤ p.c) | none => false) <$> streamItem rd.blind t r w0 (k - 1) else pure false
    if e.bad || decide (e.c ≥ t.e0) || low then Rdg.stop (.unsorted fsb false e.ep e.addr) else pure (some e)

/-- The items before a kept chunk, which COO and run-length delta streams read and check (R400). -/
def before (rd : Rd) (t : Ten) (fsb : Bool) (r : Nat) : Nat → Rdg Unit
  | 0 => pure ()
  | n + 1 => do
    before rd t fsb r n
    if t.senc = 4 ∨ t.senc = 6 then (fun _ => ()) <$> orderedItem rd t fsb r 0 0 n else pure ()

/-- The first item of a row whose coordinate is not below c, found without a read (R400). -/
def lowerItem (rd : Rd) (t : Ten) (r c : Nat) : Nat → Nat → Rdg Nat
  | 0, k => pure k
  | n + 1, k => do
    match ← streamItem rd.blind t r 0 k with
    | none => pure k
    | some e => if e.c ≥ c then pure k else lowerItem rd t r c n (k + 1)

/-! Units and pairs (R377, R378, R400). -/

/-- The chunks of the cursor's row, and whether it keeps its unit. -/
def Cursor.chunks (c : Cursor) (rd : Rd) : Rdg Nat :=
  match c.split with
  | none => pure 1
  | some (l, _, _) => (fun n => if n > l then ceilDiv n l else 1) <$> streamLen rd (Ten.of c.da) c.row
def Cursor.keeps (c : Cursor) : Bool := match c.split with | none => true | some (_, p, n) => c.unit % n == p
/-- Items of a chunk of A: its first, and its end unless it runs to the end of the row. -/
def Cursor.ends (c : Cursor) (nk : Nat) : Nat × Option Nat :=
  match c.split with
  | none => (0, none)
  | some (l, _, _) => (c.chunk * l, if c.chunk + 1 < nk then some ((c.chunk + 1) * l) else none)

/-- One side of a pair: the item of a stream that stands next in the chunk. An item of B at or beyond the chunk's end is found without a read; one before it is read,
with whatever its read meets. -/
def sideA (rd : Rd) (t : Ten) (r w0 lo : Nat) (hi : Option Nat) (k : Nat) : Rdg (Option SItem) :=
  match hi with
  | some h => if k ≥ h then pure none else orderedItem rd t false r w0 lo k
  | none => orderedItem rd t false r w0 lo k
def sideB (rd : Rd) (t : Ten) (r w0 lo chi k : Nat) : Rdg (Option SItem) := do
  let past ← if chi < t.e0 then (match · with | some e => decide (e.c ≥ chi) | none => false) <$> streamItem rd.blind t r w0 k else pure false
  if past then pure none else orderedItem rd t true r w0 lo k

/-- The next pair of a unit with the items then next (R377). Where one stream of an intersection has ended, the rest of the other is still read and checked
(R400). -/
def mergeGo (op : CxOp) (a b : Nat → Rdg (Option SItem)) : Nat → Nat → Nat → Rdg (Option (Option SItem × Option SItem × Nat × Nat))
  | 0, _, _ => pure none
  | n + 1, ia, ib => do
    let x ← a ia
    match op with
    | .one => pure (x.map (fun e => (some e, none, ia + 1, ib)))
    | .and => match x, ← b ib with
      | none, none => pure none
      | none, some _ => mergeGo op a b n ia (ib + 1)
      | some _, none => mergeGo op a b n (ia + 1) ib
      | some e, some f => if e.c = f.c then pure (some (some e, some f, ia + 1, ib + 1))
                          else if e.c < f.c then mergeGo op a b n (ia + 1) ib else mergeGo op a b n ia (ib + 1)
    | .or => match x, ← b ib with
      | none, none => pure none
      | some e, none => pure (some (some e, none, ia + 1, ib))
      | none, some f => pure (some (none, some f, ia, ib + 1))
      | some e, some f => if e.c = f.c then pure (some (some e, some f, ia + 1, ib + 1))
                          else if e.c < f.c then pure (some (some e, none, ia + 1, ib)) else pure (some (none, some f, ia, ib + 1))

/-- The word of a bitmap row in which item k stands, found without a read: a read of the row begins there. -/
def firstWord (rd : Rd) (t : Ten) (r k : Nat) : Rdg Nat :=
  if t.senc = 5 ∧ k ≠ 0 then (match · with | some e => e.c / 64 | none => t.rowWords) <$> streamItem rd.blind t r 0 k else pure 0

/-- A coordinate read only as a bound of a chunk (R400). -/
def boundItem (rd : Rd) (t : Ten) (r k : Nat) : Rdg Nat := do
  match ← streamItem rd t r (← firstWord rd t r k) k with
  | none => pure t.e0
  | some e => if e.c ≥ t.e0 then Rdg.stop (.unsorted false false e.ep e.addr) else pure e.c

/-- The key under which a reading keeps the item of B at which a unit begins: no address of memory. -/
def boundKey (unit : Nat) : Nat := 2 ^ 64 + unit
/-- The item of B at which the cursor's unit begins, found once in a reading. -/
def Cursor.startB (c : Cursor) (rd : Rd) (t : Ten) (r lo : Nat) : Rdg Nat :=
  fun m => match m.find? (fun e => e.1 == boundKey c.unit) with
    | some e => .ok (e.2.2, m)
    | none => (do
        let k ← if t.senc < 3 then pure (min lo t.e0) else lowerItem rd t r lo (2 ^ 32) 0
        modify ((boundKey c.unit, 0, k) :: ·)
        pure k : Rdg Nat) m

/-- The next pair of the cursor's unit, which has nk chunks in its row. -/
def Cursor.pair (c : Cursor) (rd : Rd) (nk : Nat) : Rdg (Option (Option SItem × Option SItem × Nat × Nat)) := do
  let ta := Ten.of c.da
  let tb := Ten.of c.db
  let e := c.ends nk
  pointerCheck rd ta false c.row
  let hi ← match e.2 with | some h => boundItem rd ta c.row h | none => pure ta.e0
  let wa ← firstWord rd ta c.row e.1
  match c.op with
  | .one => do
    before rd ta false c.row e.1
    mergeGo .one (sideA rd ta c.row wa e.1 e.2) (fun _ => pure none) 1 c.ia 0
  | op => do
    let rb := streamRow tb true c.row
    pointerCheck rd tb true rb
    let lo ← if e.1 = 0 then pure 0 else (match · with | some i => i.c | none => ta.e0) <$> streamItem rd ta c.row wa e.1
    let b0 ← if e.1 = 0 then pure 0 else c.startB rd tb rb lo
    before rd ta false c.row e.1
    before rd tb true rb b0
    mergeGo op (sideA rd ta c.row wa e.1 e.2) (sideB rd tb rb (lo / 64) b0 hi) (2 * ta.e0 + 2) c.ia (max c.ib b0)

/-- The cursor at its next unit. -/
def Cursor.skip (c : Cursor) (nk : Nat) : Cursor :=
  match c.split with
  | some (l, _, _) =>
    if c.chunk + 1 < nk then { c with chunk := c.chunk + 1, unit := c.unit + 1, ia := (c.chunk + 1) * l, ib := 0 }
    else { c with row := c.row + 1, chunk := 0, unit := c.unit + 1, ia := 0, ib := 0 }
  | none => { c with row := c.row + 1, chunk := 0, unit := c.unit + 1, ia := 0, ib := 0 }

/-- What a lane receives (R379). -/
structure CxPair where
  row  : Nat
  c    : Nat
  posA : Nat
  posB : Nat
  deriving DecidableEq, Repr

/-- Pairs of a reading: want more of them, at most as many steps as units and pairs (R380). -/
def cxGo (rd : Rd) : Nat → Nat → Cursor → Rdg (List CxPair × Cursor)
  | 0, _, c => pure ([], c)
  | n + 1, want, c =>
    if want = 0 then pure ([], c)
    else if c.row ≥ c.r0 + c.nr then pure ([], { c with ended := true })
    else do
      let nk ← c.chunks rd
      if !c.keeps then cxGo rd n want (c.skip nk)
      else match ← c.pair rd nk with
        | none => cxGo rd n want (c.skip nk)
        | some (a, b, ia, ib) => do
          let pos (i : Option SItem) : Nat := match i with | some e => e.vp % 2 ^ 32 | none => 0xFFFFFFFF
          let co := match a, b with | some e, _ => e.c | none, some f => f.c | none, none => 0
          let r ← cxGo rd n (want - 1) { c with ia := ia, ib := ib, begun := true }
          pure ({ row := c.row, c := co, posA := pos a, posB := pos b } :: r.1, r.2)

/-- A reading of the cursor for want pairs: it goes on with what the cursor has read (R197). -/
def Cursor.fill (c : Cursor) (rd : Rd) (want : Nat) : Except Stop (List CxPair × Cursor) :=
  (cxGo rd (want + c.nr * (2 ^ 32 + 1) + 1) want c c.seen).map (fun r => (r.1.1, { r.1.2 with seen := r.2 }))

/-! The cursors of a group (R376 to R382). -/

/-- A cursor of a group. -/
def Group.cursor (g : Group) (n : Nat) : Cursor := (g.cur[n]?).getD Cursor.empty
/-- Sets a cursor. -/
def Group.setCursor (g : Group) (n : Nat) (c : Cursor) : Group := { g with cur := g.cur.set n c }

/-- What stands in memory now: translation and permission are checked word by word (R86, R266). -/
def Iss.stands (x : Iss) (a n : Nat) (m : Memo) : Except Stop Nat :=
  match x.s.translate x.wg.ctx .r a with
  | .pa _ _ => if x.s.glPoison x.wg.ctx a n then .error (.trap 0x1E 0 a) else .ok (fromLE (x.s.glRead x.wg.ctx a n))
  | .window _ _ _ => .ok ((Config.freeDWord x.nonce a).toNat % 2 ^ (8 * n))
  | .absent => .error (.park a m)
  | .denied => .error (.trap 0x0A 0 a)
  | .hole => .error (.trap 0x0B 0 a)
  | .far => .error (.trap 0x09 0 a)

/-- What a reading has read at an address. -/
def Memo.at_ (m : Memo) (a n : Nat) : Option Nat := (m.find? (fun e => e.1 == a && e.2.1 == n)).map (fun e => e.2.2)

/-- The key under which a reading keeps what it has looked at: no address of memory. -/
def lookKey (a : Nat) : Nat := 2 ^ 65 + a
/-- A byte that stands at an address, whatever its page allows; where no memory is, a free value. -/
def Iss.standing (x : Iss) (a : Nat) : Byte :=
  match x.s.translate x.wg.ctx .r a with
  | .pa p k => x.s.hbmGet k p
  | .denied => match (Tab.get x.s.ctxs x.wg.ctx).bind (fun c => c.page a) with
    | some p => if isHole (p.pa + (a - p.va)) then Config.freeByte x.nonce a else x.s.hbmGet (x.s.keyId p.key) (p.pa + (a - p.va))
    | none => Config.freeByte x.nonce a
  | _ => Config.freeByte x.nonce a
/-- The reader of an issue: each word is read once in a reading (R197), and looked at once (R400). -/
def Iss.rd (x : Iss) : Rd :=
  { read := fun a n m => match Memo.at_ m a n with
      | some v => .ok (v, m)
      | none => (x.stands a n m).map (fun v => (v, (a, n, v) :: m))
    look := fun a n m => match (Memo.at_ m a n).or (Memo.at_ m (lookKey a) n) with
      | some v => .ok (v, m)
      | none =>
        if x.s.translate x.wg.ctx .r a = .absent then .error (.park a m)
        else let v := fromLE ((List.range n).map (fun i => x.standing (a + i))); .ok (v, (lookKey a, n, v) :: m) }

/-- The sectors of what a reading has read beyond an older state of it (R223). -/
def Iss.readSecs (x : Iss) (old new : Memo) : List Nat :=
  ((new.take (new.length - old.length)).flatMap (fun e => if e.1 < 2 ^ 64 then x.s.sectors x.wg.ctx .r e.1 e.2.1 else [])).eraseDups

/-- CXDEF (R376, R377): op and, for two streams, TB. -/
def cxdef (cu : Fin 4) (op : CxOp) (ta : Fin 256) (tb : Option (Fin 256)) (a : Fin 64) (x : Iss) : Eff :=
  x.command (fun x =>
    let r0 := x.sv a % 2 ^ 32
    let nr := x.sv a / 2 ^ 32
    let da := Ten.of (x.ten ta)
    let second : List (Fin 256 × (Ten → Bool)) := match tb with
      | some t => [(t, fun d => !(d.senc == 0 || decide (3 ≤ d.senc)) || d.e0 != da.e0 || (decide (d.ndim ≥ 1) && decide (d.e1 < r0 + nr)))]
      | none => []
    checked
      (x.tenCheck ((ta, fun d => decide (d.senc < 3)) :: second)
        ++ [x.failIf (decide (nr = 0) || decide (r0 + nr > da.e1)) 0x02 1 0])
      (fun _ =>
        let db : BitVec 1024 := match tb with | some t => x.ten t | none => 0
        let c : Cursor := { Cursor.empty with valid := true, op := op, ta := ta.val, tb := (tb.map Fin.val).getD 0, da := x.ten ta, db := db, r0 := r0, nr := nr, row := r0 }
        x.ok (x.modG x.s (fun g => g.setCursor cu.val c))))

/-- CXDEF .one (R376, R377). -/
def execCxdefOne (c : Ctl) (cu : Fin 4) (ta : Fin 256) (a : Fin 64) (s : State) : Out := issued (.cxdefOne c cu ta a) c (cxdef cu .one ta none a) s
/-- CXDEF .and (R376, R377). -/
def execCxdefAnd (c : Ctl) (cu : Fin 4) (ta tb : Fin 256) (a : Fin 64) (s : State) : Out :=
  issued (.cxdefAnd c cu ta tb a) c (cxdef cu .and ta (some tb) a) s
/-- CXDEF .or (R376, R377). -/
def execCxdefOr (c : Ctl) (cu : Fin 4) (ta tb : Fin 256) (a : Fin 64) (s : State) : Out :=
  issued (.cxdefOr c cu ta tb a) c (cxdef cu .or ta (some tb) a) s

/-- CXSPLIT (R378). -/
def execCxsplit (c : Ctl) (cu : Fin 4) (a b : Fin 64) (s : State) : Out :=
  issued (.cxsplit c cu a b) c (fun x => x.command (fun x =>
    let k := x.gr.cursor cu.val
    let l := x.sv a % 2 ^ 32
    let p := bits (x.sv b) 5 0
    let n := bits (x.sv b) 13 8 + 1
    checked
      [x.failIf (!k.valid || k.split.isSome || k.begun) 0x19 cu.val 0, x.failIf (decide (l = 0)) 0x02 1 0,
       x.failIf (decide (p ≥ n) || bits (x.sv b) 7 6 != 0 || bits (x.sv b) 63 14 != 0) 0x02 2 0]
      (fun _ => x.ok (x.modG x.s (fun g => g.setCursor cu.val { k with split := some (l, p, n) }))))) s

/-- The lanes that a fill supplies, with their pairs, written (R380). -/
def Iss.supply (x : Iss) (s : State) (d : Nat) (ps : List (Nat × CxPair)) : State :=
  let put (i : Nat) (f : CxPair → Nat) (g : Group) : Group :=
    ps.foldl (fun g e => (g.setV (d + i) e.1 (BitVec.ofNat 32 (f e.2))).cleanV (d + i) e.1) g
  x.modG s (fun g => put 3 CxPair.posB (put 2 CxPair.posA (put 1 CxPair.c (put 0 CxPair.row g))))

/-- A fill: the unfilled lanes of the entry go to the continuation (R380). -/
def Iss.fillWith (x : Iss) (cu : Nat) (d : Nat) (tgt : Int) (pri : BitVec 16) (ps : List CxPair) (k : Cursor) : Eff :=
  let ls := x.lanes.zip ps
  let full := maskOf (ls.map Prod.fst)
  let s := x.modG (x.supply x.s d ls) (fun g => g.setCursor cu k)
  .ok { s := s, mv := [{ mask := x.cur.mask &&& full, pc := x.next, pri := x.cur.pri }, { mask := x.cur.mask &&& ~~~ full, pc := x.rel tgt, pri := pri }] }

/-- CXFILL (R379, R380): its data may have come when it issues, or it waits at a blocking point (R218, log 34: DESIGN CHOICE). A park keeps what the reading has read;
an out-of-order element ends the reading (R197, R380). -/
def cxfillEff (cu : Fin 4) (d : Fin 256) (pri : BitVec 16) (tgt : Int) (x : Iss) : Eff :=
  let k := x.gr.cursor cu.val
  if !k.valid then x.faultA 0x19 cu.val 0
  else if x.act = 0 ∨ k.ended = true then x.fillWith cu.val d.val tgt pri [] k
  else if x.firstIssue && Config.freeBool x.nonce 0 then .block x.s 0 false false
  else match k.fill x.rd x.lanes.length with
    | .ok (ps, k') => { x with s := x.ask x.s (x.readSecs k.seen k'.seen) }.fillWith cu.val d.val tgt pri ps k'
    | .error (.park va seen) => .parkIn (x.modG (x.ask x.s (x.readSecs k.seen seen)) (fun g => g.setCursor cu.val { k with seen := seen })) va
    | .error (.trap no sub addr) => x.faultA no sub addr
    | .error (.unsorted fsb fpt pos addr) =>
      .trapIn (x.modG x.s (fun g => g.setCursor cu.val { k with flt := true, fsb := fsb, fpt := fpt, fpos := BitVec.ofNat 32 pos, seen := [] }))
        (x.trapInfo 0x1A cu.val addr x.act)

/-- CXFILL (R379, R380). -/
def execCxfill (c : Ctl) (cu : Fin 4) (d : Fin 256) (pri : BitVec 16) (tgt : BitVec 32) (s : State) : Out :=
  issued (.cxfill c cu d pri tgt) c (cxfillEff cu d pri tgt.toInt) s

/-! CXCUR (R381, R382). -/

/-- The low 96 bits of the image of a saved cursor: its number (log 33: DESIGN CHOICE). -/
def cursorKey (n : Nat) : BitVec 96 := BitVec.ofNat 96 n
/-- The image of a saved cursor: its number, then the check. -/
def cursorImage (n : Nat) : Nat := (cursorKey n).toNat + 2 ^ 96 * (Config.cursorCheck (cursorKey n)).toNat

/-- The checks of a cursor image in scratchpad, at the whole of the register: a bit above an offset's fails its bounds (R83). -/
def Iss.curCheck (x : Iss) (a : Fin 64) (rd : Bool) : List (Option Eff) :=
  let p := x.sv a
  [x.failIf (p % 16 != 0) 0x06 0 p, x.failIf (decide (p + 16 > x.wg.rec_.scratch)) 0x07 0 p, x.failIf (rd && x.wg.poisoned .scratch p 16) 0x1E 0 p]

/-- CXCUR .save (R381). -/
def execCxcurSave (c : Ctl) (cu : Fin 4) (a : Fin 64) (s : State) : Out :=
  issued (.cxcurSave c cu a) c (fun x => x.command (fun x =>
    checked (x.curCheck a false) (fun _ =>
      let n := x.s.nextId
      let s := { x.s.modCtx x.wg.ctx (fun k => { k with saved := Tab.set k.saved n (x.gr.cursor cu.val) }) with nextId := n + 1 }
      x.ok (x.modW s (fun w => w.spWrite (x.sv a) (toLE 16 (cursorImage n))))))) s

/-- CXCUR .load (R381): a new reading of the tensor entries that the image names. -/
def execCxcurLoad (c : Ctl) (cu : Fin 4) (a : Fin 64) (s : State) : Out :=
  issued (.cxcurLoad c cu a) c (fun x => x.command (fun x =>
    checked (x.curCheck a true) (fun _ =>
      let im := fromLE (x.wg.spRead (x.sv a) 16)
      let s := x.peek x.s .sp 16 [x.sv a]
      let n := im % 2 ^ 96
      match (Tab.get x.s.ctxs x.wg.ctx).bind (fun k => Tab.get k.saved n), decide (cursorImage n = im) with
      | some k, true =>
        let db : BitVec 1024 := if k.op = .one then 0 else x.s.tensor x.wg.ctx k.tb
        let k := if k.valid then { k with da := x.s.tensor x.wg.ctx k.ta, db := db, flt := false, fsb := false, fpt := false, fpos := 0, seen := [] } else Cursor.empty
        x.ok (x.modG s (fun g => g.setCursor cu.val k))
      | _, _ => x.faultA 0x19 cu.val 0))) s

/-- A reader that never stops: what .info reads belongs to the reading, and what it cannot reach is a free value. -/
def Iss.rdAll (x : Iss) : Rd :=
  { read := fun a n m => match x.rd.read a n m with
      | .ok r => .ok r
      | .error _ => .ok ((Config.freeDWord x.nonce a).toNat % 2 ^ (8 * n), m)
    look := fun a n m => match x.rd.look a n m with
      | .ok r => .ok r
      | .error _ => .ok ((Config.freeDWord x.nonce a).toNat % 2 ^ (8 * n), m) }

/-- The first COO entry of a later row. -/
def cooAfter (rd : Rd) (t : Ten) (r : Nat) : Nat → Nat → Rdg Nat
  | 0, i => pure i
  | n + 1, i => do if (← rd.read (t.ibase + 8 * i) 4) > r then pure i else cooAfter rd t r n (i + 1)

/-- The element position at which a row of A begins. -/
def rowStart (rd : Rd) (t : Ten) (r : Nat) : Rdg Nat :=
  match t.senc with
  | 3 => rd.read (t.pbase + 4 * r) 4
  | 6 => rd.read (t.pbase + 8 * r) 4
  | 4 => do cooAfter rd t r (← rd.read t.pbase 4) 0
  | _ => pure 0

/-- The element position of the cursor's next element in its unit, if there is one. -/
def Cursor.nextIn (c : Cursor) (rd : Rd) (nk : Nat) : Rdg (Option Nat) := do
  let e := c.ends nk
  let k := max c.ia e.1
  if (match e.2 with | some h => decide (k ≥ h) | none => false) then pure none
  else (fun i => i.map SItem.ep) <$> streamItem rd (Ten.of c.da) c.row (← firstWord rd (Ten.of c.da) c.row e.1) k

/-- ROW and PA of the next kept unit from a cursor on, which need: the first that holds an element; else the first, or where it begins. -/
def infoGo (rd : Rd) (need : Bool) : Nat → Cursor → Rdg (Option (Nat × Nat))
  | 0, _ => pure none
  | n + 1, c =>
    if c.row ≥ c.r0 + c.nr then pure none
    else do
      let nk ← c.chunks rd
      if !c.keeps then infoGo rd need n (c.skip nk)
      else match ← c.nextIn rd nk with
        | some p => pure (some (c.row, p))
        | none => if need then infoGo rd need n (c.skip nk) else (fun p => some (c.row, p)) <$> rowStart rd (Ten.of c.da) c.row

/-- ROW and PA of R382: where the row just delivered has no element left, the next kept unit; before any delivery, the first kept unit that holds an element, and
where none does, the first (log 33: DESIGN CHOICE). -/
def Cursor.position (c : Cursor) (rd : Rd) : Rdg (Nat × Nat) := do
  let n := c.nr * (2 ^ 32 + 1) + 1
  let last : Nat × Nat := (c.r0 + c.nr, 0)
  if c.ended then pure last
  else if c.begun then
    let nk ← c.chunks rd
    match ← c.nextIn rd nk with
    | some p => pure (c.row, p)
    | none => (fun r => r.getD last) <$> infoGo rd false n (c.skip nk)
  else match ← infoGo rd true n c with
    | some r => pure r
    | none => (fun r => r.getD last) <$> infoGo rd false n c

/-- The two registers of .info (R382), with what the reading has read; an invalid cursor reads as zeros. -/
def Cursor.info (c : Cursor) (rd : Rd) : (Nat × Nat) × Memo :=
  if !c.valid then ((0, 0), c.seen)
  else
    let (p, m) := match c.position rd c.seen with | .ok r => r | .error _ => ((c.row, 0), c.seen)
    ((p.1 % 2 ^ 32 + 2 ^ 32 + 2 ^ 33 * c.ended.toNat + 2 ^ 34 * c.split.isSome.toNat + 2 ^ 35 * c.flt.toNat + 2 ^ 36 * c.fsb.toNat + 2 ^ 37 * c.fpt.toNat,
      p.2 % 2 ^ 32 + 2 ^ 32 * (if c.flt then c.fpos.toNat else 0)), m)

/-- Writes two scalar registers. -/
def Iss.put2 (x : Iss) (s : State) (d : Nat) (v : Nat × Nat) : State :=
  x.modG s (fun g => (((g.setS d (BitVec.ofNat 64 v.1)).cleanS d).setS (d + 1) (BitVec.ofNat 64 v.2)).cleanS (d + 1))

/-- CXCUR .info (R382). After an unsorted-index fault the next CXFILL begins a new reading, so what .info reads then is not kept for it (R380). -/
def execCxcurInfo (c : Ctl) (cu : Fin 4) (d : Fin 64) (s : State) : Out :=
  issued (.cxcurInfo c cu d) c (fun x => x.command (fun x =>
    let k := x.gr.cursor cu.val
    let r := k.info x.rdAll
    let s := x.modG (x.ask x.s (x.readSecs k.seen r.2)) (fun g => g.setCursor cu.val { k with seen := if k.flt && k.seen.isEmpty then [] else r.2 })
    x.ok (x.put2 s d.val r.1))) s

/-- CXCUR .drop (R381). -/
def execCxcurDrop (c : Ctl) (cu : Fin 4) (s : State) : Out :=
  issued (.cxcurDrop c cu) c (fun x => x.command (fun x => x.ok (x.modG x.s (fun g => g.setCursor cu.val Cursor.empty)))) s

end Sys2Proof.Machine
end

