-- ==== Sys2Proof/Machine/Peel.lean ====
section
/-! DEFINITION. The peel and the reduce adders: WALKDEF, WALK, IRED, and their events (R383 to R388, R198, R199). -/
namespace Sys2Proof.Machine
open Sys2Proof

/-! Rule programs (R383, R384). -/

/-- The fields of a rule. -/
structure Rule where
  op   : Nat
  cond : Nat
  w    : Nat
  ofs  : Nat
  t    : Nat
  f    : Nat
  nb   : Nat
  imm  : Nat
  deriving DecidableEq, Repr

/-- The fields of a rule's 16 bytes; w is the width in bytes. -/
def Rule.of (r : BitVec 128) : Rule :=
  let g (hi lo : Nat) : Nat := bits r.toNat hi lo
  { op := g 3 0, cond := g 6 4, w := if r.getLsbD 7 then 8 else 4, ofs := g 13 8, t := g 19 16, f := g 23 20, nb := g 37 32, imm := g 127 64 }

/-- Rule i of a program. -/
def WalkProg.rule (p : WalkProg) (i : Nat) : Rule := Rule.of ((p.rules[i]?).getD 0)

/-- Whether a rule's fields are accepted among nr rules (R384). -/
def ruleOk (nr : Nat) (r : BitVec 128) : Bool :=
  let u := Rule.of r
  decide (u.op ≤ 5) && bits r.toNat 15 14 == 0 && bits r.toNat 31 24 == 0 && bits r.toNat 63 38 == 0
  && (decide (u.op > 2) || (u.ofs % u.w == 0 && decide (u.ofs + u.w ≤ 64)))
  && (decide (u.op > 1) || decide (u.cond ≤ 5)) && (u.op != 2 || u.w == 8)
  && (u.op != 3 || (decide (u.nb ≤ 40) && u.imm % 64 == 0))
  && (decide (u.op > 3) || decide (u.t < nr)) && (decide (u.op > 2) || decide (u.f < nr))

/-- The rules that follow a rule without a read. -/
def Rule.succ (u : Rule) : List Nat := if u.op ≤ 1 then [u.t, u.f] else if u.op = 2 then [u.f] else []

/-- The rules from which a path of n steps without a read starts. -/
def pathsOf (rs : List (BitVec 128)) : Nat → List Nat
  | 0 => List.range rs.length
  | n + 1 => let p := pathsOf rs n; (List.range rs.length).filter (fun i => (Rule.of ((rs[i]?).getD 0)).succ.any p.contains)

/-- The program of an image: header and rules; none when WALKDEF rejects it (R383, R384). -/
def walkProg (h : Nat) (rs : List (BitVec 128)) : Option WalkProg :=
  let nr := bits h 4 0
  let lim := bits h 44 32
  if nr = 0 ∨ nr > 16 ∨ bits h 6 5 = 3 ∨ bits h 8 7 = 3 ∨ bits h 31 9 ≠ 0 ∨ lim = 0 ∨ lim > 4096 ∨ bits h 127 45 ≠ 0 then none
  else if rs.all (ruleOk nr) && (pathsOf rs nr).isEmpty then some { nr := nr, rs := 16 * 2 ^ bits h 6 5, pol := bits h 8 7, lim := lim, rules := rs }
  else none

/-- WALKDEF (R383, R384). -/
def execWalkdef (c : Ctl) (slot : Fin 16) (sp : ImSpace) (a : Fin 64) (s : State) : Out :=
  issued (.walkdef c slot sp a) c (fun x => x.command (fun x =>
    let p := x.sv a
    checked (x.imCheck sp .r p 16) (fun _ =>
      let h := fromLE (x.read x.s (imSpace sp) false p 16)
      let nr := bits h 4 0
      if nr = 0 ∨ nr > 16 then x.faultA 0x02 1 0
      else checked (x.imCheck sp .r p (16 + 16 * nr)) (fun _ =>
        let rs := (List.range nr).map (fun i => BitVec.ofNat 128 (fromLE (x.read x.s (imSpace sp) false (p + 16 + 16 * i) 16)))
        match walkProg h rs with
        | none => x.faultA 0x02 1 0
        | some g => x.ok ((x.imCharge (x.peek x.s (imSpace sp) (16 + 16 * nr) [p]) sp .r p (16 + 16 * nr)).modCtx x.wg.ctx (fun k => { k with walks := Tab.set k.walks slot.val g })))))) s

/-! Walks (R386). -/

/-- A comparison of R384, unsigned. -/
def condN (c a b : Nat) : Bool :=
  match c with | 0 => a == b | 1 => a != b | 2 => decide (a < b) | 3 => decide (a ≤ b) | 4 => decide (a > b) | _ => decide (a ≥ b)

/-- A lane asks for the record at an address, unless its step limit is reached. -/
def WLane.read (w : WLane) (lim addr rule : Nat) : WLane :=
  if w.steps = lim then { w with want := none, land := some 2 }
  else { w with r := BitVec.ofNat 64 addr, steps := w.steps + 1, want := some (BitVec.ofNat 64 addr), rule := rule }

/-- The bucket of a key (R386). -/
def hashOf (key nb : Nat) : Nat := if nb = 0 then 0 else key * 0x9E3779B97F4A7C15 % 2 ^ 64 / 2 ^ (64 - nb)

/-- Runs rules from rule i over a record until the next read or the end; no program runs more rules than it holds between reads. -/
def walkRun (p : WalkProg) (rec_ : Nat) : Nat → Nat → WLane → WLane
  | 0, _, w => w
  | n + 1, i, w =>
    let u := p.rule i
    let field (k : Nat) : Nat := rec_ / 2 ^ (8 * u.ofs) % 2 ^ (8 * k)
    match u.op with
    | 0 => walkRun p rec_ n (if condN u.cond (w.key.toNat % 2 ^ (8 * u.w)) (field u.w) then u.t else u.f) w
    | 1 => walkRun p rec_ n (if condN u.cond (u.imm % 2 ^ (8 * u.w)) (field u.w) then u.t else u.f) w
    | 2 => if field 8 = 0 then walkRun p rec_ n u.f w else w.read p.lim (field 8 / 64 * 64) u.t
    | 3 => w.read p.lim ((u.imm + 64 * hashOf w.key.toNat u.nb) % 2 ^ 64) u.t
    | 4 => { w with want := none, land := some 0 }
    | _ => { w with want := none, land := some 1 }

/-- A lane's walk as it starts. -/
def walkStart (p : WalkProg) (lane start key ofs : Nat) : WLane :=
  let w : WLane := { lane := lane, r := 0, key := BitVec.ofNat 64 key, ofs := ofs, rule := 0, steps := 0, want := none, parked := false, land := none,
                     done := false, last := none, trapSt := none, image := [] }
  if (p.rule 0).op = 3 then walkRun p 0 (p.nr + 1) 0 w else w.read p.lim (start / 64 * 64) 0

/-- Walks and bags outstanding on a core. -/
def Core.walks (k : Core) : Nat := (k.eng.map (fun o => match o.kind with | .walk _ ls => (ls.filter (fun w => !w.done)).length | _ => 0)).sum
def Core.bags (k : Core) : Nat := (k.eng.map (fun o => match o.kind with | .ired _ _ _ bs => bs.length | _ => 0)).sum

/-- A check of lanes. -/
def Iss.laneFail (x : Iss) (ls : List (Nat × Nat)) (no : Nat) (p : Nat → Bool) : Option Eff := (failing ls (fun _ a => p a)).map (fun e => x.fault no 0 e.2 e.1)

/-- WALK (R385, R386). -/
def execWalk (c : Ctl) (slot : Fin 16) (a b cc : Opnd) (word : Word) (s : State) : Out :=
  issued (.walk c slot a b cc word) c (fun x => x.command (fun x =>
    match (Tab.get x.s.ctxs x.wg.ctx).bind (fun k => Tab.get k.walks slot.val) with
    | none => x.faultA 0x02 4 0
    | some p =>
      let ls := x.lanes.map (fun l => (l, x.w32 cc l))
      let w := wordOf word.toNat
      checked
        [x.laneFail ls 0x06 (fun o => o % 16 != 0), x.wordMis w,
         x.laneFail ls 0x07 (fun o => decide (o + 16 + p.rs > x.wg.rec_.scratch)), x.wordOut w]
        (fun _ =>
          if (x.s.core x.core).walks + ls.length > Config.walkLimit then .wait
          else
            let ws := ls.map (fun e => walkStart p e.1 (x.w64 a e.1) (x.w64 b e.1) e.2)
            x.ok (x.bindTo (x.start x.s 5 w (.walk p ws)) w [x.wg.uid] (ws.map (fun k => (Acc.r, k.r.toNat))))))) s

/-- Changes one lane of a walk. -/
def modLane (ls : List WLane) (l : Nat) (f : WLane → WLane) : List WLane := ls.map (fun w => if w.lane = l then f w else w)

/-- How a fault of a record read lands under a program's policy (R386): 0x03 not present, 0x04 address or permission, 0x05 hole, 0x06 poison. -/
def WLane.fail (w : WLane) (pol st : Nat) : WLane :=
  let w := { w with want := none, land := some (if pol = 2 then 7 else st) }
  if pol = 1 then { w with trapSt := some st } else w

/-- The stores of a lane that a release at dev or sys does not stand after, newest first: the engines of the base dies may miss them (R191). -/
def State.unreleased (s : State) (c : Nat) (o : EngOp) (lane : Nat) : List OwnStore :=
  match (s.core c).grps.find? (fun e => e.2.uid == o.grp) with
  | some (_, g) => g.own.filter (fun e => e.lane == lane && !e.rel)
  | none => []
/-- Bytes as they stood before some of the newest of these stores (R198, R199): how many is a free choice. f takes the bytes from a line. -/
def olderBytes (nonce base : Nat) (f : List Byte → List Byte) : Nat → List OwnStore → List Byte → List Byte
  | _, [], bs => bs
  | i, o :: r, bs => if Config.freeBool nonce (base + i) then olderBytes nonce base f (i + 1) r (f o.line) else bs
/-- Bytes of one line, from a virtual address, as an engine of a base die reads them for a lane: what stands there, or what stood there before stores of the lane that it
may miss. -/
def State.peelBytes (s : State) (c : Nat) (o : EngOp) (lane a n : Nat) : List Byte :=
  let now := s.glBytes o.nonce o.ctx a n
  match s.translate o.ctx .r a with
  | .pa p _ =>
    if p % 64 + n > 64 then now
    else olderBytes o.nonce (2 ^ 61 + 64 * a) (fun l => (l.drop (p % 64)).take n) 0
      ((s.unreleased c o lane).filter (fun e => decide (e.pa < p + n) && decide (p < e.pa + e.n))) now
  | _ => now

/-- The rules that follow a record's bytes, which the lane keeps (R198, R386). -/
def WLane.took (w : WLane) (p : WalkProg) (bs : List Byte) : WLane :=
  walkRun p (fromLE bs) (p.nr + 1) w.rule { w with want := none, image := bs }

/-- A record read, and the rules up to the next (R386). -/
def State.walkRead (s : State) (c : Nat) (o : EngOp) (p : WalkProg) (w : WLane) (x : Nat) : WLane :=
  match s.translate o.ctx .r x with
  | .absent => if p.pol = 1 then { w with parked := true } else w.fail p.pol 3
  | .denied | .far => w.fail p.pol 4
  | .hole => w.fail p.pol 5
  | .window _ _ _ => w.took p ((List.range 64).map (fun i => Config.freeByte o.nonce (2 ^ 60 + 2 ^ 59 * w.steps + x + i)))
  | .pa a _ => let w := { w with last := some a }; if s.glPoison o.ctx x 64 then w.fail p.pol 6 else w.took p (s.peelBytes c o w.lane x 64)

/-- WALK_RECORD_READ (R198, R386). -/
def execWalkRecordRead (core op lane : Nat) (s : State) : Out :=
  event (match (s.core core).op op with
    | none => none
    | some o => match o.kind with
      | .walk p ls => match ls.find? (fun w => w.lane == lane) with
        | none => none
        | some w => match w.want with
          | none => none
          | some x => if w.parked then none
                      else some (s.modOp core op (fun o => { o with kind := .walk p (modLane ls lane (fun _ => s.walkRead core o p w x.toNat)) }))
      | _ => none)

/-- The bytes of a landing slot (R385): those of the record that the lane read last. -/
def WLane.landing (p : WalkProg) (w : WLane) (st : Nat) : List Byte :=
  let found := st == 0
  toLE 4 (st + 256 * w.steps) ++ toLE 4 0 ++ toLE 8 (if found then w.r.toNat else 0)
    ++ (if found then w.image.take p.rs else List.replicate p.rs 0)
/-- The sectors that a landing moves: those of its slot, out of the stack of the record read last (R223, R386, log 24: DESIGN CHOICE). -/
def WLane.landSecs (w : WLane) (rs : Nat) : List Nat :=
  match w.last with | some a => List.replicate ((w.ofs + 16 + rs + 31) / 32 - w.ofs / 32) (a / 32) | none => []

/-- The trap that the lanes of a walk leave for their group, if any (R386). -/
def walkTrap (o : EngOp) (ls : List WLane) : Option TrapInfo :=
  match ls.filter (fun w => w.trapSt.isSome) with
  | [] => none
  | w :: r => some { no := 0x22, sub := BitVec.ofNat 8 (w.trapSt.getD 0), pc := 0, addr := o.pc, fmask := maskOf ((w :: r).map WLane.lane) }

/-- WALK_LANDING (R386): the slot, then 16 + RS to the word; after the last lane the trap of raise-replayable is pending (R220). -/
def execWalkLanding (core op lane : Nat) (s : State) : Out :=
  event (match (s.core core).op op with
    | none => none
    | some o => match o.kind with
      | .walk p ls => match ls.find? (fun w => w.lane == lane) with
        | none => none
        | some w => match w.land with
          | none => none
          | some st =>
            if w.done || !s.granted (clusterOf core) (s.tcOf o.launch) (w.landSecs p.rs) then none
            else
              let s := s.charge o.ctx (clusterOf core) (w.landSecs p.rs)
              let ls := modLane ls lane (fun w => { w with done := true })
              let s := s.modWg core o.wg (fun g => g.spWrite w.ofs (w.landing p st))
              let s := s.opAdd core o (16 + p.rs)
              if ls.all WLane.done then
                let s := s.dropOp core op
                some (match walkTrap o ls with | some t => s.mark core o.wg o.grp t | none => s)
              else some (s.modOp core op (fun o => { o with kind := .walk p ls }))
      | _ => none)

/-! IRED (R387, R388). -/

/-- Bytes of an element of IRED's table and of its destination. -/
def Ten.irSize (t : Ten) : Nat := if t.fmt = 0 then 2 else 4
def irDest (bf16 : Bool) : Nat := if bf16 then 2 else 4

/-- IRED (R387): its checks, then one bag per lane. -/
def execIred (c : Ctl) (acc bf16 : Bool) (ta : Fin 256) (a b : Opnd) (word : Word) (s : State) : Out :=
  issued (.ired c acc bf16 ta a b word) c (fun x => x.command (fun x =>
    let la := x.lanes.map (fun l => (l, x.w64 a l))
    let lb := x.lanes.map (fun l => (l, x.w64 b l))
    let mis (l : Nat) : Bool := x.w64 a l % 4 != 0 || x.w64 b l % irDest bf16 != 0
    let far (l : Nat) : Bool := decide (x.w64 a l ≥ 2 ^ 57) || decide (x.w64 b l ≥ 2 ^ 57)
    let lane (no : Nat) (p : Nat → Bool) (q : Nat → Bool) : Option Eff :=
      (failing la (fun l _ => p l)).map (fun e => x.fault no 0 (if q e.2 then e.2 else (Tab.get lb (e.1.headD 0)).getD 0) e.1)
    let w := wordOf word.toNat
    checked
      (x.tenCheck [(ta, fun t => (t.fmt != 0 && t.fmt != 10) || t.slay != 0 || t.senc != 0 || t.ndim == 0 || decide (t.e0 > 4096))]
        ++ [lane 0x06 mis (fun v => v % 4 != 0), x.wordMis w, lane 0x09 far (fun v => decide (v ≥ 2 ^ 57)), x.wordOut w])
      (fun _ =>
        if (x.s.core x.core).bags + la.length > Config.bagLimit then .wait
        else
          let bags : List Bag := x.lanes.map (fun l => { lane := l, list := BitVec.ofNat 64 (x.w64 a l), dest := BitVec.ofNat 64 (x.w64 b l), parked := none })
          x.ok (x.bindTo (x.start x.s 6 w (.ired acc bf16 (x.ten ta) bags)) w [x.wg.uid]
            ((Acc.r, (Ten.of (x.ten ta)).base) :: la.map (fun e => (Acc.r, e.2)) ++ lb.map (fun e => (Acc.w, e.2))))))) s

/-- A number of n bytes in global memory as an engine reads it; another device's is a free value (R84). -/
def State.engNum (s : State) (o : EngOp) (a n : Nat) : Nat :=
  match s.translate o.ctx .r a with
  | .window _ _ _ => (Config.freeDWord o.nonce a).toNat % 2 ^ (8 * n)
  | _ => fromLE (s.glRead o.ctx a n)

/-- The ways of several ranges: the first that is not clear. -/
def State.ways (s : State) (ctx : Nat) : List (Acc × Nat × Nat) → Way
  | [] => .clear
  | e :: r => match s.way ctx e.1 e.2.1 e.2.2 with | .clear => s.ways ctx r | w => w

/-- The pattern of an element widened to FP32, exactly. -/
def widen16 (size v : Nat) : Nat := if size = 2 then v * 65536 else v

/-- One element of a bag's sum (R388). -/
def bagSum (rows : List (Option Nat)) (start : Nat) : Nat := rows.foldl (fun a r => (addF .f32 .rn .nosat a (r.getD 0)).1) start

/-- A number of n bytes in global memory as the adders read it for a lane (R199). -/
def State.bagNum (s : State) (c : Nat) (o : EngOp) (lane a n : Nat) : Nat := fromLE (s.peelBytes c o lane a n)

/-- The elements of a bag's destination: rows as the adders read them, a destination to which they add as it stands (R388). -/
def State.bagOut (s : State) (c : Nat) (o : EngOp) (lane : Nat) (acc bf16 : Bool) (t : Ten) (dest : Nat) (idx : List Nat) : List Byte :=
  let es := irDest bf16
  (List.range t.e0).flatMap (fun e =>
    let start := if acc then widen16 es (s.engNum o (dest + es * e) es) else 0
    let rows := idx.map (fun x => if x < t.e1 then some (widen16 t.irSize (s.bagNum c o lane (t.base + (x * t.s1 + e) * t.irSize) t.irSize)) else none)
    toLE es (cvtF (if bf16 then .bf16 else .f32) .f32 .rn .nosat (bagSum rows start)).1)

/-- Writes a bag's destination with its marks (R266). -/
def State.bagWrite (s : State) (o : EngOp) (dest : Nat) (bs : List Byte) (bad : Bool) : State :=
  let s := match s.translate o.ctx .w dest with
    | .window n d p => { s with winOut := s.winOut ++ [{ session := n, dev := d, addr := p, size := bs.length, data := fromLE bs, req := .st, pcp := (s.fenaz.pcp[s.tcOf o.launch]?).getD 0 }] }
    | _ => (s.glClean o.ctx dest bs.length).glWrite o.ctx dest bs
  if bad then s.glMark o.ctx dest bs.length else s

/-- IRED_BAG_COMPLETION (R388). -/
def execIredBagCompletion (core op lane : Nat) (s : State) : Out :=
  event (match (s.core core).op op with
    | none => none
    | some o => match o.kind with
      | .ired acc bf16 tab bags => match bags.find? (fun b => b.lane == lane && b.parked.isNone) with
        | none => none
        | some b =>
          let t := Ten.of tab
          let list := b.list.toNat
          let dest := b.dest.toNat
          let size := t.e0 * irDest bf16
          let rest := bags.filter (fun b => b.lane != lane)
          let drop (s : State) : State := s.putOp core op (if rest.isEmpty then none else some { o with kind := .ired acc bf16 tab rest })
          let park (va : Nat) : State := s.modOp core op (fun o => { o with kind := .ired acc bf16 tab (bags.map (fun b => if b.lane = lane then { b with parked := some (BitVec.ofNat 64 va) } else b)) })
          match s.way o.ctx .r list 4 with
          | .absent va => some (park va)
          | .bad => some (drop (s.opAbort core o))
          | .clear =>
            let n := s.bagNum core o lane list 4
            if n > 65536 then some (drop (s.opAbort core o))
            else
              let idx := (List.range n).map (fun i => s.bagNum core o lane (list + 4 + 4 * i) 4)
              let rows := (idx.filter (fun x => decide (x < t.e1))).eraseDups.map (fun x => (Acc.r, t.base + x * t.s1 * t.irSize, t.e0 * t.irSize))
              let accs := [(.r, list + 4, 4 * n)] ++ rows ++ (if acc then [(.r, dest, size)] else []) ++ [(.w, dest, size)]
              match s.ways o.ctx accs with
              | .absent va => some (park va)
              | .bad => some (drop (s.opAbort core o))
              | .clear =>
                let secs := ((Acc.r, list, 4) :: accs).flatMap (fun e => s.sectors o.ctx e.1 e.2.1 e.2.2)
                if !s.granted (clusterOf core) (s.tcOf o.launch) secs then none
                else
                let bad := !s.unmarked && (s.glPoison o.ctx list (4 + 4 * n) || rows.any (fun r => s.glPoison o.ctx r.2.1 r.2.2)
                  || (acc && s.glPoison o.ctx dest size))
                let s := (s.charge o.ctx (clusterOf core) secs).bagWrite o dest (s.bagOut core o lane acc bf16 t dest idx) bad
                let s := s.opAdd core o 32
                some (s.putOp core op (if rest.isEmpty then none else some { o with kind := .ired acc bf16 tab rest }))
      | _ => none)

end Sys2Proof.Machine
end

