-- ==== Sys2Proof/Machine/OvenEvents.lean ====
section
/-! DEFINITION. What the oven, the drain path and the selection unit do after an issue: steps, checkpoints, exchanges and completions
(R153 to R176, R347 to R368). -/
namespace Sys2Proof.Machine
open Sys2Proof

/-! Data of operations. -/

/-- A number of n bytes that an operation reads; another device's is a free value (R84). -/
def State.oNum (s : State) (c wg ctx nonce : Nat) (sp : BSpace) : Rdr := fun a n =>
  match sp with
  | .gl => match s.translate ctx .r a with
    | .window _ _ _ => (Config.freeDWord nonce a).toNat % 2 ^ (8 * n)
    | _ => fromLE (s.glRead ctx a n)
  | _ => fromLE (s.eRead c wg ctx sp a n)

/-- Global accesses among ranges of a space: access, address, bytes. -/
def glAccs (sp : BSpace) (acc : Acc) (rs : List (Nat × Nat)) : List (Acc × Nat × Nat) := if sp = .gl then rs.map (fun r => (acc, r.1, r.2 - r.1)) else []
/-- The sectors of accesses. -/
def State.accSectors (s : State) (ctx : Nat) (as : List (Acc × Nat × Nat)) : List Nat := (as.flatMap (fun e => s.sectors ctx e.1 e.2.1 e.2.2)).eraseDups
/-- Whether ranges hold poisoned data (R266). -/
def State.rangesPoison (s : State) (c wg ctx : Nat) (sp : BSpace) (rs : List (Nat × Nat)) : Bool := rs.any (fun r => s.ePoison c wg ctx sp r.1 (r.2 - r.1))

/-- The trap that a forbidden access of an operation marks (R249): permission before holes (R324), at the first address that fails; pc: the instruction's. -/
def State.badTrap (s : State) (ctx : Nat) (pc : DWord) (as : List (Acc × Nat × Nat)) : TrapInfo :=
  let first (p : Tr → Bool) : Option (Acc × Nat) :=
    as.findSome? (fun e => ((List.range e.2.2).find? (fun i => p (s.translate ctx e.1 (e.2.1 + i)))).map (fun i => (e.1, e.2.1 + i)))
  match first (· == .denied) with
  | some (a, va) => opTrap 0x0A (if a = .r then 0 else 1) pc (BitVec.ofNat 64 va)
  | none => match first (· == .hole) with
    | some (_, va) => opTrap 0x0B 0 pc (BitVec.ofNat 64 va)
    | none => opTrap 0x09 0 pc (BitVec.ofNat 64 (((first (· == .far)).map Prod.snd).getD 0))

/-- Ends the watches of an operation. -/
def State.unwatch (s : State) (c wg id : Nat) : State := s.modWg c wg (fun w => { w with watch := w.watch.filter (fun e => e.op != id) })
/-- Whether something that an operation reads was written while it was in flight (R192). -/
def State.hit (s : State) (c wg id : Nat) : Bool := match (s.core c).wgOf wg with | some (_, w) => w.watch.any (fun e => e.op == id && e.hit) | none => false

/-- An operation outside the queue ends without its completion. -/
def State.engQuit (s : State) (c : Nat) (o : EngOp) : State :=
  let s := match o.kind with
    | .rkld _ _ _ _ => s.modCore c (fun (k : Core) => if k.shadow.status = RStatus.loading ∧ k.shadow.owner = some o.wg then { k with shadow := Rack.empty } else k)
    | _ => s
  (s.dropOp c o.id).unwatch c o.wg o.id
/-- One of chapter 15 does, and its group is marked a trap (R257, R346). -/
def State.engEnd (s : State) (c : Nat) (o : EngOp) (t : TrapInfo) : State := (s.engQuit c o).mark c o.wg o.grp t

/-- The oven operation at the head of the queue leaves it. -/
def State.ovenPop (s : State) (c : Nat) (o : OvenOp) : State := (s.modCore c (fun k => { k with ovenQ := k.ovenQ.drop 1 })).settle c o.wg
/-- It ends without its completion, and its group is marked a trap (R257, R346). -/
def State.ovenEnd (s : State) (c : Nat) (o : OvenOp) (t : TrapInfo) : State := ((s.unwatch c o.wg o.id).ovenPop c o).mark c o.wg o.grp t
/-- The generation of a word that an addition to it counts for: the one after that which the word holds (R73). -/
def State.nextGen (s : State) (c wg : Nat) (word : Option Nat) : Nat :=
  match word with | some a => ((SWord.ofNat (s.word (.sp c wg a))).gen + 1) % 65536 | none => 0
/-- An operation of the oven is complete; until its completion is acquired its window goes on (R192). -/
def State.complete (s : State) (c wg : Nat) (d : OvenDone) : State := s.modWg c wg (fun w => { w with done := w.done ++ [{ d with at_ := w.writes }] })
/-- Replaces the operation at the head. -/
def State.putOven (s : State) (c : Nat) (o : OvenOp) : State := s.modCore c (fun k => { k with ovenQ := o :: k.ovenQ.drop 1 })

/-! Steps of MMUL and MTOPK. -/

/-- Steps, rows and columns of an operation. -/
def OvenOp.s (o : OvenOp) : Nat := o.x.s.toNat
def OvenOp.m (o : OvenOp) : Nat := o.x.m.toNat
def OvenOp.n (o : OvenOp) : Nat := o.x.n.toNat

/-- A list of 32 blocks, zeros where there is none. -/
def pad32 (bs : Option (List Block)) : List Block := match bs with | some (b :: r) => b :: r | _ => List.replicate 32 Block.zero
/-- Blocks of row r of A over the steps begun. -/
def OvenOp.rowA (o : OvenOp) (r : Nat) : List Block := o.rows.flatMap (fun st => pad32 st[r]?)
/-- Blocks of a column of B over the steps begun; of the sum column. -/
def OvenOp.colB (o : OvenOp) (j : Nat) : List Block := o.steps.flatMap (fun k => pad32 k.cols[j]?)
def OvenOp.sumB (o : OvenOp) : List Block := o.steps.flatMap (fun k => pad32 (some k.sum))
/-- The first row from r that still has plane-cycles (R172). -/
def OvenOp.nextRow (o : OvenOp) (r : Nat) : Nat := ((List.range o.m).find? (fun i => decide (r ≤ i) && ((o.rowEnd[i]?).join).isNone)).getD o.m
/-- Rows settled at the boundary after step i (R172). -/
def OvenOp.settled (o : OvenOp) (i : Nat) : List (Option Nat) :=
  (List.range o.m).map (fun r => ((o.rowEnd[r]?).join).or
    (if (((o.compA[r]?).getD []).drop (32 * (i + 1))).all (fun w => w.toNat % 65536 == 0) then some (i + 1) else none))
/-- Blocks of a row, or of a column for that row, as its chains take them: zeros from where the row is settled, whose values are +0 (R172). -/
def OvenOp.cut (o : OvenOp) (r : Nat) (bs : List Block) : List Block :=
  match (o.rowEnd[r]?).join with
  | some k => bs.take (32 * k) ++ List.replicate (bs.length - 32 * k) Block.zero
  | none => bs

/-- Whether a companion of step i falls below its true bound (R163). -/
def OvenOp.normLow (o : OvenOp) (i : Nat) (k : Rack) (rows : List (List Block)) : Bool :=
  let low (ws : List Word) (ts : List Nat) : Bool := (((ws.drop (32 * i)).take 32).zip ts).any (fun e => boundLow e.1.toNat e.2)
  (List.range o.n).any (fun j => low ((o.compB[j]?).getD []) ((pad32 k.cols[j]?).map Block.norm))
    || (List.range o.m).any (fun r => low ((o.compA[r]?).getD []) ((pad32 rows[r]?).map Block.peak))

/-- The companions of n rows or columns (R163). -/
def companions (rd : Rdr) (base n st : Nat) : List (List Word) :=
  (List.range n).map (fun r => (List.range (32 * st)).map (fun i => BitVec.ofNat 32 (rd (base + 4 * (i + 32 * st * r)) 4)))

/-- Whether the operation at the head may begin its next step (R353, R169): its first in its turn (R347). -/
def OvenOp.mayBegin (o : OvenOp) (k : Core) : Bool :=
  let i := o.steps.length
  o.parked.isNone && decide (i < o.s) && (i != 0 || k.imms.all (fun t => decide (o.id < t.seq))) && (i == 0 || (decide (o.row ≥ o.m) && (o.part.isNone || o.sent)))
    && ((i == 0 && o.x.res) || decide (k.shadow.status = .ready))

/-- A step begins: the rack is exchanged, its parity checked (R265), the rows of A are aligned, and at the first step of an MTOPK the companions are read (R353, R163). -/
def State.beginStep (s : State) (c : Nat) (o : OvenOp) : Option State :=
  let i := o.steps.length
  let k := s.core c
  let ta := Ten.of o.da
  let tb := Ten.of o.db
  let kg := kgOf tb.fmt
  let x0 := 32 * kg * (o.s0 + i)
  let rs := ta.ranges x0 (x0 + 32 * kg) o.r0 (o.r0 + o.m)
  let comp := if o.topk && i == 0 then [(ta.nbase, ta.nbase + 128 * o.s * o.m), (tb.nbase, tb.nbase + 128 * o.s * o.n)] else []
  let accs := glAccs o.x.space .r rs ++ glAccs .gl .r comp
  match s.ways o.ctx accs with
  | .absent a => some (s.putOven c { o with parked := some (BitVec.ofNat 64 a) })
  | .bad => some (s.ovenEnd c o (s.badTrap o.ctx o.pc accs))
  | .clear =>
    let secs := s.accSectors o.ctx accs
    if !s.granted (clusterOf c) (s.tcOf o.launch) secs then none
    else
      let take := !(i == 0 && o.x.res)
      let old := if take then k.shadow else k.active
      let rack := old.checked
      let rd := s.oNum c o.wg o.ctx o.nonce o.x.space
      let rows := (List.range o.m).map (fun r => rowBlocks ta.fmt kg (fun q => ta.elem rd (x0 + q) (o.r0 + r)))
      let gl := s.oNum c o.wg o.ctx o.nonce .gl
      let o := if comp.isEmpty then o else { o with compA := companions gl ta.nbase o.m o.s, compB := companions gl tb.nbase o.n o.s }
      let o := { o with
        steps := o.steps ++ [rack], rows := o.rows ++ [rows],
        bad := o.bad || rack.fmt != tb.fmt || rack.owner != some o.wg || rack.free.isSome,
        poison := o.poison || rack.poison || s.rangesPoison c o.wg o.ctx o.x.space rs || s.rangesPoison c o.wg o.ctx .gl comp,
        ncm := o.ncm || (o.topk && o.normLow i rack rows),
        row := if o.topk then o.nextRow 0 else o.m, plane := 0, sent := false }
      let s := (s.charge o.ctx (clusterOf c) secs).ePeek c o.wg o.x.space rs
      let s := if rack.poison && !old.poison then { s with counts := { s.counts with checks := s.counts.checks + 1 } } else s
      some ((s.modCore c (fun k => { k with active := rack, shadow := if take then Rack.empty else k.shadow })).putOven c o)

/-- OVEN_RACK_SWAP (R353): the operation at the head begins its next step. -/
def execOvenRackSwap (core : Nat) (s : State) : Out :=
  event (match (s.core core).ovenQ with
    | o :: _ => if o.mayBegin (s.core core) then s.beginStep core o else none
    | [] => none)

/-- Bounds of a column of the operation's row at the checkpoint that ends with p planes to come (R164, R165). -/
def OvenOp.bounds (o : OvenOp) (g : Int) (p j : Nat) : Bnd × Bnd :=
  let i := o.steps.length - 1
  let r := o.row
  let as := o.rowA r
  let bs := o.colB j
  let done := 32 * (if p = 0 then i + 1 else i)
  let ch := (Chain.start o.t 0).over (as.take done) (bs.take done)
  let v := ch.exact.map (Dy.add (if p = 0 then (0, 0) else planePart p (as.drop (32 * i)) (bs.drop (32 * i))))
  let cA := (o.compA[r]?).getD []
  let cB := (o.compB[j]?).getD []
  let rest := restOf p (as.drop (32 * i)) ((cB.drop (32 * i)).take 32) (cA.drop (32 * (i + 1))) (cB.drop (32 * (i + 1)))
  let nrem := 2 * (32 * o.s - done) + 1 + (if o.t = oneF then 0 else 1)
  boundsOf o.abs g o.t nrem (boundSum cA cB) v rest

/-- Columns of a row still live (R167). -/
def OvenOp.live (o : OvenOp) (r : Nat) : List Nat := (List.range o.n).filter (fun j => ((o.dead[r]?).bind (fun d => d[j]?)).join.isNone)

/-- A checkpoint (R165 to R167): bounds and threshold of the row, then the columns that fall below it. -/
def OvenOp.checkpoint (o : OvenOp) : OvenOp :=
  let i := o.steps.length - 1
  let r := o.row
  let d := o.plane + 1
  let np := planesOf (Ten.of o.da).fmt
  let cA := (o.compA[r]?).getD []
  let g := unitG ((List.range o.n).map (fun j => boundSum cA ((o.compB[j]?).getD [])))
  let bds := (o.live r).map (fun j => (j, o.bounds g (np - d) j))
  let t0 := (o.thr[r]?).getD .ninf
  let t := match kthLargest o.k (bds.map (fun e => e.2.2)) with | some b => t0.max b | none => t0
  let out := (bds.filter (fun e => e.2.1.lt t)).map Prod.fst
  let o : OvenOp := { o with
    thr := o.thr.set r t, dead := o.dead.modify r (fun ds => out.foldl (fun ds j => ds.set j (some (i, d))) ds),
    plane := if d = np then 0 else d }
  if d = np then
    let o : OvenOp := { o with row := o.nextRow (r + 1) }
    if o.row ≥ o.m then { o with rowEnd := o.settled i } else o
  else o

/-- OVEN_CHECKPOINT (R165 to R167, R172). -/
def execOvenCheckpoint (core : Nat) (s : State) : Out :=
  event (match (s.core core).ovenQ with
    | o :: _ => if o.topk && o.parked.isNone && !o.steps.isEmpty && decide (o.row < o.m) then some (s.putOven core o.checkpoint) else none
    | [] => none)

/-- Whether an operation waits at a step boundary for its partner (R169). -/
def OvenOp.atBoundary (o : OvenOp) : Bool := o.topk && !o.steps.isEmpty && decide (o.row ≥ o.m) && !o.sent && o.part.isSome
/-- The operation after an exchange: the first compares M, S, k and the mode; thresholds are used only where they match (R166, R169). -/
def OvenOp.exchanged (o p : OvenOp) : OvenOp :=
  let same := o.m == p.m && o.s == p.s && o.k == p.k && o.abs == p.abs
  let bad := o.pxm.getD (!same)
  { o with sent := true, pxm := some bad, thr := if bad then o.thr else (o.thr.zipIdx.map (fun e => e.1.max ((p.thr[e.2]?).getD .ninf))) }

/-- PARTNER_THRESHOLD_EXCHANGE (R169): the operations at the heads of two cores that name each other, at the same boundary; after a mismatch,
each alone. -/
def execPartnerThresholdExchange (core : Nat) (s : State) : Out :=
  event (match (s.core core).ovenQ with
    | o :: _ =>
      if !o.atBoundary then none
      else if o.pxm = some true then some (s.putOven core { o with sent := true })
      else match o.part with
        | none => none
        | some q =>
          let other := 8 * (core / 8) + q
          match (s.core other).ovenQ with
          | p :: _ =>
            if p.atBoundary && p.part == some (core % 8) && p.pxm == o.pxm && decide (p.steps.length = o.steps.length) then
              some ((s.putOven core (o.exchanged p)).putOven other (p.exchanged o))
            else none
          | [] => none
    | [] => none)

/-! Completion of MMUL and MTOPK. -/

/-- Marks of the bank words that an operation of rows and columns names. -/
def OvenOp.bankMark (o : OvenOp) (n : Nat) : Bool :=
  let r := n / 192 - 8 * o.x.af.val
  decide (8 * o.x.af.val * 192 ≤ n) && decide (r < o.m) && decide (n % 192 < o.n)

/-- The new element and status of row r and column j: MMUL by R156 or R157, MTOPK by R162. -/
def OvenOp.result (o : OvenOp) (b : Bank) (r j : Nat) : Nat × Nat :=
  let as := o.cut r (o.rowA r)
  let bs := o.cut r (o.colB j)
  if o.topk then
    match ((o.dead[r]?).bind (fun d => d[j]?)).join with
    | some _ => ((Config.freeWord o.nonce (192 * r + j)).toNat, 0)
    | none => fpElem o.t 0 as bs
  else
    let prior := b.elem (192 * (r % 8) + j)
    if o.mode = .int32 then intElem prior as bs else fpElem o.t prior as bs

/-- A bank after a row of the operation; free: results undefined. -/
def OvenOp.writeRow (o : OvenOp) (free : Bool) (r : Nat) (b : Bank) : Bank :=
  let res := (List.range o.n).map (fun j => if free then ((Config.freeWord o.nonce (192 * r + j)).toNat, 0) else o.result b r j)
  let tot := if o.topk && !free then (fpElem o.t 0 (o.cut r (o.rowA r)) (o.cut r o.sumB)).2 else 0
  let st := res.foldl (fun a e => a ||| e.2) tot ||| (if free then (Config.freeWord o.nonce (100000 + r)).toNat % 32 else 0)
    ||| (if o.ncm then 32 else 0) ||| (if o.pxm = some true then 64 else 0)
  { b with mode := o.mode, status := b.status ||| BitVec.ofNat 7 st,
           elems := res.zipIdx.foldl (fun t e => Tab.set t (192 * (r % 8) + e.2) (BitVec.ofNat 32 e.1.1)) b.elems }

/-- The winner list of a row (R162, R167, R171). -/
def OvenOp.winners (o : OvenOp) (free : Bool) (r : Nat) : WList :=
  if free || o.ncm then { WList.empty with k := o.k, abs := o.abs, free := some (o.nonce) }
  else
    let as := o.cut r (o.rowA r)
    let es := (o.live r).map (fun j => ((fpElem o.t 0 as (o.cut r (o.colB j))).1, (o.cbase.toNat + j) % 2 ^ 32))
    wlistOf o.k o.abs (fpElem o.t 0 as (o.cut r o.sumB)).1 ((sortBy (rankGoes o.abs) es).take o.k)

/-- The abandonment record (R170). -/
def OvenOp.record (o : OvenOp) (free : Bool) : List Byte :=
  if free || o.ncm then (List.range (384 * o.m)).map (fun i => Config.freeByte o.nonce i)
  else (List.range o.m).flatMap (fun r => (List.range 192).flatMap (fun j =>
    toLE 2 (match ((o.dead[r]?).bind (fun d => d[j]?)).join with | some (st, pl) => st + 4096 * pl | none => 0xFFFF)))

/-- Banks and lists after the operation, for the rows whose bank is still its workgroup's. -/
def Core.ovenWrite (k : Core) (o : OvenOp) (free : Bool) : Core :=
  let k := (List.range o.m).foldl (fun k r =>
    let i := o.x.af.val + r / 8
    if k.owns o.wg i then
      let k := k.modBank i (o.writeRow free r)
      if o.topk then k.setList (8 * o.x.af.val + r) (o.winners free r) else k
    else k) k
  { k with poison := k.poison.filter (fun e => !(decide (e.1 = .bank) && o.bankMark e.2)) }
/-- Rows of an operation, from row 0 of bank 0 (R348). -/
def OvenOp.rhos (o : OvenOp) : List Nat := (List.range o.m).map (fun r => 8 * o.x.af.val + r)
/-- An MTOPK replaces the elements and lists of its rows; an MMUL adds to what stands there (R353, R355). -/
def Core.replaced (k : Core) (o : OvenOp) : Core := if o.topk then k.replace (o.rhos.map (fun r => (r, o.n))) o.rhos [] else k

/-- Whether an MMUL's prior values are poisoned (R266). -/
def Core.priorPoison (k : Core) (o : OvenOp) : Bool := !o.topk && k.poison.any (fun e => decide (e.1 = .bank) && o.bankMark e.2)

/-- OVEN_COMPLETION (R347, R353, R355): results, then the addition to the word; the window goes on until the completion is acquired (R192). -/
def execOvenCompletion (core : Nat) (s : State) : Out :=
  event (match (s.core core).ovenQ with
    | o :: _ =>
      if o.parked.isNone && decide (o.steps.length = o.s) && decide (o.row ≥ o.m) && (o.part.isNone || o.sent) then
        let poison := o.poison || (s.core core).priorPoison o || (s.core core).active.poison
        let free := o.bad || poison || s.hit core o.wg o.id
        let s := s.modCore core (fun k => (k.ovenWrite o free).replaced o)
        let s := match o.rofs with | some a => if o.topk then s.modWg core o.wg (fun w => w.spWrite a (o.record free)) else s | none => s
        let s := if poison then s.mark core o.wg o.grp (impTrap 0x1E 1) else s
        let s := s.complete core o.wg { id := o.id, grp := o.grp, word := o.word, gen := s.nextGen core o.wg o.word, op := some o, banks := banksOf o.x.af.val o.m,
                                        rows := o.rhos.map (fun r => (r, 0)), lists := if o.topk then o.rhos else [], stats := banksOf o.x.af.val o.m, at_ := 0,
                                        norm := none, bad := false, nonce := o.nonce }
        let s := match o.word with | some a => s.wordAdd (.sp core o.wg a) 32 none (some (core, o.wg, o.grp)) | none => s
        some (s.ovenPop core o)
      else none
    | [] => none)

/-! RKLD and MNORM. -/

/-- RKLD_COMPLETION (R265, R350): the shadow becomes READY, with its parity column. -/
def execRkldCompletion (core op : Nat) (s : State) : Out :=
  event (match (s.core core).op op with
    | none => none
    | some o => match o.kind with
      | .rkld sp tab j0 st =>
        let t := Ten.of tab
        let k0 := 32 * kgOf t.fmt * st
        let rs := t.ranges k0 (k0 + 32 * kgOf t.fmt) j0 (j0 + 192)
        let accs := glAccs sp .r rs
        if o.parked.isSome then none
        else match s.ways o.ctx accs with
        | .absent a => some (s.modOp core op (fun o => { o with parked := some (BitVec.ofNat 64 a) }))
        | .bad => some (s.engEnd core o (s.badTrap o.ctx o.pc accs))
        | .clear =>
          let secs := s.accSectors o.ctx accs
          if !s.granted (clusterOf core) (s.tcOf o.launch) secs then none
          else
            let rd := s.oNum core o.wg o.ctx o.nonce sp
            let (cols, sum) := rackCols t.fmt (min 192 (t.e1 - j0)) (fun c k => t.elem rd (k0 + k) (j0 + c))
            let bad := s.rangesPoison core o.wg o.ctx sp rs
            let par := (List.range 32).map (parityOf t.fmt cols)
            let s := ((s.charge o.ctx (clusterOf core) secs).ePeek core o.wg sp rs).modCore core (fun k =>
              if k.shadow.status = .loading ∧ k.shadow.owner = some o.wg then
                { k with shadow := { k.shadow with status := .ready, cols := cols, sum := sum, par := par, poison := bad } }
              else k)
            some (s.opDone core o)
      | _ => none)

/-- The companion words of MNORM (R357): rows or columns from r0, steps from s0. -/
def normWords (isB : Bool) (t : Ten) (kg : Nat) (rd : Rdr) (r0 s0 n st : Nat) : List Nat :=
  (List.range n).flatMap (fun r => (List.range st).flatMap (fun i => (List.range 32).map (fun g =>
    let vs := (List.range kg).map (fun q => t.elem rd (32 * kg * (s0 + i) + kg * g + q) (r0 + r))
    if isB then (blockOf t.fmt (cellW t.fmt) vs).norm else (blockOf t.fmt (planesOf t.fmt) vs).peak)))

/-- MNORM_COMPLETION (R357): the companions are written at NBASE; the window goes on until the completion is acquired (R192). -/
def execMnormCompletion (core op : Nat) (s : State) : Out :=
  event (match (s.core core).op op with
    | none => none
    | some o => match o.kind with
      | .mnorm isB sp tab tabB r0 s0 n st =>
        let t := Ten.of tab
        let kg := kgOf (Ten.of tabB).fmt
        let len := 128 * st * n
        let rs := t.ranges (32 * kg * s0) (32 * kg * (s0 + st)) r0 (r0 + n)
        let accs := glAccs sp .r rs ++ [(.w, t.nbase, len)]
        if o.parked.isSome then none
        else match s.ways o.ctx accs with
        | .absent a => some (s.modOp core op (fun o => { o with parked := some (BitVec.ofNat 64 a) }))
        | .bad => some (s.engEnd core o (s.badTrap o.ctx o.pc accs))
        | .clear =>
          let secs := s.accSectors o.ctx accs
          if !s.granted (clusterOf core) (s.tcOf o.launch) secs then none
          else
            let bad := s.rangesPoison core o.wg o.ctx sp rs
            let free := bad || o.bad || s.hit core o.wg op || (decide (sp = .gl) && rs.any (fun r => meet r.1 (r.2 - r.1) t.nbase len))
            let ws := normWords isB t kg (s.oNum core o.wg o.ctx o.nonce sp) r0 s0 n st
            let ws := if free then ws.zipIdx.map (fun e => (Config.freeWord o.nonce e.2).toNat) else ws
            let s := ((s.charge o.ctx (clusterOf core) secs).ePeek core o.wg sp rs).bagWrite o t.nbase (ws.flatMap (toLE 4)) false
            let s := (s.opPoison core o bad).complete core o.wg { id := op, grp := o.grp, word := o.word, gen := s.nextGen core o.wg o.word, op := none, banks := [],
                                                                  rows := [], lists := [], stats := [], at_ := 0,
                                                                  norm := some (t.nbase, len), bad := false, nonce := o.nonce }
            some (s.opDone core o)
      | _ => none)

/-! ADRAIN. -/

/-- A drained element converted to the output format (R159, R361). -/
def drainConv (f : Nat) (rnd : Rnd) (sat : Sat) (int : Bool) (x : Nat) : FRes :=
  let w := fmtBits f
  let intOut := f == 7 || f == 8 || f == 11
  if int then
    let z := sextN x 32
    if intOut then
      let z := if satLim sat then (if z < intLo w true then intLo w true else if z > intHi w true then intHi w true else z) else z
      (wrapN w z, 0)
    else i2fF (tenF f) rnd sat z
  else if intOut then
    let r := f2iV rnd (intLo w true) (intHi w true) (readF .f32 (satFlush sat) x)
    (wrapN w r.1, r.2)
  else cvtF (tenF f) .f32 rnd sat x

/-- Status bits of a drain conversion (R158, R159). -/
def drainStat (fl : Nat) : Nat :=
  (if fl &&& fIV ≠ 0 then 1 else 0) + (if fl &&& fOF ≠ 0 then 2 else 0) + (if fl &&& fUF ≠ 0 then 4 else 0) + (if fl &&& fNX ≠ 0 then 8 else 0)

/-- The magnitude of a written value as FP32 bits (R161). -/
def drainMag (f y : Nat) : Nat :=
  let v := if f == 7 || f == 8 || f == 11 then (i2fF .f32 .rn .nosat (sextN y (fmtBits f))).1 else (toFmt .f32 .rn .nosat (readF (tenF f) false y)).1
  if isNanF v then nanF else v % 2 ^ 31

/-- The positions that re-pruning keeps in a group, rising (R160). -/
def keptOf (n : Nat) (int : Bool) (xs : List Nat) : List Nat :=
  let goes (x y : Nat × Nat) : Bool :=
    if int then let a := (sextN x.1 32).natAbs; let b := (sextN y.1 32).natAbs; decide (a > b) || (a == b && decide (x.2 < y.2))
    else rankGoes true x y
  sortBy (fun a b => decide (a < b)) (((sortBy goes xs.zipIdx).take n).map Prod.snd)

/-- The kept positions of a row's groups. -/
def rowKept (prune : Nat) (int : Bool) (xs : List Nat) : List (List Nat) :=
  let (n, m, _) := pruneOf prune
  (List.range (xs.length / m)).map (fun q => keptOf n int ((xs.drop (m * q)).take m))

/-- Packs fields of b bits, the first lowest. -/
def packBits (b : Nat) (xs : List Nat) : Nat := xs.foldr (fun x r => x % 2 ^ b + 2 ^ b * r) 0

/-- A drained row: its raw elements, whether the bank is the workgroup's, and whether it is in INT32 mode. -/
structure DRow where
  bank : Nat
  mine : Bool
  int  : Bool
  xs   : List Nat
  deriving DecidableEq, Repr

/-- The rows of a drain; what is undefined is free (R192, R266). -/
def Core.drainRows (k : Core) (o : EngOp) (rho nr c0 nc : Nat) (zero : List Nat) (bad : Bool) : List DRow :=
  (List.range nr).map (fun i =>
    let b := (rho + i) / 8
    let mine := !zero.contains b && k.owns o.wg b
    let x (j : Nat) : Nat :=
      if !mine then 0
      else if bad || o.early.contains b then (Config.freeWord o.nonce (192 * (rho + i) + c0 + j)).toNat
      else (k.bank b).elem (192 * ((rho + i) % 8) + c0 + j)
    { bank := b, mine := mine, int := mine && decide ((k.bank b).mode = .int32), xs := (List.range nc).map x })

/-- The values of a row that a drain writes, before conversion. -/
def DRow.kept (r : DRow) (prune : Nat) : List Nat :=
  if prune = 0 then r.xs
  else let m := (pruneOf prune).2.1; (rowKept prune r.int r.xs).zipIdx.flatMap (fun e => e.1.map (fun p => (r.xs[m * e.2 + p]?).getD 0))

/-- Writes bytes of an engine's output: global through the window too. -/
def State.oWrite (s : State) (c : Nat) (o : EngOp) (sp : BSpace) (a : Nat) (bs : List Byte) : State :=
  match sp with | .gl => s.bagWrite o a bs false | _ => s.eWrite c o.wg o.ctx sp a bs

/-- Writes one drained row: data, metadata fields, and the bank's status, which takes the flags of every drained element, kept or not (R159, R160, R361). -/
def State.drainRow (s : State) (c : Nat) (o : EngOp) (prune : Nat) (sp : BSpace) (rnd : Rnd) (sat : Sat) (t : Ten) (ro co nc i : Nat) (r : DRow) : State :=
  let ys := (r.kept prune).map (drainConv t.fmt rnd sat r.int)
  let (b, n) := t.drainBits prune ro co nc i
  let s := s.oWrite c o sp (t.base + b / 8) (toLE (n / 8) (packBits (fmtBits t.fmt) (ys.map Prod.fst)))
  let s := if prune = 0 then s
    else
      let (a, ws, sh, len) := t.drainMeta prune ro co nc i
      let new := packBits (pruneOf prune).2.2 (rowKept prune r.int r.xs).flatten * 2 ^ sh
      let old := (List.range ws).map (fun w => s.oNum c o.wg o.ctx o.nonce sp (a + 4 * w) 4)
      let v := packBits 32 old
      let keep := v % 2 ^ sh + v / 2 ^ (sh + len) * 2 ^ (sh + len)
      s.oWrite c o sp a (toLE (4 * ws) (keep + new))
  if r.mine then
    let st := r.xs.foldl (fun a x => a ||| drainStat (drainConv t.fmt rnd sat r.int x).2) 0
    s.modCore c (fun k => k.modBank r.bank (fun b => { b with status := b.status ||| BitVec.ofNat 7 st }))
  else s

/-- The atomic maximum of magnitude tracking (R161). -/
def State.drainMax (s : State) (o : EngOp) (a v : Nat) : State :=
  match s.translate o.ctx .w a with
  | .window n d p => { s with winOut := s.winOut ++ [{ session := n, dev := d, addr := p, size := 4, data := v, req := .rmw .max true false,
                                                          pcp := (s.fenaz.pcp[s.tcOf o.launch]?).getD 0 }] }
  | _ => let old := fromLE (s.glRead o.ctx a 4); s.glWrite o.ctx a (toLE 4 (max old v))

/-- ADRAIN_COMPLETION (R159 to R161, R361). -/
def execAdrainCompletion (core op : Nat) (s : State) : Out :=
  event (match (s.core core).op op with
    | none => none
    | some o => match o.kind with
      | .adrain prune sp mx rnd sat tab ro co rho nr c0 nc zero =>
        let t := Ten.of tab
        let k := s.core core
        let accs := glAccs sp .w (t.drainRanges prune ro co nr nc)
          ++ (match mx with | some a => [(Acc.r, a.toNat, 4), (Acc.w, a.toNat, 4)] | none => [])
        if o.parked.isSome then none
        else match s.ways o.ctx accs with
        | .absent a => some (s.modOp core op (fun o => { o with parked := some (BitVec.ofNat 64 a) }))
        | .bad => some (s.engEnd core o (s.badTrap o.ctx o.pc accs))
        | .clear =>
          let secs := s.accSectors o.ctx accs
          if !s.granted (clusterOf core) (s.tcOf o.launch) secs then none
          else
            let bad := !k.poison.isEmpty && (List.range nr).any (fun i => !zero.contains ((rho + i) / 8) && (List.range nc).any (fun j =>
              k.poison.contains (.bank, 192 * (rho + i) + c0 + j)))
            let rows := k.drainRows o rho nr c0 nc zero bad
            let s := s.charge o.ctx (clusterOf core) secs
            let s := rows.zipIdx.foldl (fun s e => s.drainRow core o prune sp rnd sat t ro co nc e.2 e.1) s
            let s := match mx with
              | some a => s.drainMax o a.toNat ((rows.flatMap (fun (r : DRow) => (r.kept prune).map (fun x => drainMag t.fmt (drainConv t.fmt rnd sat r.int x).1))).foldl max 0)
              | none => s
            let s := if rows.all DRow.mine then s
              else match k.grps.find? (fun e => e.2.uid == o.grp && decide (e.1 < 32)) with | some (g, _) => s.modGrp core g setUab | none => s
            some ((s.opPoison core o bad).opDone core o)
      | _ => none)

/-! SELK and SORTR. -/

/-- The terms of SELK .exp (R175). -/
def expTerm (m x : Nat) : Nat :=
  let d := addV .f32 .rn .nosat (readF .f32 false x) (readF .f32 false m).flip
  let y := mulV .f32 .rn .nosat (readF .f32 false d.1) (readF .f32 false 0x3FB8AA3B)
  (sfuV .exp2 .f32 .rn .nosat (readF .f32 false y.1)).1

/-- The image that SELK writes (R174, R175, R367). -/
def selkImage (exp : Bool) (k : Nat) (xs : List Nat) : List Byte :=
  let win := (sortBy (rankGoes false) xs.zipIdx).take k
  let chosen (i : Nat) : Bool := win.any (fun e => e.2 == i)
  let m := match win with | e :: _ => e.1 | [] => 0
  let odd := exp && (match readF .f32 false m with | .fin _ _ _ => false | _ => true)
  let f (x : Nat) : Nat := if exp then expTerm m x else x
  let sum (p : Nat → Bool) : Nat :=
    if odd then nanF else clean (joinChains (twoChains ((xs.zipIdx.filter (fun e => p e.2)).map (fun e => (e.2 % 2 == 0, f e.1)))))
  toLE 4 win.length ++ toLE 4 k ++ toLE 4 (sum chosen) ++ toLE 4 (sum (fun i => !chosen i))
    ++ win.flatMap (fun e => toLE 4 (clean e.1) ++ toLE 4 e.2) ++ List.replicate (8 * (k - win.length)) 0

/-- SELK_COMPLETION (R366, R367). -/
def execSelkCompletion (core op : Nat) (s : State) : Out :=
  event (match (s.core core).op op with
    | none => none
    | some o => match o.kind with
      | .selk exp src len dst k =>
        let bad := s.ePoison core o.wg o.ctx .sp src (4 * len)
        let size := 16 + 8 * k
        let rd := s.oNum core o.wg o.ctx o.nonce .sp
        let bs := if bad || meet src (4 * len) dst size then (List.range size).map (Config.freeByte o.nonce)
          else selkImage exp k ((List.range len).map (fun i => rd (src + 4 * i) 4))
        some ((((s.ePeek core o.wg .sp [(src, src + 4 * len)]).eWrite core o.wg o.ctx .sp dst bs).opPoison core o bad).opDone core o)
      | _ => none)

/-- A row sorted (R368): the pairs as value and payload. A pair moves with its bits: a NaN keeps its pattern, since it is neither selected nor summed (R149, R176,
log 63: DESIGN CHOICE). -/
def sortRow (asc : Bool) (ps : List (Nat × Nat)) : List (Nat × Nat) :=
  sortBy (fun x y => if asc then !isNanF x.1 && (isNanF y.1 || beats false y.1 x.1) else beats false x.1 y.1) ps

/-- SORTR_COMPLETION (R368). -/
def execSortrCompletion (core op : Nat) (s : State) : Out :=
  event (match (s.core core).op op with
    | none => none
    | some o => match o.kind with
      | .sortr asc src len dst rows =>
        let size := 8 * len * rows
        let bad := s.ePoison core o.wg o.ctx .sp src size
        let rd := s.oNum core o.wg o.ctx o.nonce .sp
        let row (q : Nat) : List Byte := (sortRow asc ((List.range len).map (fun i => let a := src + 8 * (len * q + i); (rd a 4, rd (a + 4) 4)))).flatMap
          (fun p => toLE 4 p.1 ++ toLE 4 p.2)
        let bs := if bad || (decide (src ≠ dst) && meet src size dst size) then (List.range size).map (Config.freeByte o.nonce) else (List.range rows).flatMap row
        some ((((s.ePeek core o.wg .sp [(src, src + size)]).eWrite core o.wg o.ctx .sp dst bs).opPoison core o bad).opDone core o)
      | _ => none)

end Sys2Proof.Machine
end

