-- ==== Sys2Proof/Machine/System.lean ====
section
/-! DEFINITION. ENGWAIT, PLEV, TRAP, BRK, RFT and SYS (R389 to R393). -/
namespace Sys2Proof.Machine
open Sys2Proof

/-- Whether the operations of a group in the classes of a mask are over (R389). Class 0: the oven queue too. A group's stream reads are over
whenever it issues. -/
def Core.waited (k : Core) (grp : Nat) (mask : BitVec 8) : Bool :=
  k.eng.all (fun o => o.grp != grp || !mask.getLsbD o.cls) && (!mask.getLsbD 0 || k.ovenQ.all (fun o => o.grp != grp))

/-- ENGWAIT (R389): at a blocking point (R218) until they are; it acquires the completions that it awaited (R182, R192). -/
def execEngwait (c : Ctl) (mask : BitVec 8) (s : State) : Out :=
  issued (.engwait c mask) c (fun x =>
    if x.act = 0 then x.ok x.s
    else if (x.s.core x.core).waited x.gr.uid mask then
      x.ok (if mask.getLsbD 0 then x.s.acquire x.core x.wg.uid (fun d => d.grp == x.gr.uid) else x.s)
    else .block x.s 0 false false) s

/-- PLEV (R226, R390). -/
def execPlev (c : Ctl) (a : Opnd) (s : State) : Out :=
  issued (.plev c a) c (fun x => x.command (fun x =>
    let v := x.w64 a 0
    if v > 1 then x.faultA 0x02 1 0 else x.ok (x.modW x.s (fun w => { w with rail := v == 1 })))) s

/-- TRAP (R391). -/
def execTrap (c : Ctl) (code : BitVec 8) (s : State) : Out :=
  issued (.trap c code) c (fun x => x.command (fun x => x.faultA 0x20 code.toNat 0)) s

/-- BRK (R391): whatever the guard. -/
def execBrk (c : Ctl) (s : State) : Out := issued (.brk c) c (fun x => .trap (x.trapInfo 0x21 0 0 x.cur.mask)) s

/-- Reserved bits of a cause word (R254). -/
def causeRsv (w : Nat) : Bool := w.testBit 23 || w / 2 ^ 32 != 0

/-- RFT (R256, R392): whatever the guard; in the handler, a fault of its own is a double trap (R255). -/
def execRft (c : Ctl) (s : State) : Out :=
  issued (.rft c) c (fun x =>
    if x.wg.handler ≠ some x.gr.uid then .trap (x.trapInfo 0x03 0 0 x.cur.mask)
    else
      let gs := (x.s.core x.core).slotsOf x.wg.uid
      match x.checkAll (gs.flatMap (fun g => span .r (x.wg.haltAt g) frameBytes 64)) with
      | some e => e
      | none =>
        if gs.any (fun g => x.s.glPoison x.wg.ctx (x.wg.haltAt g) frameBytes) then .trap (x.trapInfo 0x1E 0 0 x.cur.mask)
        else if gs.any (fun g => causeRsv (x.s.frameField x.wg g 0 8)) then .trap (x.trapInfo 0x02 1 0 x.cur.mask)
        else .jump ((x.modG (x.ask x.s (gs.flatMap (fun g => x.s.sectors x.wg.ctx .r (x.wg.haltAt g) frameBytes))) (fun g => { g with pend := agePend (stallOf x.c) g.pend })).returnTrap x.core x.wg)) s

/-- A trap register (R393). -/
def Iss.trapReg (x : Iss) : Nat → Option DWord
  | 0 => some x.wg.tvec
  | 1 => some x.wg.tframe
  | 2 => some (if x.wg.handler = some x.gr.uid then 1 else 0)
  | _ => none

/-- SYS .rd (R393). -/
def execSysRd (c : Ctl) (num : BitVec 8) (d : Fin 64) (s : State) : Out :=
  issued (.sysRd c num d) c (fun x => x.command (fun x =>
    match x.trapReg num.toNat with
    | none => x.faultA 0x02 0 0
    | some v => x.ok (x.write false (.s d) (fun _ => v)))) s

/-- SYS .wr (R393). -/
def execSysWr (c : Ctl) (num : BitVec 8) (a : Opnd) (s : State) : Out :=
  issued (.sysWr c num a) c (fun x => x.command (fun x =>
    let v := x.w64 a 0
    match num.toNat with
    | 0 => if v % 4 ≠ 0 ∨ v ≥ 2 ^ 32 then x.faultA 0x02 1 0 else x.ok (x.modW x.s (fun w => { w with tvec := BitVec.ofNat 64 v }))
    | 1 => if v % 2 ^ 11 ≠ 0 ∨ v ≥ 2 ^ 57 then x.faultA 0x02 1 0 else x.ok (x.modW x.s (fun w => { w with tframe := BitVec.ofNat 64 v }))
    | _ => x.faultA 0x02 1 0)) s

end Sys2Proof.Machine
end

