-- ==== Sys2Proof/Machine/Sched.lean ====
section
/-! DEFINITION. Room on a core (R54, R61, R213, R246), the birth of groups (R53, R60, R274), and the events of issue and of the proofer:
retirements, ends of counts, formation, admission of spawned groups, wakes (R50 to R54, R58, R59, R62, R117, R118, R218, R219). -/
namespace Sys2Proof.Machine
open Sys2Proof

/-! Granules (R38, R61). -/

/-- Granule rows of a group with n declared registers. -/
def rowsFor (n : Nat) : Nat := ([1, 2, 4, 8, 16].find? (fun g => decide (n ≤ 8 * g))).getD 32

/-- A block of the vector register file: lane offset, width, first granule row, rows. -/
structure Blk where
  off   : Nat
  width : Nat
  row   : Nat
  rows  : Nat
  deriving DecidableEq, Repr

/-- Whether two blocks share a granule. -/
def Blk.meets (a b : Blk) : Bool :=
  decide (a.off < b.off + b.width) && decide (b.off < a.off + a.width) && decide (a.row < b.row + b.rows) && decide (b.row < a.row + a.rows)

/-- Whether a block is aligned as a group's must be and lies in the file. -/
def Blk.legal (b : Blk) : Bool :=
  b.off % b.width == 0 && decide (b.off + b.width ≤ 64) && b.row % b.rows == 0 && decide (b.row + b.rows ≤ Config.granuleRows)

/-- The block of a group. -/
def Group.blk (g : Group) : Blk := { off := g.off, width := g.width, row := g.row, rows := rowsFor g.nregs }

/-- Registers of the spawn reserve (R54). -/
def LRec.spareRegs (r : LRec) : Nat := r.spawns.foldl (fun m e => max m e.vregs) 0

/-- The spawn reserves of a core: uid, group slot, block. -/
def Core.spares (k : Core) : List (Nat × Nat × Blk) :=
  k.wgs.filterMap (fun e => e.2.reserve.map (fun r => (e.2.uid, r.1, { off := r.2.1, width := e.2.rec_.spw, row := r.2.2, rows := rowsFor e.2.rec_.spareRegs })))

/-- Blocks reserved on a core for other contexts (R246). -/
def Core.setAside (k : Core) (ctx : Nat) : List Blk :=
  (k.resv.filter (fun r => r.ctx != ctx)).map (fun r => { off := 0, width := 64, row := r.row, rows := r.rows })

/-- Whether a block is free for a workgroup of a context; own: its own reserve counts as free. -/
def Core.freeBlk (k : Core) (ctx : Nat) (own : Option Nat) (b : Blk) : Bool :=
  b.legal && k.grps.all (fun e => !e.2.blk.meets b) && k.spares.all (fun e => own == some e.1 || !e.2.2.meets b) && (k.setAside ctx).all (fun r => !r.meets b)

/-- Whether a group slot is free; own as above. -/
def Core.freeSlot (k : Core) (own : Option Nat) (i : Nat) : Bool :=
  decide (i < Config.groupSlots) && (Tab.get k.grps i).isNone && k.spares.all (fun e => own == some e.1 || e.2.1 != i)

/-! Counted resources (R213, R246). -/

/-- Amounts of the counted resources of a core. -/
structure Amt where
  wgs     : Nat
  grps    : Nat
  scratch : Nat
  tiles   : Nat
  banks   : Nat
  deriving DecidableEq, Repr

/-- Sum and difference of amounts, and their order. -/
def Amt.add (a b : Amt) : Amt := { wgs := a.wgs + b.wgs, grps := a.grps + b.grps, scratch := a.scratch + b.scratch, tiles := a.tiles + b.tiles, banks := a.banks + b.banks }
def Amt.less (a b : Amt) : Amt := { wgs := a.wgs - b.wgs, grps := a.grps - b.grps, scratch := a.scratch - b.scratch, tiles := a.tiles - b.tiles, banks := a.banks - b.banks }
def Amt.le (a b : Amt) : Bool := decide (a.wgs ≤ b.wgs) && decide (a.grps ≤ b.grps) && decide (a.scratch ≤ b.scratch) && decide (a.tiles ≤ b.tiles) && decide (a.banks ≤ b.banks)
def Amt.zero : Amt := { wgs := 0, grps := 0, scratch := 0, tiles := 0, banks := 0 }
/-- What a core has (R15). -/
def Amt.core : Amt := { wgs := Config.wgSlots, grps := Config.groupSlots, scratch := Config.scratchBytes, tiles := 16, banks := 12 }

/-- Group slots that a resident workgroup takes, its free reserve included. -/
def Core.slotCount (k : Core) (w : Workgroup) : Nat :=
  (k.slotsOf w.uid).length + (match w.reserve with | some r => if (Tab.get k.grps r.1).isNone then 1 else 0 | none => 0)

/-- What the workgroups of a core that meet a test use. -/
def Core.use (k : Core) (p : Workgroup → Bool) : Amt :=
  (k.wgs.filter (fun e => p e.2)).foldl (fun a e =>
    a.add { wgs := 1, grps := k.slotCount e.2, scratch := e.2.rec_.scratch, tiles := e.2.rec_.tiles, banks := e.2.rec_.banks }) Amt.zero

/-- What is set aside for other contexts and not in their use (R246). -/
def Core.kept (k : Core) (ctx : Nat) : Amt :=
  (k.resv.filter (fun r => r.ctx != ctx)).foldl (fun a r =>
    a.add (Amt.less { wgs := r.wgs, grps := r.grps, scratch := r.scratch, tiles := r.tiles, banks := r.banks } (k.use (fun w => w.ctx == r.ctx)))) Amt.zero

/-- Whether a core has an amount for a context. -/
def Core.spare (k : Core) (ctx : Nat) (n : Amt) : Bool := ((n.add (k.use (fun _ => true))).add (k.kept ctx)).le Amt.core

/-! One owner at a time (R233, R246, R247). -/

/-- The owner of a context. -/
def State.ownerOf (s : State) (ctx : Nat) : Nat := match Tab.get s.ctxs ctx with | some x => x.owner | none => 0
/-- What a reservation sets aside (R246). -/
def Resv.amt (r : Resv) : Amt := { wgs := r.wgs, grps := r.grps, scratch := r.scratch, tiles := r.tiles, banks := r.banks }
/-- Whether what a context asks for lies in what is reserved for it on a core (R246): an amount beside its workgroups there, and blocks. -/
def Core.inResv (k : Core) (ctx : Nat) (need : Amt) (bs : List Blk) : Bool :=
  k.resv.any (fun r => r.ctx == ctx && (need.add (k.use (fun w => w.ctx == ctx))).le r.amt && bs.all (fun b => decide (r.row ≤ b.row) && decide (b.row + b.rows ≤ r.row + r.rows)))
/-- Whether a context has a reservation on a core. -/
def Core.reserves (k : Core) (ctx : Nat) : Bool := k.resv.any (fun r => r.ctx == ctx)
/-- The blocks of a context's workgroups on a core, those of their spawn reserves among them. -/
def Core.blksOf (k : Core) (ctx : Nat) : List Blk :=
  let mine (u : Nat) : Bool := k.wgs.any (fun e => e.2.uid == u && e.2.ctx == ctx)
  (k.grps.filter (fun e => mine e.2.wg)).map (fun e => e.2.blk) ++ (k.spares.filter (fun e => mine e.1)).map (fun e => e.2.2)
/-- Whether all that a core's workgroups use lies in what is reserved for their contexts (R246), and no group outlives its workgroup. -/
def Core.within (k : Core) : Bool :=
  k.wgs.all (fun e => k.inResv e.2.ctx Amt.zero (k.blksOf e.2.ctx)) && k.grps.all (fun e => k.wgs.any (fun w => w.2.uid == e.2.wg))

/-- Whether a core serves one owner only while it gives a context what it asks for (R233). What is reserved for a context was cleared when it was reserved, and serves
it beside another owner's workgroups (R246, R247): what is asked for lies there, or all that the core's workgroups use does. -/
def State.oneOwner (s : State) (c ctx : Nat) (need : Amt) (bs : List Blk) : Bool :=
  let k := s.core c
  k.owner == some (s.ownerOf ctx) || k.inResv ctx need bs
    || k.within

/-! Birth of a group. -/

/-- A group at its birth (R53, R60, R65); its registers hold the free values of its birth. -/
def Group.newborn (uid wg idx : Nat) (spawned : Bool) (role : Role) (nregs birth priv : Nat) (blk : Blk) (e : Entry) : Group :=
  { uid := uid, wg := wg, idx := idx, spawned := spawned, width := blk.width, nregs := nregs, role := role, off := blk.off, row := blk.row, birth := birth,
    fr := [e], demoted := none, v := [], s := [], o := [], q := [], p := [], vfl := [], fpc := 0, gctl := 0, gstat := 0, padm := 0,
    cur := List.replicate 4 Cursor.empty, status := .runnable, kept := none, pend := [], sb := [], pass := [0, 0, 0], band := (0, 96), imprec := [],
    trap := none, tpend := false, skid := 0, lastPc := [], absent := [], priv := priv, poison := [], spills := [], own := [], mfence := 0, due := none, heads := e.mask }

/-- Where the call-stack headers of a group that are still to be written lie (R274). -/
def Group.headAts (x : Group) (size : Nat) : List Nat := (lanesOf x.heads).map (fun l => x.priv + size * l)
/-- The first of them whose page is not present. -/
def State.headMiss (s : State) (w : Workgroup) (x : Group) : Option Nat := (x.headAts w.rec_.priv).find? (fun a => s.translate w.ctx .w a == .absent)
/-- Writes them, and requests their sectors (R223, R274). -/
def State.putHeads (s : State) (c g : Nat) (w : Workgroup) (x : Group) : State :=
  if x.heads = 0 then s
  else
    let as := x.headAts w.rec_.priv
    let s := s.request w.ctx (clusterOf c) w.tc s.fresh ((as.flatMap (fun a => s.sectors w.ctx .w a 16)).eraseDups)
    (as.foldl (fun s a => s.glWrite w.ctx a (List.replicate 16 0)) s).modGrp c g (fun y => { y with heads := 0 })
/-- A group is born: its headers are written before its first issue, at once where their pages are present (R274); else it parks at its first pick (R86, log 70:
DESIGN CHOICE). -/
def State.bear (s : State) (c g : Nat) (w : Workgroup) : State :=
  match s.grp c g with
  | some x => if (s.headMiss w x).isNone then s.putHeads c g w x else s
  | none => s

/-- Seats a group in a slot. -/
def State.seat (s : State) (c slot : Nat) (g : Group) : State := s.modCore c (fun k => { k with grps := Tab.set k.grps slot g })

/-! Ends of waits of issue. -/

/-- VARIABLE_RESULT_RETIRE (R118): once the arbiters hold none of its requests (R223). -/
def execVariableResultRetire (core g idx : Nat) (s : State) : Out :=
  event (match s.grp core g with
    | none => none
    | some x => match x.sb[idx]? with
      | none => none
      | some e =>
        if s.holds e.req then none else some (s.modGrp core g (fun y => { y with sb := y.sb.eraseIdx idx })))

/-- FIXED_LATENCY_RESULT (R62, R117). -/
def execFixedLatencyResult (core g idx : Nat) (s : State) : Out :=
  event (match s.grp core g with
    | none => none
    | some x => match x.pend[idx]? with
      | none => none
      | some p => if p.landed then none else some (s.modGrp core g (fun y => { y with pend := y.pend.modify idx (fun p => { p with landed := true }) })))

/-- Whether a group's next pick waits for an access that an arbiter still holds (R223, R275). -/
def State.waitsFor (s : State) (x : Group) : Bool := match x.due with | some n => s.holds n | none => false

/-- STALL_COUNT_END (R117): after a CALL or a RET, once its accesses are complete (R275). -/
def execStallCountEnd (core g : Nat) (s : State) : Out :=
  event (match s.grp core g with
    | some x => match x.status with
      | .stalled _ => if s.waitsFor x then none else some (s.modGrp core g (fun y => { y with status := .runnable, due := none }))
      | _ => none
    | none => none)

/-- BKOFF_EXPIRY (R278). -/
def execBkoffExpiry (core g : Nat) (s : State) : Out :=
  event (match s.grp core g with
    | some x => match x.status with
      | .bkoff _ => some (s.modGrp core g (fun y => { y with status := .runnable }))
      | _ => none
    | none => none)

/-- GROUP_REGISTER_RELEASE (R59): every write of the group has retired. -/
def execGroupRegisterRelease (core g : Nat) (s : State) : Out :=
  event (match s.grp core g with
    | some x => if 32 ≤ g ∧ x.sb = [] ∧ x.pend.all Pending.landed = true then some (s.modCore core (fun k => { k with grps := Tab.del k.grps g })) else none
    | none => none)

/-! The proofer (R50 to R54). -/

/-- The entry that a waiting instruction stands at in its group. -/
def Group.priAt (g : Group) (pc : DWord) : BitVec 16 := match g.fr.find? (fun e => e.pc == pc) with | some e => e.pri | none => 0

/-- A state in which a group issues at a PC with a mask. -/
def State.at_ (s : State) (c g : Nat) (pc mask : DWord) : State :=
  let pri := match s.grp c g with | some x => x.priAt pc | none => 0
  { s with cur := some { core := c, g := g, pc := pc, pri := pri, mask := mask } }

/-- SPAWN_ITEMS_ENTER (R51): the items enter together, and the SPAWN is done. -/
def execSpawnItemsEnter (core g : Nat) (s : State) : Out :=
  event (match s.grp core g with
    | none => none
    | some x => match x.status with
      | .spawning (.spawn c e a b) pc mask items =>
        if (s.core core).itemCount + items.length ≤ Config.prooferItems then
          match (s.at_ core g pc mask).issue (.spawn c e a b) c with
          | some y => some (y.finish { s := s.enter core y.wg.uid e.val items, mv := y.thru })
          | none => none
        else none
      | _ => none)

/-- The items of a bin, oldest first. -/
def Core.bin (k : Core) (wg e : Nat) : List Item := k.items.filter (fun i => i.wg == wg && i.e == e)

/-- Takes the n oldest items of a bin out of the proofer. -/
def takeItems (wg e : Nat) : Nat → List Item → List Item
  | _, [] => []
  | 0, r => r
  | n + 1, i :: r => if i.wg = wg ∧ i.e = e then takeItems wg e n r else i :: takeItems wg e (n + 1) r

/-- Forms a group of the n oldest items of a bin (R53). -/
def State.form (s : State) (c wg e n : Nat) : State :=
  let items := (((s.core c).bin wg e).take n).map (fun i => (i.p0, i.p1))
  let s := s.modCore c (fun k => { k with items := takeItems wg e n k.items })
  s.modWg c wg (fun w => { w with formed := w.formed ++ [(w.spawnIx, e, items)], spawnIx := (w.spawnIx + 1) % 65536 })

/-- PROOFER_FULL_FORMATION (R52). -/
def execProoferFullFormation (core wg : Nat) (e : Fin 4) (s : State) : Out :=
  event (match (s.core core).wgOf wg with
    | some (_, w) => if w.rec_.spw ≤ ((s.core core).bin wg e.val).length ∧ 0 < w.rec_.spw then some (s.form core wg e.val w.rec_.spw) else none
    | none => none)

/-- The flush condition (R52). -/
def Core.flushable (k : Core) (w : Workgroup) : Bool :=
  w.formed.isEmpty && k.grps.all (fun e => e.2.wg != w.uid || decide (e.1 ≥ 32) ||
    (match e.2.status with | .blocked _ | .spawning _ _ _ _ => true | _ => false))

/-- PROOFER_FLUSH (R52): the lowest spawn entry first. -/
def execProoferFlush (core wg : Nat) (s : State) : Out :=
  event (match (s.core core).wgOf wg with
    | some (_, w) =>
      if (s.core core).flushable w then
        match (List.range 4).find? (fun e => !((s.core core).bin wg e).isEmpty) with
        | some e => some (s.form core wg e (min w.rec_.spw ((s.core core).bin wg e).length))
        | none => none
      else none
    | none => none)

/-- What a spawned group asks of the counted resources. -/
def Amt.group : Amt := { Amt.zero with grps := 1 }
/-- Whether a core gives a spawned group of a context a block outside the reserves (R54, R233). -/
def State.openBlk (s : State) (c ctx : Nat) (b : Blk) : Bool :=
  (s.core c).freeBlk ctx none b && (s.core c).spare ctx Amt.group && s.oneOwner c ctx Amt.group [b]
/-- Whether a spawned group finds room outside the reserves (R54). -/
def State.otherRoom (s : State) (c ctx width rows : Nat) : Bool :=
  (List.range Config.groupSlots).any ((s.core c).freeSlot none) &&
    (List.range 8).any (fun o => (List.range Config.granuleRows).any (fun r => s.openBlk c ctx { off := 8 * o, width := width, row := r, rows := rows }))

/-- SPAWNED_GROUP_ADMISSION (R53, R54): into free room, or into the workgroup's spawn reserve when there is no other. A halted workgroup
starts none (R251). -/
def execSpawnedGroupAdmission (core wg idx slot off row : Nat) (s : State) : Out :=
  let k := s.core core
  event (match k.wgOf wg with
    | none => none
    | some (_, w) => match w.formed.find? (fun f => f.1 == idx) with
      | none => none
      | some (_, e, items) => match w.rec_.spawns[e]? with
        | none => none
        | some r =>
          let b : Blk := { off := off, width := w.rec_.spw, row := row, rows := rowsFor r.vregs }
          let open_ := k.freeSlot none slot && s.openBlk core w.ctx b
          let own := w.reserve == some (slot, off, row) && k.freeSlot (some wg) slot && k.freeBlk w.ctx (some wg) b && !s.otherRoom core w.ctx b.width b.rows
          if w.halt.isNone && (open_ || own) then
            let mask := maskOf (List.range items.length)
            let priv := ((Tab.get s.ctxs w.ctx).map Ctx.privTop).getD 0
            let g := Group.newborn s.nextId wg idx true r.role r.vregs s.fresh priv b { pc := w.cb + BitVec.ofNat 64 r.entry, pri := r.pri, mask := mask, age := 0 }
            let g := (items.zip (List.range items.length)).foldl (fun (g : Group) i => (g.setV 0 i.2 i.1.1).setV 1 i.2 i.1.2) g
            let s := { s with nextId := s.nextId + 1, fresh := s.fresh + 1 }
            let s := s.modCtx w.ctx (fun x => { x with privTop := x.privTop + 64 * w.rec_.priv })
            let s := s.modWg core wg (fun v => { v with formed := v.formed.eraseP (fun f => f.1 == idx) })
            some ((s.seat core slot g).bear core slot w)
          else none)

/-! Wakes (R218, R219, R259). -/

/-- The header of a wait that keeps a done mask (R259). -/
def waitCtl : Instr → Option Ctl
  | .swwait c _ _ _ _ | .ldf c _ _ _ _ | .ste c _ _ _ | .ld c _ _ _ _ _ _ | .atom c _ _ _ _ _ _ _ _ | .atomCas c _ _ _ _ _ _ _ => some c
  | _ => none

/-- The issue of a wait as its wake re-evaluates it. -/
def State.waitIss (s : State) (c g : Nat) (w : Wake) (ctl : Ctl) : Option Iss :=
  ((s.modGrp c g (fun x => { x with kept := some (.blocked w) })).at_ c g w.pc w.mask).issue w.instr ctl

/-- Whether a blocked group's wake condition holds, other than by remote data (R218): no lane waits any more, or the wait's own condition. -/
def State.wakes (s : State) (c g : Nat) (x : Group) (wg : Workgroup) (w : Wake) : Bool :=
  let on (ctl : Ctl) (f : Iss → Bool) : Bool := match s.waitIss c g w ctl with | some y => f y | none => false
  let none_ : Bool := match waitCtl w.instr with | some ctl => on ctl (fun y => y.todo == 0) | none => false
  none_ || match w.instr with
  | .swwait ctl sp m a b => w.lost || on ctl (fun y => (y.swPass sp m a b).1 != 0)
  | .ldf ctl _ ofs _ a => on ctl (fun y => (lanesOf y.todo).any (fun l => y.wg.full (y.addr .sp a ofs l / 4)))
  | .ste ctl ofs a _ => on ctl (fun y => (lanesOf y.todo).any (fun l => !y.wg.full (y.addr .sp a ofs l / 4)))
  | .engwait _ m => (s.core c).waited x.uid m
  | .cxfill _ _ _ _ _ => true
  | .ld _ _ _ _ _ _ _ | .atom _ _ _ _ _ _ _ _ _ | .atomCas _ _ _ _ _ _ _ _ => false
  | i => queuesReady wg i

/-- The lanes of a wait whose data comes through the window: address operand, offset, size in bytes. -/
def winWait : Instr → Option (Ctl × Space × Opnd × BitVec 24 × Acc)
  | .ld c sp _ _ x _ a => some (c, sp, a, x.ofs, .r)
  | .atom c _ sp _ _ x _ a _ => some (c, sp, a, x.ofs, .w)
  | .atomCas c sp _ x _ a _ _ => some (c, sp, a, x.ofs, .w)
  | .swwait c sp x a _ => some (c, sp, a, x.ofs, .r)
  | _ => none

/-- Lands the answers of a window wait in the registers of its lanes (R259). -/
def Iss.answer (x : Iss) (s : State) (lanes : DWord) (f : Nat → Nat) : State :=
  match x.i with
  | .ld _ _ sz sx _ d _ => x.landSz s lanes sz sx d f
  | .atom _ _ _ sz _ _ d _ _ => x.landSz s lanes sz false d f
  | .atomCas _ _ sz _ d _ _ _ => x.landSz s lanes sz false d f
  | _ => s

/-- Lanes whose answers let them complete: all, but for a SWWAIT those whose word is reached or aborted; with the latter apart. -/
def answered (i : Instr) (x : Iss) (vals : List (Nat × Nat)) : DWord × Bool :=
  match i with
  | .swwait _ _ _ _ b =>
    let ok := vals.filter (fun v => let w := SWord.ofNat v.2; w.reached (x.w32 b v.1 % 65536) || w.abort)
    (maskOf (ok.map Prod.fst), ok.any (fun v => (SWord.ofNat v.2).abort))
  | _ => (maskOf (vals.map Prod.fst), false)

/-- Answers that come through the window: lane and value as two halves. The lanes done enter the mask; the group wakes by its own event, so that it may be saved with
every lane done (R218, R258, R259). A lost session wakes it (R267). -/
def State.arrive (s : State) (c g : Nat) (w : Wake) (vals : List (Nat × Nat)) : Option State :=
  match winWait w.instr with
  | none => none
  | some (ctl, sp, a, ofs, acc) => match s.waitIss c g w ctl with
    | none => none
    | some y =>
      let win := (lanesOf y.todo).filter (fun l => inGlobal sp && (y.window acc (y.addr sp a ofs l)).isSome)
      let lost := win.any (fun l => y.lostAt acc (y.addr sp a ofs l))
      if !vals.all (fun v => win.contains v.1 && !y.lostAt acc (y.addr sp a ofs v.1)) then none
      else if vals.isEmpty && !lost then none
      else
        let r := answered w.instr y vals
        let w' : Wake := { w with done := w.done ||| r.1, abort := w.abort || r.2 }
        let s' := y.answer y.s r.1 (fun l => (Tab.get vals l).getD 0)
        some ({ s'.modGrp c g (fun x => if lost then { x with status := .runnable, kept := some (.blocked w') } else { x with status := .blocked w', kept := none }) with cur := none })

/-- BLOCKED_WAKE (R219): the wake condition holds, or answers arrive through the system window (arrive: lane, low and high half). -/
def execBlockedWake (core g : Nat) (arrive : List (Nat × DWord × DWord)) (s : State) : Out :=
  event (match s.grp core g with
    | none => none
    | some x => match x.status, (s.core core).wgOf x.wg with
      | .blocked w, some (_, wg) =>
        if arrive = [] ∧ s.wakes core g x wg w = true then some (s.modGrp core g (fun y => { y with status := .runnable, kept := some (.blocked w) }))
        else s.arrive core g w (arrive.map (fun e => (e.1, e.2.1.toNat + 2 ^ 64 * e.2.2.toNat)))
      | _, _ => none)

end Sys2Proof.Machine
end

