-- ==== Sys2Proof/Machine/Recovery.lean ====
section
/-! DEFINITION. Recovery: imprecise traps, translation faults, halts, frames, audits, eviction and restore, soft errors (R25, R86, R220 to R222,
R249 to R266). -/
namespace Sys2Proof.Machine
open Sys2Proof

/-! Imprecise traps (R249, R253, R386). -/

/-- Whether R249 gives a trap number as precise: a marked one then names the instruction that issued the engine operation (opTrap, log 48: DEDUCED). -/
def TrapInfo.precise (t : TrapInfo) : Bool := decide (0x09 ≤ t.no.toNat) && decide (t.no.toNat ≤ 0x0C)
/-- A marked trap as its group takes it at the pick of an entry, which supplies the PC of an imprecise one (R253). -/
def TrapInfo.atPick (t : TrapInfo) (e : Entry) : TrapInfo :=
  if t.precise then t else { t with pc := e.pc, fmask := if t.no = 0x22 then t.fmask else e.mask }
/-- A group takes its first marked trap at its pick; a wait that it was to go on with is kept. -/
def State.takeMarked (s : State) (c g : Nat) (x : Group) (t : TrapInfo) : State :=
  let s := s.modGrp c g (fun y => { y with imprec := y.imprec.drop 1, status := y.kept.getD y.status })
  match x.pick with
  | some e => s.takeTrap c g (t.atPick e)
  | none => s

/-- The first marked trap of a group that is to pick. -/
def State.marked (s : State) (c g : Nat) : Option (Group × TrapInfo) :=
  match s.grp c g with
  | some x => if g < 32 ∧ x.status = .runnable then x.imprec.head?.map (fun t => (x, t)) else none
  | none => none

/-- IMPRECISE_TRAP (R220, R222, R249, R266). -/
def execImpreciseTrap (core g : Nat) (s : State) : Out :=
  event (match s.marked core g with
    | some (x, t) => if t.no = 0x22 then none else some (s.takeMarked core g x t)
    | none => none)

/-- WALK_FAULT_TRAP (R386). -/
def execWalkFaultTrap (core g : Nat) (s : State) : Out :=
  event (match s.marked core g with
    | some (x, t) => if t.no = 0x22 then some (s.takeMarked core g x t) else none
    | none => none)

/-! Translation faults (R86, R257). -/

/-- Whether an address lies in a page that is not present. -/
def State.absentAt (s : State) (ctx : Nat) (a : DWord) : Bool := s.translate ctx .r a.toNat == .absent

/-- Whether a resolution (ok) or a refusal takes effect for a parked group. -/
def Park.ends (p : Park) (ok absent : Bool) : Bool := p.late == some ok || (p.late == none && absent != ok)

/-- A resolution or a refusal for a group: while its workgroup is halted it waits for RFT. -/
def State.groupFault (s : State) (c g : Nat) (ok : Bool) : Option State :=
  match s.grp c g with
  | none => none
  | some x =>
    let ctx := match (s.core c).wgOf x.wg with | some (_, w) => w.ctx | none => 256
    match x.status, x.kept with
    | .parked p, _ =>
      if !p.ends ok (s.absentAt ctx p.addr) then none
      else if ok then some (s.modGrp c g (fun y => { y with status := .runnable, kept := some (.parked { p with late := none }) }))
      else some ((s.modGrp c g (fun y => { y with status := .runnable })).takeTrap c g { no := 0x0C, sub := 0, pc := p.pc, addr := p.addr, fmask := p.mask })
    | .trapped, some (.parked p) =>
      if p.late.isSome || s.absentAt ctx p.addr == ok then none
      else some (s.modGrp c g (fun y => { y with kept := some (.parked { p with late := some ok }) }))
    | _, _ => none

/-- A refusal for an engine operation parked as a whole: FETCH, copies and residency fills abort their word (R340), the others end without
completion, with trap 0x0C marked for their group. -/
def State.refuseOp (s : State) (c : Nat) (o : EngOp) : State :=
  match o.kind with
  | .fetch _ _ _ _ _ _ | .copy _ _ _ _ _ _ _ _ _ => (s.opAbort c o).dropOp c o.id
  | .resid e va n cloff _ => s.fillFail c o e va n cloff
  | _ => s.engEnd c o (opTrap 0x0C 0 o.pc (o.parked.getD 0))

/-- A resolution or a refusal for an engine operation: lane names the walk or bag of a WALK or an IRED. -/
def State.opFault (s : State) (c : Nat) (o : EngOp) (lane : Nat) (ok : Bool) : Option State :=
  match o.kind with
  | .walk p ls => match ls.find? (fun w => w.lane == lane && w.parked), (ls.find? (fun w => w.lane == lane && w.parked)).bind WLane.want with
    | some _, some a =>
      if s.absentAt o.ctx a == ok then none
      else
        let f (w : WLane) : WLane := if ok then { w with parked := false } else WLane.fail { w with parked := false } p.pol 3
        some (s.modOp c o.id (fun o => { o with kind := .walk p (modLane ls lane f) }))
    | _, _ => none
  | .ired acc bf16 tab bags => match (bags.find? (fun b => b.lane == lane)).bind Bag.parked with
    | some a =>
      if s.absentAt o.ctx a == ok then none
      else if ok then
        some (s.modOp c o.id (fun o => { o with kind := .ired acc bf16 tab (bags.map (fun b => if b.lane = lane then { b with parked := none } else b)) }))
      else
        let rest := bags.filter (fun b => b.lane != lane)
        some ((s.opAbort c o).putOp c o.id (if rest.isEmpty then none else some { o with kind := .ired acc bf16 tab rest }))
    | none => none
  | _ => match o.parked with
    | some a =>
      if s.absentAt o.ctx a == ok then none
      else if ok then some (s.modOp c o.id (fun o => { o with parked := none }))
      else some (s.refuseOp c o)
    | none => none

/-- A resolution or a refusal for the oven operation at the head of the queue. -/
def State.ovenFault (s : State) (c : Nat) (o : OvenOp) (ok : Bool) : Option State :=
  match o.parked with
  | some a =>
    if s.absentAt o.ctx a == ok then none
    else if ok then some (s.putOven c { o with parked := none })
    else some (s.ovenEnd c o (opTrap 0x0C 0 o.pc a))
  | none => none

/-- A resolution or a refusal. Numbers below 32 are group slots; 64 + 64 * id + lane names an engine operation. -/
def State.fault (s : State) (c g : Nat) (ok : Bool) : Option State :=
  if g < 32 then s.groupFault c g ok
  else if g < 64 then none
  else match (s.core c).op ((g - 64) / 64) with
    | some o => s.opFault c o ((g - 64) % 64) ok
    | none => match (s.core c).ovenQ with
      | o :: _ => if o.id = (g - 64) / 64 then s.ovenFault c o ok else none
      | [] => none

/-- FAULT_RESOLVED (R86, R257, R340). -/
def execFaultResolved (core g : Nat) (s : State) : Out := event (s.fault core g true)
/-- FAULT_UNRESOLVED (R257, R340). -/
def execFaultUnresolved (core g : Nat) (s : State) : Out := event (s.fault core g false)

/-! Halts and frames (R251 to R255). -/

/-- SIBLING_HALT (R251): a wait is kept. -/
def execSiblingHalt (core g : Nat) (s : State) : Out :=
  event (match s.grp core g with
    | none => none
    | some x => match (s.core core).wgOf x.wg with
      | none => none
      | some (_, w) => match w.halt, w.handler with
        | some _, none =>
          if 32 ≤ g ∨ x.status = .trapped then none
          else
            let keep : Option GStatus := match x.status with | .blocked _ | .parked _ => some x.status | _ => x.kept
            some (s.modGrp core g (fun y => { y with status := .trapped, kept := keep, trap := some { no := 0, sub := 0, pc := (match x.pick with | some e => e.pc | none => 0), addr := 0, fmask := 0 } }))
        | _, _ => none)

/-- TRAP_FRAME_WRITE (R250, R253 to R255). -/
def execTrapFrameWrite (core wg : Nat) (s : State) : Out :=
  event (match (s.core core).wgOf wg with
    | some (ws, w) => match w.halt, w.handler with
      | some h, none => if (s.core core).stopped wg then some (s.handle core ws w h.init) else none
      | _, _ => none
    | none => none)

/-! The queue audit (R221, R222). -/

/-- Queues of a workgroup whose permits and occupied slots do not equal the depth. -/
def Workgroup.lostPermits (w : Workgroup) : List Nat :=
  (List.range 8).filter (fun n => let q := w.queue n; q.kind != 0 && q.permits + q.occ != q.depth)

/-- Marks the lost-permit trap for the lowest live group. -/
def State.auditWg (s : State) (c : Nat) (w : Workgroup) : State :=
  w.lostPermits.foldl (fun s n => match (s.core c).lowest w.uid with
    | some (g, _) => s.modGrp c g (fun x => { x with imprec := x.imprec ++ [impTrap 0x0F n] })
    | none => s) s

/-- QUEUE_AUDIT (R221, R222). -/
def execQueueAudit (core : Nat) (s : State) : Out :=
  let s1 := (s.core core).wgs.foldl (fun s e => s.auditWg core e.2) s
  .next (s1.modCore core (fun k => { k with audits := k.audits + 1 }))

/-! Save images (R68, R77, R260, R261). -/

/-- Segments in order, numbered from 0. -/
def numbered (xs : List (Nat × Nat × List Byte)) : List Segment := (xs.zip (List.range xs.length)).map (fun e => Segment.make e.1.1 e.1.2.1 e.2 e.1.2.2)

/-- Code of a role (R68). -/
def Role.code : Role → Nat | .copy => 0 | .matrix => 1 | .vector => 2

/-- A frontier entry of the group image (R68). -/
def Entry.image (e : Entry) : List Byte := toLE 8 e.pc.toNat ++ toLE 8 e.mask.toNat ++ toLE 2 e.pri.toNat ++ toLE 1 e.age ++ toLE 13 0

/-- The group image from 0x000 up to v0 (R68); the images of cursors are opaque (R381). R68 gives no bytes of the frontier region beyond its entries: they are zeros here
(log 71: DESIGN CHOICE). -/
def Group.image (g : Group) (nonce : Nat) : List Byte :=
  let lanes : List Nat := List.range g.width
  let head := toLE 64 (g.width + 2 ^ 8 * g.nregs + 2 ^ 24 * g.role.code + 2 ^ 26 * (g.fr.length - 1) + 2 ^ 32 * g.off)
  head ++ (List.range 64).flatMap (fun n => toLE 8 (g.s? n).toNat) ++ (List.range 7).flatMap (fun n => toLE 8 (g.p? n).toNat) ++ toLE 8 g.padm.toNat
    ++ toLE 4 g.fpc.toNat ++ toLE 4 g.gctl.toNat ++ toLE 8 g.gstat.toNat ++ (List.range 64).map (Config.freeByte nonce) ++ toLE 48 0
    ++ (g.fr ++ List.replicate (g.width - g.fr.length) ({ pc := 0, pri := 0, mask := 0, age := 0 } : Entry)).flatMap Entry.image
    ++ (List.range 64).flatMap (fun l => toLE 1 (if l < g.width then (g.fl? l).toNat else 0))
    ++ (List.range 8).flatMap (fun n => lanes.flatMap (fun l => toLE 4 (g.o? n l).toNat))
    ++ (List.range 2).flatMap (fun n => lanes.flatMap (fun l => toLE 4 (g.q? n l).toNat))

/-- A granule of a group (R261): row r and lane column c. -/
def Group.granule (g : Group) (r c : Nat) : List Byte :=
  (List.range 8).flatMap (fun n => (List.range 8).flatMap (fun l => toLE 4 (g.v? (8 * r + n) (8 * c + l)).toNat))

/-- The granule segments of a group in ascending INDEX. -/
def Group.granules (g : Group) : List (Nat × Nat × List Byte) :=
  (List.range (g.nregs / 8)).flatMap (fun r => (List.range (g.width / 8)).map (fun c => (0x0A, r * (g.width / 8) + c, g.granule r c)))

/-- A winner list's 144-byte image (R77). -/
def WList.segment (l : WList) : List Byte :=
  toLE 4 l.ents.length ++ toLE 4 (l.k + 65536 * l.abs.toNat) ++ toLE 4 l.tot.toNat ++ toLE 4 l.sel.toNat
    ++ (List.range 16).flatMap (fun e => match l.ents[e]? with | some (v, i) => toLE 4 v.toNat ++ toLE 4 i.toNat | none => toLE 8 0)

/-- A scratchpad unit: 4 KiB of data, then its tags, word i in bit i. -/
def Workgroup.unitImage (w : Workgroup) (u : Nat) : List Byte :=
  w.spBytes (4096 * u) 4096
    ++ (List.range 128).map (fun b => BitVec.ofNat 8 (((List.range 8).filter (fun i => w.tags.contains (1024 * u + 8 * b + i))).map (fun i => 2 ^ i)).sum)

/-- The payload of a segment whose layout is not given: free bytes, at most 64 KiB of them (log 3, log 67: DESIGN CHOICE). -/
def openBytes (kind nonce : Nat) : List Byte := (Config.segBytes kind nonce).take 65536

/-- The segments of an image in the order of R261. -/
def segsOf (w : Workgroup) (grps : Tab Group) (banks : Tab Bank) (lists : Tab WList) (racks : List (Nat × Rack)) (nonce : Nat) : List Segment :=
  numbered ([(0x01, 0, openBytes 1 nonce)]
    ++ (List.range w.rec_.tiles).map (fun t => (0x02, t, w.tmBytes (4096 * t) 4096))
    ++ banks.map (fun b => (0x03, b.1, (List.range 1536).flatMap (fun i => toLE 4 (b.2.elem i)) ++ openBytes 3 (nonce + b.1)))
    ++ banks.map (fun b => (0x04, b.1, (List.range 8).flatMap (fun j => ((Tab.get lists (8 * b.1 + j)).getD WList.empty).segment)))
    ++ racks.map (fun r => (0x05, r.1, r.2.payload))
    ++ (List.range (w.rec_.scratch / 4096)).map (fun u => (0x06, u, w.unitImage u))
    ++ [(0x07, 0, openBytes 7 nonce), (0x08, 0, openBytes 8 nonce)]
    ++ grps.flatMap (fun g => (0x09, g.1, g.2.image nonce) :: g.2.granules))

/-! Eviction (R258, R259). -/

/-- Whether a lane of a blocked group waits for an answer that it asked for through the window (R258). -/
def State.asked (s : State) (c g : Nat) (w : Wake) : Bool :=
  match w.instr with
  | .swwait _ _ _ _ _ => false
  | i => match winWait i with
    | none => false
    | some (ctl, sp, a, ofs, acc) => match s.waitIss c g w ctl with
      | some y => (lanesOf y.todo).any (fun l => inGlobal sp && (y.window acc (y.addr sp a ofs l)).isSome && !y.lostAt acc (y.addr sp a ofs l))
      | none => false

/-- Whether an engine operation goes on after its workgroup is evicted (R258): it writes no on-core state. Its reads of the scratchpad and its completion find
them in the save image. -/
def EngOp.leaves (o : EngOp) : Bool :=
  match o.kind with
  | .copy _ dst _ _ _ _ _ _ _ => decide (dst = .dgl) || decide (dst = .dcl)
  | .resid _ _ _ _ _ | .ired _ _ _ _ => true
  | _ => false

/-- Whether an operation lands in a workgroup. -/
def EngOp.landsIn (o : EngOp) (wg : Nat) : Bool := match o.kind with | .copy _ _ _ _ _ _ _ _ rcv => rcv.any (fun r => r.wg == wg) | _ => false

/-- Whether a workgroup may be evicted (R258); while a rotation is pending, only one of a migratable launch (R228, R230). Granules that are still to be filled are filled
first (R263, log 68: DEDUCED). -/
def State.evictable (s : State) (c : Nat) (w : Workgroup) : Bool :=
  let k := s.core c
  (!s.rotating (c / 128) || (match Tab.get s.launches w.launch with | some l => l.mig | none => false)) &&
  w.halt.isNone
    && k.grps.all (fun e => e.2.wg != w.uid || decide (e.1 ≥ 32) || (match e.2.status with | .blocked b => !s.asked c e.1 b && e.2.absent.isEmpty | _ => false))
    && k.ovenQ.all (fun o => o.wg != w.uid) && k.eng.all (fun o => o.wg != w.uid || o.leaves)
    && (List.range 8).all (fun j => (s.core (8 * clusterOf c + j)).eng.all (fun o => !o.landsIn w.uid || o.leaves))

/-- A group as it is saved: one blocked at a CXFILL discards the data that it has read (R258). -/
def Group.saved (x : Group) : Group :=
  match x.status with
  | .blocked w => match w.instr with
    | .cxfill _ _ _ _ _ => { x with cur := x.cur.map (fun k => { k with seen := [] }) }
    | _ => x
  | _ => x

/-- Whether a context's HBM has a block for an image at an address: granted, mapped by no page, and no other image's, nor one from which granules are still to be
filled (R237, R260, R263). -/
def State.imageRoom (s : State) (ctx pa : Nat) : Bool :=
  pa % imageSpan == 0 && !isHole pa && !isHole (pa + imageSpan - 1)
  && (match Tab.get s.ctxs ctx with | some x => x.grants.any (fun g => decide (g.1 ≤ pa) && decide (pa + imageSpan ≤ g.1 + g.2)) | none => false)
  && s.ctxs.all (fun x => x.2.pages.all (fun p => !meet p.pa p.size pa imageSpan)) && s.images.all (fun im => im.at_ != pa)
  && s.cores.all (fun k => k.2.grps.all (fun g => g.2.absent.all (fun e => !(decide (pa ≤ e.2.1) && decide (e.2.1 < pa + imageSpan)))))
/-- Bytes of an image. -/
def Image.size (im : Image) : Nat := (im.segs.map (fun g => 16 + g.data.length)).sum

/-- The image of a workgroup on a core, for an address in HBM. -/
def State.imageOf (s : State) (c : Nat) (w : Workgroup) (pa : Nat) : Image :=
  let k := s.core c
  let grps := (k.grps.filter (fun e => e.2.wg == w.uid && decide (e.1 < 32))).map (fun e => (e.1, e.2.saved))
  let banks := k.banks.filter (fun e => e.2.owner == some w.uid)
  let lists := k.lists.filter (fun e => banks.any (fun b => b.1 == e.1 / 8))
  let racks := [(0, k.active), (1, k.shadow)].filter (fun r => r.2.owner == some w.uid)
  let mine (e : Store × Nat) : Bool := banks.any (fun b => (decide (e.1 = .bank) && b.1 == e.2 / 1536) || (decide (e.1 = .winner) && b.1 == e.2 / 288))
  { at_ := pa, segs := segsOf w grps banks lists racks s.fresh, wg := w, grps := grps, banks := banks, lists := lists, racks := racks,
    items := k.items.filter (fun i => i.wg == w.uid), core := c, poison := k.poison.filter mine }

/-- The context DMA engine writes an image (R223, R260). -/
def State.saveImage (s : State) (c : Nat) (im : Image) : State :=
  (s.request im.wg.ctx (clusterOf c) im.wg.tc s.fresh (sectorsAt im.at_ im.size)).hbmWrite (s.ownKey im.wg.ctx) im.at_ (im.segs.flatMap Segment.bytes)

/-- WORKGROUP_EVICTION (R258 to R261): of the workgroup wg.1, into its context's HBM at wg.2. -/
def execWorkgroupEviction (core : Nat) (wg : Nat × Nat) (s : State) : Out :=
  event (match (s.core core).wgOf wg.1 with
    | some (_, w) =>
      if s.evictable core w && s.imageRoom w.ctx wg.2 then
        let im := s.imageOf core w wg.2
        let s := (s.saveImage core im).modCore core (fun k => Core.drop { k with
          grps := k.grps.filter (fun e => e.2.wg != wg.1 || decide (e.1 ≥ 32)), poison := k.poison.filter (fun e => !im.poison.contains e) } wg.1)
        some { s with images := s.images ++ [im], fresh := s.fresh + 16 }
      else none
    | none => none)

/-! Restore (R259, R262, R263). -/

/-- A segment of an image as a restore comes to it: where it stands, what it reads there and whether the check fails; or a granule that is left to fill. -/
structure SegRead where
  at_  : Nat
  seg  : Option Segment
  bad  : Bool
  deriving DecidableEq, Repr

/-- The segments of an image from an address on, number i first, in the order in which they were written; lazy: the granules are left (R263). -/
def State.readSegs (s : State) (key : Nat) (lazy : Bool) : List Segment → Nat → Nat → List SegRead
  | [], _, _ => []
  | w :: r, i, a =>
    if lazy && w.kind == 0x0A then { at_ := a, seg := none, bad := false } :: s.readSegs key lazy r (i + 1) (a + granuleSpan)
    else
      let g := s.segAt key a
      { at_ := a, seg := some g, bad := s.segFails a i g } :: s.readSegs key lazy r (i + 1) (a + 16 + g.len)

/-- The segments of an image as the restore reads them in HBM, under the owner's key (R232, R262); for class 0 the granules are read later (R263). -/
def State.imageSegs (s : State) (im : Image) (lazy : Bool) : List SegRead := s.readSegs (s.ownKey im.wg.ctx) lazy im.segs 0 im.at_

/-- Whether the segments of an image stop its restore (R262). -/
def segsStop (xs : List SegRead) : Bool :=
  xs.any (fun e => match e.seg with | some g => decide (g.kind = 0) || decide (g.kind > 0x0A) || e.bad | none => false)
/-- Whether the image's restore stops (R262). -/
def State.corrupt (s : State) (im : Image) (lazy : Bool) : Bool := segsStop (s.imageSegs im lazy)

/-- The granules that are left to fill, by group: numbered after the 0x09 segment of their group, with address and SEQ. acc: those of the group before; k: the SEQ. -/
def granLists : List (Segment × SegRead) → Nat → List (Nat × Nat × Nat) → List (List (Nat × Nat × Nat))
  | [], _, acc => [acc]
  | (w, e) :: r, k, acc =>
    if w.kind = 0x09 then acc :: granLists r (k + 1) []
    else granLists r (k + 1) (if e.seg.isNone then acc ++ [(acc.length, e.at_, k)] else acc)

/-- The granules of the groups of an image that a restore of class 0 leaves to fill, by group. -/
def State.absentOf (s : State) (im : Image) (lazy : Bool) : List (List (Nat × Nat × Nat)) := if lazy then (granLists (im.segs.zip (s.imageSegs im true)) 0 []).drop 1 else []

/-! What a segment that is not the one written restores (log 79: DESIGN CHOICE). -/

/-- A field of a payload. -/
def fieldAt (bs : List Byte) (o n : Nat) : Nat := fromLE ((bs.drop o).take n)

/-- A granule's registers (R261). -/
def Group.putGranule (g : Group) (k : Nat) (bs : List Byte) : Group :=
  let r := k / (g.width / 8)
  let c := k % (g.width / 8)
  (List.range 8).foldl (fun g n => (List.range 8).foldl (fun (g : Group) l => g.setV (8 * r + n) (8 * c + l) (BitVec.ofNat 32 (fieldAt bs (32 * n + 4 * l) 4))) g) g
/-- A group image (R68); a cursor whose bytes are not those written is no cursor (R381). -/
def Group.putImage (g : Group) (old bs : List Byte) : Group :=
  let f := fieldAt bs
  let w := g.width
  let fr := (List.range (bits (f 0 8) 31 26 + 1)).foldl (fun l i =>
    let o := 0x300 + 32 * i
    insertEntry l { pc := BitVec.ofNat 64 (f o 8), mask := BitVec.ofNat 64 (f (o + 8) 8), pri := BitVec.ofNat 16 (f (o + 16) 2), age := min 64 (f (o + 18) 1) }) []
  let lanes (o n : Nat) : RegFile := (List.range n).flatMap (fun r => (List.range w).map (fun l => (64 * r + l, BitVec.ofNat 32 (f (o + 4 * (w * r + l)) 4))))
  { g with
    fr := fr, s := (List.range 64).map (fun n => (n, BitVec.ofNat 64 (f (0x40 + 8 * n) 8))), p := (List.range 7).map (fun n => (n, BitVec.ofNat 64 (f (0x240 + 8 * n) 8))),
    padm := BitVec.ofNat 64 (f 0x278 8), fpc := BitVec.ofNat 32 (f 0x280 4), gctl := BitVec.ofNat 32 (f 0x284 4), gstat := BitVec.ofNat 64 (f 0x288 8),
    cur := g.cur.zipIdx.map (fun e => if fieldAt old (0x290 + 16 * e.2) 16 = f (0x290 + 16 * e.2) 16 then e.1 else Cursor.empty),
    vfl := (List.range w).map (fun l => (l, BitVec.ofNat 5 (f (0x300 + 32 * w + l) 1))), o := lanes (0x340 + 32 * w) 8, q := lanes (0x340 + 64 * w) 2 }
/-- A winner list (R77). -/
def listOf (bs : List Byte) : WList :=
  let f := fieldAt bs
  { WList.empty with
    k := f 4 4 % 65536, abs := (f 4 4).testBit 16, tot := BitVec.ofNat 32 (f 8 4), sel := BitVec.ofNat 32 (f 12 4),
    ents := (List.range (min 16 (f 0 4))).map (fun i => (BitVec.ofNat 32 (f (16 + 8 * i) 4), BitVec.ofNat 32 (f (20 + 8 * i) 4))) }

/-- An image after a segment that was not as written: what its payload says, in the kinds whose layout R68, R77 and R261 give; in the others what they hold is
undefined. at_ numbers the group and its granule; old: the payload written. -/
def Image.put (im : Image) (nonce grp gran : Nat) (old : List Byte) (g : Segment) : Image :=
  let bs := g.data
  let i := g.index
  let atGrp (f : Group → Group) : Tab Group := im.grps.zipIdx.map (fun e => if e.2 = grp then (e.1.1, f e.1.2) else e.1)
  match g.kind with
  | 0x01 => { im with wg := { im.wg with tvec := Config.freeDWord nonce 0, tframe := Config.freeDWord nonce 1, rail := Config.freeBool nonce 2 } }
  | 0x02 => { im with wg := { im.wg with tiles := Cells.write im.wg.tiles (4096 * i) (bs.take 4096) } }
  | 0x03 => { im with banks := Tab.upd im.banks i (fun b =>
      let es : Tab Word := (List.range 1536).map (fun n => (n, BitVec.ofNat 32 (fieldAt bs (4 * n) 4)))
      let b : Bank := { b with elems := es, fill := none }
      if old.drop 6144 = bs.drop 6144 then b
      else { b with status := BitVec.ofNat 7 (Config.freeWord nonce i).toNat,
                    mode := if Config.freeBool nonce (2 * i) then .unset else if Config.freeBool nonce (2 * i + 1) then .fp32 else .int32 }) }
  | 0x04 => { im with lists := (List.range 8).foldl (fun t j => Tab.set t (8 * i + j) (listOf ((bs.drop (144 * j)).take 144))) im.lists }
  | 0x05 => { im with racks := Tab.upd im.racks i (fun r => r.ofPayload bs) }
  | 0x06 => { im with wg := { im.wg with
      scratch := Cells.write im.wg.scratch (4096 * i) (bs.take 4096)
      tags := im.wg.tags.filter (fun t => decide (t < 1024 * i)) ++ ((List.range 1024).filter (fun t => (fieldAt bs (4096 + t / 8) 1).testBit (t % 8))).map (1024 * i + ·)
        ++ im.wg.tags.filter (fun t => decide (t ≥ 1024 * (i + 1))) } }
  | 0x07 => { im with wg := { im.wg with queues := im.wg.queues.zipIdx.map (fun e =>
      { e.1 with permits := (Config.freeWord nonce e.2).toNat % 65,
                 slots := e.1.slots.zipIdx.map (fun x => { x.1 with vals := x.1.vals.zipIdx.map (fun v => Config.freeDWord nonce (2 ^ 20 + 2 ^ 14 * e.2 + 64 * x.2 + v.2)) }) }) } }
  | 0x08 => { im with items := im.items.zipIdx.map (fun e => { e.1 with p0 := Config.freeWord nonce (2 ^ 24 + 2 * e.2), p1 := Config.freeWord nonce (2 ^ 24 + 2 * e.2 + 1) }) }
  | 0x09 => { im with grps := atGrp (fun x => x.putImage old bs) }
  | _ => { im with grps := atGrp (fun x => x.putGranule gran bs) }

/-- An image as its segments were read: one that stands as it was written holds what was saved. grp: the 0x09 segments so far; gran: the granules since the last. -/
def Image.asRead (nonce : Nat) : List (Segment × SegRead) → Nat → Nat → Image → Image
  | [], _, _, im => im
  | (w, e) :: r, grp, gran, im =>
    let im := match e.seg with
      | some g => if g = w then im else im.put nonce (if g.kind = 0x09 then grp else grp - 1) gran w.data g
      | none => im
    if w.kind = 0x09 then im.asRead nonce r (grp + 1) 0 else im.asRead nonce r grp (if w.kind = 0x0A then gran + 1 else gran)
/-- An image as a restore finds it in HBM (R260, R262). -/
def State.imageAsRead (s : State) (im : Image) (lazy : Bool) : Image := im.asRead s.fresh (im.segs.zip (s.imageSegs im lazy)) 0 0

/-- A workgroup and its groups as they are seated again. -/
structure Seating where
  wg   : Workgroup
  grps : List (Nat × Group)

/-- The seating of an image at places: slot, lane offset and first row of each group, then of the reserve; absent: the granules still to fill. -/
def Image.seating (im : Image) (order : Nat) (absent : List (List (Nat × Nat × Nat))) (place : List (Nat × Nat × Nat)) : Seating :=
  let at_ (i : Nat) : Nat × Nat × Nat := (place[i]?).getD (0, 0, 0)
  let n := im.grps.length
  let grps := (im.grps.zip (List.range n)).map (fun e =>
    let p := at_ e.2
    (p.1, { e.1.2.settled with off := p.2.1, row := p.2.2, pass := [0, 0, 0], absent := (absent[e.2]?).getD [] }))
  { wg := { im.wg with order := order, rr := [], fetched := [], reserve := im.wg.reserve.map (fun r =>
      match (im.grps.zip (List.range n)).find? (fun e => e.1.1 == r.1) with | some e => at_ e.2 | none => at_ n) }, grps := grps }

/-- Whether the places of a workgroup and its groups are free together on a core. reserve: with the spawn reserve's block. -/
def Core.placeable (k : Core) (ctx : Nat) (grps : List (Nat × Blk)) : Bool :=
  grps.all (fun g => k.freeSlot none g.1 && k.freeBlk ctx none g.2)
    && decide ((grps.map Prod.fst).eraseDups.length = grps.length)
    && (List.range grps.length).all (fun i => (List.range i).all (fun j => match grps[i]?, grps[j]? with | some a, some b => !a.2.meets b.2 | _, _ => true))

/-- The reserve of a workgroup as a place, unless one of its groups runs in it. -/
def Workgroup.spareAt (w : Workgroup) (used : List Nat) : List (Nat × Blk) :=
  match w.reserve with
  | some r => if used.contains r.1 then [] else [(r.1, { off := r.2.1, width := w.rec_.spw, row := r.2.2, rows := rowsFor w.rec_.spareRegs })]
  | none => []

/-- The highest level below n, from 3 on, of a domain. -/
def LRec.below (r : LRec) (n d : Nat) : Option Nat := (List.range n).reverse.find? (fun m => decide (3 ≤ m) && decide (((r.levels[m]?).getD (0, 0)).1 = d))
/-- Coordinates, from its level up, of the unit of the highest level of core domain that holds a workgroup (R42). -/
def LRec.coreUnit (r : LRec) (lvl : List Nat) : Option (List Nat) := (r.below r.levels.length 2).map (fun c => lvl.drop (c - 2))
/-- Whether a core is the one of a workgroup's core-domain unit, if that has one yet (R42). -/
def State.oneCore (s : State) (c : Nat) (w : Workgroup) : Bool :=
  match w.rec_.coreUnit w.lvl, Tab.get s.launches w.launch with
  | some u, some l => (match l.seats.find? (fun e => e.1 == u) with | some e => e.2 == c % 8 | none => true)
  | _, _ => true

/-- The clearing of a core on a change of owner (R233): all but what workgroups in a reservation hold. -/
def State.clearCore (s : State) (c ctx : Nat) (need : Amt) (bs : List Blk) : State :=
  s.modCore c (fun k => if k.owner = some (s.ownerOf ctx) ∨ k.inResv ctx need bs = true then k
    else
      let live (u : Option Nat) : Bool := k.wgs.any (fun e => u == some e.2.uid)
      let bank (i : Nat) : Bool := live ((Tab.get k.banks i).bind Bank.owner)
      { k with owner := some (s.ownerOf ctx), active := if live k.active.owner then k.active else Rack.empty,
               shadow := if live k.shadow.owner then k.shadow else Rack.empty, banks := k.banks.filter (fun b => live b.2.owner),
               lists := k.lists.filter (fun l => bank (l.1 / 8)), items := k.items.filter (fun i => live (some i.wg)), fcache := [],
               poison := k.poison.filter (fun e => bank (if e.1 = .winner then e.2 / 288 else e.2 / 1536)) })

/-- Items of the proofer that an image holds, those of groups formed and not admitted among them (R51). -/
def Image.itemCount (im : Image) : Nat := im.items.length + (im.wg.formed.map (fun f => f.2.2.length)).sum

/-- Whether the admission of a workgroup is into resources that are reserved for its class-0 context (R214, R246). -/
def Core.reserved (k : Core) (w : Workgroup) (need : Amt) (bs : List Blk) : Bool := w.tc == 0 && k.inResv w.ctx need bs
/-- Whether a hold lets a core admit a workgroup (R214). -/
def Core.opens (k : Core) (w : Workgroup) (need : Amt) (bs : List Blk) : Bool := k.hold.isNone || k.hold == some w.uid || k.reserved w need bs

/-- Whether the banks and racks of an image are free on a core. -/
def Core.ovenFree (k : Core) (im : Image) : Bool :=
  im.banks.all (fun b => (k.bank b.1).owner.isNone) && im.racks.all (fun r => if r.1 = 0 then k.active.owner.isNone else k.shadow.owner.isNone)

/-- The image's workgroup is seated on a core (R258, R259), for the sectors that were read of it (R223); the operations it left running follow it. -/
def State.restore (s : State) (c slot : Nat) (im : Image) (secs : List Nat) (st : Seating) (need : Amt) (bs : List Blk) : State :=
  let s := s.clearCore c im.wg.ctx need bs
  let s := s.request im.wg.ctx (clusterOf c) im.wg.tc s.fresh secs
  let left := (s.core im.core).eng.filter (fun o => o.wg == im.wg.uid)
  let s := s.modCore im.core (fun k => { k with eng := k.eng.filter (fun o => o.wg != im.wg.uid) })
  let rack (i : Nat) (r : Rack) : Rack := match Tab.get im.racks i with | some x => x | none => r
  let s := s.modCore c (fun k => { k with
    wgs := Tab.set k.wgs slot st.wg, grps := st.grps.foldl (fun t g => Tab.set t g.1 g.2) k.grps, eng := k.eng ++ left, items := k.items ++ im.items,
    banks := im.banks.foldl (fun t b => Tab.set t b.1 b.2) k.banks, lists := im.lists.foldl (fun t l => Tab.set t l.1 l.2) k.lists,
    active := rack 0 k.active, shadow := rack 1 k.shadow, poison := k.poison ++ im.poison })
  s.auditWg c st.wg

/-- WORKGROUP_RESTORE (R221, R226, R228, R230, R259, R262, R263): img numbers the images; place gives each live group's slot, lane offset and first
row, then the spawn reserve's. -/
def execWorkgroupRestore (img core slot : Nat) (place : List (Nat × Nat × Nat)) (s : State) : Out :=
  event (match s.images[img]? with
    | none => none
    | some im => match Tab.get s.launches im.wg.launch with
      | none => none
      | some l =>
        let gone (s : State) : State := { s with images := s.images.eraseIdx img }
        let p := s.physOf im.wg.clu
        if ((s.dies[im.wg.clu / 16]?).getD Die.reset).rotPending || clusterOf core != p then none
        else if s.corrupt im (l.tc == 0) then
          some (gone (((s.failLaunch im.wg.launch 0x12 0 0 im.wg.index).modLaunch im.wg.launch (fun l => { l with done := l.done + 1 })).dropTeam p im.wg.launch im.wg.team))
        else
          let reads := s.imageSegs im (l.tc == 0)
          let secs := reads.flatMap (fun e => match e.seg with | some g => sectorsAt e.at_ (16 + g.len) | none => [])
          let im := s.imageAsRead im (l.tc == 0)
          let st := im.seating s.nextId (s.absentOf im (l.tc == 0)) place
          let k := s.core core
          let spots := st.grps.map (fun g => (g.1, g.2.blk)) ++ st.wg.spareAt (st.grps.map Prod.fst)
          let need : Amt := { wgs := 1, grps := spots.length, scratch := im.wg.rec_.scratch, tiles := im.wg.rec_.tiles, banks := im.wg.rec_.banks }
          if (l.mig && core % 8 != im.core % 8) || !s.oneOwner core im.wg.ctx need (spots.map Prod.snd) || !s.oneCore core im.wg || (Tab.get k.wgs slot).isSome || decide (slot ≥ Config.wgSlots)
              || !k.placeable im.wg.ctx spots || !k.spare im.wg.ctx need || !k.ovenFree im || decide (k.itemCount + im.itemCount > Config.prooferItems)
              || !k.opens im.wg need (spots.map Prod.snd) then none
          else some (gone { s.restore core slot im secs st need (spots.map Prod.snd) with nextId := s.nextId + 1 }))

/-- LAZY_GRANULE_FILL (R263): the lowest absent granule whose segment passes its check as it is read takes its registers from it. -/
def execLazyGranuleFill (core g idx : Nat) (s : State) : Out :=
  event (match s.grp core g with
    | none => none
    | some x => match (s.core core).wgOf x.wg with
      | none => none
      | some (_, w) => match x.absent.findSome? (fun e => (s.granuleOf w.ctx e).map (fun bs => (e, bs))) with
        | some (e, bs) =>
          if e.1 = idx then
            some { (s.request w.ctx (clusterOf core) w.tc s.fresh (sectorsAt e.2.1 granuleSpan)).modGrp core g (fun y =>
              { y.putGranule idx bs with absent := y.absent.filter (fun a => a.1 != idx) }) with fresh := s.fresh + 1 }
          else none
        | none => none)

/-! Soft errors (R25, R264 to R266). -/

/-- SOFT_ERROR_CORRECTED (R264): racks detect only, and queue state has no code. -/
def execSoftErrorCorrected (st : Store) (_core _addr : Nat) (s : State) : Out :=
  event (if st = .rack ∨ st = .queue then none else some { s with counts := { s.counts with corrected := s.counts.corrected + 1 } })

/-- Adds a mark to a list of marks. -/
def addMark (ms : List (Store × Nat)) (e : Store × Nat) : List (Store × Nat) := if ms.contains e then ms else ms ++ [e]

/-- A rack's error: the mark, and that of the operation that reads it (R265). rack: 0 active, 1 shadow. -/
def Core.rackError (k : Core) (rack : Nat) : Core :=
  if rack = 0 then
    { k with active := { k.active with poison := true }, ovenQ := (match k.ovenQ with | o :: r => (if o.steps.isEmpty then o else { o with poison := true }) :: r | [] => []) }
  else { k with shadow := { k.shadow with poison := true } }

/-- A queue's error: its permits take a free number (R222). -/
def Workgroup.queueError (w : Workgroup) (n nonce : Nat) : Workgroup :=
  w.modQueue n (fun q => { q with permits := (Config.freeWord nonce n).toNat % 65 })

/-- The effect of an uncorrectable error in a store (R264). core: a core; of clsram a physical cluster; of sync a die. addr: group key and word; workgroup slot and
word, a tag being part of its word (log 49: DEDUCED); bank word; list word; team and word of a cluster; line and word of a fetch unit's cache; held word and its
4-byte word; line; workgroup slot and queue. Of a rack: 0 active, 1 shadow with its mark at once; from 2 on a bit of a cell of the active (even) or the shadow rack
flips, for the parity to find (R265). -/
def State.poisonStore (s : State) (st : Store) (c a : Nat) : Option State :=
  let wgAt (n : Nat) : Option Workgroup := Tab.get (s.core c).wgs n
  match st with
  | .vreg => (s.grp c (a / 65536)).map (fun _ => s.modGrp c (a / 65536) (fun g => { g with poison := addMark g.poison (.vreg, a % 65536) }))
  | .sreg => (s.grp c (a / 64)).map (fun _ => s.modGrp c (a / 64) (fun g => { g with poison := addMark g.poison (.sreg, a % 64) }))
  | .oreg => (s.grp c (a / 65536)).map (fun _ => s.modGrp c (a / 65536) (fun g => { g with poison := addMark g.poison (.oreg, a % 65536) }))
  | .qreg => (s.grp c (a / 65536)).map (fun _ => s.modGrp c (a / 65536) (fun g => { g with poison := addMark g.poison (.qreg, a % 65536) }))
  | .preg => (s.grp c (a / 64)).map (fun _ => s.modGrp c (a / 64) (fun g => { g with poison := addMark g.poison (.preg, a % 64) }))
  | .scratch | .tag => (wgAt (a / 2 ^ 20)).map (fun w => s.modWg c w.uid (fun w => w.mark .scratch (4 * (a % 2 ^ 20)) 4))
  | .tile => (wgAt (a / 2 ^ 20)).map (fun w => s.modWg c w.uid (fun w => w.mark .tile (4 * (a % 2 ^ 20)) 4))
  | .bank => some (s.modCore c (fun k => { k with poison := addMark k.poison (.bank, a) }))
  | .winner => some (s.modCore c (fun k => { k with poison := addMark k.poison (.winner, a) }))
  | .clsram => ((s.cluster c).teams[a / 2 ^ 21]?).map (fun t => s.modTeam c t.launch t.unit (fun t =>
      { t with poison := if t.poison.contains (a % 2 ^ 21) then t.poison else t.poison ++ [a % 2 ^ 21] }))
  | .hbm => some { s with hbmPoison := if s.hbmPoison.contains a then s.hbmPoison else s.hbmPoison ++ [a] }
  | .fetch => ((s.core c).fcache[a / 16]?).map (fun _ => s.modCore c (fun k =>
      { k with fcache := k.fcache.modify (a / 16) (fun l => { l with bad := if l.bad.contains (a % 16) then l.bad else l.bad ++ [a % 16] }) }))
  | .sync => ((s.dies[c]?).bind (fun d => d.words[a / 4]?)).map (fun _ => { s with dies := s.dies.modify c (fun d =>
      { d with words := d.words.modify (a / 4) (fun w => { w with bad := if w.bad.contains (a % 4) then w.bad else w.bad ++ [a % 4] }) }) })
  | .rack => some (s.modCore c (fun k =>
      if a < 2 then k.rackError a
      else if a % 2 = 0 then { k with active := k.active.flip ((a - 2) / 2) } else { k with shadow := k.shadow.flip ((a - 2) / 2) }))
  | .queue => (wgAt (a / 8)).map (fun w => { s.modWg c w.uid (fun w => w.queueError (a % 8) s.fresh) with fresh := s.fresh + 1 })

/-- UNCORRECTABLE_ERROR (R264): the mark, and a machine check; an error in queue state is found by the audit instead, and a rack's flipped bit by its parity. -/
def execUncorrectableError (st : Store) (core addr : Nat) (s : State) : Out :=
  event ((s.poisonStore st core addr).map (fun s => if st = .queue ∨ (st = .rack ∧ 2 ≤ addr) then s else { s with counts := { s.counts with checks := s.counts.checks + 1 } }))

/-- RACK_SCRUB (R265): macro group mg of the active or the shadow rack, READY and not being read, is held against its parity. -/
def execRackScrub (core : Nat) (shadow : Bool) (mg : Nat) (s : State) : Out :=
  let k := s.core core
  let busy := !shadow && (match k.ovenQ with | o :: _ => !o.steps.isEmpty | [] => false)
  let r := if shadow then k.shadow else k.active
  event (if mg < 32 ∧ r.status = .ready ∧ busy = false then
    some (if r.sound mg then s else { s.modCore core (fun k => k.rackError shadow.toNat) with counts := { s.counts with checks := s.counts.checks + 1 } })
  else none)

/-- LINK_UNCORRECTABLE_ERROR (R25): the line's data is poisoned, a machine check is reported, and each group whose engine lost an access is to take trap 0x1E,
SUB 1, at its next issue; a load that the line's data was for takes it precisely, by the line's mark (R249, R266; log 49: DEDUCED). -/
def execLinkUncorrectableError (line : Nat) (groups : List (Nat × Nat)) (s : State) : Out :=
  let s1 := groups.foldl (fun s e => if e.2 < 32 then s.modGrp e.1 e.2 (fun g => { g with imprec := g.imprec ++ [impTrap 0x1E 1] }) else s) s
  .next { s1 with hbmPoison := if s1.hbmPoison.contains line then s1.hbmPoison else s1.hbmPoison ++ [line],
                  counts := { s1.counts with checks := s1.counts.checks + 1 } }

end Sys2Proof.Machine
end

