-- ==== Sys2Proof/Machine/Launch.lean ====
section
/-! DEFINITION. From a command to its groups: messages and command queues (R208 to R210, R240, R241, R244, R405), launch records (R42, R242, R243),
placement and admission (R211 to R214, R233, R246), completion (R209). -/
namespace Sys2Proof.Machine
open Sys2Proof

/-! Launch records. -/

/-- Width of a width code (R242). -/
def widthOf (c : Nat) : Nat := 8 * 2 ^ c

/-- Role of a role kind (R243). -/
def roleOf (c : Nat) : Role := if c = 0 then .copy else if c = 1 then .matrix else .vector

/-- Whether groups of given widths and granule rows fit beside blocks taken, in free blocks. -/
def fitBlks (free : Blk → Bool) : List (Nat × Nat) → List Blk → Bool
  | [], _ => true
  | (w, r) :: ns, taken =>
    (List.range (64 / w)).any (fun i => (List.range (Config.granuleRows / r)).any (fun j =>
      let b : Blk := { off := w * i, width := w, row := r * j, rows := r }
      free b && taken.all (fun t => !t.meets b) && fitBlks free ns (b :: taken)))

/-- Whether groups can be given lane offsets so that the free rows of every lane column, counted in total, suffice (R214). -/
def fitCols : List (Nat × Nat) → List Nat → Bool
  | [], _ => true
  | (w, r) :: ns, cols =>
    (List.range (64 / w)).any (fun i =>
      let inB (c : Nat) : Bool := decide (w * i ≤ 8 * c) && decide (8 * c < w * i + w)
      let cs := cols.zip (List.range 8)
      cs.all (fun e => !inB e.2 || decide (r ≤ e.1)) && fitCols ns (cs.map (fun e => if inB e.2 then e.1 - r else e.1)))

/-- Puts a need into a list by falling width, then falling rows. -/
def insertNeed (n : Nat × Nat) : List (Nat × Nat) → List (Nat × Nat)
  | [] => [n]
  | m :: r => if m.1 < n.1 ∨ (m.1 = n.1 ∧ m.2 < n.2) then n :: m :: r else m :: insertNeed n r

/-- Width and registers of each launched group, in order of %lvl1 (R43). -/
def LRec.groups (r : LRec) : List RoleRec := r.roles.flatMap (fun e => List.replicate e.count e)
/-- How many groups are launched. -/
def LRec.groupCount (r : LRec) : Nat := (r.roles.map (fun e => e.count)).foldl (· + ·) 0
/-- The granules that a workgroup needs: its groups and its spawn reserve (R54, R61). -/
def LRec.needs (r : LRec) : List (Nat × Nat) :=
  (r.groups.map (fun g => (g.width, rowsFor g.vregs)) ++ (if r.spawns.isEmpty then [] else [(r.spw, rowsFor r.spareRegs)])).foldl (fun l n => insertNeed n l) []

/-- Product of the counts of levels a to b - 1. -/
def LRec.units (r : LRec) (a b : Nat) : Nat := ((r.levels.take b).drop a).foldl (fun p l => p * l.2) 1

/-- The lowest level from 3 on whose domain meets a test. -/
def LRec.lowest (r : LRec) (p : Nat → Bool) : Option Nat := (List.range r.levels.length).find? (fun n => decide (3 ≤ n) && p ((r.levels[n]?).getD (0, 0)).1)
/-- The level of the units of placement (R211); none: the workgroups are (R212). -/
def LRec.unitLevel (r : LRec) : Option Nat := r.lowest (fun d => decide (3 ≤ d))

/-- Workgroups that one instance of a domain holds resident (R42). -/
def wgCap : Nat → Option Nat | 2 => some 8 | 3 => some 64 | 4 => some 1024 | 5 => some 2048 | _ => none
/-- Units of one domain that a unit of another holds at most (R42). -/
def unitCap : Nat → Nat → Option Nat | 4, 3 => some 16 | 5, 3 => some 32 | 5, 4 => some 2 | _, _ => none

/-- Whether every level keeps within its domain's capacity (R42). Where several levels have domain cluster, or die, the units that count are those of the highest of
them below the level (log 46: DESIGN CHOICE). -/
def LRec.capOk (r : LRec) : Bool :=
  (List.range r.levels.length).all (fun n =>
    decide (n < 3) ||
      (let d := ((r.levels[n]?).getD (0, 0)).1
       (match wgCap d with | some c => decide (r.units 2 n ≤ c) | none => true)
         && [3, 4].all (fun b => match unitCap d b, r.below n b with | some c, some m => decide (r.units m n ≤ c) | _, _ => true)))

/-- Teams that one unit of the highest cluster level holds (R42). -/
def LRec.teams (r : LRec) : Nat :=
  match r.lowest (fun d => d == 3), r.below r.levels.length 3 with | some a, some b => r.units a b | _, _ => 1

/-- The rules of R42 on a record whose parts are read. -/
def LRec.legal (r : LRec) : Bool :=
  let dom (n : Nat) : Nat := ((r.levels[n]?).getD (0, 0)).1
  decide (r.groupCount + (if r.spawns.isEmpty then 0 else 1) ≤ Config.groupSlots) && dom 0 == 0 && dom 1 == 1 && dom 2 == 2
    && (List.range (r.levels.length - 1)).all (fun n => decide (dom n ≤ dom (n + 1))) && r.levels.all (fun l => decide (l.1 ≤ 6))
    && (r.levels.drop 2).all (fun l => decide (1 ≤ l.2)) && r.capOk && decide (r.clsram * r.teams ≤ Config.clSramBytes)
    && decide (r.scratch ≤ Config.scratchBytes)
    && fitBlks Blk.legal r.needs []

/-- A field of a record: n bytes at an offset. -/
def recAt (bs : List Byte) (off n : Nat) : Nat := fromLE ((bs.drop off).take n)

/-- Whether two numbers of a list are equal. -/
def repeated (xs : List Nat) : Bool := decide (xs.eraseDups.length ≠ xs.length)

/-- The parts of a record as numbers: offsets of the roles, queues, spawns, buckets and tensors, and the end. -/
def recParts (f : Nat → Nat → Nat) : Nat × Nat × Nat × Nat × Nat × Nat :=
  let q := 128 + 16 * f 5 1
  let sp := q + 32
  let b := sp + 16 * f 7 1
  let t := b + 40 * f 8 1
  (128, q, sp, b, t, t + 136 * f 0xC 2)

/-- The header checks of R242 and R243. -/
def headOk (f : Nat → Nat → Nat) : Bool :=
  f 0 2 == 1 && decide (3 ≤ f 4 1) && decide (f 4 1 ≤ 8) && decide (1 ≤ f 5 1) && decide (f 5 1 ≤ 3) && decide (f 7 1 ≤ 4) && decide (f 8 1 ≤ 16) && decide (f 9 1 ≤ 3)
    && decide (f 0xA 1 ≤ 16) && decide (f 0xB 1 ≤ 12) && decide (f 0xC 2 ≤ 256) && f 0xE 2 == 0 && f 0x10 4 % 4096 == 0 && f 0x14 4 % 4096 == 0
    && f 0x18 4 % 16 == 0 && decide (16 ≤ f 0x18 4) && f 0x1C 4 == 0 && f 0x60 32 == 0
    && f 2 2 == (recParts f).2.2.2.2.2
    && (List.range 8).all (fun n => if n < f 4 1 then f (0x21 + 8 * n) 3 == 0 && (decide (2 ≤ n) || f (0x24 + 8 * n) 4 == 0) else f (0x20 + 8 * n) 8 == 0)

/-- A role record (R243). -/
def roleAt (f : Nat → Nat → Nat) (o : Nat) : Option RoleRec :=
  if f o 1 ≤ 2 ∧ f (o + 1) 1 ≤ 3 ∧ 1 ≤ f (o + 2) 1 ∧ f (o + 2) 1 ≤ 32 ∧ f (o + 3) 1 = 0 ∧ f (o + 14) 2 = 0 then
    some { role := roleOf (f o 1), width := widthOf (f (o + 1) 1), vregs := 8 * f (o + 2) 1, count := f (o + 4) 4, entry := f (o + 8) 4, pri := BitVec.ofNat 16 (f (o + 12) 2) }
  else none

/-- A queue record (R45, R243); dec: its bit of QMASK. -/
def queueAt (f : Nat → Nat → Nat) (dec : Bool) (o : Nat) : Option (Nat × Nat × Nat) :=
  if f o 1 = 0 then (if f o 4 = 0 ∧ dec = false then some (0, 0, 0) else none)
  else if dec && decide (f o 1 ≤ 2) && decide (2 ≤ f (o + 2) 1) && decide (f (o + 2) 1 ≤ 64) && f (o + 3) 1 == 0 && (if f o 1 = 1 then f (o + 1) 1 == 0 else decide (f (o + 1) 1 ≤ 3)) then
    some (f o 1, if f o 1 = 2 then widthOf (f (o + 1) 1) else 0, f (o + 2) 1)
  else none

/-- A spawn record (R243). -/
def spawnAt (f : Nat → Nat → Nat) (o : Nat) : Option SpawnRec :=
  if f (o + 6) 1 ≤ 2 ∧ 1 ≤ f (o + 7) 1 ∧ f (o + 7) 1 ≤ 32 ∧ f (o + 8) 8 = 0 then
    some { entry := f o 4, pri := BitVec.ofNat 16 (f (o + 4) 2), role := roleOf (f (o + 6) 1), vregs := 8 * f (o + 7) 1 }
  else none

/-- A bucket record (R56, R243). -/
def bucketAt (f : Nat → Nat → Nat) (o : Nat) : Option Bucket :=
  let n := f (o + 6) 1
  if 1 ≤ n ∧ n ≤ 4 ∧ f (o + 7) 1 = 0 ∧ (List.range 4).all (fun d => decide (d < n) || f (o + 8 + 8 * d) 8 == 0) then
    some { entry := f o 4, pri := BitVec.ofNat 16 (f (o + 4) 2), dims := (List.range n).map (fun d => (f (o + 8 + 8 * d) 4, f (o + 12 + 8 * d) 4)) }
  else none

/-- A tensor record (R87, R243). -/
def tensorAt (f : Nat → Nat → Nat) (o : Nat) : Option (Nat × BitVec 1024) :=
  let t := BitVec.ofNat 1024 (f (o + 8) 128)
  if f (o + 1) 7 = 0 ∧ tenLegal t = true then some (f o 1, t ||| BitVec.ofNat 1024 (2 ^ 31)) else none

/-- All items, if none is missing. -/
def allSome {α : Type} : List (Option α) → Option (List α)
  | [] => some []
  | none :: _ => none
  | some x :: r => (allSome r).map (fun xs => x :: xs)

/-- A launch record (R242, R243), or none where the dispatcher rejects it. -/
def parseLRec (bs : List Byte) : Option LRec :=
  let f := recAt bs
  let p := recParts f
  let list {α : Type} (n o size : Nat) (g : Nat → Option α) : Option (List α) := allSome ((List.range n).map (fun i => g (o + size * i)))
  if !headOk f then none
  else match list (f 5 1) p.1 16 (roleAt f), allSome ((List.range 8).map (fun i => queueAt f ((f 6 1).testBit i) (p.2.1 + 4 * i))),
             list (f 7 1) p.2.2.1 16 (spawnAt f), list (f 8 1) p.2.2.2.1 40 (bucketAt f), list (f 0xC 2) p.2.2.2.2.1 136 (tensorAt f) with
    | some roles, some queues, some spawns, some buckets, some tens =>
      let r : LRec := { levels := (List.range (f 4 1)).map (fun n => (f (0x20 + 8 * n) 1, f (0x24 + 8 * n) 4)), roles := roles, queues := queues, spawns := spawns,
                        buckets := buckets, tensors := tens, spw := widthOf (f 9 1), tiles := f 0xA 1, banks := f 0xB 1, scratch := f 0x10 4, clsram := f 0x14 4, priv := f 0x18 4 }
      if repeated (roles.map (fun e => e.role.code)) || repeated (tens.map Prod.fst) || !r.legal then none else some r
    | _, _, _, _, _ => none

/-! Commands (R208, R241). -/

/-- Fields of a command's header. -/
def Cmd.kind (c : Cmd) : Nat := bits c.hdr.toNat 7 0
def Cmd.ord (c : Cmd) : Bool := c.hdr.getLsbD 10
def Cmd.wen (c : Cmd) : Bool := c.hdr.getLsbD 11
def Cmd.wgen (c : Cmd) : Nat := bits c.hdr.toNat 31 16
def Cmd.waddr (c : Cmd) : Nat := bits c.hdr.toNat 127 64
def Cmd.saddr (c : Cmd) : Nat := bits c.hdr.toNat 191 128
def Cmd.sbytes (c : Cmd) : Nat := bits c.hdr.toNat 223 192
def Cmd.lrec (c : Cmd) : Nat := bits c.body.toNat 63 0
def Cmd.cb (c : Cmd) : Nat := bits c.body.toNat 127 64

/-- Whether a command message fails with bad-command (R208, R240, R241). -/
def msgBad (m : Msg) : Bool :=
  let h := m.hdr.toNat
  let k := bits h 7 0
  !((k == 1 && m.len == 64) || ((k == 2 || k == 3) && m.len == 32)) || bits h 15 13 != 0 || bits h 63 32 != 0 || bits h 255 224 != 0
    || (k == 1 && bits m.body.toNat 255 129 != 0)

/-- A message is discarded and counted (R239, R240). -/
def State.discard (s : State) : State := { s with counts := { s.counts with discarded := s.counts.discarded + 1 } }

/-- A command is received on an open queue (R208, R244, R405). -/
def State.command (s : State) (x : Nat) (m : Msg) : State :=
  let q := m.queue.val
  let k := s.cmdq x q
  if k.closing then s.status x q m.seq 0x05 0 0 0
  else if k.err then s.status x q m.seq 0x06 0 0 0
  else if msgBad m then (s.status x q m.seq 0x01 0 0 0).queueErr x q
  else s.modQ x q (fun k => { k with cmds := k.cmds ++ [{ seq := m.seq, hdr := m.hdr, body := m.body, first := k.fresh, st := 0, launch := none }], fresh := false })

/-- A queue-open (R240, R244, R405). The device's own SEQ runs on from the statuses before it, those for a closed queue among them (log 64: DESIGN CHOICE). -/
def State.openQueue (s : State) (x : Nat) (m : Msg) : State :=
  let q := m.queue.val
  if m.seq ≠ 0 then s.status x q m.seq 0x07 0 0 0
  else if m.len ≠ 0 then s.status x q m.seq 0x01 0 0 0
  else (s.modQ x q (fun k => { CmdQ.closed with isOpen := true, seq := 1, out := k.out })).status x q m.seq 0 0 0 0

/-- A queue-close (R244). -/
def State.closeQueue (s : State) (x : Nat) (m : Msg) : State :=
  let q := m.queue.val
  let s := s.modQ x q (fun k => { k with closing := true, closes := k.closes ++ [m.seq] })
  if (s.cmdq x q).err then s.flush x q else s

/-- A queue-reset (R244). -/
def State.resetQueue (s : State) (x : Nat) (m : Msg) : State :=
  let q := m.queue.val
  let s := (s.flush x q).modQ x q (fun k => { k with err := false, fresh := true })
  s.status x q m.seq 0 0 0 0

/-- A message that its session delivers to a context (R240, R244, R405): its SEQ is held first, whatever its other fields are. -/
def State.message (s : State) (x : Nat) (m : Msg) : State :=
  let q := m.queue.val
  let k := s.cmdq x q
  let odd := m.rsv || !([1, 2, 3, 4].contains m.type.toNat)
  if !k.isOpen then
    if odd && (m.type != 1 || m.seq == 0) then s.discard
    else if m.type = 1 then s.openQueue x m
    else s.status x q m.seq 0x05 0 0 0
  else if m.seq ≠ k.seq then (s.status x q m.seq 0x07 0 0 0).queueErr x q
  else if odd then s.discard
  else
    let s := s.modQ x q (fun k => { k with seq := k.seq + 1 })
    if m.type = 4 then s.command x m
    else if m.len ≠ 0 then s.status x q m.seq 0x01 0 0 0
    else if m.type = 1 then s.status x q m.seq 0x08 0 0 0
    else if m.type = 2 then s.closeQueue x m
    else s.resetQueue x m

/-- The context of a session that carries messages. -/
def State.sessionCtx (s : State) (n : Nat) : Option Nat := (Tab.get s.sessions n).bind (fun e => if e.closed || e.lost then none else some e.ctx)

/-- A message of a type arrives on its session; kind: the KIND of a command. -/
def State.arriveMsg (s : State) (m : Msg) (type : Nat) (kind : Option Nat) : Option State :=
  if m.type.toNat = type ∧ (match kind with | some k => bits m.hdr.toNat 7 0 == k | none => true) = true then (s.sessionCtx m.session).map (fun x => s.message x m) else none

/-- LAUNCH_COMMAND (R208, R241). -/
def execLaunchCommand (m : Msg) (s : State) : Out := event (s.arriveMsg m 4 (some 1))
/-- SIGNAL_COMMAND (R208). -/
def execSignalCommand (m : Msg) (s : State) : Out := event (s.arriveMsg m 4 (some 2))
/-- WAIT_COMMAND (R208). -/
def execWaitCommand (m : Msg) (s : State) : Out := event (s.arriveMsg m 4 (some 3))
/-- QUEUE_OPEN (R244). -/
def execQueueOpen (m : Msg) (s : State) : Out := event (s.arriveMsg m 1 none)
/-- QUEUE_CLOSE (R244). -/
def execQueueClose (m : Msg) (s : State) : Out := event (s.arriveMsg m 2 none)
/-- QUEUE_RESET (R244). -/
def execQueueReset (m : Msg) (s : State) : Out := event (s.arriveMsg m 3 none)

/-- Whether a command has completed or failed: it is done, or its launch has failed (R244). -/
def State.cmdOver (s : State) (c : Cmd) : Bool := c.st == 2 || (c.st == 1 && (match c.launch.bind (Tab.get s.launches) with | some l => l.failed | none => true))

/-- QUEUE_CLOSE_COMPLETION (R244). On a queue that is not in error the commands that have not started start and end first (log 64: DESIGN CHOICE). -/
def execQueueCloseCompletion (ctx queue : Nat) (s : State) : Out :=
  let k := s.cmdq ctx queue
  event (if k.isOpen && k.closing && k.cmds.all s.cmdOver then
    some ((k.closes.foldl (fun s n => s.status ctx queue n 0 0 0 0) s).modQ ctx queue (fun k => { CmdQ.closed with out := k.out }))
  else none)

/-! Starts (R209, R210). -/

/-- Whether every byte of a context's range translates for an access. -/
def State.mapped (s : State) (ctx : Nat) (a : Acc) (va n : Nat) : Bool := s.allows ctx a va n

/-- The next command to start, and whether its ORD condition holds (R208, R209). -/
def CmdQ.candidate (k : CmdQ) : Option (Cmd × Bool) :=
  let before := k.cmds.takeWhile (fun c => c.st != 0)
  (k.cmds[before.length]?).map (fun c => (c, c.ord || c.first || (match before.getLast? with | some p => p.st == 2 | none => true)))

/-- Keeps of the done commands only those that the next command may ask about. -/
def pruneDone : List Cmd → List Cmd
  | [] => []
  | [c] => [c]
  | c :: d :: r => if c.st = 2 ∧ d.st ≠ 0 then pruneDone (d :: r) else c :: pruneDone (d :: r)

/-- Sets the state of a command of a queue. -/
def State.setCmd (s : State) (x q : Nat) (seq : BitVec 32) (st : Nat) (l : Option Nat) : State :=
  s.modQ x q (fun k => { k with cmds := pruneDone (k.cmds.map (fun c => if c.seq = seq ∧ c.st ≠ 2 then { c with st := st, launch := l } else c)) })

/-- The command that a launch was made by is done; a command of another opening of its queue is not it (R244). -/
def State.cmdDone (s : State) (x q launch : Nat) : State :=
  s.modQ x q (fun k => { k with cmds := pruneDone (k.cmds.map (fun c => if c.launch = some launch ∧ c.st = 1 then { c with st := 2 } else c)) })

/-- A command fails before it starts: a status, and its queue is in error (R210). -/
def State.failCmd (s : State) (x q : Nat) (seq : BitVec 32) (code : Nat) : State :=
  let s := s.modQ x q (fun k => { k with cmds := k.cmds.filter (fun c => !(c.seq == seq && c.st == 0)) })
  (s.status x q seq code 0 0 0).queueErr x q

/-- The completion addition of a command (R209, R220). -/
def State.signal (s : State) (x saddr sbytes : Nat) : State := if saddr = 0 then s else s.wordAdd (.gl x saddr) sbytes none none

/-- The die of a unit, from the coordinates of its levels 2 to 7 (R211): the index at the lowest level of domain die, else of domain cluster; where no level has
either, the index at the level of the units (log 46: DESIGN CHOICE). -/
def LRec.dieOf (r : LRec) (named : Nat) (lvl : List Nat) : Nat :=
  if ((r.levels.getLast?).getD (0, 0)).1 ≤ 4 then named
  else match ((r.lowest (fun d => d == 4)).or (r.lowest (fun d => d == 3))).or r.unitLevel with
    | some n => (lvl[n - 2]?).getD 0 % 2
    | none => named

/-- The coordinates of workgroup i at levels 2 to the top (R43). -/
def coords : List Nat → Nat → List Nat
  | [], _ => []
  | n :: r, i => i % n :: coords r (i / n)

/-- Counts of the levels from 2 on. -/
def LRec.counts (r : LRec) : List Nat := (r.levels.drop 2).map Prod.snd
/-- Workgroups of a unit of placement, and units of the launch. -/
def LRec.unitSize (r : LRec) : Nat := match r.unitLevel with | some n => r.units 2 n | none => 1
def LRec.total (r : LRec) : Nat := r.units 2 r.levels.length
def LRec.unitCount (r : LRec) : Nat := r.total / r.unitSize
/-- The die of unit u. -/
def LRec.unitDie (r : LRec) (named u : Nat) : Nat := r.dieOf named (coords r.counts (u * r.unitSize))
/-- The first unit from u on that goes to a die. -/
def LRec.nextUnit (r : LRec) (named die u : Nat) : Option Nat := (List.range r.unitCount).find? (fun i => decide (u ≤ i) && decide (r.unitDie named i = die))

/-- Whether a context has a class-0 reservation on a core of a die (R246). -/
def State.reservesOn (s : State) (die ctx : Nat) : Bool := s.cores.any (fun k => k.1 / 128 == die && k.2.reserves ctx)

/-- A launch starts (R209, R241, R243): the tensor records are written, and the dispatchers of its dies take it; one of class 0 with reserved resources makes a die
abandon a pending rotation (R229). -/
def State.startLaunch (s : State) (x q : Nat) (c : Cmd) (r : LRec) : State :=
  let id := s.nextId
  let named := (c.body.getLsbD 128).toNat
  let l : Launch := { ctx := x, queue := q, seq := c.seq, tc := bits c.hdr.toNat 9 8, mig := c.hdr.getLsbD 12, saddr := c.saddr, sbytes := c.sbytes,
                      cb := BitVec.ofNat 64 c.cb, die := named, rec_ := r, total := r.total, next := [0, 0], placed := 0, homes := [], seats := [], done := 0, failed := false }
  let s := s.modCtx x (fun k => { k with tens := r.tensors.foldl (fun t e => Tab.set t e.1 e.2) k.tens })
  let dies := (s.dies.zip (List.range s.dies.length)).map (fun d =>
    if (r.nextUnit named d.2 0).isSome then { d.1 with placeQ := d.1.placeQ ++ [id], rotPending := d.1.rotPending && !(l.tc == 0 && s.reservesOn d.2 x) } else d.1)
  { (s.setCmd x q c.seq 1 (some id)) with launches := Tab.set s.launches id l, dies := dies, nextId := id + 1 }

/-- The record of a launch command, or the status it fails with (R241). A CB translates where its page is present and no hole, whatever that page allows, and in the
system window (log 64: DESIGN CHOICE). -/
def State.readRec (s : State) (x : Nat) (c : Cmd) : Except Nat LRec :=
  let cbOk := match s.translate x .x c.cb with | .absent | .far | .hole => false | _ => true
  if c.lrec % 64 ≠ 0 ∨ c.cb % 4 ≠ 0 ∨ cbOk = false ∨ s.mapped x .r c.lrec 128 = false then .error 0x02
  else
    let size := max 128 (fromLE (s.glRead x (c.lrec + 2) 2))
    if !s.mapped x .r c.lrec size then .error 0x02
    else match parseLRec (s.glRead x c.lrec size) with | some r => .ok r | none => .error 0x04

/-- COMMAND_START (R209, R210, R241). WADDR is held only where WEN is set; a page that denies the access, or that lies in the system window, does not translate for
WADDR, SADDR and the record (log 64: DESIGN CHOICE). -/
def execCommandStart (ctx queue : Nat) (s : State) : Out :=
  let k := s.cmdq ctx queue
  event (match k.candidate with
    | some (c, true) =>
      if !k.isOpen || k.err then none
      else if (c.wen && (c.waddr % 16 != 0 || !s.mapped ctx .r c.waddr 16)) || (c.saddr != 0 && (c.saddr % 16 != 0 || !s.mapped ctx .w c.saddr 16)) then
        some (s.failCmd ctx queue c.seq 0x02)
      else
        let w := SWord.ofNat (s.word (.gl ctx c.waddr))
        if c.wen && !w.reached c.wgen then (if w.abort then some (s.failCmd ctx queue c.seq 0x03) else none)
        else if c.kind = 1 then
          match s.readRec ctx c with
          | .error e => some (s.failCmd ctx queue c.seq e)
          | .ok r => some (s.startLaunch ctx queue c r)
        else some ((s.signal ctx c.saddr c.sbytes).setCmd ctx queue c.seq 2 none)
    | _ => none)

/-- Whether an engine operation of a launch is in flight anywhere (R209). -/
def State.engBusy (s : State) (l : Nat) : Bool := s.cores.any (fun k => k.2.eng.any (fun o => o.launch == l) || k.2.ovenQ.any (fun o => o.launch == l))

/-- LAUNCH_COMPLETION (R209, R244). -/
def execLaunchCompletion (launch : Nat) (s : State) : Out :=
  event (match Tab.get s.launches launch with
    | some l =>
      if l.done = l.total ∧ s.engBusy launch = false then
        let s := (s.signal l.ctx l.saddr l.sbytes).cmdDone l.ctx l.queue launch
        some { s with launches := Tab.del s.launches launch }
      else none
    | none => none)

/-! Placement (R211, R212). -/

/-- A workgroup of a launch as the dispatcher places it. -/
def Workgroup.placed (uid launch index : Nat) (l : Launch) (clu team : Nat) (i priv fill : Nat) : Workgroup :=
  { uid := uid, launch := launch, index := index, ctx := l.ctx, tc := l.tc, clu := clu, team := team, lvl := coords l.rec_.counts i,
    ext := l.rec_.groups.length :: l.rec_.counts, rec_ := l.rec_, cb := l.cb, priv := priv, order := 0, fill := fill, scratch := [], tags := [], tiles := [],
    queues := l.rec_.queues.map (fun q => Queue.fresh q.1 q.2.1 q.2.2), tvec := 0, tframe := 0, rail := false, halt := none, handler := none,
    spawnIx := l.rec_.groups.length % 65536, formed := [], reserve := none, poison := [], fetched := [], watch := [], writes := 0, wrote := [], done := [], rr := [] }

/-- Whether a physical cluster can take a launch's allocation for a unit: the team is there, or its SRAM has room (R79, R212). -/
def State.takes (s : State) (p launch unit size : Nat) : Bool :=
  (s.team p launch unit).isSome || decide ((((s.cluster p).teams.map Team.size).sum + size) ≤ Config.clSramBytes)

/-- A workgroup joins its team, which the first one allocates. -/
def State.joinTeam (s : State) (p launch unit size : Nat) : State :=
  match s.team p launch unit with
  | some _ => s.modTeam p launch unit (fun t => { t with refs := t.refs + 1 })
  | none => s.modCluster p (fun k => { k with teams := k.teams ++ [{ launch := launch, unit := unit, size := size, mem := [], poison := [], refs := 1 }] })

/-- Coordinates, from its level up, of the unit that must lie on one cluster and holds workgroup i: of the highest level of cluster domain, or, where none is declared,
of core domain above level 2 (R42). -/
def LRec.homeUnit (r : LRec) (i : Nat) : Option (List Nat) :=
  ((r.below r.levels.length 3).or (r.below r.levels.length 2)).map (fun n => (coords r.counts i).drop (n - 2))
/-- The logical cluster of a die that workgroup i of a launch must lie on, if others of its unit have been placed there. -/
def Launch.home (l : Launch) (die i : Nat) : Option Nat := (l.rec_.homeUnit i).bind (fun u => (l.homes.find? (fun e => e.1 == u && e.2 / 16 == die)).map Prod.snd)
/-- Notes the logical cluster of a unit, if it has none on that die yet. -/
def noteHome (t : List (List Nat × Nat)) (u : Option (List Nat)) (n : Nat) : List (List Nat × Nat) :=
  match u with | some u => if t.any (fun e => e.1 == u && e.2 / 16 == n / 16) then t else t ++ [(u, n)] | none => t
/-- Notes where a unit lies, if it has no place yet. -/
def noteAt (t : List (List Nat × Nat)) (u : Option (List Nat)) (n : Nat) : List (List Nat × Nat) :=
  match u with | some u => if t.any (fun e => e.1 == u) then t else t ++ [(u, n)] | none => t

/-- Workgroup i of a launch is placed on a logical cluster: it joins its team and its cluster's admission queue. -/
def State.placeWg (s : State) (launch clu unit i : Nat) : State :=
  match Tab.get s.launches launch with
  | none => s
  | some l =>
    let p := s.physOf clu
    let priv := ((Tab.get s.ctxs l.ctx).map Ctx.privTop).getD 0
    let w := Workgroup.placed s.nextId launch l.placed l clu unit i priv s.fresh
    let s := s.modCtx l.ctx (fun k => { k with privTop := k.privTop + 64 * l.rec_.priv * l.rec_.groups.length })
    let s := s.joinTeam p launch unit l.rec_.clsram
    let s := s.modCluster p (fun k => { k with admQ := k.admQ ++ [{ wg := w, bypass := [] }] })
    { s.modLaunch launch (fun l => { l with placed := l.placed + 1, homes := noteHome l.homes (l.rec_.homeUnit i) clu }) with nextId := s.nextId + 1, fresh := s.fresh + 1 }

/-- Unit u is placed; the launch leaves the die's queue after its last unit. -/
def State.unitPlaced (s : State) (die launch u : Nat) : State :=
  match Tab.get s.launches launch with
  | none => s
  | some l =>
    let s := s.modLaunch launch (fun l => { l with next := l.next.set die (u + 1) })
    if (l.rec_.nextUnit l.die die (u + 1)).isSome then s
    else { s with dies := s.dies.modify die (fun d => { d with placeQ := d.placeQ.filter (fun n => n != launch) }) }

/-- Whether a launch is of class 0 with resources reserved on a die. -/
def State.urgent (s : State) (die n : Nat) : Bool := match Tab.get s.launches n with | some l => l.tc == 0 && s.reservesOn die l.ctx | none => false
/-- The launch that a die's dispatcher places, and its next unit; none while a rotation is pending (R228). One of class 0 with a reservation there waits behind none of
another class (R247). -/
def State.toPlace (s : State) (die : Nat) : Option (Nat × Launch × Nat) :=
  match s.dies[die]? with
  | none => none
  | some d =>
    if d.rotPending then none
    else match (d.placeQ.find? (s.urgent die)).or d.placeQ.head? with
      | none => none
      | some n => (Tab.get s.launches n).bind (fun l => (l.rec_.nextUnit l.die die ((l.next[die]?).getD 0)).map (fun u => (n, l, u)))

/-- Logical clusters of a die. -/
def clustersOf (die : Nat) : List Nat := (List.range 16).map (fun i => 16 * die + i)

/-- Whether a logical cluster may take workgroup i of a launch as far as its unit goes (R42). -/
def Launch.homeOk (l : Launch) (i clu : Nat) : Bool := match l.home (clu / 16) i with | some c => c == clu | none => true

/-- UNIT_PLACEMENT (R211, R42). -/
def execUnitPlacement (die : Nat) (s : State) : Out :=
  event (match s.toPlace die with
    | some (n, l, u) =>
      if l.rec_.unitLevel.isNone then none
      else match (clustersOf die).find? (fun c => l.homeOk (u * l.rec_.unitSize) c && s.takes (s.physOf c) n u l.rec_.clsram) with
        | some c => some (((List.range l.rec_.unitSize).foldl (fun s i => s.placeWg n c u (u * l.rec_.unitSize + i)) s).unitPlaced die n u)
        | none => none
    | none => none)

/-! Admission (R213, R214, R246). -/

/-- What a workgroup needs of the counted resources. -/
def Workgroup.amt (w : Workgroup) : Amt :=
  { wgs := 1, grps := w.rec_.groups.length + (if w.rec_.spawns.isEmpty then 0 else 1), scratch := w.rec_.scratch, tiles := w.rec_.tiles, banks := w.rec_.banks }

/-- Whether a core admits a workgroup as far as counts and units go (R213, R246). -/
def State.admitsBut (s : State) (c : Nat) (w : Workgroup) : Bool :=
  let k := s.core c
  s.oneCore c w && k.spare w.ctx w.amt
    && (List.range Config.wgSlots).any (fun i => (Tab.get k.wgs i).isNone)

/-- Whether a core can admit a workgroup (R213, R214, R233). -/
def State.canAdmit (s : State) (c : Nat) (w : Workgroup) : Bool :=
  let k := s.core c
  s.admitsBut c w && decide (w.amt.grps ≤ ((List.range Config.groupSlots).filter (k.freeSlot none)).length) && fitBlks (fun b => k.freeBlk w.ctx none b && s.oneOwner c w.ctx w.amt [b] && k.opens w w.amt [b]) w.rec_.needs []

/-- The first core of a physical cluster that can admit a workgroup. -/
def State.firstCore (s : State) (p : Nat) (w : Workgroup) : Option Nat := ((List.range 8).map (fun i => 8 * p + i)).find? (fun c => s.canAdmit c w)

/-- WORKGROUP_PLACEMENT (R212): a cluster whose queue is empty and one of whose cores can admit the workgroup at once, else the one with the fewest
waiting. -/
def execWorkgroupPlacement (die : Nat) (s : State) : Out :=
  event (match s.toPlace die with
    | some (n, l, u) =>
      if l.rec_.unitLevel.isSome then none
      else
        let ok := (clustersOf die).filter (fun c => l.homeOk u c && s.takes (s.physOf c) n 0 l.rec_.clsram)
        let w (c : Nat) : Workgroup := Workgroup.placed s.nextId n l.placed l c 0 u 0 0
        let waits (c : Nat) : Nat := (s.cluster (s.physOf c)).admQ.length
        let best := match ok.find? (fun c => decide (waits c = 0) && (s.firstCore (s.physOf c) (w c)).isSome) with
          | some c => some c
          | none => ok.find? (fun c => ok.all (fun d => decide (waits c ≤ waits d)))
        best.map (fun c => (s.placeWg n c 0 u).unitPlaced die n u)
    | none => none)

/-- Free granule rows of a lane column for a context. -/
def Core.freeRows (k : Core) (ctx col : Nat) : Nat :=
  ((List.range Config.granuleRows).filter (fun r =>
    let b : Blk := { off := 8 * col, width := 8, row := r, rows := 1 }
    k.freeBlk ctx none b)).length

/-- Whether the admission of a later workgroup on a core counts as a bypass of the head (R214). The head's needs are those of admission, its spawn reserve among
them (R213, log 69: DESIGN CHOICE). -/
def Core.bypasses (k : Core) (head w : Workgroup) (bs : List Blk) : Bool := !k.reserved w w.amt bs && fitCols head.rec_.needs ((List.range 8).map (k.freeRows head.ctx))

/-- The groups of a workgroup as they are admitted at places: slot and group. -/
def Workgroup.births (w : Workgroup) (uid birth : Nat) (place : List (Nat × Nat × Nat)) : List (Nat × Group) :=
  (w.rec_.groups.zip (List.range w.rec_.groups.length)).map (fun e =>
    let p := (place[e.2]?).getD (0, 0, 0)
    let b : Blk := { off := p.2.1, width := e.1.width, row := p.2.2, rows := rowsFor e.1.vregs }
    (p.1, Group.newborn (uid + e.2) w.uid e.2 false e.1.role e.1.vregs (birth + e.2) (w.priv + 64 * w.rec_.priv * e.2) b
      { pc := w.cb + BitVec.ofNat 64 e.1.entry, pri := e.1.pri, mask := fullMask e.1.width, age := 0 }))

/-- The slots and blocks that a workgroup is admitted to at places: its groups', then its spawn reserve's (R213). -/
def Workgroup.spots (w : Workgroup) (place : List (Nat × Nat × Nat)) : List (Nat × Blk) :=
  (w.births 0 0 place).map (fun g => (g.1, g.2.blk)) ++ (if w.rec_.spawns.isEmpty then [] else
    let p := (place[w.rec_.groups.length]?).getD (0, 0, 0)
    [(p.1, { off := p.2.1, width := w.rec_.spw, row := p.2.2, rows := rowsFor w.rec_.spareRegs })])

/-- The workgroup is seated on a core, with its groups (R213, R233, R274). -/
def State.placeAt (s : State) (c slot : Nat) (w : Workgroup) (place : List (Nat × Nat × Nat)) : State :=
  let n := w.rec_.groups.length
  let w' : Workgroup := { w with order := s.nextId, reserve := if w.rec_.spawns.isEmpty then none else place[n]? }
  let gs := w.births (s.nextId + 1) s.fresh place
  let s := { (s.clearCore c w.ctx w.amt ((w.spots place).map Prod.snd)).modLaunch w.launch (fun l => { l with seats := noteAt l.seats (w.rec_.coreUnit w.lvl) (c % 8) }) with nextId := s.nextId + 1 + n, fresh := s.fresh + n }
  let s := s.modCore c (fun k => { k with wgs := Tab.set k.wgs slot w', grps := gs.foldl (fun t g => Tab.set t g.1 g.2) k.grps })
  let s := gs.foldl (fun s g => s.bear c g.1 w) s
  s.settle c w.uid

/-- A core is held for the head after its fourth bypass there (R214). -/
def State.countBypass (s : State) (p c : Nat) (head : Waiting) : State :=
  let n := (Tab.get head.bypass c).getD 0 + 1
  let s := s.modCluster p (fun k => { k with admQ := k.admQ.map (fun e => if e.wg.uid = head.wg.uid then { e with bypass := Tab.set e.bypass c n } else e) })
  if n ≥ 4 ∧ (List.range 8).all (fun i => (s.core (8 * p + i)).hold.isNone) then s.modCore c (fun k => { k with hold := some head.wg.uid }) else s

/-- WORKGROUP_ADMISSION (R213, R214, R233): pos numbers the waiting workgroups of physical cluster clu; place gives each launched group's slot, lane
offset and first row, then the spawn reserve's. -/
def execWorkgroupAdmission (clu pos core slot : Nat) (place : List (Nat × Nat × Nat)) (s : State) : Out :=
  let q := (s.cluster clu).admQ
  event (match q[pos]?, q.head? with
    | some e, some head =>
      let k := s.core core
      let w := e.wg
      let spots := w.spots place
      if ((s.dies[clu / 16]?).getD Die.reset).rotPending || clusterOf core != clu || decide (place.length ≠ spots.length)
          || !s.admitsBut core w || !s.oneOwner core w.ctx w.amt (spots.map Prod.snd) || !k.opens w w.amt (spots.map Prod.snd) || (Tab.get k.wgs slot).isSome || decide (slot ≥ Config.wgSlots) || !k.placeable w.ctx spots
          || ((List.range 8).any (fun i => decide (8 * clu + i < core) && s.canAdmit (8 * clu + i) w))
          || (q.take pos).any (fun f => (s.firstCore clu f.wg).isSome) then none
      else
        let s := if pos ≠ 0 ∧ k.bypasses head.wg w (spots.map Prod.snd) = true then s.countBypass clu core head else s
        let s := s.modCluster clu (fun k => { k with admQ := k.admQ.filter (fun f => f.wg.uid != w.uid) })
        let s := (List.range 8).foldl (fun s i => if (s.core (8 * clu + i)).hold = some w.uid then s.modCore (8 * clu + i) (fun k => { k with hold := none }) else s) s
        some (s.placeAt core slot w place)
    | _, _ => none)

end Sys2Proof.Machine
end

