-- ==== Sys2Proof/Machine/Power.lean ====
section
/-! DEFINITION. Rails, budgets, quotas and the rotation of the cluster map (R22, R207, R223 to R230). -/
namespace Sys2Proof.Machine
open Sys2Proof

/-- The cores of a physical cluster. -/
def coresOf (p : Nat) : List Nat := (List.range 8).map (fun i => 8 * p + i)

/-- Whether a context is entitled to the high rail (R227). -/
def State.entitled (s : State) (ctx : Nat) : Bool := match Tab.get s.ctxs ctx with | some x => x.entitled | none => false

/-- The rail that the requests of a cluster's resident workgroups choose (R227). -/
def State.wantsHigh (s : State) (p : Nat) : Bool := (coresOf p).any (fun c => (s.core c).wgs.any (fun e => e.2.rail && s.entitled e.2.ctx))

/-- RAIL_CHANGE (R22, R226, R227). -/
def execRailChange (clu : Nat) (s : State) : Out :=
  event (if clu < Config.clusters ∧ (s.cluster clu).high ≠ s.wantsHigh clu then some (s.modCluster clu (fun k => { k with high := s.wantsHigh clu })) else none)

/-- Whether a context with a workgroup on a cluster has exhausted its quota on the cluster's die (R225). -/
def State.exhausted (s : State) (p : Nat) : Bool :=
  (coresOf p).any (fun c => (s.core c).wgs.any (fun e => match Tab.get s.ctxs e.2.ctx with
    | some x => (match Tab.get x.quota (p / 16) with | some q => decide (q.2 ≤ 0) | none => false)
    | none => false))

/-- A cluster's account at an arbiter as an interval begins (R223 to R225): a shortfall is deducted, a remainder is not carried; the requests held stay. -/
def Arb.renew (a : Arb) (floor : Bool) : Arb :=
  { a with budget := a.next.1, floor := a.next.2, left := ((if floor then a.next.2 else a.next.1 : Nat) : Int) + min a.left 0, onFloor := floor }

/-- An interval begins for a cluster: its account is renewed, and the requests held are granted in order while a remainder is above 0 (R223). -/
def State.interval (s : State) (stack : Nat) (floor : Nat → Bool) (p : Nat) : State :=
  let a := (s.arb stack p).renew (floor p)
  { s with arbs := Tab.set s.arbs (32 * stack + p) a }.grantHeld p stack a.queue

/-- BUDGET_INTERVAL (R207, R223): 2,048 cycles of an arbiter; the power controller of a die counts those of its first stack. -/
def execBudgetInterval (stack : Nat) (s : State) : Out :=
  event (if stack < 12 then
    let s1 := (List.range Config.clusters).foldl (fun t p => t.interval stack s.exhausted p) s
    some { s1 with dies := s1.dies.modify (stack / 6) (fun d => if stack % 6 = 0 then { d with intervals := d.intervals + 1 } else d),
                   counts := { s1.counts with cycles := s1.counts.cycles + 2048 } }
  else none)

/-- BUDGET_SET (R224): from the arbiter's next interval. -/
def execBudgetSet (clu stack budget floor : Nat) (s : State) : Out :=
  event (if clu < Config.clusters ∧ stack < 12 ∧ 1 ≤ budget ∧ budget ≤ 131071 ∧ 128 ≤ floor ∧ floor ≤ budget then
    some { s with arbs := Tab.set s.arbs (32 * stack + clu) { s.arb stack clu with next := (budget, floor) } }
  else none)

/-- Budget intervals of a quota period (R207). -/
def quotaIntervals : Nat := 512
/-- QUOTA_PERIOD (R207, R225): after 512 budget intervals of the die's first stack; overdraft is deducted. -/
def execQuotaPeriod (die : Nat) (s : State) : Out :=
  event (if (match s.dies[die]? with | some d => decide (quotaIntervals ≤ d.intervals) | none => false) then
    some { s with
      dies := s.dies.modify die (fun d => { d with intervals := d.intervals - quotaIntervals })
      ctxs := s.ctxs.map (fun e => (e.1, { e.2 with quota := Tab.upd e.2.quota die (fun q => (q.1, (q.1 : Int) + min q.2 0)) })) }
  else none)

/-- Marks or ends a pending rotation. -/
def State.setRot (s : State) (die : Nat) (b : Bool) : State := { s with dies := s.dies.modify die (fun d => { d with rotPending := b }) }
/-- ROTATION_PERIOD (R228). -/
def execRotationPeriod (die : Nat) (s : State) : Out := event (if die < s.dies.length ∧ s.rotating die = false then some (s.setRot die true) else none)
/-- ROTATION_GIVE_UP (R229). -/
def execRotationGiveUp (die : Nat) (s : State) : Out := event (if s.rotating die then some (s.setRot die false) else none)

/-- The physical cluster that takes the place of p when its die's map rotates (R228). -/
def rotTo (p : Nat) : Nat := 16 * (p / 16) + (p + 1) % 16
/-- The physical cluster whose place p takes. -/
def rotFrom (p : Nat) : Nat := 16 * (p / 16) + (p + 15) % 16

/-- Whether a workgroup is resident on a die. -/
def State.residentOn (s : State) (die : Nat) : Bool := s.cores.any (fun k => k.1 / 128 == die && !k.2.wgs.isEmpty)

/-- What moves with a logical cluster (R212, R228, R230): teams, residency entries and waiting workgroups, whose bypass counts, kept per core, start anew (R214, log 69:
DESIGN CHOICE). -/
def Cluster.moveIn (k old : Cluster) : Cluster :=
  { k with teams := old.teams, resid := old.resid, admQ := old.admQ.map (fun e => { e with bypass := [] }) }

/-- The clusters of a die after its map has rotated. -/
def State.rotClusters (s : State) (die : Nat) : Tab Cluster :=
  (clustersOf die).foldl (fun t p => Tab.set t p ((s.cluster p).moveIn (s.cluster (rotFrom p)))) s.clusters

/-- The cores of a die after its map has rotated: engine operations of evicted workgroups go along, holds end. -/
def State.rotCores (s : State) (die : Nat) : Tab Core :=
  ((clustersOf die).flatMap coresOf).foldl (fun t c => Tab.set t c { s.core c with eng := (s.core (8 * rotFrom (c / 8) + c % 8)).eng, hold := none }) s.cores

/-- ROTATION_APPLY (R228, R230). -/
def execRotationApply (die : Nat) (s : State) : Out :=
  event (if s.rotating die = true ∧ s.residentOn die = false then
    some { s with
      dies := s.dies.modify die (fun d => { d with map := d.map.map (fun m => (m + 1) % 16), rotPending := false }),
      clusters := s.rotClusters die, cores := s.rotCores die,
      images := s.images.map (fun im => if im.core / 128 = die then { im with core := 8 * rotTo (im.core / 8) + im.core % 8 } else im) }
  else none)

end Sys2Proof.Machine
end

