-- ==== Sys2Proof/Machine/Firmware.lean ====
section
/-! DEFINITION. Sessions and packets (R84, R235, R239, R267), resets (R8, R236), and the calls of Fenaz root firmware (R13, R231 to R238, R246). -/
namespace Sys2Proof.Machine
open Sys2Proof

/-! Packets. -/

/-- Binds a synchronisation word to a session (R267). -/
def State.bind (s : State) (b : Bound) : State := if s.bound.contains b then s else { s with bound := s.bound ++ [b] }

/-- Whether every byte of a range lies in this device's memory and allows an access, as the target checks a window access (R84). -/
def State.targetOk (s : State) (ctx : Nat) (a : Acc) (va n : Nat) : Bool := decide (0 < n) && s.allows ctx a va n

/-- The most bytes that a packet carries (R239). -/
def packetBytes : Nat := 4096
/-- Payload bytes of a packet, or of the packet that answers it. A message has its header and what follows it, whatever its LEN says (R240, R241). -/
def packetSize : Packet → Nat
  | .msg _ => 80
  | .write _ n _ | .read _ n | .rmw _ n _ _ _ | .cas _ n _ _ => n
  | .add _ _ _ => 16

/-- A read-modify-write that another device asks for (R84, R330): the old value goes back. -/
def State.targetRmw (s : State) (n ctx va size : Nat) (f : Nat → Nat) : State :=
  if (size = 4 ∨ size = 8) ∧ va % size = 0 ∧ s.targetOk ctx .r va size = true ∧ s.targetOk ctx .w va size = true then
    let old := fromLE (s.glRead ctx va size)
    { s.glWrite ctx va (toLE size (f old)) with answers := s.answers ++ [(n, va, size, old)] }
  else s.discard

/-- An authentic packet of a session bound to a context (R84, R239): copies and fabric data come by RUD, loads and stores through the window by RUDI. -/
def State.deliver (s : State) (n ctx : Nat) (mode : Uet) (p : Packet) : State :=
  if packetBytes < packetSize p then s.discard
  else match p, mode with
  | .msg m, .rod => s.message ctx m
  | .write va size data, .rud | .write va size data, .rudi =>
    if s.targetOk ctx .w va size then (s.glClean ctx va size).glWrite ctx va (toLE size data) else s.discard
  | .read va size, .rud | .read va size, .rudi =>
    if s.targetOk ctx .r va size then { s with answers := s.answers ++ [(n, va, size, fromLE (s.glRead ctx va size))] } else s.discard
  | .rmw va size op u data, .rud => s.targetRmw n ctx va size (fun old => atomG op u (8 * size) old data)
  | .cas va size cmp new, .rud => s.targetRmw n ctx va size (fun old => if old = cmp then new else old)
  | .add va k gen, .rud =>
    if va % 16 = 0 ∧ s.targetOk ctx .r va 16 = true ∧ s.targetOk ctx .w va 16 = true then
      (s.bind { ctx := ctx, wg := none, addr := va, sess := n }).wordAdd (.gl ctx va) k gen none
    else s.discard
  | _, _ => s.discard

/-- PACKET_RECEIVE (R235, R239): delivered, or discarded and counted. -/
def execPacketReceive (session ctx : Nat) (mode : Uet) (auth : Bool) (p : Packet) (s : State) : Out :=
  .next (match s.sessionCtx session with
    | some x => if decide (mode = .uud) || !auth || x != ctx then s.discard else s.deliver session ctx mode p
    | none => s.discard)

/-! Sessions. -/

/-- Whether a page of the system window may be mapped (R84). -/
def winPageOk (p : Nat × Nat × Nat) : Bool := decide (2 ^ 56 ≤ 4096 * p.1) && decide (4096 * p.1 < 2 ^ 57) && decide (p.2.1 < 2 ^ 19)

/-- SESSION_OPEN (R84, R239): without the transport security sublayer it is refused. -/
def execSessionOpen (session ctx : Nat) (tss rccc : Bool) (pages : List (Nat × Nat × Nat)) (s : State) : Out :=
  let free := match Tab.get s.sessions session with | some e => e.closed | none => true
  event (if !free || decide (session ≥ 65536) || (Tab.get s.ctxs ctx).isNone || !pages.all winPageOk || repeated (pages.map Prod.fst)
      || pages.any (fun p => (s.windowOf ctx (4096 * p.1)).isSome) then none
    else if tss then some { s with sessions := Tab.set s.sessions session { ctx := ctx, rccc := rccc, closed := false, lost := false, pages := pages } }
    else some s)

/-- SESSION_CLOSE (R235). -/
def execSessionClose (session : Nat) (s : State) : Out :=
  event (match Tab.get s.sessions session with
    | some e => if e.closed then none else some { s with sessions := Tab.upd s.sessions session (fun e => { e with closed := true }) }
    | none => none)

/-- Sets ABORT in a bound word, in an evicted workgroup's scratchpad too (R267). -/
def State.abortBound (s : State) (b : Bound) : State :=
  s.wordAbort (match b.wg with
    | none => .gl b.ctx b.addr
    | some w => .sp (match s.cores.find? (fun k => (k.2.wgOf w).isSome) with | some k => k.1 | none => Config.cores) w b.addr)

/-- Whether a wait waits for a bound word of a session. -/
def State.waitsOn (s : State) (c g : Nat) (n : Nat) (w : Wake) : Bool :=
  match w.instr with
  | .swwait ctl sp x a _ => match s.waitIss c g w ctl with
    | some y => (lanesOf y.todo).any (fun l => s.bound.any (fun b => b.sess == n && y.bindingOf sp (y.addr sp a x.ofs l) b))
    | none => false
  | _ => false

/-- A wait on a word of a lost session: it wakes with peer gone (R267). -/
def Group.loseWait (g : Group) : Group :=
  match g.status, g.kept with
  | .blocked w, _ => { g with status := .blocked { w with lost := true } }
  | _, some (.blocked w) => { g with kept := some (.blocked { w with lost := true }) }
  | _, _ => g

/-- The wait of a group, blocked or kept. -/
def Group.wake (g : Group) : Option Wake := match g.status, g.kept with | .blocked w, _ => some w | _, some (.blocked w) => some w | _, _ => none

/-- Marks the waits of an evicted workgroup's groups on words of a lost session: they are evaluated as on a core of their own. -/
def State.loseImage (s : State) (n : Nat) (im : Image) : Image :=
  let t := s.setCore Config.cores { Core.empty with wgs := [(0, im.wg)], grps := im.grps }
  { im with grps := im.grps.map (fun e => match e.2.wake with
      | some w => if t.waitsOn Config.cores e.1 n w then (e.1, e.2.loseWait) else e
      | none => e) }
/-- Marks the waits on words of a lost session. -/
def State.loseWaits (s : State) (n : Nat) : State :=
  let t := { s with images := s.images.map (s.loseImage n) }
  s.cores.foldl (fun t k => k.2.grps.foldl (fun t e => match e.2.wake with
    | some w => if s.waitsOn k.1 e.1 n w then t.modGrp k.1 e.1 Group.loseWait else t
    | none => t) t) t

/-- The global ranges that an engine operation still moves: access, address, bytes. -/
def EngOp.reaches (o : EngOp) : List (Acc × Nat × Nat) :=
  match o.kind with
  | .copy src dst sa da n _ _ _ _ => (if src = .gl then [(.r, sa, n)] else []) ++ (if dst = .dgl then [(.w, da, n)] else [])
  | .fetch tab list n _ _ _ => [(.r, list, 4 * n), (.r, (Ten.of tab).base, 1)]
  | .resid _ va n _ _ => [(.r, va, 4096 * n)]
  | .rkld sp tab _ _ => glAccs sp .r [((Ten.of tab).base, (Ten.of tab).base + 1)]
  | .mnorm _ sp tab _ _ _ n st => glAccs sp .r [((Ten.of tab).base, (Ten.of tab).base + 1)] ++ [(.w, (Ten.of tab).nbase, 128 * st * n)]
  | .adrain _ sp _ _ _ tab _ _ _ _ _ _ _ => glAccs sp .w [((Ten.of tab).base, (Ten.of tab).base + 1)]
  | .walk _ ls => ls.filterMap (fun w => if w.done then none else w.want.map (fun a => (.r, a.toNat, 64)))
  | .ired _ _ tab bags => (.r, (Ten.of tab).base, 1) :: bags.flatMap (fun b => [(.r, b.list.toNat, 4), (.w, b.dest.toNat, 4)])
  | .selk _ _ _ _ _ | .sortr _ _ _ _ _ => []
/-- Whether an engine operation goes through a session (R84, R267). -/
def State.throughSession (s : State) (n : Nat) (o : EngOp) : Bool :=
  o.reaches.any (fun e => (span e.1 e.2.1 e.2.2 4096 ++ [(e.1, e.2.1 + e.2.2 - 1)]).any (fun p => match s.translate o.ctx p.1 p.2 with | .window m _ _ => m == n | _ => false))

/-- Whether a sector's destination lies on another device. -/
def State.farSector (s : State) (o : EngOp) (dst : CDst) (a : Nat) : Bool :=
  match dst with
  | .dgl => (match s.translate o.ctx .w a with | .window _ _ _ => true | _ => false)
  | _ => false

/-- An operation that its session leaves unfinished: its destination on this device holds undefined values, its word is aborted, and it ends (R267). -/
def State.loseOp (s : State) (c : Nat) (o : EngOp) : State :=
  let free (n : Nat) : List Byte := (List.range n).map (Config.freeByte s.fresh)
  let s := match o.kind with
    | .fetch tab _ _ dest rows _ => s.modWg c o.wg (fun w => rows.foldl (fun w r => w.spWrite (dest + r * (Ten.of tab).pitch) (free (Ten.of tab).pitch)) w)
    | .resid _ _ n cloff _ => s.clPut (clusterOf c) o.launch o.team (4096 * cloff) (free (4096 * n))
    | .mnorm _ _ tab _ _ _ n st => s.glWrite o.ctx (Ten.of tab).nbase (free (128 * st * n))
    | .walk p ls => s.modWg c o.wg (fun w => (ls.filter (fun (l : WLane) => !l.done)).foldl (fun w (l : WLane) => w.spWrite l.ofs (free (16 + p.rs))) w)
    | .ired _ bf16 tab bags => bags.foldl (fun (s : State) (b : Bag) => s.glWrite o.ctx b.dest.toNat (free ((Ten.of tab).e0 * irDest bf16))) s
    | .copy _ dst _ da n _ _ _ rcv => rcv.foldl (fun (s : State) (r : Recv) =>
        let rc := (s.coreOf (clusterOf c) r.wg).getD c
        (List.range (ceilDiv n 32)).foldl (fun (s : State) i =>
          if s.farSector o dst (da + 32 * i) then s
          else s.putSector c rc o dst r.wg (da + 32 * i) ((List.range 32).map (fun j => Config.freeByte s.fresh (32 * i + j))) (List.replicate 8 false) false) s) s
    | _ => s
  match o.kind with
  | .resid e va n cloff _ => s.fillFail c o e va n cloff
  | _ => (s.opAbort c o).engQuit c o

/-- The global ranges that an operation in the oven queue still reads. -/
def OvenOp.reaches (o : OvenOp) : List (Acc × Nat × Nat) :=
  (if o.x.space = .gl then [(.r, (Ten.of o.da).base, 1)] else []) ++ (if o.topk then [(.r, (Ten.of o.da).nbase, 1), (.r, (Ten.of o.db).nbase, 1)] else [])
/-- Whether an operation in the oven queue goes through a session (R84, R267). -/
def State.ovenThrough (s : State) (n : Nat) (o : OvenOp) : Bool :=
  o.reaches.any (fun e => match s.translate o.ctx e.1 e.2.1 with | .window m _ _ => m == n | _ => false)
/-- An operation of the oven queue that its session leaves unfinished: what it was to write is undefined, its word is aborted, and it leaves the queue (R267). -/
def State.loseOven (s : State) (c : Nat) (o : OvenOp) : State :=
  let s := s.modCore c (fun k => (k.ovenWrite o true).replaced o)
  let s := match o.rofs with | some a => if o.topk then s.modWg c o.wg (fun w => w.spWrite a (o.record true)) else s | none => s
  let s := match o.word with | some a => s.wordAbort (.sp c o.wg a) | none => s
  ((s.unwatch c o.wg o.id).modCore c (fun k => { k with ovenQ := k.ovenQ.filter (fun p => p.id != o.id) })).settle c o.wg

/-- SESSION_LOST (R267). -/
def execSessionLost (session : Nat) (s : State) : Out :=
  event (match Tab.get s.sessions session with
    | some e =>
      if e.lost || e.closed then none
      else
        let ops := s.cores.flatMap (fun k => (k.2.eng.filter (s.throughSession session)).map (fun o => (k.1, o)))
        let ovens := s.cores.flatMap (fun k => (k.2.ovenQ.filter (s.ovenThrough session)).map (fun o => (k.1, o)))
        let s := s.loseWaits session
        let s := (s.bound.filter (fun b => b.sess == session)).foldl (fun s b => s.abortBound b) s
        let s := ops.foldl (fun s p => s.loseOp p.1 p.2) s
        let s := ovens.foldl (fun s p => s.loseOven p.1 p.2) s
        some { s with sessions := Tab.upd s.sessions session (fun e => { e with lost := true }), winOut := s.winOut.filter (fun w => w.session != session), fresh := s.fresh + 1 }
    | none => none)

/-! Resets (R8, R236). -/

/-- Every field at its reset value; the agenda and the counters of free values and numbers run on (log 2, log 3: DESIGN CHOICE). -/
def State.wiped (s : State) : State := { State.reset with agenda := s.agenda, fresh := s.fresh + 1, nextId := s.nextId + 1 }

/-- POWER_ON_RESET (R8, R236): the patch, of at most 64 KiB, runs if its signature holds (the Bool), else the ROM alone; the key slots take new keys. -/
def execPowerOnReset (patch : Option (List Byte × Bool)) (s : State) : Out :=
  .next { s.wiped with fenaz := { State.reset.fenaz with patch := (patch.filter (fun p => p.2 && decide (p.1.length ≤ 65536))).map Prod.fst, keys := (List.range 256).map (fun k => (k, (Tab.get s.fenaz.keys k).getD 0 + 1)) } }

/-- DEVICE_RESET (R8): memory, keys, patch and identifier are no reset fields. -/
def execDeviceReset (s : State) : Out :=
  .next { s.wiped with hbm := s.hbm, hbmKey := s.hbmKey, hbmPoison := s.hbmPoison, fenaz := s.fenaz }

/-! Calls (R13, R231 to R238, R246). A call that is refused returns an error and changes nothing. -/

/-- What a call returns to its caller. -/
def State.ret (s : State) (caller : Nat) (error : Bool) : State := { s with rets := s.rets ++ [{ caller := caller, error := error }] }
/-- A call of Aqper service firmware: where the check fails it returns an error and changes nothing (R21, R237). -/
def call (caller : Nat) (ok : Bool) (t : Unit → State) (s : State) : Out := .next (if caller = 0 ∧ ok = true then (t ()).ret caller false else s.ret caller true)

/-- FABRIC_JOIN (R13). -/
def execFabricJoin (dev : Nat) (s : State) : Out :=
  event (if dev < 2 ^ 19 ∧ s.ctxs = [] then some { s with fenaz := { s.fenaz with devId := BitVec.ofNat 19 dev } } else none)

/-- Whether an owner may take a key slot for a context (R231, R237). -/
def State.ownerOk (s : State) (ctx owner key : Nat) : Bool :=
  decide (ctx < 256) && decide (key < 256) && (decide (key = 0) == decide (ctx = 0)) && (Tab.get s.ctxs ctx).isNone
    && s.ctxs.all (fun e => (e.2.key == key) == (e.2.owner == owner))

/-- A key slot takes a new key; the synchronisation engines drop the words that they hold of it, whose bytes stand in HBM (R232, R233). -/
def State.refill (s : State) (key : Nat) : State :=
  { s with fenaz := { s.fenaz with keys := Tab.set s.fenaz.keys key ((Tab.get s.fenaz.keys key).getD 0 + 1) },
           dies := s.dies.map (fun d => { d with words := d.words.filter (fun w => w.key != key) }) }

/-- CREATE_CONTEXT (R231, R232, R237): a slot that no context uses takes a new key. -/
def execCreateContext (caller ctx owner key priv : Nat) (grants : List (Nat × Nat)) (s : State) : Out :=
  call caller (s.ownerOk ctx owner key) (fun _ =>
    let x : Ctx := { owner := owner, key := key, pages := [], grants := grants, tens := [], walks := [], queues := [], entitled := false, quota := [],
                      privTop := priv, saved := [] }
    let s := if s.ctxs.any (fun e => e.2.key == key) then s else s.refill key
    { s with ctxs := Tab.set s.ctxs ctx x }) s

/-- Whether an engine operation is one that the destruction of its context cancels (R235). -/
def EngOp.cancels (o : EngOp) : Bool := match o.kind with | .walk _ _ => true | .ired _ _ _ _ => true | _ => false

/-- Whether a context may be destroyed (R235). -/
def State.idle (s : State) (ctx : Nat) : Bool :=
  s.cores.all (fun k => k.2.wgs.all (fun e => e.2.ctx != ctx) && k.2.ovenQ.all (fun o => o.ctx != ctx) && k.2.eng.all (fun o => o.ctx != ctx || o.cancels))
    && s.clusters.all (fun k => k.2.admQ.all (fun e => e.wg.ctx != ctx)) && s.sessions.all (fun e => e.2.ctx != ctx || e.2.closed)
    && s.dies.all (fun d => d.placeQ.all (fun n => match Tab.get s.launches n with | some l => l.ctx != ctx | none => true))

/-- DESTROY_CONTEXT (R235, R237): what is left of it goes: images, launches, reservations, bindings, closed sessions with their pages, walks and reductions
cancelled. -/
def execDestroyContext (caller ctx : Nat) (s : State) : Out :=
  call caller ((Tab.get s.ctxs ctx).isSome && s.idle ctx) (fun _ =>
    { s with
      ctxs := Tab.del s.ctxs ctx, launches := s.launches.filter (fun e => e.2.ctx != ctx), images := s.images.filter (fun im => im.wg.ctx != ctx),
      bound := s.bound.filter (fun b => b.ctx != ctx), sessions := s.sessions.filter (fun e => e.2.ctx != ctx),
      clusters := s.clusters.map (fun k => (k.1, { k.2 with
        resid := k.2.resid.filter (fun r => r.2.ctx != ctx),
        teams := k.2.teams.filter (fun t => match Tab.get s.launches t.launch with | some l => l.ctx != ctx | none => true) })),
      cores := s.cores.map (fun k => (k.1, { k.2 with eng := k.2.eng.filter (fun o => o.ctx != ctx), fcache := k.2.fcache.filter (fun l => l.ctx != ctx), resv := k.2.resv.filter (fun r => r.ctx != ctx) })) }) s

/-- Sizes of pages (R85). -/
def pageSizes : List Nat := [0x1000, 0x10000, 0x200000, 0x2000000, 0x40000000]

/-- Whether Fenaz accepts a translation entry (R21, R85, R232, R237). -/
def Ctx.mapOk (x : Ctx) (va pa size key : Nat) : Bool :=
  pageSizes.contains size && va % size == 0 && pa % size == 0 && decide (va + size ≤ 2 ^ 56) && key == x.key
    && !isHole pa && !isHole (pa + size - 1) && x.grants.any (fun g => decide (g.1 ≤ pa) && decide (pa + size ≤ g.1 + g.2))
    && x.pages.all (fun p => decide (p.va + p.size ≤ va) || decide (va + size ≤ p.va))

/-- MAP (R21, R85, R232, R237). -/
def execMap (caller ctx va pa size : Nat) (r w x : Bool) (key : Nat) (s : State) : Out :=
  call caller (match Tab.get s.ctxs ctx with | some k => k.mapOk va pa size key | none => false) (fun _ =>
    s.modCtx ctx (fun k => { k with pages := k.pages ++ [{ va := va, size := size, pa := pa, r := r, w := w, x := x, key := key }] })) s

/-- UNMAP (R237). -/
def execUnmap (caller ctx va : Nat) (s : State) : Out :=
  call caller (match Tab.get s.ctxs ctx with | some k => k.pages.any (fun p => p.va == va) | none => false) (fun _ =>
    s.modCtx ctx (fun k => { k with pages := k.pages.filter (fun p => p.va != va) })) s

/-- SET_QUOTA (R225, R237); granted: within the operator's policy record. -/
def execSetQuota (caller ctx die quota : Nat) (granted : Bool) (s : State) : Out :=
  call caller (granted && (Tab.get s.ctxs ctx).isSome && decide (die < 2)) (fun _ =>
    s.modCtx ctx (fun k => { k with quota := Tab.set k.quota die (quota, match Tab.get k.quota die with | some q => q.2 | none => quota) })) s

/-- SET_ENTITLEMENT (R227, R237). -/
def execSetEntitlement (caller ctx : Nat) (on : Bool) (granted : Bool) (s : State) : Out :=
  call caller (granted && (Tab.get s.ctxs ctx).isSome) (fun _ => s.modCtx ctx (fun k => { k with entitled := on })) s

/-- Where a reservation of n aligned granule rows may begin beside others, the highest first (R246). -/
def resvRow (rs : List Resv) (n : Nat) : Option Nat :=
  (List.range 129).reverse.find? (fun r => decide (r + n ≤ Config.granuleRows) && (n == 0 || r % n == 0) && rs.all (fun q => decide (q.row + q.rows ≤ r) || decide (r + n ≤ q.row)))

/-- Whether reservations of a core keep within a quarter of its workgroup slots, group slots and registers (R246). -/
def resvOk (rs : List Resv) : Bool :=
  decide (4 * (rs.map Resv.wgs).sum ≤ Config.wgSlots) && decide (4 * (rs.map Resv.grps).sum ≤ Config.groupSlots)
    && decide (4 * (rs.map Resv.rows).sum ≤ Config.granuleRows) && decide ((rs.map Resv.scratch).sum ≤ Config.scratchBytes)
    && decide ((rs.map Resv.tiles).sum ≤ 16) && decide ((rs.map Resv.banks).sum ≤ 12)

/-- The stores that no workgroup of a core holds are cleared, as Fenaz root firmware clears what it reserves (R233): banks, lists, racks, and the marks of banks and
lists. -/
def Core.cleared (k : Core) : Core :=
  let free (i : Nat) : Bool := (k.bank i).owner.isNone
  let rack (r : Rack) : Rack := if r.owner.isNone then Rack.empty else r
  { k with banks := k.banks.filter (fun b => b.2.owner.isSome), lists := k.lists.filter (fun l => !free (l.1 / 8)), active := rack k.active, shadow := rack k.shadow,
           poison := k.poison.filter (fun e => !free (if e.1 = .winner then e.2 / 288 else e.2 / 1536)) }

/-- RESERVE_CLASS_0 (R233, R237, R246): the context's reservation on the core takes the place of its earlier one, and what it reserves is cleared. -/
def execReserveClass0 (caller ctx core wgs groups rows scratch tiles banks : Nat) (granted : Bool) (s : State) : Out :=
  let rest := (s.core core).resv.filter (fun r => r.ctx != ctx)
  let new := (resvRow rest rows).map (fun row =>
    rest ++ [{ ctx := ctx, wgs := wgs, grps := groups, row := row, rows := rows, scratch := scratch, tiles := tiles, banks := banks }])
  match new with
  | some rs => call caller (granted && (Tab.get s.ctxs ctx).isSome && decide (core < Config.cores) && resvOk rs) (fun _ => s.modCore core (fun k => { k.cleared with resv := rs })) s
  | none => .next (s.ret caller true)

/-- The SHA-384 of the patch that runs (R238); without one, a value that the spec does not give. -/
def Fenaz.patchHash (f : Fenaz) : Nat := match f.patch with | some p => sha384 p | none => Config.noPatch

/-- ATTEST (R237, R238): any context may call it. -/
def execAttest (caller : Nat) (nonce : BitVec 256) (s : State) : Out :=
  event (match Tab.get s.ctxs caller with
    | some x =>
      let fields := [Config.romVersion, s.fenaz.patchHash, s.fenaz.devId.toNat, x.key, nonce.toNat]
      some { s.ret caller false with fenaz := { s.fenaz with reports := s.fenaz.reports ++ [(fields, Config.attestSign fields)] } }
    | none => none)

end Sys2Proof.Machine
end

