-- ==== Sys2Proof/Machine/Events.lean ====
section
/-! DEFINITION. The events that instructions, engines, traps, packets and signals make (R177, R178), with what R181, R191 and R193 to R200 say of each: which are releases and
acquires, at which scope, which engine makes them, and which are single copies. -/
namespace Sys2Proof.Machine
open Sys2Proof

/-! Lanes. -/

/-- A lane's number in the system. -/
def laneNo (grp l : Nat) : Nat := 64 * grp + l
/-- Where a group on a core lies. -/
def State.seatOf (s : State) (c grp : Nat) : Place := { grp := grp, core := c, clu := clusterOf c, die := clusterOf c / 16, dev := s.fenaz.devId.toNat }

/-- The place in program order of the instruction of an issue; what the core does for a lane before that issue has one of the three places before it. -/
def placeOf (nonce : Nat) : Nat := 4 * nonce + 3
/-- A relaxed event of a lane of a group, without location. -/
def State.laneEv (s : State) (c grp ctx place l : Nat) : Ev :=
  { lane := laneNo grp l, place := s.seatOf c grp, ctx := ctx, issue := place, origin := .lane, kind := .rd, loc := none, first := none, size := 0, whole := false,
    rel := false, acq := false, scope := .grp, rmt := false, merged := false, gen := none, mir := none }
/-- That of a lane of an issue. -/
def Iss.by_ (x : Iss) (l : Nat) : Ev := x.s.laneEv x.core x.gr.uid x.wg.ctx (placeOf x.nonce) l
/-- The order, scope and RMT of an instruction (R181, R184). -/
def onXm (m : Xm) (e : Ev) : Ev :=
  { e with rel := e.kind != .rd && (m.ord == .rel || m.ord == .ar), acq := e.kind != .wr && (m.ord == .acq || m.ord == .ar), scope := m.scope, rmt := m.rmt }

/-- The location behind a global address (R20, R84). -/
def State.glLoc (s : State) (ctx : Nat) (acc : Acc) (a : Nat) : EvLoc :=
  match s.translate ctx acc a with
  | .pa p _ => { store := .gl, at_ := p }
  | .window _ d p => { store := .far d, at_ := p }
  | _ => { store := .gl, at_ := 2 ^ 64 + a }
/-- The location of an address of an issue. -/
def Iss.evLoc (x : Iss) (sp : Space) (acc : Acc) (a : Nat) : EvLoc :=
  match sp with
  | .gl | .pv => x.s.glLoc x.wg.ctx acc a
  | .sp => { store := .sp x.core x.wg.uid, at_ := a }
  | .cl => { store := .cl x.clu x.wg.launch x.wg.team, at_ := a }

/-- The accesses of lanes at addresses, of n bytes; f says what they are. -/
def Iss.accs (x : Iss) (sp : Space) (acc : Acc) (n : Nat) (ls : List (Nat × Nat)) (f : Ev → Ev) : List Ev :=
  ls.flatMap (fun e => (f (x.by_ e.1)).bytes (x.evLoc sp acc e.2) n)
/-- A range that a group command accesses, in steps, each whole or not, as accesses of its lowest lane. -/
def Iss.rangeEvs (x : Iss) (sp : Space) (k : EvKind) (a n step : Nat) (whole : Bool := false) : List Ev :=
  match x.low with
  | some l => x.accs sp (if k = .rd then .r else .w) step ((List.range (n / step)).map (fun i => (l, a + step * i))) (fun e => { e with kind := k, whole := whole })
  | none => []
/-- Locations of a store that are no memory, which a group command accesses as its lowest lane. -/
def Iss.ownEvs (x : Iss) (st : EvStore) (k : EvKind) (ns : List Nat) : List Ev :=
  match x.low with
  | some l => ns.flatMap (fun n => Ev.bytes { x.by_ l with kind := k } { store := st, at_ := n } 1)
  | none => []
/-- The elements of a bank, and its winner lists, by location. -/
def bankLocs (b : Nat) : List Nat := (List.range 1536).map (fun i => 1536 * b + i)
def listLocs (b : Nat) : List Nat := (List.range 8).map (fun r => 8 * b + r)

/-! Additions (R73, R177, R195). -/

/-- The location of a synchronisation word. -/
def State.wordLoc (s : State) : Loc → EvLoc
  | .sp c w a => { store := .sp c w, at_ := a }
  | .gl x va => s.glLoc x .w va
/-- An addition of n, as one read-modify-write of the word: e says who makes it, and whether it is a release. stale: one of another generation is none (R195). -/
def State.addEvs (s : State) (e : Ev) (l : Loc) (n : Nat) (gen : Option Nat) (stale : Bool) : List Ev :=
  let w := SWord.ofNat (s.word l)
  let v := w.add n gen
  Ev.bytes { e with kind := .rmw, whole := true, rel := e.rel && !(stale && gen.isSome && gen != some w.gen), gen := if v.gen = w.gen then none else some v.gen } (s.wordLoc l) 16
/-- The additions of a SWARR, one per lane in ascending order. -/
def Iss.swarrEvs (x : Iss) (sp : Space) (m : Xm) (a b : Opnd) (gen : Nat → Option Nat) : List Ev :=
  (x.lanes.foldl (fun (r : State × List Ev) l =>
    let p := x.loc sp (x.addr sp a m.ofs l)
    (r.1.wordAdd p (x.w32 b l) (gen l) (some x.who), r.2 ++ r.1.addEvs (onXm m { x.by_ l with kind := .rmw }) p (x.w32 b l) (gen l) false)) (x.s, [])).2

/-! Instructions of lanes. -/

/-- Pushes and pops (R49): a lane's entry of a lane queue is a location, and a scalar queue's entry is one. Both change what QCTL reads of the queue, a push as the release
that it is (R343). -/
def Iss.queueEvs (x : Iss) : List Ev :=
  let at_ (h : Nat) (i k : Nat) : EvLoc := { store := .queue x.core x.wg.uid h, at_ := 64 * i + k }
  let wide (h : Nat) : Nat := if (x.wg.queue h).kind = 2 then x.width else 1
  (match popOf x.i with
    | some h => x.lanes.flatMap (fun l => (List.range (wide h)).flatMap (fun k =>
        Ev.bytes { x.by_ l with acq := true, scope := .core } (at_ h (x.wg.queue h).rIdx k) 1)) ++ x.ownEvs (.state x.core x.wg.uid h) .rmw [0]
    | none => [])
  ++ (match pushOf x.i with
    | some h => (if wide h = 1 then x.low.toList else x.lanes).flatMap (fun l =>
        Ev.bytes { x.by_ l with kind := .wr, rel := true, scope := .core } (at_ h (x.wg.queue h).wIdx (if wide h = 1 then 0 else l)) 1)
      ++ (x.ownEvs (.state x.core x.wg.uid h) .rmw [0]).map (fun e => { e with rel := true, scope := .core })
    | none => [])

/-- The accesses of an image (R372, R383), 16 bytes at a time. -/
def Iss.imEvs (x : Iss) (sp : ImSpace) (k : EvKind) (a : Fin 64) (n : Nat) : List Ev := x.rangeEvs (imSpace sp) k (x.sv a) n 16

/-- A lane reads and writes the depth of its call stack (R275). -/
def Iss.depthEvs (x : Iss) (l : Nat) : List Ev := x.accs .pv .r 4 [(l, x.privOf l)] id ++ x.accs .pv .w 4 [(l, x.privOf l)] (fun e => { e with kind := .wr })

/-- The tensor entries that an instruction reads at its issue (R89, R373). -/
def Iss.entries (x : Iss) : List Nat :=
  match x.i with
  | .fetch _ ta _ _ _ | .rkld _ _ _ ta _ _ | .mnormB _ _ ta _ _ _ _ | .ired _ _ _ ta _ _ _ | .tidget _ _ ta _ | .cxdefOne _ _ ta _
  | .adrainNone _ _ _ _ _ ta _ _ | .adrainP24 _ _ _ _ _ ta _ _ | .adrainP48 _ _ _ _ _ ta _ _ => [ta.val]
  | .mnormA _ _ ta tb _ _ _ _ | .cxdefAnd _ _ ta tb _ | .cxdefOr _ _ ta tb _ => [ta.val, tb.val]
  | .mmul _ o | .mtopk _ o _ => [o.ta.val, o.tb.val]
  | .cxcurLoad _ cu _ => match x.s.grp x.core x.g with
    | some g => let k := g.cursor cu.val; if !k.valid then [] else if k.op = .one then [k.ta] else [k.ta, k.tb]
    | none => []
  | _ => []
/-- An access to a tensor entry, whole (R373). -/
def Iss.entryEvs (x : Iss) (k : EvKind) (n : Nat) : List Ev :=
  match x.low with
  | some l => Ev.bytes { x.by_ l with kind := k, whole := true } { store := .ten x.wg.ctx, at_ := 128 * n } 128
  | none => []
/-- The reads that the sifter has made for a reading beyond an older state of it (R191, R197). -/
def Iss.sifterEvs (x : Iss) (old new : Memo) : List Ev :=
  let made := ((new.take (new.length - old.length)).filter (fun e => decide (e.1 < 2 ^ 64))).reverse
  made.flatMap (fun e => Ev.bytes { x.by_ (x.low.getD 0) with origin := .engine x.nonce .sifter none } (x.s.glLoc x.wg.ctx .r e.1) e.2.1)
/-- The reads of a fill of a cursor (R380), up to the page that it parks on. -/
def Iss.fillEvs (x : Iss) (cu : Nat) : List Ev :=
  let k := x.gr.cursor cu
  if !k.valid || x.act == 0 || k.ended then []
  else match k.fill x.rd x.lanes.length with
    | .ok (_, k') => x.sifterEvs k.seen k'.seen
    | .error (.park _ seen) => x.sifterEvs k.seen seen
    | .error _ => []

/-- The events that the active, guard-true lanes of an instruction make when it is performed (R177, R181); lanes that wait make none yet. A load or store of a global
word that its engine holds is whole (R74). -/
def Iss.events (x : Iss) : List Ev :=
  let at_ (sp : Space) (a : Opnd) (ofs : BitVec 24) (ls : List Nat) : List (Nat × Nat) := ls.map (fun l => (l, x.addr sp a ofs l))
  let atom (sp : Space) (sz : Size) (m : Xm) (a : Opnd) : List Ev :=
    x.accs sp .w (szBytes sz) (at_ sp a m.ofs x.lanes) (fun e => onXm m { e with kind := .rmw, whole := true, merged := true })
  let held (sp : Space) (sz : Size) (acc : Acc) (a : Nat) : Bool := decide (szBytes sz = 16) && inGlobal sp && x.s.holds16 x.wg.ctx acc a
  x.queueEvs ++ x.entries.flatMap (x.entryEvs .rd) ++ match x.i with
  | .ld _ sp sz _ m _ a => (at_ sp a m.ofs x.lanes).flatMap (fun e => x.accs sp .r (szBytes sz) [e] (fun v =>
      onXm m { v with whole := held sp sz .r e.2, mir := (match sp with | .gl => x.s.mirFill x.wg.ctx x.clu e.2 (szBytes sz) | _ => none) }))
  | .st _ sp sz m a _ => (at_ sp a m.ofs x.lanes).flatMap (fun e => x.accs sp .w (szBytes sz) [e] (fun v => onXm m { v with kind := .wr, whole := held sp sz .w e.2 }))
  | .ldf _ clr ofs d a => x.accs .sp .r 4 (at_ .sp a ofs (lanesOf (ldfPass clr d (x.addr .sp a ofs) x x.s (lanesOf x.todo)).2)) (fun e => { e with acq := true, scope := .core })
  | .ste _ ofs a b =>
    x.accs .sp .w 4 (at_ .sp a ofs (lanesOf (stePass b (x.addr .sp a ofs) x x.s (lanesOf x.todo)).2)) (fun e => { e with kind := .wr, rel := true, scope := .core })
  | .atom _ _ sp sz _ m _ a _ => atom sp sz m a
  | .atomCas _ sp sz m _ a _ _ => atom sp sz m a
  | .red _ _ sp sz _ m a _ => atom sp sz m a
  | .fence _ sc o rmt => x.lanes.map (fun l => onXm { scope := sc, ord := o, rmt := rmt, ofs := 0 } { x.by_ l with kind := .fence })
  | .mfence _ => x.lanes.map (fun l => { x.by_ l with kind := .mfence })
  | .swinit _ sp m a _ cc => x.lanes.flatMap (fun l => x.accs sp .w 16 [(l, x.addr sp a m.ofs l)] (fun e =>
      onXm m { e with kind := .wr, whole := true, gen := some (x.w32 cc l % 65536) }))
  | .swarrAny _ sp m a b => x.swarrEvs sp m a b (fun _ => none)
  | .swarrGen _ sp m a b cc => x.swarrEvs sp m a b (fun l => some (bits (x.w32 cc l) 15 0))
  | .swwait _ sp m a b =>
    (lanesOf (x.swPass sp m a b).1).flatMap (fun l =>
      let p := x.addr sp a m.ofs l
      x.accs sp .r 16 [(l, p)] (fun e => { onXm m e with whole := true, gen := if (x.swLane sp p 0).2 then none else some (x.w32 b l % 65536) }))
  | .engwait _ mask => x.lanes.flatMap (fun l => ((List.range 8).filter mask.getLsbD).flatMap (fun k =>
      Ev.bytes { x.by_ l with acq := true, scope := .core } { store := .ended x.core x.gr.uid, at_ := k } 1))
  | .callNear _ _ _ _ | .callFar _ _ _ _ =>
    x.lanes.flatMap (fun l =>
      let f := x.privOf l + 16 + 16 * x.depth l
      let w (n a : Nat) : List Ev := x.accs .pv .w n [(l, a)] (fun e => { e with kind := .wr })
      w 8 f ++ w 2 (f + 8) ++ (List.range 6).flatMap (fun i => w 1 (f + 10 + i)) ++ x.depthEvs l)
  | .ret _ =>
    x.lanes.flatMap (fun l => x.accs .pv .r 8 [(l, x.privOf l + 16 * x.depth l)] id ++ x.accs .pv .r 2 [(l, x.privOf l + 16 * x.depth l + 8)] id ++ x.depthEvs l)
  | .spill _ _ a => x.rangeEvs .pv .wr (x.privOf 0 + x.w32 a 0) (8 + 4 * x.width) 4
  | .fill _ _ a => x.rangeEvs .pv .rd (x.privOf 0 + x.w32 a 0) (8 + 4 * x.width) 4
  | .copyl _ a b => x.rangeEvs .gl .rd (x.sv a) (32 * x.sv b) 32 true
  | .tidsetSet _ sp ta a => x.imEvs sp .rd a 128 ++ x.entryEvs .wr ta.val
  | .tidsetClr _ _ ta => x.entryEvs .wr ta.val
  | .tidget _ sp _ a => x.imEvs sp .wr a 128
  | .walkdef _ _ sp a => x.imEvs sp .rd a 16
  | .cxcurSave _ _ a => x.rangeEvs .sp .wr (x.sv a) 16 8
  | .cxcurLoad _ _ a => x.rangeEvs .sp .rd (x.sv a) 16 8
  | .cxfill _ cu _ _ _ => x.fillEvs cu.val
  | .cxcurInfo _ cu _ => x.sifterEvs (x.gr.cursor cu.val).seen ((x.gr.cursor cu.val).info x.rdAll).2
  | .aload _ tm _ bk a =>
    (if tm then (x.low.toList.flatMap (fun l => (List.range 1536).flatMap (fun i => Ev.bytes (x.by_ l) { store := .tm x.core x.wg.uid, at_ := x.sv a + 4 * i } 4)))
      else x.rangeEvs .sp .rd (x.sv a) 6144 4) ++ x.ownEvs (.bank x.core) .wr (bankLocs bk.val)
  | .azero _ bk => x.ownEvs (.bank x.core) .wr (bankLocs bk.val) ++ x.ownEvs (.list x.core) .wr (listLocs bk.val)
  | .wrd _ a w n => x.ownEvs (.list x.core) .rd ((List.range n.toNat).map (fun i => w.val + i)) ++ x.rangeEvs .sp .wr (x.sv a) (144 * n.toNat) 4
  | .wmerge _ w a _ => x.rangeEvs .cl .rd (x.sv a) 144 4 ++ x.ownEvs (.list x.core) .rmw [w.val]
  | .qctlOcc _ h _ | .qctlPerm _ h _ => x.lanes.flatMap (fun l => Ev.bytes (x.by_ l) { store := .state x.core x.wg.uid h.val, at_ := 0 } 1)
  | .qctlReset _ h => (x.ownEvs (.state x.core x.wg.uid h.val) .rmw [0]).map (fun e => { e with rel := true, acq := true, scope := .core })
  | .rft _ => ((x.s.core x.core).slotsOf x.wg.uid).flatMap (fun g =>
      x.accs .gl .r 8 ((List.range (frameBytes / 8)).map (fun i => ((lanesOf x.cur.mask).headD 0, x.wg.haltAt g + 8 * i))) id)
  | _ => []

/-! What the core does for lanes. -/

/-- The writes of the call-stack headers of a group's lanes, before its first issue (R274). -/
def State.birthEvs (s : State) (c : Nat) (w : Workgroup) (x : Group) (lanes : DWord) : List Ev :=
  (lanesOf lanes).flatMap (fun l => (List.range 4).flatMap (fun i =>
    Ev.bytes { s.laneEv c x.uid w.ctx (4 * s.fresh) l with kind := .wr } (s.glLoc w.ctx .w (x.priv + w.rec_.priv * l + 4 * i)) 4))
/-- The write of a halted workgroup's frames, a release at core for every lane that has stopped, and the acquire of it by the handler's first issue (R253). -/
def State.frameEvs (s : State) (c : Nat) (w : Workgroup) (init : Nat) : List Ev :=
  let live := (s.core c).grps.filter (fun e => e.2.wg == w.uid && decide (e.1 < 32))
  let mark : EvLoc := { store := .halt c w.uid, at_ := 0 }
  live.flatMap (fun e => (List.range (frameBytes / 8)).flatMap (fun i =>
      Ev.bytes { s.laneEv c e.2.uid w.ctx (4 * s.fresh) 0 with kind := .wr, rel := true, scope := .core } (s.glLoc w.ctx .w (w.frameAt e.1 + 8 * i)) 8))
    ++ live.flatMap (fun e => (List.range e.2.width).flatMap (fun l =>
      Ev.bytes { s.laneEv c e.2.uid w.ctx (4 * s.fresh + 1) l with kind := .rmw, rel := true, scope := .core } mark 1))
    ++ (live.filter (fun e => e.2.uid == init)).flatMap (fun e => (lanesOf (liveMask e.2.fr)).flatMap (fun l =>
      Ev.bytes { s.laneEv c e.2.uid w.ctx (4 * s.fresh + 1) l with acq := true, scope := .core } mark 1))
/-- The acquires of the lanes that a lost session wakes (R194, R267). -/
def State.lostEvs (s : State) (n : Nat) : List Ev :=
  s.cores.flatMap (fun k => k.2.grps.flatMap (fun e => match e.2.wake with
    | some w => if s.waitsOn k.1 e.1 n w then (match w.instr with
        | .swwait ctl sp m a _ => match s.waitIss k.1 e.1 w ctl with
          | some y => ((lanesOf y.todo).filter (fun l => s.bound.any (fun b => b.sess == n && y.bindingOf sp (y.addr sp a m.ofs l) b))).flatMap (fun l =>
              y.accs sp .r 16 [(l, y.addr sp a m.ofs l)] (fun v => { onXm m v with whole := true }))
          | none => []
        | _ => []) else []
    | none => []))

/-! Other devices and the dispatcher. -/

/-- A relaxed event of what lies outside the device's cores: where no lane is, in no program order with another. -/
def State.farEv (s : State) (ctx dev die : Nat) : Ev :=
  let far := 2 ^ 40 + s.fresh
  { s.laneEv 0 0 ctx (4 * s.fresh) 0 with lane := 2 ^ 60 + s.fresh, place := { grp := far, core := far, clu := far, die := die, dev := dev } }
/-- A packet's accesses, by a lane or an engine of another device (R84, R239): relaxed, since a packet names no scope (log 65: DESIGN CHOICE). -/
def State.packetEvs (s : State) (n ctx : Nat) (p : Packet) : List Ev :=
  let e := s.farEv ctx (2 ^ 20 + n) (2 ^ 40 + s.fresh)
  let at_ (k : EvKind) (whole : Bool) (va size : Nat) : List Ev := Ev.bytes { e with kind := k, whole := whole } (s.glLoc ctx .w va) size
  match p with
  | .msg _ => []
  | .write va size _ => if size % 32 = 0 ∧ va % 32 = 0 then (List.range (size / 32)).flatMap (fun i => at_ .wr true (va + 32 * i) 32) else at_ .wr false va size
  | .read va size => Ev.bytes e (s.glLoc ctx .r va) size
  | .rmw va size _ _ _ | .cas va size _ _ => at_ .rmw true va size
  | .add va k gen => s.addEvs e (.gl ctx va) k gen true
/-- The addition of a command's completion, by the dispatcher of a die, a release at dev (R209). -/
def State.signalEvs (s : State) (ctx die saddr sbytes : Nat) : List Ev :=
  if saddr = 0 then [] else s.addEvs { s.farEv ctx s.fenaz.devId.toNat die with rel := true, scope := .dev } (.gl ctx saddr) sbytes none false

/-! Engines (R191). -/

/-- The engine of an operation. -/
def EngKind.engine : EngKind → Engine
  | .copy _ _ _ _ _ _ _ _ _ | .resid _ _ _ _ _ | .rkld _ _ _ _ => .copy
  | .fetch _ _ _ _ _ _ => .fetch
  | .mnorm _ _ _ _ _ _ _ _ => .oven
  | .adrain _ _ _ _ _ _ _ _ _ _ _ _ _ => .drain
  | .selk _ _ _ _ _ | .sortr _ _ _ _ _ => .select
  | .walk _ _ => .peel
  | .ired _ _ _ _ => .ired
/-- The scope at which its completion is a release (R191, R347). -/
def EngKind.scope : EngKind → Scope
  | .copy _ .dgl _ _ _ _ _ _ _ | .ired _ _ _ _ | .adrain _ .gl _ _ _ _ _ _ _ _ _ _ _ => .dev
  | .copy _ .dcl _ _ _ _ _ _ _ | .resid _ _ _ _ _ => .clu
  | _ => .core

/-- An operation as its accesses and its completion come from it: events of a part, who completes, and the place of the completion. -/
structure OpBy where
  s    : State
  core : Nat
  wg   : Nat
  ctx  : Nat
  id   : Nat
  eng  : Engine
  cls  : Nat
  word : Option Nat
  sc   : Scope
  e    : Ev
  deriving DecidableEq, Repr

/-- An engine operation, as its issuing lane makes it (R178, R323), or a lane of a WALK or an IRED. -/
def State.engBy (s : State) (c : Nat) (o : EngOp) (lane : Nat) : OpBy :=
  { s := s, core := c, wg := o.wg, ctx := o.ctx, id := o.id, eng := o.kind.engine, cls := o.cls, word := o.word, sc := o.kind.scope,
    e := s.laneEv c o.grp o.ctx (placeOf o.nonce) lane }
/-- An operation of the oven queue. -/
def State.ovenBy (s : State) (c : Nat) (o : OvenOp) : OpBy :=
  { s := s, core := c, wg := o.wg, ctx := o.ctx, id := o.id, eng := .oven, cls := 0, word := o.word, sc := .core, e := s.laneEv c o.grp o.ctx (placeOf o.nonce) o.lane }

/-- The location of an address of the place that a tensor's BASE names. -/
def OpBy.loc (y : OpBy) (sp : BSpace) (acc : Acc) (a : Nat) : EvLoc :=
  match sp with
  | .gl => y.s.glLoc y.ctx acc a
  | .sp => { store := .sp y.core y.wg, at_ := a }
  | .tm => { store := .tm y.core y.wg, at_ := a }
/-- An access of its engine, of a part. -/
def OpBy.ev (y : OpBy) (k : EvKind) (part : Option (Nat × Nat)) : Ev := { y.e with kind := k, origin := .engine y.id y.eng part }
/-- Accesses to the bytes of ranges, one by one. -/
def OpBy.bytes (y : OpBy) (k : EvKind) (part : Option (Nat × Nat)) (sp : BSpace) (rs : List (Nat × Nat)) : List Ev :=
  rs.flatMap (fun r => (List.range (r.2 - r.1)).flatMap (fun i => (y.ev k part).bytes (y.loc sp (if k = .rd then .r else .w) (r.1 + i)) 1))
/-- Its completion addition of n to a word in the scratchpad of a workgroup on a core, a release at its scope there (R191). -/
def OpBy.adds (y : OpBy) (part : Option (Nat × Nat)) (rc wg n : Nat) (gen : Option Nat) : List Ev :=
  match y.word with
  | some a => y.s.addEvs { y.e with origin := .done y.id part, rel := true, scope := y.sc, place := y.s.seatOf rc y.e.place.grp } (.sp rc wg a) n gen true
  | none => []
/-- What ENGWAIT reads of it when it has ended (R389). -/
def OpBy.ends (y : OpBy) : List Ev :=
  Ev.bytes { y.e with kind := .rmw, origin := .done y.id none, rel := true, scope := y.sc } { store := .ended y.core y.e.place.grp, at_ := y.cls } 1
/-- Its completion of 32 (R347). -/
def OpBy.done (y : OpBy) : List Ev := y.adds none y.core y.wg 32 none ++ y.ends

/-- A sector of a copy at a receiver (R193, R195): read whole, written whole, a release at core of the receiver unless it goes to global memory, where sectors have no
order. j numbers the receiver, or the sector of a transfer into global memory; a receiver that is gone takes none. -/
def State.sectorEvs (s : State) (c : Nat) (o : EngOp) (j : Nat) : List Ev :=
  match o.kind, copyNext o j with
  | .copy src dst sa da _ gen _ _ _, some r =>
    let y := s.engBy c o o.lane
    if dst ≠ .dgl ∧ (s.coreOf (clusterOf c) r.wg).isNone then (if (copyAfter o j false).isNone then y.ends else []) else
    let rc := if dst = .dgl then c else (s.coreOf (clusterOf c) r.wg).getD c
    let part := some (if dst = .dgl then (j, 0) else (j, r.next))
    let a := sa + 32 * r.next
    let b := da + 32 * r.next
    let cl (p : Nat) : EvLoc := { store := .cl (clusterOf c) o.launch o.team, at_ := p }
    let from_ := match src with | .gl => y.loc .gl .r a | .sp => y.loc .sp .r a | .tm => y.loc .tm .r a | .cl => cl a
    let to_ := match dst with | .dgl => y.loc .gl .w b | .dsp => { store := .sp rc r.wg, at_ := b } | .dtm => { store := .tm rc r.wg, at_ := b } | .dcl => cl b
    Ev.bytes { y.ev .rd part with whole := true } from_ 32
      ++ Ev.bytes { y.ev .wr part with whole := true, rel := decide (dst ≠ .dgl), scope := .core, place := s.seatOf rc o.grp } to_ 32
      ++ (if dst = .dgl then [] else y.adds part rc r.wg 32 (gen.map BitVec.toNat))
      ++ (if dst ≠ .dgl ∧ (copyAfter o j false).isNone then y.ends else [])
  | _, _ => []

/-- A row of a fetch (R197, R339): its index, read whole unless it was read before, the row, and where it lands. -/
def State.rowEvs (s : State) (c : Nat) (o : EngOp) (row : Nat) : List Ev :=
  match o.kind with
  | .fetch tab list _ dest rows seen =>
    let t := Ten.of tab
    let y := s.engBy c o o.lane
    let part := some (row, 0)
    let i := s.fetchIndex o list row seen
    let p := t.rowAt i
    (if (Tab.get seen row).isSome then [] else (y.ev .rd part).bytes (y.loc .gl .r (list + 4 * row)) 4)
      ++ (if i < t.e1 then y.bytes .rd part .gl [(p.1, p.1 + p.2)] else [])
      ++ y.bytes .wr part .sp [(dest + row * t.pitch, dest + (row + 1) * t.pitch)]
      ++ y.adds part c o.wg t.pitch none
      ++ (if rows.all (fun r => r == row) then y.ends else [])
  | _ => []

/-- A lane's record read, whole (R198), and its landing (R386). -/
def State.walkEvs (s : State) (c : Nat) (o : EngOp) (lane : Nat) (land : Bool) : List Ev :=
  match o.kind with
  | .walk p ws => match ws.find? (fun w => w.lane == lane) with
    | some w =>
      let y := s.engBy c o lane
      if land then
        y.bytes .wr (some (lane, 0)) .sp [(w.ofs, w.ofs + 16 + p.rs)] ++ y.adds (some (lane, 0)) c o.wg (16 + p.rs) none
          ++ (if ws.all (fun v => v.done || v.lane == lane) then y.ends else [])
      else match w.want with
        | some a => Ev.bytes { y.ev .rd (some (lane, 0)) with whole := true } (y.loc .gl .r a.toNat) 64
        | none => []
    | none => []
  | _ => []

/-- A lane's bag (R199, R388): the list, the rows, the destination, of which each element that .acc adds to is one read-modify-write. -/
def State.bagEvs (s : State) (c : Nat) (o : EngOp) (lane : Nat) : List Ev :=
  match o.kind with
  | .ired acc bf16 tab bags => match bags.find? (fun b => b.lane == lane) with
    | some b =>
      let t := Ten.of tab
      let y := s.engBy c o lane
      let part := some (lane, 0)
      let list := b.list.toNat
      let n := s.bagNum c o lane list 4
      let idx := (List.range n).map (fun i => s.bagNum c o lane (list + 4 + 4 * i) 4)
      let elems (k : EvKind) (a n sz : Nat) : List Ev := (List.range n).flatMap (fun i => (y.ev k part).bytes (y.loc .gl (if k = .rd then .r else .w) (a + sz * i)) sz)
      elems .rd list (n + 1) 4
        ++ (idx.filter (fun x => decide (x < t.e1))).flatMap (fun x => elems .rd (t.base + x * t.s1 * t.irSize) t.e0 t.irSize)
        ++ elems (if acc then .rmw else .wr) b.dest.toNat t.e0 (irDest bf16)
        ++ y.adds part c o.wg 32 none
        ++ (if bags.all (fun v => v.lane == lane) then y.ends else [])
    | none => []
  | _ => []

/-- Sectors of 32 bytes that a transfer of the copy engine writes to a store of the cluster in ascending order (R193). A rack has no addresses: the sectors of a load lie in it
in the order of what it reads (log 65: DESIGN CHOICE). -/
def OpBy.sectors (y : OpBy) (st : EvStore) (a n : Nat) : List Ev :=
  (List.range n).flatMap (fun i => Ev.bytes { y.ev .wr (some (0, i)) with whole := true, rel := true, scope := .core } { store := st, at_ := a + 32 * i } 32)

/-- The accesses of the other engines' operations, which end at one event each. -/
def State.wholeEvs (s : State) (c : Nat) (o : EngOp) : List Ev :=
  let y := s.engBy c o o.lane
  let own (st : EvStore) (k : EvKind) (ns : List Nat) : List Ev := ns.flatMap (fun n => (y.ev k none).bytes { store := st, at_ := n } 1)
  match o.kind with
  | .resid _ va pages cloff _ =>
    y.bytes .rd (some (0, 0)) .gl [(va, va + 4096 * pages)] ++ y.sectors (.cl (clusterOf c) o.launch o.team) (4096 * cloff) (128 * pages)
      ++ y.adds none c o.wg (4096 * pages) none ++ y.ends
  | .rkld sp tab j0 st =>
    let t := Ten.of tab
    let k0 := 32 * kgOf t.fmt * st
    let rs := t.ranges k0 (k0 + 32 * kgOf t.fmt) j0 (j0 + 192)
    y.bytes .rd (some (0, 0)) sp rs ++ y.sectors (.rack c) 0 (ceilDiv (rs.foldl (fun n r => n + (r.2 - r.1)) 0) 32) ++ y.done
  | .mnorm _ sp tab _ r0 s0 n st =>
    let t := Ten.of tab
    let k0 := 32 * kgOf t.fmt
    y.bytes .rd none sp (t.ranges (k0 * s0) (k0 * (s0 + st)) r0 (r0 + n)) ++ y.bytes .wr none .gl [(t.nbase, t.nbase + 128 * st * n)] ++ y.done
  | .adrain prune sp mx _ _ tab ro co rho nr _ nc _ =>
    own (.bank c) .rd ((List.range (192 * nr)).map (fun i => 192 * rho + i)) ++ y.bytes .wr none sp ((Ten.of tab).drainRanges prune ro co nr nc)
      ++ (match mx with | some a => Ev.bytes { y.ev .rmw none with whole := true } (y.loc .gl .w a.toNat) 4 | none => []) ++ y.done
  | .selk _ src len dst k => y.bytes .rd none .sp [(src, src + 4 * len)] ++ y.bytes .wr none .sp [(dst, dst + 16 + 8 * k)] ++ y.done
  | .sortr _ src len dst rows => y.bytes .rd none .sp [(src, src + 8 * len * rows)] ++ y.bytes .wr none .sp [(dst, dst + 8 * len * rows)] ++ y.done
  | _ => []

/-- What an operation of the oven queue reads as it begins a step (R191, R353): the step's rows of A, and at the first step of an MTOPK the companions. -/
def State.stepEvs (s : State) (c : Nat) (o : OvenOp) : List Ev :=
  let y := s.ovenBy c o
  let t := Ten.of o.da
  let k0 := 32 * kgOf (Ten.of o.db).fmt
  let x0 := k0 * (o.s0 + o.steps.length)
  let words (base n : Nat) : List Ev := (List.range (32 * o.s * n)).flatMap (fun i => (y.ev .rd none).bytes (y.loc .gl .r (base + 4 * i)) 4)
  y.bytes .rd none o.x.space (t.ranges x0 (x0 + k0) o.r0 (o.r0 + o.m))
    ++ (if o.topk && o.steps.isEmpty then words t.nbase o.m ++ words (Ten.of o.db).nbase o.n else [])

/-- What it writes when it completes: banks, winner lists, record. -/
def State.ovenEvs (s : State) (c : Nat) (o : OvenOp) : List Ev :=
  let y := s.ovenBy c o
  let own (st : EvStore) (ns : List Nat) : List Ev := ns.flatMap (fun n => (y.ev .wr none).bytes { store := st, at_ := n } 1)
  own (.bank c) ((List.range o.x.m.toNat).flatMap (fun r => (List.range o.x.n.toNat).map (fun j => 192 * (8 * o.x.af.val + r) + j)))
    ++ (if o.topk then own (.list c) ((List.range o.x.m.toNat).map (fun r => 8 * o.x.af.val + r)) else [])
    ++ (match o.topk, o.rofs with | true, some a => y.bytes .wr none .sp [(a, a + 384 * o.x.m.toNat)] | _, _ => [])
    ++ y.done

/-- The events that an event of the device makes for an engine operation. -/
def State.engineEvs (s : State) (i : Instr) (c : Nat) (o : EngOp) : List Ev :=
  match i with
  | .copySectorArrival _ _ j => s.sectorEvs c o j
  | .copyGlobalCompletion _ _ =>
    (match o.kind with | .copy _ _ _ _ n gen _ _ _ => (s.engBy c o o.lane).adds none c o.wg n (gen.map BitVec.toNat) | _ => []) ++ (s.engBy c o o.lane).ends
  | .fetchRowLanding _ _ row => s.rowEvs c o row
  | .walkRecordRead _ _ lane => s.walkEvs c o lane false
  | .walkLanding _ _ lane => s.walkEvs c o lane true
  | .iredBagCompletion _ _ lane => s.bagEvs c o lane
  | .residFillCompletion _ _ | .rkldCompletion _ _ | .mnormCompletion _ _ | .adrainCompletion _ _ | .selkCompletion _ _ | .sortrCompletion _ _ => s.wholeEvs c o
  | _ => []

/-- A write of one byte by neither a lane nor an engine. -/
def plainWr (o : Origin) (place : Nat) (l : EvLoc) (gen : Option Nat) : Ev :=
  { lane := 0, place := { grp := 0, core := 0, clu := 0, die := 0, dev := 0 }, ctx := 0, issue := place, origin := o, kind := .wr, loc := some l, first := some l, size := 1,
    whole := false, rel := false, acq := false, scope := .grp, rmt := false, merged := false, gen := gen, mir := none }
/-- The state before an execution, at locations: one write each, before all others (R180, R403); gen: the generations of the words that lie there. -/
def initEvs (gen : EvLoc → Option Nat) (ls : List EvLoc) : List Ev := ls.map (fun l => plainWr .init 0 l (gen l))

end Sys2Proof.Machine
end

