-- ==== Sys2Proof/Machine/Dispatch.lean ====
section
/-! DEFINITION. The meaning of every instruction and event, one arm per constructor of Instr. -/
namespace Sys2Proof.Machine
open Sys2Proof

/-- One step of an instruction or event. -/
def exec (i : Instr) (s : State) : Host.Outcome State Fault Refusal :=
  match i with
  | .pad => Sys2Proof.Machine.execPad s
  | .nop c => Sys2Proof.Machine.execNop c s
  | .bra c tgt p1 => Sys2Proof.Machine.execBra c tgt p1 s
  | .brcNear c cp cn tgt p1 p2 => Sys2Proof.Machine.execBrcNear c cp cn tgt p1 p2 s
  | .brcFar c cp cn tgt p1 p2 => Sys2Proof.Machine.execBrcFar c cp cn tgt p1 p2 s
  | .jmpi c a p1 => Sys2Proof.Machine.execJmpi c a p1 s
  | .callNear c tgt p1 p2 => Sys2Proof.Machine.execCallNear c tgt p1 p2 s
  | .callFar c tgt p1 p2 => Sys2Proof.Machine.execCallFar c tgt p1 p2 s
  | .ret c => Sys2Proof.Machine.execRet c s
  | .exit c => Sys2Proof.Machine.execExit c s
  | .yield c => Sys2Proof.Machine.execYield c s
  | .bkoff c a => Sys2Proof.Machine.execBkoff c a s
  | .shape c n a => Sys2Proof.Machine.execShape c n a s
  | .spawn c e a b => Sys2Proof.Machine.execSpawn c e a b s
  | .elect c d => Sys2Proof.Machine.execElect c d s
  | .voteAny c d a => Sys2Proof.Machine.execVoteAny c d a s
  | .voteAll c d a => Sys2Proof.Machine.execVoteAll c d a s
  | .voteUni c d a => Sys2Proof.Machine.execVoteUni c d a s
  | .voteBallot c d a => Sys2Proof.Machine.execVoteBallot c d a s
  | .getsr c hi num d => Sys2Proof.Machine.execGetsr c hi num d s
  | .setsr c hi num a => Sys2Proof.Machine.execSetsr c hi num a s
  | .iadd c m d a b => Sys2Proof.Machine.execIadd c m d a b s
  | .isub c m d a b => Sys2Proof.Machine.execIsub c m d a b s
  | .imulLo c m d a b => Sys2Proof.Machine.execImulLo c m d a b s
  | .imulHi c ty d a b => Sys2Proof.Machine.execImulHi c ty d a b s
  | .imad c m d a b cc => Sys2Proof.Machine.execImad c m d a b cc s
  | .idiv c m d a b => Sys2Proof.Machine.execIdiv c m d a b s
  | .irem c m d a b => Sys2Proof.Machine.execIrem c m d a b s
  | .imin c ty d a b => Sys2Proof.Machine.execImin c ty d a b s
  | .imax c ty d a b => Sys2Proof.Machine.execImax c ty d a b s
  | .iabs c m d a => Sys2Proof.Machine.execIabs c m d a s
  | .and c ty d a b => Sys2Proof.Machine.execAnd c ty d a b s
  | .or c ty d a b => Sys2Proof.Machine.execOr c ty d a b s
  | .xor c ty d a b => Sys2Proof.Machine.execXor c ty d a b s
  | .not c ty d a => Sys2Proof.Machine.execNot c ty d a s
  | .shl c ty d a b => Sys2Proof.Machine.execShl c ty d a b s
  | .shr c ty d a b => Sys2Proof.Machine.execShr c ty d a b s
  | .sar c ty d a b => Sys2Proof.Machine.execSar c ty d a b s
  | .rot c ty d a b => Sys2Proof.Machine.execRot c ty d a b s
  | .bfx c ty d a b => Sys2Proof.Machine.execBfx c ty d a b s
  | .bfi c ty d a b cc => Sys2Proof.Machine.execBfi c ty d a b cc s
  | .bcntPop c ty d a => Sys2Proof.Machine.execBcntPop c ty d a s
  | .bcntClz c ty d a => Sys2Proof.Machine.execBcntClz c ty d a s
  | .bcntCtz c ty d a => Sys2Proof.Machine.execBcntCtz c ty d a s
  | .icmp c ty cond d a b => Sys2Proof.Machine.execIcmp c ty cond d a b s
  | .sel c ty p neg d a b => Sys2Proof.Machine.execSel c ty p neg d a b s
  | .lea c ty sh d a b => Sys2Proof.Machine.execLea c ty sh d a b s
  | .mov c ty d a => Sys2Proof.Machine.execMov c ty d a s
  | .plop c f d a b => Sys2Proof.Machine.execPlop c f d a b s
  | .pmovTom c d a => Sys2Proof.Machine.execPmovTom c d a s
  | .pmovFrm c d a => Sys2Proof.Machine.execPmovFrm c d a s
  | .pmovPad c d => Sys2Proof.Machine.execPmovPad c d s
  | .pmovTov c d a => Sys2Proof.Machine.execPmovTov c d a s
  | .pmovFrv c d a => Sys2Proof.Machine.execPmovFrv c d a s
  | .shflIdx c d a b => Sys2Proof.Machine.execShflIdx c d a b s
  | .shflUp c d a b => Sys2Proof.Machine.execShflUp c d a b s
  | .shflDown c d a b => Sys2Proof.Machine.execShflDown c d a b s
  | .shflXor c d a b => Sys2Proof.Machine.execShflXor c d a b s
  | .lscan c op exc d a => Sys2Proof.Machine.execLscan c op exc d a s
  | .lred c op d a => Sys2Proof.Machine.execLred c op d a s
  | .fadd c m d a b => Sys2Proof.Machine.execFadd c m d a b s
  | .fsub c m d a b => Sys2Proof.Machine.execFsub c m d a b s
  | .fmul c m d a b => Sys2Proof.Machine.execFmul c m d a b s
  | .ffma c m d a b cc => Sys2Proof.Machine.execFfma c m d a b cc s
  | .fmin c ty sat d a b => Sys2Proof.Machine.execFmin c ty sat d a b s
  | .fmax c ty sat d a b => Sys2Proof.Machine.execFmax c ty sat d a b s
  | .fabsAbs c ty sat d a => Sys2Proof.Machine.execFabsAbs c ty sat d a s
  | .fabsNeg c ty sat d a => Sys2Proof.Machine.execFabsNeg c ty sat d a s
  | .fcmp c cond ftz d a b => Sys2Proof.Machine.execFcmp c cond ftz d a b s
  | .fsfuRcp c m d a => Sys2Proof.Machine.execFsfuRcp c m d a s
  | .fsfuRsqrt c m d a => Sys2Proof.Machine.execFsfuRsqrt c m d a s
  | .fsfuSqrt c m d a => Sys2Proof.Machine.execFsfuSqrt c m d a s
  | .fsfuExp2 c m d a => Sys2Proof.Machine.execFsfuExp2 c m d a s
  | .fsfuLog2 c m d a => Sys2Proof.Machine.execFsfuLog2 c m d a s
  | .fsfuSinpi c m d a => Sys2Proof.Machine.execFsfuSinpi c m d a s
  | .fsfuCospi c m d a => Sys2Proof.Machine.execFsfuCospi c m d a s
  | .fsfuDiv c m d a b => Sys2Proof.Machine.execFsfuDiv c m d a b s
  | .fdotX2 c m d a b cc => Sys2Proof.Machine.execFdotX2 c m d a b cc s
  | .fdotX4 c m d a b cc => Sys2Proof.Machine.execFdotX4 c m d a b cc s
  | .fcvt c dst src rnd sat d a => Sys2Proof.Machine.execFcvt c dst src rnd sat d a s
  | .i2f c dst src rnd sat d a => Sys2Proof.Machine.execI2f c dst src rnd sat d a s
  | .f2i c dst src rnd ftz d a => Sys2Proof.Machine.execF2i c dst src rnd ftz d a s
  | .fclassMask c ty d a => Sys2Proof.Machine.execFclassMask c ty d a s
  | .fclassTest c ty d a b => Sys2Proof.Machine.execFclassTest c ty d a b s
  | .flagsTest c mask d => Sys2Proof.Machine.execFlagsTest c mask d s
  | .flagsClr c mask => Sys2Proof.Machine.execFlagsClr c mask s
  | .flagsSet c mask => Sys2Proof.Machine.execFlagsSet c mask s
  | .flagsGor c d => Sys2Proof.Machine.execFlagsGor c d s
  | .fpack c f rnd ftz d a b => Sys2Proof.Machine.execFpack c f rnd ftz d a b s
  | .funpk c f rnd sat d a b => Sys2Proof.Machine.execFunpk c f rnd sat d a b s
  | .ld c sp sz sx x d a => Sys2Proof.Machine.execLd c sp sz sx x d a s
  | .st c sp sz x a b => Sys2Proof.Machine.execSt c sp sz x a b s
  | .ldf c clr ofs d a => Sys2Proof.Machine.execLdf c clr ofs d a s
  | .ste c ofs a b => Sys2Proof.Machine.execSte c ofs a b s
  | .tag c sz full ofs a => Sys2Proof.Machine.execTag c sz full ofs a s
  | .atom c op sp sz u x d a b => Sys2Proof.Machine.execAtom c op sp sz u x d a b s
  | .atomCas c sp sz x d a b cc => Sys2Proof.Machine.execAtomCas c sp sz x d a b cc s
  | .red c op sp sz u x a b => Sys2Proof.Machine.execRed c op sp sz u x a b s
  | .fence c scope ord rmt => Sys2Proof.Machine.execFence c scope ord rmt s
  | .mfence c => Sys2Proof.Machine.execMfence c s
  | .swinit c sp x a b cc => Sys2Proof.Machine.execSwinit c sp x a b cc s
  | .swarrAny c sp x a b => Sys2Proof.Machine.execSwarrAny c sp x a b s
  | .swarrGen c sp x a b cc => Sys2Proof.Machine.execSwarrGen c sp x a b cc s
  | .swwait c sp x a b => Sys2Proof.Machine.execSwwait c sp x a b s
  | .copy c src dst ofs a b cc => Sys2Proof.Machine.execCopy c src dst ofs a b cc s
  | .copyl c a b => Sys2Proof.Machine.execCopyl c a b s
  | .fetch c ta a b word => Sys2Proof.Machine.execFetch c ta a b word s
  | .residPin c ofs a b => Sys2Proof.Machine.execResidPin c ofs a b s
  | .residRel c b => Sys2Proof.Machine.execResidRel c b s
  | .residStat c d b => Sys2Proof.Machine.execResidStat c d b s
  | .qctlOcc c h d => Sys2Proof.Machine.execQctlOcc c h d s
  | .qctlPerm c h d => Sys2Proof.Machine.execQctlPerm c h d s
  | .qctlReset c h => Sys2Proof.Machine.execQctlReset c h s
  | .spill c b a => Sys2Proof.Machine.execSpill c b a s
  | .fill c d a => Sys2Proof.Machine.execFill c d a s
  | .pref c ofs a => Sys2Proof.Machine.execPref c ofs a s
  | .rkld c sp ovr ta a b => Sys2Proof.Machine.execRkld c sp ovr ta a b s
  | .rkswKeep c => Sys2Proof.Machine.execRkswKeep c s
  | .rkswDrop c => Sys2Proof.Machine.execRkswDrop c s
  | .mmul c x => Sys2Proof.Machine.execMmul c x s
  | .mtopk c x abs => Sys2Proof.Machine.execMtopk c x abs s
  | .mnormA c sp ta tb a b st n => Sys2Proof.Machine.execMnormA c sp ta tb a b st n s
  | .mnormB c sp ta a b st n => Sys2Proof.Machine.execMnormB c sp ta a b st n s
  | .aalloc c bk => Sys2Proof.Machine.execAalloc c bk s
  | .aallocAny c a => Sys2Proof.Machine.execAallocAny c a s
  | .afree c bk => Sys2Proof.Machine.execAfree c bk s
  | .aband c a b => Sys2Proof.Machine.execAband c a b s
  | .adrainNone c sp mx rnd sat ta a b => Sys2Proof.Machine.execAdrainNone c sp mx rnd sat ta a b s
  | .adrainP24 c sp mx rnd sat ta a b => Sys2Proof.Machine.execAdrainP24 c sp mx rnd sat ta a b s
  | .adrainP48 c sp mx rnd sat ta a b => Sys2Proof.Machine.execAdrainP48 c sp mx rnd sat ta a b s
  | .aload c tm i32 bk a => Sys2Proof.Machine.execAload c tm i32 bk a s
  | .azero c bk => Sys2Proof.Machine.execAzero c bk s
  | .wrd c a w n => Sys2Proof.Machine.execWrd c a w n s
  | .wmerge c w a b => Sys2Proof.Machine.execWmerge c w a b s
  | .astat c d bk => Sys2Proof.Machine.execAstat c d bk s
  | .selkSum c a b word => Sys2Proof.Machine.execSelkSum c a b word s
  | .selkExp c a b word => Sys2Proof.Machine.execSelkExp c a b word s
  | .sortr c asc a b word => Sys2Proof.Machine.execSortr c asc a b word s
  | .tidsetSet c sp ta a => Sys2Proof.Machine.execTidsetSet c sp ta a s
  | .tidsetClr c sp ta => Sys2Proof.Machine.execTidsetClr c sp ta s
  | .tidget c sp ta a => Sys2Proof.Machine.execTidget c sp ta a s
  | .cxdefOne c cu ta a => Sys2Proof.Machine.execCxdefOne c cu ta a s
  | .cxdefAnd c cu ta tb a => Sys2Proof.Machine.execCxdefAnd c cu ta tb a s
  | .cxdefOr c cu ta tb a => Sys2Proof.Machine.execCxdefOr c cu ta tb a s
  | .cxsplit c cu a b => Sys2Proof.Machine.execCxsplit c cu a b s
  | .cxfill c cu d pri tgt => Sys2Proof.Machine.execCxfill c cu d pri tgt s
  | .cxcurSave c cu a => Sys2Proof.Machine.execCxcurSave c cu a s
  | .cxcurLoad c cu a => Sys2Proof.Machine.execCxcurLoad c cu a s
  | .cxcurInfo c cu d => Sys2Proof.Machine.execCxcurInfo c cu d s
  | .cxcurDrop c cu => Sys2Proof.Machine.execCxcurDrop c cu s
  | .walkdef c slot sp a => Sys2Proof.Machine.execWalkdef c slot sp a s
  | .walk c slot a b cc word => Sys2Proof.Machine.execWalk c slot a b cc word s
  | .ired c acc bf16 ta a b word => Sys2Proof.Machine.execIred c acc bf16 ta a b word s
  | .engwait c mask => Sys2Proof.Machine.execEngwait c mask s
  | .plev c a => Sys2Proof.Machine.execPlev c a s
  | .trap c code => Sys2Proof.Machine.execTrap c code s
  | .brk c => Sys2Proof.Machine.execBrk c s
  | .rft c => Sys2Proof.Machine.execRft c s
  | .sysRd c num d => Sys2Proof.Machine.execSysRd c num d s
  | .sysWr c num a => Sys2Proof.Machine.execSysWr c num a s
  | .variableResultRetire core g idx => Sys2Proof.Machine.execVariableResultRetire core g idx s
  | .bkoffExpiry core g => Sys2Proof.Machine.execBkoffExpiry core g s
  | .spawnItemsEnter core g => Sys2Proof.Machine.execSpawnItemsEnter core g s
  | .prooferFullFormation core wg e => Sys2Proof.Machine.execProoferFullFormation core wg e s
  | .prooferFlush core wg => Sys2Proof.Machine.execProoferFlush core wg s
  | .spawnedGroupAdmission core wg idx slot off row => Sys2Proof.Machine.execSpawnedGroupAdmission core wg idx slot off row s
  | .blockedWake core g arrive => Sys2Proof.Machine.execBlockedWake core g arrive s
  | .groupRegisterRelease core g => Sys2Proof.Machine.execGroupRegisterRelease core g s
  | .ovenRackSwap core => Sys2Proof.Machine.execOvenRackSwap core s
  | .ovenCheckpoint core => Sys2Proof.Machine.execOvenCheckpoint core s
  | .partnerThresholdExchange core => Sys2Proof.Machine.execPartnerThresholdExchange core s
  | .ovenCompletion core => Sys2Proof.Machine.execOvenCompletion core s
  | .rkldCompletion core op => Sys2Proof.Machine.execRkldCompletion core op s
  | .mnormCompletion core op => Sys2Proof.Machine.execMnormCompletion core op s
  | .adrainCompletion core op => Sys2Proof.Machine.execAdrainCompletion core op s
  | .selkCompletion core op => Sys2Proof.Machine.execSelkCompletion core op s
  | .sortrCompletion core op => Sys2Proof.Machine.execSortrCompletion core op s
  | .copySectorArrival core op rcv => Sys2Proof.Machine.execCopySectorArrival core op rcv s
  | .copyGlobalCompletion core op => Sys2Proof.Machine.execCopyGlobalCompletion core op s
  | .fetchRowLanding core op row => Sys2Proof.Machine.execFetchRowLanding core op row s
  | .residFillCompletion core op => Sys2Proof.Machine.execResidFillCompletion core op s
  | .walkRecordRead core op lane => Sys2Proof.Machine.execWalkRecordRead core op lane s
  | .walkLanding core op lane => Sys2Proof.Machine.execWalkLanding core op lane s
  | .walkFaultTrap core g => Sys2Proof.Machine.execWalkFaultTrap core g s
  | .iredBagCompletion core op lane => Sys2Proof.Machine.execIredBagCompletion core op lane s
  | .impreciseTrap core g => Sys2Proof.Machine.execImpreciseTrap core g s
  | .faultResolved core g => Sys2Proof.Machine.execFaultResolved core g s
  | .faultUnresolved core g => Sys2Proof.Machine.execFaultUnresolved core g s
  | .siblingHalt core g => Sys2Proof.Machine.execSiblingHalt core g s
  | .trapFrameWrite core wg => Sys2Proof.Machine.execTrapFrameWrite core wg s
  | .queueAudit core => Sys2Proof.Machine.execQueueAudit core s
  | .workgroupEviction core wg => Sys2Proof.Machine.execWorkgroupEviction core wg s
  | .workgroupRestore img core slot place => Sys2Proof.Machine.execWorkgroupRestore img core slot place s
  | .lazyGranuleFill core g idx => Sys2Proof.Machine.execLazyGranuleFill core g idx s
  | .workgroupAdmission clu pos core slot place => Sys2Proof.Machine.execWorkgroupAdmission clu pos core slot place s
  | .unitPlacement die => Sys2Proof.Machine.execUnitPlacement die s
  | .workgroupPlacement die => Sys2Proof.Machine.execWorkgroupPlacement die s
  | .railChange clu => Sys2Proof.Machine.execRailChange clu s
  | .rackScrub core shadow mg => Sys2Proof.Machine.execRackScrub core shadow mg s
  | .budgetInterval stack => Sys2Proof.Machine.execBudgetInterval stack s
  | .budgetSet clu stack budget floor => Sys2Proof.Machine.execBudgetSet clu stack budget floor s
  | .quotaPeriod die => Sys2Proof.Machine.execQuotaPeriod die s
  | .rotationPeriod die => Sys2Proof.Machine.execRotationPeriod die s
  | .rotationApply die => Sys2Proof.Machine.execRotationApply die s
  | .rotationGiveUp die => Sys2Proof.Machine.execRotationGiveUp die s
  | .launchCommand m => Sys2Proof.Machine.execLaunchCommand m s
  | .signalCommand m => Sys2Proof.Machine.execSignalCommand m s
  | .waitCommand m => Sys2Proof.Machine.execWaitCommand m s
  | .commandStart ctx queue => Sys2Proof.Machine.execCommandStart ctx queue s
  | .launchCompletion launch => Sys2Proof.Machine.execLaunchCompletion launch s
  | .queueOpen m => Sys2Proof.Machine.execQueueOpen m s
  | .queueClose m => Sys2Proof.Machine.execQueueClose m s
  | .queueCloseCompletion ctx queue => Sys2Proof.Machine.execQueueCloseCompletion ctx queue s
  | .queueReset m => Sys2Proof.Machine.execQueueReset m s
  | .packetReceive session ctx mode auth p => Sys2Proof.Machine.execPacketReceive session ctx mode auth p s
  | .sessionOpen session ctx tss rccc pages => Sys2Proof.Machine.execSessionOpen session ctx tss rccc pages s
  | .sessionLost session => Sys2Proof.Machine.execSessionLost session s
  | .sessionClose session => Sys2Proof.Machine.execSessionClose session s
  | .softErrorCorrected st core addr => Sys2Proof.Machine.execSoftErrorCorrected st core addr s
  | .uncorrectableError st core addr => Sys2Proof.Machine.execUncorrectableError st core addr s
  | .linkUncorrectableError line groups => Sys2Proof.Machine.execLinkUncorrectableError line groups s
  | .powerOnReset patch => Sys2Proof.Machine.execPowerOnReset patch s
  | .deviceReset => Sys2Proof.Machine.execDeviceReset s
  | .fabricJoin dev => Sys2Proof.Machine.execFabricJoin dev s
  | .createContext caller ctx owner key priv grants => Sys2Proof.Machine.execCreateContext caller ctx owner key priv grants s
  | .destroyContext caller ctx => Sys2Proof.Machine.execDestroyContext caller ctx s
  | .map caller ctx va pa size r w x key => Sys2Proof.Machine.execMap caller ctx va pa size r w x key s
  | .unmap caller ctx va => Sys2Proof.Machine.execUnmap caller ctx va s
  | .setQuota caller ctx die quota granted => Sys2Proof.Machine.execSetQuota caller ctx die quota granted s
  | .setEntitlement caller ctx on granted => Sys2Proof.Machine.execSetEntitlement caller ctx on granted s
  | .reserveClass0 caller ctx core wgs groups rows scratch tiles banks granted => Sys2Proof.Machine.execReserveClass0 caller ctx core wgs groups rows scratch tiles banks granted s
  | .attest caller nonce => Sys2Proof.Machine.execAttest caller nonce s
  | .stallCountEnd core g => Sys2Proof.Machine.execStallCountEnd core g s
  | .fixedLatencyResult core g idx => Sys2Proof.Machine.execFixedLatencyResult core g idx s

end Sys2Proof.Machine
end

