-- ==== Sys2Proof/Machine/Pick.lean ====
section
/-! DEFINITION. The fetch of instructions (R102 to R105, R119), the choice of a group by an issue slot (R14, R215, R216), one cycle of a slot,
and the turn that the machine takes by itself when State.agenda names none (log 2: DESIGN CHOICE). -/
namespace Sys2Proof.Machine
open Sys2Proof

/-! Fetch (R102 to R105). -/

/-- A 32-byte fetch block as its fetch reads it, by number. What a fetch from a poisoned line or fetch-cache word does is not said (R266 names loads, copies and the oven): it
is decoded as it stands, without a check (log 78: DESIGN CHOICE). -/
def State.readBlock (s : State) (ctx b : Nat) : List Byte := (List.range 32).map (fun i => s.codeGet ctx (32 * b + i))
/-- A fetch block as a workgroup sees it: once read, it stays until an RFT (R105, R392). -/
def State.block (s : State) (w : Workgroup) (b : Nat) : List Byte := (Tab.get w.fetched b).getD (s.readBlock w.ctx b)

/-- What stands at the PC of a picked entry. -/
inductive Look where
  | trap (no sub addr : Nat)
  | park (addr : Nat)
  | run (i : Instr)
  deriving DecidableEq, Repr

/-- What a decode of bytes answers (R119 checks 3 to 10). -/
def lookOf (bs : List Byte) : Look :=
  match decode bs with
  | .ok i => .run i
  | .error (.illegal k) => .trap 0x01 k 0
  | .error (.operand k) => .trap 0x02 k 0

/-- What stands at an offset of a fetch block (R103, R119 check 2). -/
def lookIn (block : List Byte) (off : Nat) : Look :=
  let bs := block.drop off
  match lenOf (fromLE (bs.take 4)) with
  | some l => if off + lenBytes l > 32 then .trap 0x01 0x07 0 else lookOf bs
  | none => lookOf bs

/-- What stands at a PC of a workgroup (R105, R119 check 1). -/
def State.look (s : State) (w : Workgroup) (pc : Nat) : Look :=
  if pc % 4 ≠ 0 then .trap 0x05 0 0
  else match s.translate w.ctx .x pc with
    | .pa _ _ => lookIn (s.block w (pc / 32)) (pc % 32)
    | .absent => .park pc
    | .denied | .window _ _ _ => .trap 0x0A 2 pc
    | .hole => .trap 0x0B 0 pc
    | .far => .trap 0x09 0 pc

/-- The waiting instruction that a group issues again from its saved state (R86, R219). -/
def Group.stored (x : Group) (pc : DWord) : Option Instr :=
  match x.kept with
  | some (.blocked w) => if w.pc = pc then some w.instr else none
  | some (.parked p) => if p.pc = pc ∧ p.fetch = false ∧ p.inBuf = true then some p.instr else none
  | _ => none

/-- What a group finds at an entry that it has picked. Before its first issue its call-stack headers must be writable (R274). -/
def State.found (s : State) (w : Workgroup) (x : Group) (pc : DWord) : Look :=
  match s.headMiss w x with
  | some a => .park a
  | none => match x.stored pc with
    | some i => .run i
    | none => s.look w pc.toNat

/-- The sectors that the read of the fetch block of a PC takes: none where it is kept (R105, R223). -/
def State.blockSecs (s : State) (w : Workgroup) (pc : Nat) : List Nat :=
  match Tab.get w.fetched (pc / 32), s.translate w.ctx .x pc with | none, .pa a _ => [a / 32] | _, _ => []

/-- Keeps the fetch block of a PC that was read, and charges its sector (R223). -/
def State.keepBlock (s : State) (c : Nat) (w : Workgroup) (pc : Nat) : State :=
  match Tab.get w.fetched (pc / 32) with
  | some _ => s
  | none => match s.translate w.ctx .x pc with
    | .pa _ _ => (s.charge w.ctx (clusterOf c) (s.blockSecs w pc)).modWg c w.uid (fun v =>
        { v with fetched := Tab.set v.fetched (pc / 32) (s.readBlock w.ctx (pc / 32)) })
    | _ => s

/-- Parks a group whose fetch finds no page (R86, R105). -/
def State.parkFetch (s : State) (c g : Nat) (e : Entry) (addr : Nat) : State :=
  let p : Park := { instr := .pad, pc := e.pc, mask := e.mask, addr := BitVec.ofNat 64 addr, inBuf := decide ((s.core c).faults < Config.faultBuffer),
                    fetch := true, late := none }
  s.modGrp c g (fun y => { y with status := .parked p, kept := none })

/-! The choice of a group (R14, R31, R215, R216). -/

/-- Whether a halt lets a group issue (R251, R255). -/
def Workgroup.lets (w : Workgroup) (x : Group) : Bool :=
  match w.halt, w.handler with
  | none, _ => true
  | some _, some u => u == x.uid
  | some _, none => decide (x.skid < 16)

/-- A group that could issue, with the entry it picks, or one that stands at PAD, and what stands there. -/
structure Cand where
  g    : Nat
  x    : Group
  w    : Workgroup
  e    : Entry
  look : Look
  deriving DecidableEq, Repr

/-- The slot that takes what a group found (R14): a trap of fetch or decode is counted to the vector slot. -/
def Look.slot : Look → Slot
  | .run i => slotOf i
  | _ => .vector

/-- An entry of a group that stands at PAD: its lanes pass on before the group issues (R104, log 10: DEDUCED). -/
def State.atPad (s : State) (w : Workgroup) (x : Group) : Option Entry := x.fr.find? (fun e => decide (s.found w x e.pc = .run .pad))

/-- Whether the bytes at an entry are at hand: kept, or granted by the arbiters (R223); a waiting instruction needs none. -/
def State.atHand (s : State) (c : Nat) (w : Workgroup) (x : Group) (pc : DWord) : Bool :=
  (x.stored pc).isSome || s.granted (clusterOf c) w.tc (s.blockSecs w pc.toNat)

/-- The candidate of a group of core c, if it is runnable and no trap is marked. -/
def State.cand (s : State) (c : Nat) (k : Core) (g : Nat) (x : Group) : Option Cand :=
  if g < 32 ∧ x.status = .runnable ∧ x.imprec = [] then
    match k.wgOf x.wg with
    | some (_, w) => match (s.atPad w x).or x.pick with
      | some e => if w.lets x && s.atHand c w x e.pc then some { g := g, x := x, w := w, e := e, look := s.found w x e.pc } else none
      | none => none
    | none => none
  else none

/-- The state in which a candidate's instruction executes. -/
def State.issueAt (s : State) (c : Nat) (k : Cand) : State :=
  { (s.keepBlock c k.w k.e.pc.toNat).putHeads c k.g k.w k.x with cur := some { core := c, g := k.g, pc := k.e.pc, pri := k.e.pri, mask := k.e.mask } }

/-- What the pick of a candidate leads to. -/
def State.outcome (s : State) (c : Nat) (k : Cand) : Out :=
  match k.look with
  | .run i => exec i (s.issueAt c k)
  | .park a => .next (s.parkFetch c k.g k.e a)
  | .trap no sub addr =>
    .next (s.takeTrap c k.g { no := BitVec.ofNat 8 no, sub := BitVec.ofNat 8 sub, pc := k.e.pc, addr := BitVec.ofNat 64 addr, fmask := k.e.mask })

/-- Whether an instruction of a candidate takes the slot: it was concluded, and its group has not come to a wait or a trap (R215, R218). -/
def issuedIn (s t : State) (c g : Nat) : Bool :=
  s.fresh != t.fresh && (match t.grp c g with
    | some x => (match x.status with | .blocked _ | .parked _ | .trapped | .spawning _ _ _ _ => false | _ => true)
    | none => true)

/-- Whether a pick changes anything: an instruction that must wait leaves its group as it is. -/
def Cand.moves (k : Cand) (s : State) : Out → Bool
  | .next t => s.fresh != t.fresh || (match k.look with | .run .pad | .park _ | .trap _ _ _ => true | .run _ => false)
  | _ => true

/-- The candidates of a slot of a core that are not waiting. -/
def State.cands (s : State) (c : Nat) (sl : Slot) : List Cand :=
  let k := s.core c
  (k.grps.filterMap (fun e => s.cand c k e.1 e.2)).filter (fun d => d.look.slot == sl && d.moves s (s.outcome c d))

/-- Numbers of slots and roles in the order of R14 and R215. -/
def Slot.ix : Slot → Nat | .vector => 0 | .memory => 1 | .matrix => 2
def Role.ix : Role → Nat | .copy => 0 | .matrix => 1 | .vector => 2

/-- The pass count of a group in a slot (R216). -/
def Group.passOf (x : Group) (sl : Slot) : Nat := (x.pass[sl.ix]?).getD 0
/-- What of the pass count decides a choice: 32 and more (R215 rule 2). -/
def Group.rank (x : Group) (sl : Slot) : Nat := if x.passOf sl ≥ 32 then x.passOf sl else 0
/-- Where a workgroup keeps the group slot that issued last (R215 rule 5). -/
def rrIx (sl : Slot) (r : Role) : Nat := 3 * sl.ix + r.ix
/-- How far a group slot is behind the one that issued last. -/
def Cand.turn (k : Cand) (sl : Slot) : Nat := (k.g + 32 - ((k.w.rr[rrIx sl k.x.role]?).getD 31 + 1) % 32) % 32

/-- What decides between candidates, the first difference first, the lower number first (R215). -/
def Cand.key (k : Cand) (sl : Slot) : List Nat := [k.w.tc, 63 - k.x.rank sl, k.x.role.ix, k.w.order, k.turn sl]

/-- Lexicographic order of lists of numbers. -/
def lexLt : List Nat → List Nat → Bool
  | a :: r, b :: q => decide (a < b) || (decide (a = b) && lexLt r q)
  | _, _ => false

/-- The candidate that a slot takes (R215). -/
def bestCand (sl : Slot) : List Cand → Option Cand
  | [] => none
  | k :: r => match bestCand sl r with
    | none => some k
    | some m => if lexLt (m.key sl) (k.key sl) then some m else some k

/-- The candidate that a slot of a core takes. -/
def State.choose (s : State) (c : Nat) (sl : Slot) : Option Cand := bestCand sl (s.cands c sl)

/-- Sets an item of a list that may be too short. -/
def setPad (xs : List Nat) (i n fill : Nat) : List Nat := (xs ++ List.replicate (i + 1 - xs.length) fill).set i n

/-- A group that was passed over in a slot (R216). -/
def Group.passed (x : Group) (sl : Slot) : Group := { x with pass := setPad x.pass sl.ix (min 63 (x.passOf sl + 1)) 0 }

/-- Pass counts and the round-robin place after a slot has issued for a candidate; ds: the candidates of the slot (R215, R216). -/
def State.passes (t : State) (s : State) (c : Nat) (sl : Slot) (k : Cand) (ds : List Cand) : State :=
  if issuedIn s t c k.g then
    let others := ds.filter (fun d => d.g != k.g && d.w.tc == k.w.tc && (match s.outcome c d with | .next u => issuedIn s u c d.g | _ => false))
    let t := others.foldl (fun t d => t.modGrp c d.g (fun x => x.passed sl)) t
    let t := t.modGrp c k.g (fun x => { x with pass := setPad x.pass sl.ix 0 0 })
    t.modWg c k.w.uid (fun w => { w with rr := setPad w.rr (rrIx sl k.x.role) k.g 31 })
  else t

/-- One cycle of an issue slot of a core (R215). -/
def State.cycle (s : State) (c : Nat) (sl : Slot) : Out :=
  match s.choose c sl with
  | none => .next s
  | some k => match s.outcome c k with
    | .next t => .next (t.passes s c sl k (s.cands c sl))
    | .fault r => .fault r
    | .refused r => .refused r

/-- A turn of the machine, its accesses in the order of the turns: outside an issue no instruction is current. -/
def State.take (s : State) : Turn → Out
  | .issue c sl | .weakIssue c sl _ => State.cycle { s with cur := none } c sl
  | .event i | .weakEvent i _ => exec i { s with cur := none }
  | .watch => .next { s with cur := none }

/-! The turn that the machine takes by itself (log 2: DESIGN CHOICE). -/

/-- Events of a group. -/
def groupTurns (c g : Nat) (x : Group) : List Instr :=
  [.impreciseTrap c g, .walkFaultTrap c g, .siblingHalt c g, .faultResolved c g, .blockedWake c g [], .spawnItemsEnter c g]
    ++ (List.range x.sb.length).map (fun i => .variableResultRetire c g i)
    ++ x.absent.map (fun a => .lazyGranuleFill c g a.1) ++ [.groupRegisterRelease c g]

/-- A free block of granule rows for a group beside others (R61). -/
def Core.blkFor (k : Core) (ctx : Nat) (width rows : Nat) (used : List Blk) : Option Blk :=
  ((List.range 8).flatMap (fun o => (List.range Config.granuleRows).map (fun r => (8 * o, r)))).findSome? (fun p =>
    let b : Blk := { off := p.1, width := width, row := p.2, rows := rows }
    if used.all (fun u => !u.meets b) && k.freeBlk ctx none b then some b else none)

/-- A free place for one group on a core: slot, lane offset and first row. -/
def Core.spot (k : Core) (ctx : Nat) (width rows : Nat) : Option (Nat × Nat × Nat) :=
  match (List.range Config.groupSlots).find? (k.freeSlot none), k.blkFor ctx width rows [] with
  | some i, some b => some (i, b.off, b.row)
  | _, _ => none

/-- Puts a need, numbered, into a list by falling width, then falling rows. -/
def insertNumbered (n : Nat × Nat × Nat) : List (Nat × Nat × Nat) → List (Nat × Nat × Nat)
  | [] => [n]
  | m :: r => if m.2.1 < n.2.1 ∨ (m.2.1 = n.2.1 ∧ m.2.2 < n.2.2) then n :: m :: r else m :: insertNumbered n r

/-- Blocks for numbered needs, one after the other. -/
def Core.blksFor (k : Core) (ctx : Nat) : List (Nat × Nat × Nat) → List (Nat × Blk) → Option (List (Nat × Blk))
  | [], used => some used
  | (i, wd, rows) :: r, used => match k.blkFor ctx wd rows (used.map Prod.snd) with
    | none => none
    | some b => k.blksFor ctx r ((i, b) :: used)

/-- Places for the groups of a workgroup: the widest group chooses its block first. -/
def Core.spots (k : Core) (ctx : Nat) (needs : List (Nat × Nat)) : Option (List (Nat × Nat × Nat)) :=
  let order := ((List.range needs.length).zip needs).foldl (fun l n => insertNumbered n l) []
  let slots := (List.range Config.groupSlots).filter (k.freeSlot none)
  match k.blksFor ctx order [] with
  | none => none
  | some bs => if slots.length < needs.length then none else
    some ((List.range needs.length).filterMap (fun i => match slots[i]?, bs.find? (fun e => e.1 == i) with
      | some g, some e => some (g, e.2.off, e.2.row)
      | _, _ => none))

/-- Admissions of the spawned groups that wait in a workgroup (R54). -/
def formedTurns (c : Nat) (k : Core) (w : Workgroup) : List Instr :=
  w.formed.flatMap (fun f =>
    let rows := rowsFor (((w.rec_.spawns[f.2.1]?).map SpawnRec.vregs).getD 0)
    (match k.spot w.ctx w.rec_.spw rows with | some p => [Instr.spawnedGroupAdmission c w.uid f.1 p.1 p.2.1 p.2.2] | none => [])
      ++ (match w.reserve with | some p => [Instr.spawnedGroupAdmission c w.uid f.1 p.1 p.2.1 p.2.2] | none => []))

/-- Events of a workgroup. -/
def wgTurns (c : Nat) (k : Core) (w : Workgroup) : List Instr :=
  [.trapFrameWrite c w.uid, .prooferFullFormation c w.uid 0, .prooferFullFormation c w.uid 1, .prooferFullFormation c w.uid 2,
    .prooferFullFormation c w.uid 3, .prooferFlush c w.uid] ++ formedTurns c k w

/-- Events of an engine operation. -/
def opTurns (c : Nat) (o : EngOp) : List Instr :=
  let back (lane : Nat) : Instr := .faultResolved c (64 + 64 * o.id + lane)
  match o.kind with
  | .copy _ dst _ _ _ _ _ _ rcv => [back 0, .copyGlobalCompletion c o.id]
      ++ (if dst = .dgl then rcv.map Recv.next else List.range rcv.length).map (fun j => .copySectorArrival c o.id j)
  | .fetch _ _ _ _ rows _ => back 0 :: rows.map (fun r => .fetchRowLanding c o.id r)
  | .resid _ _ _ _ _ => [back 0, .residFillCompletion c o.id]
  | .rkld _ _ _ _ => [back 0, .rkldCompletion c o.id]
  | .mnorm _ _ _ _ _ _ _ _ => [back 0, .mnormCompletion c o.id]
  | .adrain _ _ _ _ _ _ _ _ _ _ _ _ _ => [back 0, .adrainCompletion c o.id]
  | .selk _ _ _ _ _ => [.selkCompletion c o.id]
  | .sortr _ _ _ _ _ => [.sortrCompletion c o.id]
  | .walk _ ls => ls.flatMap (fun l => [back l.lane, .walkRecordRead c o.id l.lane, .walkLanding c o.id l.lane])
  | .ired _ _ _ bs => bs.flatMap (fun b => [back b.lane, .iredBagCompletion c o.id b.lane])

/-- Events of a core, ends of stall counts apart. -/
def coreTurns (c : Nat) (k : Core) : List Instr :=
  k.grps.flatMap (fun e => groupTurns c e.1 e.2) ++ k.wgs.flatMap (fun e => wgTurns c k e.2) ++ k.eng.flatMap (opTurns c)
    ++ k.ovenQ.map (fun o => .faultResolved c (64 + 64 * o.id)) ++ [.ovenRackSwap c, .ovenCheckpoint c, .partnerThresholdExchange c, .ovenCompletion c]

/-- What the groups of a record need, the spawn reserve last: width and rows. -/
def LRec.spotsOf (r : LRec) : List (Nat × Nat) :=
  r.groups.map (fun e => (e.width, rowsFor e.vregs)) ++ (if r.spawns.isEmpty then [] else [(r.spw, rowsFor r.spareRegs)])

/-- Admissions from the queue of a physical cluster. -/
def State.admTurns (s : State) (p : Nat) (q : List Waiting) : List Instr :=
  (q.zip (List.range q.length)).flatMap (fun e => (coresOf p).filterMap (fun c =>
    let k := s.core c
    match (List.range Config.wgSlots).find? (fun i => (Tab.get k.wgs i).isNone), k.spots e.1.wg.ctx e.1.wg.rec_.spotsOf with
    | some i, some ps => some (Instr.workgroupAdmission p e.2 c i ps)
    | _, _ => none))

/-- Events of the device. -/
def State.devTurns (s : State) : List Instr :=
  s.clusters.flatMap (fun e => s.admTurns e.1 e.2.admQ ++ [Instr.railChange e.1])
    ++ (List.range s.dies.length).flatMap (fun d => [Instr.unitPlacement d, .workgroupPlacement d, .rotationApply d, .quotaPeriod d])
    ++ s.ctxs.flatMap (fun x => x.2.queues.flatMap (fun q => [Instr.commandStart x.1 q.1, .queueCloseCompletion x.1 q.1]))
    ++ s.launches.map (fun l => Instr.launchCompletion l.1)

/-- A place in a context's HBM for a save image. -/
def State.imageSpot (s : State) (ctx : Nat) : Option Nat :=
  match Tab.get s.ctxs ctx with
  | some x => x.grants.findSome? (fun g => ((List.range (g.2 / imageSpan + 1)).map (fun i => (g.1 / imageSpan + i) * imageSpan)).find? (s.imageRoom ctx))
  | none => none

/-- Evictions for a rotation that is pending (R228). -/
def State.evictTurns (s : State) : List Instr :=
  s.cores.flatMap (fun e => if s.rotating (e.1 / 128) then e.2.wgs.filterMap (fun w => (s.imageSpot w.2.ctx).map (fun pa => Instr.workgroupEviction e.1 (w.2.uid, pa))) else [])

/-- What the groups of a saved workgroup need, the spawn reserve last where none of them runs in it. -/
def Image.needs (im : Image) : List (Nat × Nat) :=
  im.grps.map (fun g => (g.2.width, rowsFor g.2.nregs))
    ++ (match im.wg.reserve with
      | some r => if (im.grps.map Prod.fst).contains r.1 then [] else [(im.wg.rec_.spw, rowsFor im.wg.rec_.spareRegs)]
      | none => [])

/-- Restores of saved workgroups (R228, R259). -/
def State.restoreTurns (s : State) : List Instr :=
  ((List.range s.images.length).zip s.images).flatMap (fun e => (coresOf (s.physOf e.2.wg.clu)).filterMap (fun c =>
    let k := s.core c
    match (List.range Config.wgSlots).find? (fun i => (Tab.get k.wgs i).isNone), k.spots e.2.wg.ctx e.2.needs with
    | some i, some ps => some (Instr.workgroupRestore e.1 c i ps)
    | _, _ => none))

/-- Events, but for the ends of counts and the landing of fixed-latency results. -/
def State.eventTurns (s : State) : List Instr := s.cores.flatMap (fun e => coreTurns e.1 e.2) ++ s.devTurns ++ s.evictTurns ++ s.restoreTurns

/-- Ends of stall counts. -/
def State.stallTurns (s : State) : List Instr := s.cores.flatMap (fun e => e.2.grps.map (fun g => .stallCountEnd e.1 g.1))

/-- Ends of back-offs, the shortest first, and intervals of arbiters without remainder. -/
def State.waitTurns (s : State) : List Instr :=
  let bs := s.cores.flatMap (fun e => e.2.grps.filterMap (fun g => match g.2.status with | .bkoff n => some (n, e.1, g.1) | _ => none))
  ((bs.filter (fun b => bs.all (fun d => decide (b.1 ≤ d.1)))).map (fun b => Instr.bkoffExpiry b.2.1 b.2.2))
    ++ (s.arbs.filter (fun a => decide (a.2.left ≤ 0))).map (fun a => Instr.budgetInterval (a.1 / 32))

/-- Landings of fixed-latency results. -/
def State.resultTurns (s : State) : List Instr :=
  s.cores.flatMap (fun e => e.2.grps.flatMap (fun g => (List.range g.2.pend.length).map (fun i => .fixedLatencyResult e.1 g.1 i)))

/-- Rotations given up (R229). -/
def State.giveUpTurns (s : State) : List Instr := (List.range s.dies.length).map (fun d => .rotationGiveUp d)

/-- The state after the first event of a list that the machine can make. -/
def State.firstNext (s : State) : List Instr → Option State
  | [] => none
  | i :: r => match exec i s with
    | .next t => some t
    | _ => s.firstNext r

/-- The issue slots of the cores, beginning with another one after every issue. -/
def State.slots (s : State) : List (Nat × Slot) :=
  let l := s.cores.flatMap (fun e => [(e.1, Slot.vector), (e.1, Slot.memory), (e.1, Slot.matrix)])
  let n := s.fresh % max 1 l.length
  l.drop n ++ l.take n

/-- The state after the first slot that has a group to issue has had its cycle. -/
def State.issueTurn (s : State) : Option State :=
  match s.slots.find? (fun e => (s.choose e.1 e.2).isSome) with
  | some e => match s.cycle e.1 e.2 with
    | .next t => some t
    | _ => none
  | none => none

/-- The turn that the machine takes by itself, if there is one: the end of a stall count, else an issue, else an event, else the end of another count.
After some issues the others go first, so that a group that polls holds nothing up for good (R217). -/
def State.ownTurn? (s : State) : Option State :=
  let issue (_ : Unit) := s.issueTurn
  let events (_ : Unit) := s.firstNext s.eventTurns
  let stalls (_ : Unit) := s.firstNext s.stallTurns
  let waits (_ : Unit) := s.firstNext s.waitTurns
  let results (_ : Unit) := s.firstNext s.resultTurns
  let giveUps (_ : Unit) := s.firstNext s.giveUpTurns
  let order := if s.fresh % 1024 = 1023 then [stalls, events, waits, results, giveUps, issue]
    else if s.fresh % 64 = 63 then [stalls, events, waits, results, issue, giveUps]
    else if s.fresh % 8 = 7 then [stalls, events, issue, waits, results, giveUps]
    else [stalls, issue, events, waits, results, giveUps]
  order.findSome? (fun f => f ())

/-- The machine's own turn, with no instruction current; nothing changes where there is none (log 2: DESIGN CHOICE). -/
def State.ownTurn (s : State) : Out :=
  let s := { s with cur := none }
  .next (s.ownTurn?.getD s)

end Sys2Proof.Machine
end

