-- ==== Sys2Proof/Machine/Weak.lean ====
section
/-! DEFINITION. The execution that the machine records, and turns whose reads take older writes, or whose writes and fences take earlier places, where the memory model
allows it (R177 to R205, R404; log 6: DESIGN CHOICE). -/
namespace Sys2Proof.Machine
open Sys2Proof

/-! Bytes at locations. -/

/-- The byte that stands at a location of memory, as the store holds it; none at a location that is no memory of this device. -/
def State.evByte (s : State) (l : EvLoc) : Option Byte :=
  match l.store with
  | .gl => if l.at_ < 2 ^ 64 then some (Mem.get s.hbm l.at_) else none
  | .sp c w => ((s.core c).wgOf w).map (fun e => e.2.sp l.at_)
  | .tm c w => ((s.core c).wgOf w).map (fun e => e.2.tm l.at_)
  | .cl p n u => (s.team p n u).map (fun t => Mem.get t.mem l.at_)
  | .ten x => (Tab.get s.ctxs x).map (fun _ => BitVec.ofNat 8 ((s.tensor x (l.at_ / 128)).toNat / 2 ^ (8 * (l.at_ % 128))))
  | _ => none
/-- Puts a byte at a location of memory, and nothing else: marks, keys and counts stay. -/
def State.putByte (s : State) (l : EvLoc) (b : Byte) : State :=
  match l.store with
  | .gl => { s with hbm := Mem.put s.hbm l.at_ b }
  | .sp c w => s.modWg c w (fun v => { v with scratch := Mem.ins v.scratch l.at_ b })
  | .tm c w => s.modWg c w (fun v => { v with tiles := Mem.ins v.tiles l.at_ b })
  | .cl p n u => s.modTeam p n u (fun t => { t with mem := Mem.put t.mem l.at_ b })
  | _ => s

/-! Events of a turn. -/

/-- The control bits of an instruction that makes events. -/
def ctlIn : Instr → Option Ctl
  | .callNear c _ _ _ | .callFar c _ _ _ => some c
  | i => (encFields i).map Enc.c
/-- Whether the pick of an instruction performed accesses: it has been done, or some of its lanes have. -/
def performed (i : Instr) : Option Group → Bool
  | none => true
  | some g => match g.status with
    | .trapped => false
    | .parked _ => (match i with | .cxfill _ _ _ _ _ => true | _ => false)
    | .blocked _ => (match i with | .swwait _ _ _ _ _ | .ldf _ _ _ _ _ | .ste _ _ _ _ => true | _ => false)
    | _ => true
/-- The events of a candidate's pick that leads to t: the headers that were still to be written (R274), then those of its instruction. -/
def State.pickEvs (s t : State) (c : Nat) (k : Cand) : List Ev :=
  match k.look with
  | .run i =>
    s.birthEvs c k.w k.x k.x.heads ++ (match (ctlIn i).bind (fun ctl => (s.issueAt c k).issue i ctl) with
      | some x => if s.fresh != t.fresh && decide (x.pre = .go) && performed i (t.grp c k.g) then x.popped.events else []
      | none => [])
  | _ => []
/-- Events that all lie at locations which translate: an access that does not is not made. -/
def reached (es : List Ev) : List Ev := if es.all (fun e => e.loc.all (fun l => decide (l.at_ < 2 ^ 64))) then es else []
/-- The events of groups that are born on a core, their headers written at once (R274). -/
def State.bornEvs (s t : State) (c : Nat) : List Ev :=
  (t.core c).grps.flatMap (fun e => if (s.core c).grps.all (fun f => f.2.uid != e.2.uid) && e.2.heads.toNat == 0 then
    (match (t.core c).wgOf e.2.wg with | some (_, w) => s.birthEvs c w e.2 (liveMask e.2.fr) | none => []) else [])
/-- The events of an event of the device that leads from s to t. -/
def State.deviceEvs (s t : State) (i : Instr) : List Ev :=
  let op (c id : Nat) : List Ev := match (s.core c).op id with | some o => reached (s.engineEvs i c o) | none => []
  match i with
  | .copySectorArrival c id _ | .copyGlobalCompletion c id | .fetchRowLanding c id _ | .residFillCompletion c id | .rkldCompletion c id | .mnormCompletion c id
  | .adrainCompletion c id | .selkCompletion c id | .sortrCompletion c id | .walkRecordRead c id _ | .walkLanding c id _ | .iredBagCompletion c id _ => op c id
  | .ovenRackSwap c => match (s.core c).ovenQ with
    | o :: _ => if (t.core c).ovenQ.any (fun p => p.id == o.id && decide (o.steps.length < p.steps.length)) then s.stepEvs c o else []
    | [] => []
  | .ovenCompletion c => match (s.core c).ovenQ with | o :: _ => s.ovenEvs c o | [] => []
  | .trapFrameWrite c u => match (s.core c).wgOf u, (t.core c).wgOf u with
    | some (_, w), some (_, v) => match v.handler with | some init => s.frameEvs c w init | none => []
    | _, _ => []
  | .workgroupAdmission _ _ c _ _ | .spawnedGroupAdmission c _ _ _ _ _ => s.bornEvs t c
  | .sessionLost n => s.lostEvs n
  | .packetReceive n ctx _ _ p => if s.counts.discarded = t.counts.discarded then reached (s.packetEvs n ctx p) else []
  | .launchCompletion n => match Tab.get s.launches n with | some l => s.signalEvs l.ctx l.die l.saddr l.sbytes | none => []
  | .commandStart x q => match (s.cmdq x q).candidate with
    | some (k, true) => if k.kind ≠ 1 ∧ s.outbox = t.outbox then s.signalEvs x 0 k.saddr k.sbytes else []
    | _ => []
  | _ => []
/-- The events of a turn that leads from s to t. -/
def State.turnEvs (s t : State) : Turn → List Ev
  | .issue c sl | .weakIssue c sl _ => match ({ s with cur := none } : State).choose c sl with
    | some k => State.pickEvs { s with cur := none } t c k
    | none => []
  | .event i | .weakEvent i _ => s.deviceEvs t i
  | .watch => []

/-! The execution recorded. -/

/-- Nothing recorded. -/
def Exe.empty : Exe := { run := { evs := [], rf := [], co := [], fo := [] }, vals := [] }
/-- The write that comes last in co at a location. -/
def Exe.last (e : Exe) (l : EvLoc) : Option Nat := e.run.co.reverse.find? (fun w => e.run.has w (fun v => v.loc == some l))
/-- Adds events one by one: reads take the write that is last, but at the locations of w the write named there, and writes and fences come last. val: the byte at a location
afterwards. -/
def Exe.add (e : Exe) (w : List (EvLoc × Nat)) (val : EvLoc → Option Byte) : List Ev → Exe
  | [] => e
  | v :: vs =>
    let n := e.run.evs.length
    let src : Option Nat := v.loc.bind (fun l => ((w.find? (fun p => p.1 == l)).map Prod.snd).or (e.last l))
    let later := vs.any (fun u => u.writes && u.meets v)
    Exe.add
      { run := { evs := e.run.evs ++ [v], rf := (if v.reads then (match src with | some m => e.run.rf ++ [(m, n)] | none => e.run.rf) else e.run.rf),
                 co := if v.writes then e.run.co ++ [n] else e.run.co, fo := if v.full then e.run.fo ++ [n] else e.run.fo },
        vals := e.vals ++ [if v.writes && !later then v.loc.bind val else none] } w val vs
/-- The generation of the synchronisation word at a location of memory, were there one. -/
def State.genAt (s : State) (l : EvLoc) : Option Nat :=
  let at_ (i : Nat) : Option Byte := s.evByte { l with at_ := l.at_ / 16 * 16 + i }
  match (List.range 16).mapM at_ with
  | some bs => some (SWord.ofNat (fromLE bs)).gen
  | none => none
/-- What was written since by neither a lane nor an engine: an event of its own. -/
def Exe.outside (e : Exe) (s : State) : Exe :=
  let ls := ((e.run.evs.filterMap Ev.loc).eraseDups).filter (fun l => (s.evByte l).isSome && (match (e.last l).bind (fun w => (e.vals[w]?).join) with
    | some b => s.evByte l != some b
    | none => false))
  e.add [] s.evByte (ls.map (fun l => plainWr .outside (4 * s.fresh) l (s.genAt l)))
/-- The execution with the locations of more events: each has the byte before as its first write (R180, R403). -/
def Exe.begin_ (e : Exe) (s : State) (vs : List Ev) : Exe :=
  let old := (e.run.evs.filterMap Ev.loc).eraseDups
  let ls := ((vs.filterMap Ev.loc).eraseDups).filter (fun l => !old.contains l)
  let n := e.run.evs.length
  { run := { e.run with evs := e.run.evs ++ initEvs s.genAt ls, co := (List.range ls.length).map (fun i => n + i) ++ e.run.co }, vals := e.vals ++ ls.map s.evByte }
/-- A load that a mirror serves whose fill was not recorded is none of the execution's: nothing orders it (R201). -/
def Exe.known (e : Exe) (vs : List Ev) : List Ev :=
  vs.filter (fun v => v.mir.all (fun id => e.run.evs.any (fun u => match u.origin with | .engine n .copy _ => n == id && u.reads && u.meets v | _ => false)))
/-- A load that a mirror serves reads what its fill read (R201). -/
def Exe.filled (e : Exe) (vs : List Ev) : List (EvLoc × Nat) :=
  vs.filterMap (fun v => v.mir.bind (fun id => v.loc.bind (fun l =>
    ((List.range e.run.evs.length).find? (fun n => e.run.has n (fun u => (match u.origin with | .engine m .copy _ => m == id | _ => false) && u.reads && u.loc == some l))).bind
      (fun n => (e.run.source n).map (fun w => (l, w))))))
/-- A turn from s to t, as it is recorded. -/
def Exe.turn (e : Exe) (s t : State) (w : List (EvLoc × Nat)) (vs : List Ev) : Exe :=
  let e := e.outside s
  let vs := e.known vs
  (e.begin_ s vs).add (w ++ e.filled vs) t.evByte vs

/-! Turns. -/

/-- Whether an order keeps that of another, whose events all have lower numbers than n. -/
def keepsOrder (n : Nat) (old new : List Nat) : Bool := new.filter (fun m => decide (m < n)) == old
/-- The machine with the bytes that a turn's reads take (Weak): each from a write of its location. -/
def State.seeing (s : State) (e : Exe) (w : List (EvLoc × Nat)) : Option State :=
  w.foldl (fun r p => r.bind (fun s => match (e.vals[p.2]?).join, e.run.has p.2 (fun v => v.writes && v.loc == some p.1), s.evByte p.1 with
    | some b, true, some _ => some (s.putByte p.1 b)
    | _, _, _ => none)) (some s)
/-- Memory after a turn: at the locations that it wrote, and at those whose reads took an older write, stands the write that is last in co. -/
def State.settled (t : State) (e : Exe) (ls : List EvLoc) : State :=
  ls.foldl (fun t l => match (e.last l).bind (fun w => (e.vals[w]?).join) with | some b => t.putByte l b | none => t) t
/-- A turn whose reads take the writes that w names, and whose writes and fences stand where it says: it exists where the memory model allows the execution. -/
def State.weakly (s : State) (w : Weak) (turn : Turn) : Out :=
  match s.exe with
  | none => .fault .notEnabled
  | some e0 =>
    let e := e0.outside s
    match s.seeing e w.from_ with
    | none => .fault .notEnabled
    | some s' => match s'.take turn with
      | .next t =>
        let vs := s'.turnEvs t turn
        let n := e.run.evs.length
        let x := ((e.begin_ s (e.known vs)).add (w.from_ ++ e.filled vs) t.evByte (e.known vs))
        let k := (x.run.evs.length - n) - (e.known vs).length
        let x := { x with run := { x.run with co := w.co.getD x.run.co, fo := w.fo.getD x.run.fo } }
        let old := (List.range k).map (fun i => n + i) ++ e.run.co
        if keepsOrder (n + k) old x.run.co && keepsOrder (n + k) e.run.fo x.run.fo && x.run.allowed then
          .next { t.settled x (w.from_.map Prod.fst ++ (vs.filter Ev.writes).filterMap Ev.loc) with exe := some x }
        else .fault .notEnabled
      | o => o
/-- A turn, recorded where the machine records. -/
def State.turn (s : State) (turn : Turn) : Out :=
  match turn with
  | .watch => .next { s with cur := none, exe := some Exe.empty }
  | .weakIssue _ _ w | .weakEvent _ w => s.weakly w turn
  | _ => match s.exe, s.take turn with
    | some e, .next t => .next { t with exe := some (e.turn s t [] (s.turnEvs t turn)) }
    | _, o => o

end Sys2Proof.Machine
end

