-- ==== Sys2Proof/Machine/Step.lean ====
section
/-! DEFINITION. The step of the machine, and the placement of one instruction as the next one that step fetches (log 2, log 8: DESIGN CHOICE). -/
namespace Sys2Proof.Machine
open Sys2Proof

/-- One step: the first turn of the agenda, or the machine's own turn when the agenda is empty, which it does not record (log 2, log 6: DESIGN CHOICE). -/
def step (s : State) : Out :=
  match s.agenda with
  | [] => State.ownTurn { s with exe := none }
  | t :: r => State.turn { s with agenda := r } t

/-! A loaded program of one instruction (log 8: DESIGN CHOICE). -/

/-- Where the program stands: a code base. -/
def loadAt : Nat := 0x10000

/-- The role that may issue an instruction. -/
def roleFor (i : Option Instr) : Role :=
  match i.map openTo with
  | some .copy => .copy
  | some .matrix => .matrix
  | _ => .vector

/-- The width of its group: 32 lanes where an instruction needs them (R318), else 8. -/
def widthFor : Option Instr → Nat
  | some (.fpack _ _ _ _ _ _ _) | some (.funpk _ _ _ _ _ _ _) => 32
  | _ => 8

/-- A launch record of one workgroup with one group, every queue a scalar queue of one slot, one spawn entry and one bucket. -/
def loadRec (role : Role) (width : Nat) : LRec :=
  { levels := [(0, width), (1, 1), (2, 1)], roles := [{ role := role, width := width, vregs := 16, count := 1, entry := 0, pri := 0 }],
    queues := List.replicate 8 (1, 0, 1), spawns := [{ entry := 0, pri := 0, role := .vector, vregs := 8 }], buckets := [{ entry := 0, pri := 0, dims := [] }],
    tensors := [], spw := 8, tiles := 16, banks := 12, scratch := 524288, clsram := 0, priv := 0 }

/-- Its group at entry, every register zero and every predicate true. -/
def loadGroup (role : Role) (width : Nat) : Group :=
  let g := Group.newborn 2 1 0 false role 16 0 0 { off := 0, width := width, row := 0, rows := 2 } { pc := BitVec.ofNat 64 loadAt, pri := 0, mask := fullMask width, age := 0 }
  { g with v := (List.range 16).flatMap (fun n => (List.range width).map (fun l => (vKey n l, (0 : Word)))),
           s := (List.range 64).map (fun n => (n, (0 : DWord))),
           o := (List.range 8).flatMap (fun n => (List.range width).map (fun l => (vKey n l, (0 : Word)))),
           q := (List.range 2).flatMap (fun n => (List.range width).map (fun l => (vKey n l, (0 : Word)))),
           p := (List.range 7).map (fun n => (n, fullMask width)), heads := 0 }

/-- Its workgroup; the first words of its scratchpad hold zeros. -/
def loadWg (r : LRec) : Workgroup :=
  { uid := 1, launch := 0, index := 0, ctx := 0, tc := 0, clu := 0, team := 0, lvl := [0], ext := [1, 1], rec_ := r, cb := BitVec.ofNat 64 loadAt, priv := 0,
    order := 0, fill := 0, scratch := (List.range 256).map (fun a => (a, (0 : Byte))), tags := [], tiles := [], queues := r.queues.map (fun q => Queue.fresh q.1 q.2.1 q.2.2), tvec := 0, tframe := 0, rail := false,
    halt := none, handler := none, spawnIx := 1, formed := [], reserve := none, poison := [], fetched := [], watch := [], writes := 0, wrote := [], done := [], rr := [] }

/-- Its context: one page, which may be read and executed, at physical address 0. -/
def loadCtx : Ctx :=
  { owner := 0, key := 0, pages := [{ va := loadAt, size := 4096, pa := 0, r := true, w := false, x := true, key := 0 }], grants := [], tens := [], walks := [],
    queues := [(0, { CmdQ.closed with isOpen := true })], entitled := false, quota := [], privTop := 0, saved := [] }

/-- Its launch. -/
def loadLaunch (r : LRec) : Launch :=
  { ctx := 0, queue := 0, seq := 0, tc := 0, mig := false, saddr := 0, sbytes := 0, cb := BitVec.ofNat 64 loadAt, die := 0, rec_ := r, total := 1,
    next := [1, 1], placed := 1, homes := [], seats := [], done := 0, failed := false }

/-- The machine with an instruction of nbits bits w, every bit above them 0, where its next step fetches: the program of a launch of one group on core 0,
whose slot has the next turn. -/
def State.withFetchWord (s : State) (nbits w : Nat) : State :=
  let i := decodeTableWord nbits w
  let r := loadRec (roleFor i) (widthFor i)
  { s with
    cores := Tab.set s.cores 0 { Core.empty with wgs := [(0, loadWg r)], grps := [(0, loadGroup (roleFor i) (widthFor i))] },
    ctxs := Tab.set s.ctxs 0 loadCtx, launches := Tab.set s.launches 0 (loadLaunch r),
    hbm := Mem.write s.hbm 0 (toLE 32 (w % 2 ^ nbits)), hbmKey := Tab.del s.hbmKey 0,
    agenda := [.issue 0 (match i with | some i => slotOf i | none => .vector)], cur := none, nextId := max s.nextId 3 }

end Sys2Proof.Machine
end

