-- ==== Sys2Proof/WellFormed.lean ====
section
/-! DEFINITION. Which terms of Instr an encoding stands for: the checks of R119 on the instruction's own fields, and a device's numbers for an event. -/
namespace Sys2Proof
open Sys2Proof.Machine

/-- The checks of a direct branch and of PAD: the length of its form, and no NF and no Q bit (R107). -/
def wfBranch : Instr → Bool
  | .pad => true
  | .bra c _ _ => decide (c.len = .w64) && !c.nf && !c.q
  | .brcNear c _ _ _ _ _ => decide (c.len = .w64) && !c.nf && !c.q
  | .brcFar c _ _ _ _ _ => decide (c.len = .w128) && !c.nf && !c.q
  | .callNear c _ _ _ => decide (c.len = .w64) && !c.nf && !c.q
  | .callFar c _ _ _ => decide (c.len = .w128) && !c.nf && !c.q
  | .jmpi c a _ => decide (c.len = .w64) && !c.nf && !c.q && (match a with | .v _ | .s _ | .o _ | .q _ => true | _ => false)
  | _ => false

/-- Whether a field of an operand class may hold a specifier (R108, R268, R321). -/
def Cls.takes (c : Cls) (n : Nat) : Bool :=
  if !c.used then n == 0
  else if c.pred then decide (n < 8)
  else (decide (n < 0x100) && c.v && n % c.al == 0)
    || (decide (0x100 ≤ n) && decide (n < 0x140) && c.s && (n - 0x100) % c.sal == 0)
    || (decide (0x140 ≤ n) && decide (n < 0x148) && c.o)
    || (decide (0x148 ≤ n) && decide (n < 0x14A) && c.q)
    || (decide (0x150 ≤ n) && decide (n < 0x180) && c.k)
    || (decide (0x180 ≤ n) && decide (n < 0x188) && c.h)
    || (n == 0x1FF && c.i)

/-- The XM fields that an instruction holds, as X[31:0] codes them (R111); none where it holds none. -/
def Instr.xmFields : Instr → Option Nat
  | .ld _ _ _ _ x _ _ | .st _ _ _ x _ _ | .atom _ _ _ _ _ x _ _ _ | .atomCas _ _ _ x _ _ _ _ | .red _ _ _ _ _ x _ _ | .swinit _ _ x _ _ _
  | .swarrAny _ _ x _ _ | .swarrGen _ _ x _ _ _ | .swwait _ _ x _ _ => some (xmCode x)
  | .ldf _ _ ofs _ _ | .ste _ ofs _ _ | .tag _ _ _ ofs _ | .pref _ ofs _ => some (256 * ofs.toNat)
  | _ => none

/-- Whether a layout's immediate field supplies an immediate of this width (R109). -/
def immFits (lay : Lay) : Opnd → Bool
  | .imm32 _ => lay == .xi || lay == .xci
  | .imm64 _ => lay == .xl
  | _ => true

/-- The fields pass the checks of their form (R108 to R119): length, MOD and XM values, reserved bits, NF, Q, the classes of the specifiers, at most one
immediate, with XL in A alone, and the ranges of the extension. -/
def fieldsOk (f : Form) (lay : Lay) (e : Enc) : Bool :=
  let cs := if lay.hasC then [(f.c, e.cF lay)] else []
  (checkForm f lay e).isNone
  && ([(f.d, e.d), (f.a, e.a), (f.b, e.b)] ++ cs).all (fun p => p.1.takes p.2)
  && decide ((([e.d, e.a, e.b] ++ cs.map (·.2)).filter (fun n => n == 0x1FF)).length ≤ 1)
  && !(lay == .xl && e.b == 0x1FF)
  && (!(lay == .xt || lay == .xti) || !xtUnit f.xt e.x)
  && (lay != .xti || (e.x >>> 32) &&& (0xFFFFFFFF - f.xt.imm) == 0)

/-- An instruction that is no direct branch, with the fields e: they pass the checks of its form, and what the instruction holds has its place there:
an immediate of the width that the layout supplies, and XM fields at their defaults where the layout has none (R322). -/
def wfFields (i : Instr) (e : Enc) : Bool :=
  opcOk e.opc && (opcLens e.opc).contains e.c.len
  && (match form e.opc e.fn e.m with
    | none => false
    | some f => match layOf f e with
      | none => false
      | some lay => fieldsOk f lay e && (useOf i).fs.all (fun x => immFits lay x.o)
          && (lay == .xm || lay == .xmc || (match i.xmFields with | some z => z == xmDefault e.opc | none => true)))

/-- Whether the term is an instruction that a program can encode. -/
def Instr.encodable (i : Instr) : Bool := (encodeBits i).isSome

/-- A term that an encoding stands for, or an event of the device. -/
def Instr.wf (i : Instr) : Bool :=
  match i with
  | .jmpi _ _ _ => wfBranch i
  | i => match encBranch i with
    | some _ => wfBranch i
    | none => match encFields i with
      | some e => wfFields i e
      | none => true

end Sys2Proof
end

