-- ==== Sys2Proof/Safety.lean ====
section
/-! DEFINITION. What claims about a run say: steps that complete, issues, what an issue changes and what it leaves alone, and the invariants. -/
namespace Sys2Proof.Machine
open Sys2Proof

/-! Safe runs. -/

/-- A machine whose step completes: no fault of the model and no refusal. -/
def State.goes (s : State) : Prop := ∃ t, step s = .next t

/-- An instruction completes in a state and leads to another. -/
def Leads (i : Instr) (s t : State) : Prop := exec i s = .next t

/-! Issues. -/

/-- An instruction with control bits c issues in a state: x is the issue, its entry has lanes, the checks of R119 pass and nothing makes it wait. -/
def Issues (i : Instr) (c : Ctl) (s : State) (x : Iss) : Prop := s.issue i c = some x ∧ x.pre = .go ∧ x.cur.mask ≠ 0

/-- An instruction takes a precise trap in a state, with no effect of its own (R119, R249). -/
def Traps (i : Instr) (s : State) (x : Iss) (t : TrapInfo) : Prop := exec i s = .next ((s.takeTrap x.core x.g t).endIssue)

/-! What an issue leaves alone. -/

/-- A workgroup but for its queues and what it notes of writes and of operands in use (R192). -/
def Workgroup.calm (w : Workgroup) : Workgroup := { w with queues := [], watch := [], writes := 0, wrote := [] }

/-- A state that differs from another at most in one group, in the queues of its core's workgroups, and in the current issue. -/
structure Quiet (s t : State) (c g : Nat) : Prop where
  rest  : { t with cores := s.cores, cur := s.cur, fresh := s.fresh } = s
  cores : ∀ d, d ≠ c → t.core d = s.core d
  core  : { t.core c with wgs := (s.core c).wgs, grps := (s.core c).grps } = s.core c
  grps  : ∀ h, h ≠ g → t.grp c h = s.grp c h
  wgs   : (t.core c).wgs.map (fun e => (e.1, e.2.calm)) = (s.core c).wgs.map (fun e => (e.1, e.2.calm))

/-- Every byte of memory reads as before: global memory, scratchpads, tiles and cluster SRAM. -/
def SameBytes (s t : State) : Prop :=
  (∀ ctx va, t.glGet ctx va = s.glGet ctx va)
  ∧ (∀ c u a, (((t.core c).wgOf u).map (fun e => e.2.sp a)) = (((s.core c).wgOf u).map (fun e => e.2.sp a)))
  ∧ (∀ c u a, (((t.core c).wgOf u).map (fun e => e.2.tm a)) = (((s.core c).wgOf u).map (fun e => e.2.tm a)))
  ∧ (∀ p l u a, (t.team p l u).map (fun e => Mem.get e.mem a) = (s.team p l u).map (fun e => Mem.get e.mem a))

/-- A group without its registers and without what every issue of it advances. -/
def Group.bare (g : Group) : Group :=
  { g with v := [], s := [], o := [], q := [], p := [], vfl := [], fr := [], demoted := none, status := .runnable, kept := none, pend := [], sb := [],
           skid := 0, lastPc := [], poison := [], own := [], mfence := 0 }

/-- What is not a register stays, and every register that is not listed. -/
def Kept (x : Iss) (y : Group) (rs : List RegId) : Prop := y.bare = x.gr.bare ∧ ∀ r l, l < 64 → r ∉ rs → y.reg r l = x.gr.reg r l

/-- The registers of a destination; wd: 64 bits wide. -/
def destRegs (wd : Bool) : Opnd → List RegId
  | .v n => if wd then [.v n.val, .v (n.val + 1)] else [.v n.val]
  | .s n => [.s n.val]
  | .o n => [.o n.val]
  | .q n => [.q n.val]
  | _ => []

/-- The registers that the Q bit writes (R64). -/
def qRegs (c : Ctl) : List RegId := if c.q then [.q 0, .q 1] else []

/-! What an issue writes. -/

/-- A destination holds the results val of the active, guard-true lanes: registers per lane, a scalar the lowest lane's (R63), a queue one more entry
(R46); with the Q bit q0 holds them and q1 the old q0 (R64). y: the group afterwards. -/
def Wrote (x : Iss) (t : State) (y : Group) (wd : Bool) (d : Opnd) (val : Nat → DWord) : Prop :=
  (match d with
    | .v n => ∀ l ∈ x.lanes, y.v? n.val l = (val l).setWidth 32 ∧ (wd = true → y.v? (n.val + 1) l = (val l >>> 32).setWidth 32)
    | .s n => ∀ l, x.low = some l → y.s? n.val = val l
    | .o n => ∀ l ∈ x.lanes, y.o? n.val l = (val l).setWidth 32
    | .q n => x.c.q = false → ∀ l ∈ x.lanes, y.q? n.val l = (val l).setWidth 32
    | .h n => ∃ w, (t.core x.core).wgOf x.wg.uid = some (x.wslot, w)
        ∧ ∃ v, (x.s.core x.core).wgOf x.wg.uid = some (x.wslot, v)
          ∧ w.queues = (v.modQueue n.val (fun q => q.push (pushEntry q.kind x.width x.act val))).queues
    | _ => True)
  ∧ (x.c.q = true → ∀ l ∈ x.lanes, y.q? 1 l = x.gr.q? 0 l
      ∧ y.q? 0 l = (val (match d with | .s _ => (lanesOf x.act).head?.getD 0 | _ => l)).setWidth 32)

/-- A predicate holds val in the active, guard-true lanes, and in the others what it held; p7 stays true (R60). -/
def WroteP (x : Iss) (y : Group) (d : Fin 8) (val : Nat → Bool) : Prop :=
  ∀ l < 64, laneIn (y.p? d.val) l = if d.val = 7 then true else if laneIn x.act l then val l else laneIn (x.gr.p? d.val) l

/-- Sticky flags: those of the active, guard-true lanes are raised unless NF is 1 (R140, R141). -/
def Raised (x : Iss) (y : Group) (fl : Nat → Nat) : Prop :=
  ∀ l, y.fl? l = if l ∈ x.lanes ∧ x.c.nf = false then x.gr.fl? l ||| BitVec.ofNat 5 (fl l) else x.gr.fl? l

/-- The group goes on: its lanes move as mv says (R32, R35), and it stalls as its stall count says (R117). -/
def Went (x : Iss) (y : Group) (mv : List Move) : Prop := y.fr = advance x.gr.fr x.cur.pc mv ∧ y.status = .stalled (stallOf x.c)

/-- An instruction whose whole effect is to give a destination the results val, raising the flags fl: wherever it issues it completes, and it changes
nothing else. -/
def Gives (i : Instr) (c : Ctl) (wd : Bool) (d : Opnd) (val : Iss → Nat → DWord) (fl : Iss → Nat → Nat) : Prop :=
  ∀ s x, Issues i c s x → ∃ t y, Leads i s t ∧ t.grp x.core x.g = some y ∧ Wrote x.popped t y wd d (val x.popped)
    ∧ Kept x y (destRegs wd d ++ qRegs c) ∧ Raised x y (fl x.popped) ∧ Went x y x.thru ∧ Quiet s t x.core x.g ∧ SameBytes s t

/-- The same for a predicate destination. -/
def GivesP (i : Instr) (c : Ctl) (d : Fin 8) (val : Iss → Nat → Bool) (fl : Iss → Nat → Nat) : Prop :=
  ∀ s x, Issues i c s x → ∃ t y, Leads i s t ∧ t.grp x.core x.g = some y ∧ WroteP x.popped y d (val x.popped)
    ∧ Kept x y [.p d.val] ∧ Raised x y (fl x.popped) ∧ Went x y x.thru ∧ Quiet s t x.core x.g ∧ SameBytes s t

/-- An instruction whose whole effect is where its lanes go: it completes, and no register, no flag and no byte changes. -/
def Moves (i : Instr) (c : Ctl) (mv : Iss → List Move) : Prop :=
  ∀ s x, Issues i c s x → ∃ t y, Leads i s t ∧ t.grp x.core x.g = some y
    ∧ Kept x y [] ∧ y.vfl = x.gr.vfl ∧ Went x y (mv x.popped) ∧ Quiet s t x.core x.g ∧ SameBytes s t

/-! The values of results. -/

/-- elem(O, L, e) of an issue: an element of an operand as its type reads it (R286). -/
def Iss.el (x : Iss) (ty : ITy) (o : Opnd) (l e : Nat) : Int := elemZ ty (x.vt ty o l) e
/-- Results given element by element as exact integers, wrapped or saturated (R286). -/
def Each (ty : ITy) (sat : Bool) (z : Iss → Nat → Nat → Int) : Iss → Nat → DWord := fun x l => BitVec.ofNat 64 (perElem ty sat (z x l))
/-- Results given element by element as bits of the type's width. -/
def EachBits (ty : ITy) (f : Iss → Nat → Nat → Nat) : Iss → Nat → DWord :=
  fun x l => BitVec.ofNat 64 (join (tyW ty) ((List.range (tyN ty)).map (f x l)))
/-- Bits of an element. -/
def Iss.eb (x : Iss) (ty : ITy) (o : Opnd) (l e : Nat) : Nat := x.vt ty o l / 2 ^ (tyW ty * e) % 2 ^ tyW ty
/-- Results that are words. -/
def Words (f : Iss → Nat → Nat) : Iss → Nat → DWord := fun x l => BitVec.ofNat 64 (f x l)
/-- The number whose bits below w a function gives. -/
def ofBits : Nat → (Nat → Bool) → Nat
  | 0, _ => 0
  | w + 1, f => ofBits w f + (f w).toNat * 2 ^ w
/-- No flag is raised. -/
def noFlags : Iss → Nat → Nat := fun _ _ => 0

/-- Elements of a floating-point result side by side (R126): r gives each element's pattern and flags. -/
def FEach (ty : FTy) (r : Iss → Nat → Nat → FRes) : Iss → Nat → DWord :=
  fun x l => BitVec.ofNat 64 (join (ftyW ty) ((List.range (ftyN ty)).map (fun h => (r x l h).1)))
/-- The OR of the flags of the elements (R141). -/
def FFlags (ty : FTy) (r : Iss → Nat → Nat → FRes) : Iss → Nat → Nat :=
  fun x l => ((List.range (ftyN ty)).map (fun h => (r x l h).2)).foldl (fun f e => f ||| e) 0
/-- An instruction that gives each element the result r and raises the flags of both halves. -/
def GivesF (i : Instr) (c : Ctl) (ty : FTy) (d : Opnd) (r : Iss → Nat → Nat → FRes) : Prop := Gives i c false d (FEach ty r) (FFlags ty r)
/-- An instruction that gives a lane one pattern and its flags. -/
def GivesR (i : Instr) (c : Ctl) (d : Opnd) (r : Iss → Nat → FRes) : Prop :=
  Gives i c false d (fun x l => BitVec.ofNat 64 (r x l).1) (fun x l => (r x l).2)

/-- The group after flags are set to f in the active, guard-true lanes, whatever NF says. -/
def SetFlags (i : Instr) (c : Ctl) (f : BitVec 5 → BitVec 5) : Prop :=
  ∀ s x, Issues i c s x → ∃ t y, Leads i s t ∧ t.grp x.core x.g = some y ∧ Kept x y [] ∧ (∀ l, y.fl? l = if l ∈ x.lanes then f (x.gr.fl? l) else x.gr.fl? l)
    ∧ Went x y x.thru ∧ Quiet s t x.core x.g ∧ SameBytes s t

/-- The accumulator of a scan after some lanes (R299): f(f(id, A[L1]), A[L2]) and so on. -/
def scanAcc (rm : Rnd) (op : LOp) (f : Nat → Nat) (ls : List Nat) : Nat := ls.foldl (fun acc l => (scanStep rm op acc (f l)).1) (scanId op)
/-- The rounding of a scan: that of its MOD (R298). -/
def Iss.scanRm (x : Iss) (op : LOp) : Rnd := match op with | .fadd r _ => dynRnd r x.gr.fpc | _ => .rn
/-- acc as it stands before lane l (R299). -/
def Iss.scanAt (x : Iss) (op : LOp) (a : Opnd) (l : Nat) : Nat := scanAcc (x.scanRm op) op (scanArg op a x) (x.lanes.takeWhile (fun k => k != l))
/-- The step of lane l: new, and the flags that it raises (R299). -/
def Iss.scanNew (x : Iss) (op : LOp) (a : Opnd) (l : Nat) : Nat × Nat := scanStep (x.scanRm op) op (x.scanAt op a l) (scanArg op a x l)
/-- The OR of the flags of every step (R299). -/
def Iss.scanFlags (x : Iss) (op : LOp) (a : Opnd) : Nat := (x.lanes.map (fun l => (x.scanNew op a l).2)).foldl (fun f e => f ||| e) 0

/-! Where bytes lie, and what writes change. -/

/-- Where a byte lies: in HBM under a key, in a workgroup's scratchpad or tiles, in a team's cluster SRAM. -/
inductive Byt where
  | hbm (pa key : Nat)
  | sp (core wg a : Nat)
  | tm (core wg a : Nat)
  | cl (clu launch unit a : Nat)
  deriving DecidableEq, Repr

/-- The byte that lies there, where that store exists. -/
def State.byteAt (s : State) : Byt → Option Byte
  | .hbm pa k => some (s.hbmGet k pa)
  | .sp c u a => ((s.core c).wgOf u).map (fun e => e.2.sp a)
  | .tm c u a => ((s.core c).wgOf u).map (fun e => e.2.tm a)
  | .cl p l u a => (s.team p l u).map (fun t => Mem.get t.mem a)

/-- Whether a write of p may change what q reads as: it is that byte, or a byte of the same line of HBM under another key (R232, R234). -/
def Byt.hits (p q : Byt) : Prop :=
  p = q ∨ ∃ a k b j, p = .hbm a k ∧ q = .hbm b j ∧ a / 64 = b / 64 ∧ (a = b ∨ k ≠ j)

/-- A state after bytes are written in an order: each reads as the last write that may change it wrote it, every other byte as before. -/
def Stored (s t : State) (ws : List (Byt × Byte)) : Prop :=
  (∀ q, (t.byteAt q).isSome = (s.byteAt q).isSome) ∧ (∀ q, (∀ w ∈ ws, ¬ w.1.hits q) → t.byteAt q = s.byteAt q)
  ∧ ∀ pre p b post, ws = pre ++ (p, b) :: post → (∀ w ∈ post, ¬ w.1.hits p) → (s.byteAt p).isSome → t.byteAt p = some b

/-- Where a byte of global memory lies. -/
def State.place (s : State) (ctx : Nat) (a : Acc) (va : Nat) : Option Byt :=
  match s.translate ctx a va with | .pa p k => some (.hbm p k) | _ => none

/-- Where a byte of a space lies for an issue that writes it. -/
def Iss.place (x : Iss) (sp : Space) (a : Nat) : Option Byt :=
  match sp with
  | .gl | .pv => x.s.place x.wg.ctx .w a
  | .sp => some (.sp x.core x.wg.uid a)
  | .cl => some (.cl x.clu x.wg.launch x.wg.team a)

/-- The bytes that a store of bs at an address writes, in ascending order. -/
def Iss.puts (x : Iss) (sp : Space) (a : Nat) (bs : List Byte) : List (Byt × Byte) :=
  (bs.zipIdx).filterMap (fun e => (x.place sp (a + e.2)).map (fun p => (p, e.1)))

/-- A lane's access of n bytes at a meets no trap, does not park and does not go through the system window (R69, R79, R83 to R86, R266, R324). -/
def Iss.sound (x : Iss) (sp : Space) (accs : List Acc) (n l a : Nat) : Prop :=
  a % n = 0 ∧ x.outside sp l a n = false
  ∧ (inGlobal sp = true → ∀ c ∈ accs, ∃ p k, x.s.translate x.wg.ctx c a = .pa p k)
  ∧ (.r ∈ accs → ∀ mir, x.poisonAt sp mir a n = false)

/-- A workgroup without its stores, their marks, its queues, and what it notes of writes and of oven operations not yet acquired (R192). -/
def Workgroup.shell (w : Workgroup) : Workgroup :=
  { w with scratch := [], tiles := [], poison := [], queues := [], watch := [], writes := 0, wrote := [], done := [] }
/-- A context without what remains of its quotas. -/
def Ctx.shell (x : Ctx) : Ctx := { x with quota := x.quota.map (fun e => (e.1, e.2.1, 0)) }
/-- A cluster without the bytes of its SRAM and what they are worth (R81). -/
def Cluster.shell (k : Cluster) : Cluster :=
  { k with teams := k.teams.map (fun t => { t with mem := [], poison := [] }), resid := k.resid.map (fun e => (e.1, { e.2 with used := none })) }
/-- The machine without its cores, its bytes, the arbiters' accounts and the words that the synchronisation engines hold, and what every issue advances. -/
def State.skin (s : State) : State :=
  { s with cores := [], hbm := [], hbmKey := [], hbmPoison := [], arbs := [], cur := none, fresh := 0,
           ctxs := s.ctxs.map (fun e => (e.1, e.2.shell)), clusters := [], dies := s.dies.map (fun d => { d with words := [] }),
           counts := { s.counts with sectors := 0 } }

/-- A state that differs from another at most in one group, in bytes of memory and their marks, in the arbiters' accounts, and in what f leaves out of
the workgroups of that core. -/
structure AroundBy (f : Workgroup → Workgroup) (s t : State) (c g : Nat) : Prop where
  rest  : t.skin = s.skin
  clus  : ∀ p, (t.cluster p).shell = (s.cluster p).shell
  cores : ∀ d, d ≠ c → t.core d = s.core d
  core  : { t.core c with wgs := [], grps := [] } = { s.core c with wgs := [], grps := [] }
  grps  : ∀ h, h ≠ g → t.grp c h = s.grp c h
  wgs   : (t.core c).wgs.map (fun e => (e.1, f e.2)) = (s.core c).wgs.map (fun e => (e.1, f e.2))

/-- The same, leaving out stores, marks and queues. -/
abbrev Around (s t : State) (c g : Nat) : Prop := AroundBy Workgroup.shell s t c g
/-- A workgroup without its tags too. -/
def Workgroup.untagged (w : Workgroup) : Workgroup := { w.shell with tags := [] }

/-- An access of n bytes by lanes at addresses: no two different addresses have a byte in common, through whatever mapping. -/
def Iss.apart (x : Iss) (sp : Space) (n : Nat) (adr : Nat → Nat) (ls : List Nat) : Prop :=
  ∀ l ∈ ls, ∀ k ∈ ls, adr l ≠ adr k → ∀ i < n, ∀ j < n, ∀ p ∈ x.place sp (adr l + i), ∀ q ∈ x.place sp (adr k + j), ¬ p.hits q

/-- The lanes below l that name the same address, ascending. -/
def sameBelow (adr : Nat → Nat) (ls : List Nat) (l : Nat) : List Nat := ls.filter (fun k => decide (k < l) && decide (adr k = adr l))
/-- The lanes that name the address of l, ascending. -/
def sameAs (adr : Nat → Nat) (ls : List Nat) (l : Nat) : List Nat := ls.filter (fun k => decide (adr k = adr l))
/-- The lanes that are the first to name their address. -/
def firsts (adr : Nat → Nat) (ls : List Nat) : List Nat := ls.filter (fun l => (sameBelow adr ls l).isEmpty)

/-- Operands reduced in ascending lane order, on top of a value: the value alone when there is none (R203). -/
def onTop (g : Nat → Nat → Nat) (v : Nat) : List Nat → Nat
  | [] => v
  | y :: ys => g v (ys.foldl g y)

/-- The registers that loaded values go to (R325). -/
def loadRegs (sz : Size) : Opnd → List RegId
  | .v n => match sz with
    | .b64 => [.v n.val, .v (n.val + 1)]
    | .b128 => [.v n.val, .v (n.val + 1), .v (n.val + 2), .v (n.val + 3)]
    | _ => [.v n.val]
  | o => destRegs false o

/-- A destination holds loaded values in the lanes of a mask (R325): 1, 2 or 4 registers, the lowest part in the first; a scalar the value of the lowest
active lane, when it is one of them (R63). -/
def Loaded (x : Iss) (y : Group) (m : DWord) (sz : Size) (sx : Bool) (d : Opnd) (val : Nat → Nat) : Prop :=
  match d with
  | .v n => ∀ l ∈ lanesOf m, match sz with
    | .b64 => y.v? n.val l = BitVec.ofNat 32 (val l) ∧ y.v? (n.val + 1) l = BitVec.ofNat 32 (val l / 2 ^ 32)
    | .b128 => n.val + 3 < 256 → ∀ i < 4, y.v? (n.val + i) l = BitVec.ofNat 32 (val l / 2 ^ (32 * i))
    | _ => y.v? n.val l = (if sx then BitVec.ofInt 32 (sextN (val l) (8 * szBytes sz)) else BitVec.ofNat 32 (val l))
  | .s n => ∀ l, x.low = some l → laneIn m l = true → y.s? n.val =
      (if sz = .b64 ∨ sz = .b128 ∨ sx = false then BitVec.ofNat 64 (val l) else BitVec.ofInt 64 (sextN (val l) (8 * szBytes sz)))
  | .o n => ∀ l ∈ lanesOf m, y.o? n.val l = (if sz ≠ .b64 ∧ sx then BitVec.ofInt 32 (sextN (val l) (8 * szBytes sz)) else BitVec.ofNat 32 (val l))
  | .q n => ∀ l ∈ lanesOf m, y.q? n.val l = (if sz ≠ .b64 ∧ sx then BitVec.ofInt 32 (sextN (val l) (8 * szBytes sz)) else BitVec.ofNat 32 (val l))
  | _ => True

/-! Group commands and engines. -/

/-- An instruction goes on from a state m with its group changed by h: beside them only the group's own turn and the marks of an issue change. -/
def GoesBy (i : Instr) (s : State) (x : Iss) (m : State) (h : Group → Group) : Prop :=
  ∃ t y, Leads i s t ∧ t.grp x.core x.g = some y ∧ y.bare = (h x.gr).bare ∧ (∀ r l, l < 64 → y.reg r l = (h x.gr).reg r l) ∧ y.vfl = x.gr.vfl
    ∧ Went x y x.thru ∧ Quiet m t x.core x.g ∧ SameBytes m t
/-- An instruction goes on from a state m with its group as it was. -/
abbrev Goes (i : Instr) (s : State) (x : Iss) (m : State) : Prop := GoesBy i s x m id
/-- An instruction stalls and is issued again: nothing changes but that the issue is over. -/
def Waits (i : Instr) (s : State) : Prop := Leads i s { s with cur := none }

/-- A command of a group: without an active, guard-true lane it only goes on (R323); otherwise f says what it does. -/
def Commands (i : Instr) (c : Ctl) (f : State → Iss → Prop) : Prop :=
  ∀ s x, Issues i c s x → (x.act = 0 → Goes i s x s) ∧ (x.act ≠ 0 → f s x)

/-- The engine operation that an issue starts in a state (R347, R389). -/
def Iss.op (x : Iss) (s : State) (cls : Nat) (word : Option Nat) (k : EngKind) (early : List Nat := []) (bad : Bool := false) : EngOp :=
  { id := s.nextId, wg := x.wg.uid, grp := x.gr.uid, cls := cls, pc := x.cur.pc, ctx := x.wg.ctx, launch := x.wg.launch, team := x.wg.team,
    word := word, kind := k, parked := none, early := early, bad := bad, nonce := s.fresh, lane := x.low.getD 0 }
/-- A state with one more engine operation on a core. -/
def State.withOp (s : State) (c : Nat) (o : EngOp) : State :=
  { s.modCore c (fun k => { k with eng := k.eng ++ [o] }) with nextId := s.nextId + 1, fresh := s.fresh + 1 }

/-- A command of a group that starts an engine operation where its operands fit (ok); its word is bound to the sessions that its transfer goes through, at the addresses ends
(R267), and nothing else changes. -/
def Starts (i : Instr) (c : Ctl) (cls : Nat) (ok : Iss → Prop) (word : Iss → Option Nat) (k : Iss → EngKind) (ends : Iss → List (Acc × Nat) := fun _ => []) : Prop :=
  Commands i c (fun s x => ok x → Goes i s x (x.bindTo (s.withOp x.core (x.op s cls (word x) (k x))) (word x) [x.wg.uid] (ends x)))

/-- Whether an address can be reached: in HBM or in another device. -/
def Tr.fine (t : Tr) : Prop := (∃ p k, t = .pa p k) ∨ ∃ n d p, t = .window n d p
/-- A global range that an access can reach, step by step. -/
def Iss.reach (x : Iss) (acc : Acc) (va n step : Nat) : Prop := ∀ i < ceilDiv n step, Tr.fine (x.s.translate x.wg.ctx acc (va + step * i))
/-- A word that an instruction names by offset is aligned and inside its scratchpad (R324, R347). -/
def Iss.wordFits (x : Iss) (w : Option Nat) : Prop := ∀ a ∈ w, a % 16 = 0 ∧ a + 16 ≤ x.wg.rec_.scratch
/-- Ranges of a tensor inside what the workgroup has (R346). -/
def Iss.roomFor (x : Iss) (sp : BSpace) (rs : List (Nat × Nat)) : Prop :=
  match sp with | .gl => True | .sp => ∀ r ∈ rs, r.2 ≤ x.wg.rec_.scratch | .tm => ∀ r ∈ rs, r.2 ≤ 4096 * x.wg.rec_.tiles

/-- What COPY and COPYL ask of a copy (R324, R335, R336). -/
def Iss.copyFits (x : Iss) (r : CopyReq) : Prop :=
  0 < r.n ∧ r.rsv = false ∧ (r.mask ≠ 0 → r.dst = .dsp ∨ r.dst = .dtm) ∧ (r.sf = true → r.dst = .dsp) ∧ r.sa % 32 = 0 ∧ r.da % 32 = 0 ∧ r.n % 32 = 0
  ∧ (match r.src with
      | .gl => r.sa + r.n ≤ 2 ^ 57 ∧ x.reach .r r.sa r.n 32
      | .sp => r.sa < 2 ^ 19 ∧ r.sa + r.n ≤ x.wg.rec_.scratch
      | .cl => r.sa < 2 ^ 23 ∧ r.sa + r.n ≤ x.wg.rec_.clsram
      | .tm => r.sa < 2 ^ 16 ∧ r.sa + r.n ≤ 4096 * x.wg.rec_.tiles)
  ∧ (match r.dst with
      | .dgl => r.da + r.n ≤ 2 ^ 57 ∧ x.reach .w r.da r.n 32
      | .dsp => r.da < 2 ^ 19 ∧ r.da + r.n ≤ x.wg.rec_.scratch
      | .dcl => r.da < 2 ^ 23 ∧ r.da + r.n ≤ x.wg.rec_.clsram
      | .dtm => r.da < 2 ^ 16 ∧ r.da + r.n ≤ 4096 * x.wg.rec_.tiles)
  ∧ (r.ofs ≠ -1 → 0 ≤ r.ofs ∧ r.ofs % 16 = 0 ∧ r.ofs + 16 ≤ x.wg.rec_.scratch)

/-- A state after one copy has started: an operation of class 1 on its way to the receivers, and its word bound, at each of them, to the sessions of a transfer from or to
another device (R267, R336). -/
def Iss.copied (x : Iss) (s : State) (r : CopyReq) : State :=
  let w : Option Nat := if r.ofs = -1 then none else some r.ofs.toNat
  let rcv := x.receivers r
  if rcv = [] then s
  else x.bindTo (s.withOp x.core (x.op s 1 w (.copy r.src r.dst r.sa r.da r.n r.gen r.sf r.overlap rcv))) w (rcv.map Recv.wg) (copyEnds r.src r.dst r.sa r.da r.n)

/-- An image of n bytes in a space is aligned, inside it and reachable, and one that is read is no lost session's (R267, R324, R372). -/
def Iss.imFits (x : Iss) (sp : ImSpace) (acc : Acc) (p n : Nat) : Prop :=
  p % 16 = 0 ∧ (match sp with
    | .gl => p + n ≤ 2 ^ 57 ∧ x.reach acc p n 16 ∧ (acc = .r → x.lostAt .r p = false)
    | .sp => p + n ≤ x.wg.rec_.scratch
    | .cl => p + n ≤ x.wg.rec_.clsram)
/-- A state after an image of global memory is requested of the arbiters (R223, R225). -/
def Iss.imPaid (x : Iss) (s : State) (sp : ImSpace) (acc : Acc) (p n : Nat) : State :=
  match sp with | .gl => x.ask s (s.sectors x.wg.ctx acc p n) | _ => s

/-- A core that differs from another at most in its banks, its lists, their marks, and in which drains in flight have lost their bank (R192). -/
def Core.bankwise (k k' : Core) : Prop :=
  { k' with banks := k.banks, lists := k.lists, poison := k.poison, eng := k.eng } = k ∧ k'.eng.map (fun o => { o with early := [] }) = k.eng.map (fun o => { o with early := [] })
/-- Whether a command of the oven queue that acts at its issue has its turn: what issued to the queue before it has been performed (R347). -/
def Iss.myTurn (x : Iss) : Prop := (∀ o ∈ (x.s.core x.core).ovenQ, x.seqNo < o.id) ∧ ∀ t ∈ (x.s.core x.core).imms, x.seqNo ≤ t.seq
/-- A core once a group no longer waits for its turn. -/
def Core.served (k : Core) (grp : Nat) : Core := { k with imms := k.imms.filter (fun t => t.grp != grp) }
/-- A command that has not its turn is issued again: it takes the next place in the order of the oven queue, unless it holds one, and nothing else changes (R347). -/
def QueuesUp (i : Instr) (s : State) (x : Iss) (bank : Option Nat) (mode : Option BMode) : Prop :=
  Leads i s (match x.ticket with
    | some _ => { s with cur := none }
    | none => { s.modCore x.core (fun k => { k with imms := k.imms ++ [{ grp := x.gr.uid, seq := s.nextId, bank := bank, mode := mode }] }) with nextId := s.nextId + 1, cur := none })
/-- Only one bank changes, to b, and its eight lists are empty. -/
def Core.claimed (k k' : Core) (i : Nat) (b : Bank) : Prop :=
  (∀ j, k'.bank j = if j = i then b else k.bank j) ∧ ∀ j, k'.wlist j = if j / 8 = i then WList.empty else k.wlist j
/-- A rack that is another workgroup's. -/
def Rack.others (r : Rack) (wg : Nat) : Prop := r.status ≠ .empty ∧ ∃ o, r.owner = some o ∧ o ≠ wg
/-- Whether a group's reads of rows of the accumulators meet no trap: the rows lie in its band, and are the workgroup's where UAT is set (R346, R359). -/
def Iss.rowsFit (x : Iss) (rows : List Nat) : Prop :=
  ∀ r ∈ rows, (x.gr.gctl.getLsbD 1 = true → (x.s.core x.core).owns x.wg.uid (r / 8) = true) ∧ x.gr.band.1 ≤ r ∧ r < x.gr.band.1 + x.gr.band.2

/-! Events. -/

/-- The bytes that a write of bs at an address of a context's global memory writes, in ascending order. -/
def State.globalPuts (s : State) (ctx va : Nat) (bs : List Byte) : List (Byt × Byte) :=
  (bs.zipIdx).filterMap (fun e => (s.place ctx .w (va + e.2)).map (fun p => (p, e.1)))
/-- The bytes that an engine operation's write in a space writes. -/
def State.opPuts (s : State) (c : Nat) (o : EngOp) (sp : BSpace) (a : Nat) (bs : List Byte) : List (Byt × Byte) :=
  match sp with
  | .gl => s.globalPuts o.ctx a bs
  | .sp => bs.zipIdx.map (fun e => (.sp c o.wg (a + e.2), e.1))
  | .tm => bs.zipIdx.map (fun e => (.tm c o.wg (a + e.2), e.1))
/-- A workgroup that still has a group in a slot. -/
def State.alive (s : State) (c wg : Nat) : Prop := ∃ e ∈ (s.core c).grps, e.1 < 32 ∧ e.2.wg = wg
/-- The bytes of the addition of n to a word that an operation names by offset in a scratchpad, if it names one (R73, R347). -/
def State.opWord (s : State) (c wg : Nat) (word : Option Nat) (n : Nat) (gen : Option Nat) : List (Byt × Byte) :=
  match word with
  | none => []
  | some k => (toLE 16 ((SWord.ofNat (s.word (.sp c wg k))).add n gen).toNat).zipIdx.map (fun e => (.sp c wg (k + e.2), e.1))
/-- The word that an operation names, if any, raises no trap on overflow and lies apart from the bytes that the operation writes. -/
def State.calmWord (s : State) (c wg : Nat) (word : Option Nat) (ws : List (Byt × Byte)) : Prop :=
  ∀ k ∈ word, (SWord.ofNat (s.word (.sp c wg k))).ten = false ∧ ∀ e ∈ ws, ∀ i < 16, ¬ e.1.hits (.sp c wg (k + i))
/-- An event ends an engine operation whose workgroup goes on: it writes the bytes ws, adds n to the operation's word, and writes no other byte; no group
but that of the operation changes, and no other core does. q says more of the state afterwards. -/
def Ends (i : Instr) (s : State) (c : Nat) (o : EngOp) (ws : List (Byt × Byte)) (n : Nat) (gen : Option Nat) (q : State → Prop) : Prop :=
  s.alive c o.wg → s.calmWord c o.wg o.word ws → ∃ t, Leads i s t ∧ (t.core c).op o.id = none ∧ Stored s t (ws ++ s.opWord c o.wg o.word n gen)
    ∧ (∀ g, (∀ e ∈ (s.core c).grps, e.1 = g → e.2.uid ≠ o.grp) → t.grp c g = s.grp c g) ∧ (∀ d, d ≠ c → t.core d = s.core d) ∧ q t
/-- Every byte of a global range lies in HBM for an access. -/
def State.near (s : State) (ctx : Nat) (a : Acc) (va n : Nat) : Prop := ∀ i < n, ∃ p k, s.translate ctx a (va + i) = .pa p k
/-- The registers of a group are those of another. -/
def Group.sameRegs (x y : Group) : Prop := (∀ r l, y.reg r l = x.reg r l) ∧ y.vfl = x.vfl
/-- A message arrives on a session of a context whose queue stands as k. -/
def State.receives (s : State) (m : Msg) (x : Nat) (k : CmdQ) : Prop :=
  s.sessionCtx m.session = some x ∧ (Tab.get s.ctxs x).isSome ∧ s.cmdq x m.queue.val = k ∧ m.rsv = false
/-- The statuses that a state has sent beyond another's: code and the SEQ that each answers. -/
def State.sent (s t : State) (ms : List (BitVec 8 × BitVec 32)) : Prop := ∃ ns, t.outbox = s.outbox ++ ns ∧ ns.map (fun m => (m.code, m.cseq)) = ms

/-! Candidate executions (R177 to R206). -/

/-- A relaxed event of a lane at byte n of global memory, or at none; issue: its instruction's place in the lane's program order. -/
def Ev.of (lane issue : Nat) (p : Place) (k : EvKind) (n : Option Nat) : Ev :=
  let l : Option EvLoc := n.map (fun n => { store := .gl, at_ := n })
  { lane := lane, place := p, ctx := 0, issue := issue, origin := .lane, kind := k, loc := l, first := l, size := 1, whole := false, rel := false, acq := false,
    scope := .grp, rmt := false, merged := false, gen := none, mir := none }
/-- The write of a byte before the execution. -/
def Ev.start (n : Nat) : Ev := { Ev.of 0 0 { grp := 0, core := 0, clu := 0, die := 0, dev := 0 } .wr (some n) with origin := .init }
/-- An event as a release, as an acquire, as both. -/
def Ev.released (e : Ev) (sc : Scope) : Ev := { e with rel := true, scope := sc }
def Ev.acquired (e : Ev) (sc : Scope) : Ev := { e with acq := true, scope := sc }
/-- An access that an engine makes for an operation. -/
def Ev.engine (e : Ev) (eng : Engine) (part : Option (Nat × Nat)) : Ev := { e with origin := .engine 0 eng part }

/-! Invariants. -/

/-- Every byte memory of the machine has its canonical form, those of saved and of waiting workgroups too. -/
def State.memWf (s : State) : Prop :=
  let ok (w : Workgroup) : Prop := Cells.wf w.scratch = true ∧ Cells.wf w.tiles = true
  Mem.wf s.hbm = true ∧ (∀ k ∈ s.cores, ∀ w ∈ k.2.wgs, ok w.2) ∧ (∀ p ∈ s.clusters, (∀ t ∈ p.2.teams, Mem.wf t.mem = true) ∧ ∀ e ∈ p.2.admQ, ok e.wg)
  ∧ ∀ im ∈ s.images, ok im.wg

/-- The map of a die is the identity rotated (R12, R228). -/
def Die.rotated (d : Die) : Prop := ∃ k < 16, d.map = (List.range 16).map (fun i => (i + k) % 16)
/-- There are two dies, and each one's map is the identity rotated. -/
def State.diesOk (s : State) : Prop := s.dies.length = 2 ∧ ∀ d ∈ s.dies, d.rotated

end Sys2Proof.Machine
end

