-- ==== Sys2Proof/Certificates/Slice0/Obligations.lean ====
section
/-! DEFINITION. The statements for the provers. -/
section
open Sys2Proof Sys2Proof.Machine

/-! Instructions whose whole effect is a destination (Gives, GivesP): wherever one issues it completes, its destination holds the stated results in
the active, guard-true lanes, the stated flags are raised, and every other register, flag, special register, queue, group and byte stays. -/

/-- R285, R286: IADD, ISUB, IMUL .lo and .hi, IMAD, IMIN, IMAX and IABS give the exact result z of each element, wrapped or saturated. -/
def Sys2Proof.Rules.IntegerArithmetic : Prop :=
  ∀ (c : Ctl) (m : IMod) (d a b cc : Opnd),
    Gives (.iadd c m d a b) c (wide m.ty) d (Each m.ty m.sat (fun x l e => x.el m.ty a l e + x.el m.ty b l e)) noFlags
    ∧ Gives (.isub c m d a b) c (wide m.ty) d (Each m.ty m.sat (fun x l e => x.el m.ty a l e - x.el m.ty b l e)) noFlags
    ∧ Gives (.imulLo c m d a b) c (wide m.ty) d (Each m.ty m.sat (fun x l e => x.el m.ty a l e * x.el m.ty b l e)) noFlags
    ∧ Gives (.imulHi c m.ty d a b) c (wide m.ty) d
        (Each m.ty false (fun x l e => x.el m.ty a l e * x.el m.ty b l e / ((2 ^ tyW m.ty : Nat) : Int))) noFlags
    ∧ Gives (.imad c m d a b cc) c (wide m.ty) d
        (Each m.ty m.sat (fun x l e => x.el m.ty a l e * x.el m.ty b l e + x.el m.ty cc l e)) noFlags
    ∧ Gives (.imin c m.ty d a b) c (wide m.ty) d (Each m.ty false (fun x l e => min (x.el m.ty a l e) (x.el m.ty b l e))) noFlags
    ∧ Gives (.imax c m.ty d a b) c (wide m.ty) d (Each m.ty false (fun x l e => max (x.el m.ty a l e) (x.el m.ty b l e))) noFlags
    ∧ Gives (.iabs c m d a) c (wide m.ty) d (Each m.ty m.sat (fun x l e => ((x.el m.ty a l e).natAbs : Int))) noFlags

/-- R287: IDIV and IREM never trap: by 0 they give all ones and x, otherwise the quotient truncated toward zero and the remainder of x's sign, the
quotient of the minimum by −1 wrapped or saturated. -/
def Sys2Proof.Rules.IntegerDivision : Prop :=
  ∀ (c : Ctl) (m : IMod) (d a b : Opnd),
    Gives (.idiv c m d a b) c (wide m.ty) d
        (EachBits m.ty (fun x l e => if x.el m.ty b l e = 0 then 2 ^ tyW m.ty - 1
          else putZ m.ty m.sat (Int.tdiv (x.el m.ty a l e) (x.el m.ty b l e)))) noFlags
    ∧ Gives (.irem c m d a b) c (wide m.ty) d
        (Each m.ty m.sat (fun x l e => if x.el m.ty b l e = 0 then x.el m.ty a l e
          else x.el m.ty a l e - x.el m.ty b l e * Int.tdiv (x.el m.ty a l e) (x.el m.ty b l e))) noFlags

/-- Integer arithmetic and division (R285 to R287). -/
def Obligations.IntegerOperations : Prop := Rules.IntegerArithmetic ∧ Rules.IntegerDivision

/-- R288: AND, OR, XOR and NOT give the bits of every element. -/
def Sys2Proof.Rules.Bitwise : Prop :=
  ∀ (c : Ctl) (ty : ITy) (d a b : Opnd),
    Gives (.and c ty d a b) c (wide ty) d (Words (fun x l => x.vt ty a l &&& x.vt ty b l)) noFlags
    ∧ Gives (.or c ty d a b) c (wide ty) d (Words (fun x l => x.vt ty a l ||| x.vt ty b l)) noFlags
    ∧ Gives (.xor c ty d a b) c (wide ty) d (Words (fun x l => x.vt ty a l ^^^ x.vt ty b l)) noFlags
    ∧ Gives (.not c ty d a) c (wide ty) d (Words (fun x l => x.vt ty a l ^^^ (2 ^ (tyW ty * tyN ty) - 1))) noFlags

/-- R288, R289: SHL, SHR, SAR and ROT of every element of width w by its count n: x times 2^n, x divided by 2^n, the signed x divided by 2^n toward
minus infinity (all three whatever n is, so that a count of w or more gives 0 or every bit the sign), and a rotation left by n mod w. -/
def Sys2Proof.Rules.Shifts : Prop :=
  ∀ (c : Ctl) (ty : ITy) (d a b : Opnd),
    Gives (.shl c ty d a b) c (wide ty) d (EachBits ty (fun x l e => x.eb ty a l e * 2 ^ countOf x ty b l e % 2 ^ tyW ty)) noFlags
    ∧ Gives (.shr c ty d a b) c (wide ty) d (EachBits ty (fun x l e => x.eb ty a l e / 2 ^ countOf x ty b l e)) noFlags
    ∧ Gives (.sar c ty d a b) c (wide ty) d (EachBits ty (fun x l e => wrapN (tyW ty) (x.el ty a l e / ((2 ^ countOf x ty b l e : Nat) : Int)))) noFlags
    ∧ Gives (.rot c ty d a b) c (wide ty) d (EachBits ty (fun x l e =>
        (x.eb ty a l e * 2 ^ (countOf x ty b l e % tyW ty) + x.eb ty a l e / 2 ^ (tyW ty - countOf x ty b l e % tyW ty)) % 2 ^ tyW ty)) noFlags

/-- R289: element e of a packed type takes its count from element e of B; the spec's own example of `shl` under .i8x4. -/
def Sys2Proof.Rules.PackedCounts : Prop :=
  (∀ (x : Iss) (ty : ITy) (b : Opnd) (l e : Nat), 2 ≤ tyN ty → countOf x ty b l e = x.eb ty b l e)
  ∧ ∀ (x : Iss) (a b : Opnd) (l : Nat), x.vt .i8x4 a l = 0x80010203 → x.vt .i8x4 b l = 0x08010001 →
      EachBits .i8x4 (fun x l e => x.eb .i8x4 a l e * 2 ^ countOf x .i8x4 b l e % 2 ^ tyW .i8x4) x l = 0x00020206

/-- Bitwise operations and shifts, and the counts of packed types (R288, R289). -/
def Obligations.LogicAndShifts : Prop := Rules.Bitwise ∧ Rules.Shifts ∧ Rules.PackedCounts

/-- R290, R291: BFX gives the field at pos of length len', sign-extended for a signed type; BFI replaces that field by the low bits of y; BCNT counts
the 1 bits, the zeros above the highest 1 bit and the zeros below the lowest one. -/
def Sys2Proof.Rules.BitFields : Prop :=
  ∀ (c : Ctl) (ty : ITy) (d a b cc : Opnd),
    Gives (.bfx c ty d a b) c (wide ty) d (Words (fun x l =>
        let n := fieldLen (tyW ty) (x.w32 b l)
        let f := x.vt ty a l / 2 ^ (x.w32 b l % 256) % 2 ^ n
        if n = 0 then 0 else if tySigned ty then wrapN (tyW ty) (sextN f n) else f)) noFlags
    ∧ (tyN ty = 1 → Gives (.bfi c ty d a b cc) c (wide ty) d (Words (fun x l =>
        let n := fieldLen (tyW ty) (x.w32 cc l)
        let p := x.w32 cc l % 256
        ofBits (tyW ty) (fun i => if p ≤ i ∧ i < p + n then (x.vt ty b l).testBit (i - p) else (x.vt ty a l).testBit i))) noFlags)
    ∧ Gives (.bcntPop c ty d a) c (wide ty) d (EachBits ty (fun x l e => ((List.range (tyW ty)).filter (fun i => (x.eb ty a l e).testBit i)).length)) noFlags
    ∧ Gives (.bcntClz c ty d a) c (wide ty) d (EachBits ty (fun x l e =>
        ((List.range (tyW ty)).takeWhile (fun i => !(x.eb ty a l e).testBit (tyW ty - 1 - i))).length)) noFlags
    ∧ Gives (.bcntCtz c ty d a) c (wide ty) d (EachBits ty (fun x l e =>
        ((List.range (tyW ty)).takeWhile (fun i => !(x.eb ty a l e).testBit i)).length)) noFlags

/-- R292, R293, R294: ICMP sets its predicate to the comparison; SEL chooses by a predicate, negated by MOD[7]; LEA gives the base plus the extended
index shifted left by sh, in 64 bits; MOV gives its operand. -/
def Sys2Proof.Rules.CompareSelectMove : Prop :=
  ∀ (c : Ctl) (ty : ITy) (k : ICond) (pd p : Fin 8) (neg : Bool) (sh : Fin 16) (d a b : Opnd),
    GivesP (.icmp c ty k pd a b) c pd (fun x l => match k with
        | .eq => decide (x.el ty a l 0 = x.el ty b l 0)
        | .ne => decide (x.el ty a l 0 ≠ x.el ty b l 0)
        | .lt => decide (x.el ty a l 0 < x.el ty b l 0)
        | .le => decide (x.el ty a l 0 ≤ x.el ty b l 0)
        | .gt => decide (x.el ty a l 0 > x.el ty b l 0)
        | .ge => decide (x.el ty a l 0 ≥ x.el ty b l 0)) noFlags
    ∧ Gives (.sel c ty p neg d a b) c (wide ty) d (Words (fun x l => if xor (laneIn (x.pm p) l) neg then x.vt ty a l else x.vt ty b l)) noFlags
    ∧ Gives (.lea c ty sh d a b) c true d (fun x l => BitVec.ofInt 64 ((x.w64 a l : Int) + x.el ty b l 0 * 2 ^ sh.val)) noFlags
    ∧ Gives (.mov c ty d a) c (wide ty) d (Words (fun x l => x.vt ty a l)) noFlags

/-- Bit fields and counts, comparison, selection, addresses and moves (R290 to R294). -/
def Obligations.FieldsComparesMoves : Prop := Rules.BitFields ∧ Rules.CompareSelectMove

/-- R295, R296, R282: PLOP, PMOV, ELECT and VOTE set a predicate, a mask or a register from predicates: .tom and .ballot give the mask with bit L for each
active, guard-true lane L whose predicate is 1, ELECT the lowest such lane. -/
def Sys2Proof.Rules.PredicatesAndVotes : Prop :=
  ∀ (c : Ctl) (f : PFun) (pd pa pb : Fin 8) (sd : Fin 64) (d a : Opnd),
    GivesP (.plop c f pd pa pb) c pd (fun x l =>
        let u := laneIn (x.pm pa) l
        let v := laneIn (x.pm pb) l
        match f with | .and => u && v | .or => u || v | .xor => xor u v | .andn => u && !v | .orn => u || !v | .not => !u) noFlags
    ∧ Gives (.pmovTom c sd pa) c false (.s sd) (fun x _ => maskOf (x.lanes.filter (laneIn (x.pm pa)))) noFlags
    ∧ GivesP (.pmovFrm c pd a) c pd (fun x l => (x.w64 a 0).testBit l) noFlags
    ∧ GivesP (.pmovPad c pd) c pd (fun x l => laneIn x.gr.padm l) noFlags
    ∧ Gives (.pmovTov c d pa) c false d (fun x l => if laneIn (x.pm pa) l then 1 else 0) noFlags
    ∧ GivesP (.pmovFrv c pd a) c pd (fun x l => decide (x.w32 a l ≠ 0)) noFlags
    ∧ GivesP (.elect c pd) c pd (fun x l => decide (∀ k ∈ x.lanes, l ≤ k)) noFlags
    ∧ GivesP (.voteAny c pd pa) c pd (fun x _ => x.lanes.any (laneIn (x.pm pa))) noFlags
    ∧ GivesP (.voteAll c pd pa) c pd (fun x _ => x.lanes.all (laneIn (x.pm pa))) noFlags
    ∧ GivesP (.voteUni c pd pa) c pd (fun x _ => x.lanes.all (laneIn (x.pm pa)) || x.lanes.all (fun l => !laneIn (x.pm pa) l)) noFlags
    ∧ Gives (.voteBallot c sd pa) c false (.s sd) (fun x _ => maskOf (x.lanes.filter (laneIn (x.pm pa)))) noFlags

/-- R297: SHFL gives A as it stands in lane j of the group, active or not, with j as each form says. -/
def Sys2Proof.Rules.Shuffles : Prop :=
  ∀ (c : Ctl) (d a b : Opnd),
    Gives (.shflIdx c d a b) c false d (Words (fun x l => x.w32 a (x.w32 b l % x.width))) noFlags
    ∧ Gives (.shflUp c d a b) c false d (Words (fun x l => x.w32 a (if (l : Int) - x.w32 b l < 0 then l else l - x.w32 b l))) noFlags
    ∧ Gives (.shflDown c d a b) c false d (Words (fun x l => x.w32 a (if l + x.w32 b l ≥ x.width then l else l + x.w32 b l))) noFlags
    ∧ Gives (.shflXor c d a b) c false d (Words (fun x l => x.w32 a (if l ^^^ x.w32 b l ≥ x.width then l else l ^^^ x.w32 b l))) noFlags

/-- Predicates, votes and shuffles (R282, R295 to R297). -/
def Obligations.PredicatesAndShuffles : Prop := Rules.PredicatesAndVotes ∧ Rules.Shuffles

/-- R298, R299: LSCAN gives each active, guard-true lane, in ascending order, the accumulator after it (.inc) or before it (.exc), and raises each
step's flags in its lane; LRED gives every such lane, or the scalar, the accumulator after them all, and raises the OR of the flags in each. -/
def Obligations.ScansAndReductions : Prop :=
  ∀ (c : Ctl) (op : LOp) (exc : Bool) (d a : Opnd),
    Gives (.lscan c op exc d a) c (wide (lopTy op)) d (Words (fun x l => if exc then x.scanAt op a l else (x.scanNew op a l).1)) (fun x l => (x.scanNew op a l).2)
    ∧ Gives (.lred c op d a) c (wide (lopTy op)) d (Words (fun x _ => scanAcc (x.scanRm op) op (scanArg op a x) x.lanes)) (fun x _ => x.scanFlags op a)

/-- R303, R304, R305, R306: FADD, FSUB, FMUL and FFMA round the exact result of each element once; FMIN and FMAX give an operand bit for bit, with −0
below +0 and a lone NaN passed over; FABS clears or inverts the sign of a flushed operand and raises no flag; FCMP sets its predicate to the
condition. The flags raised are the OR over both halves of a packed lane. -/
def Obligations.FloatArithmetic : Prop :=
  ∀ (c : Ctl) (m : FMod) (k : FCond) (ftz : Bool) (pd : Fin 8) (d a b cc : Opnd),
    GivesF (.fadd c m d a b) c m.ty d (fun x l h => addV (ftyF m.ty) (x.rm m.rnd) m.sat (x.fe m a l h) (x.fe m b l h))
    ∧ GivesF (.fsub c m d a b) c m.ty d (fun x l h => addV (ftyF m.ty) (x.rm m.rnd) m.sat (x.fe m a l h) (x.fe m b l h).flip)
    ∧ GivesF (.fmul c m d a b) c m.ty d (fun x l h => mulV (ftyF m.ty) (x.rm m.rnd) m.sat (x.fe m a l h) (x.fe m b l h))
    ∧ GivesF (.ffma c m d a b cc) c m.ty d (fun x l h => fmaV (ftyF m.ty) (x.rm m.rnd) m.sat (x.fe m a l h) (x.fe m b l h) (x.fe m cc l h))
    ∧ (∀ big : Bool, GivesF (if big then .fmax c m.ty m.sat d a b else .fmin c m.ty m.sat d a b) c m.ty d (fun x l h =>
        let u := felem m.ty (x.fv m.ty a l) h
        let v := felem m.ty (x.fv m.ty b l) h
        let bits (w : Nat) : Nat := flushBits (ftyF m.ty) (satFlush m.sat) w
        let below : Bool := decide (cmpV (x.fe m a l h) (x.fe m b l h) = .lt)
          || (decide (cmpV (x.fe m a l h) (x.fe m b l h) = .eq) && ((x.fe m a l h).neg || !(x.fe m b l h).neg))
        (if (x.fe m a l h).isNan then (if (x.fe m b l h).isNan then nanOf (ftyF m.ty) else bits v)
          else if (x.fe m b l h).isNan then bits u else if below then (if big then bits v else bits u) else (if big then bits u else bits v),
         if (x.fe m a l h).isSig || (x.fe m b l h).isSig then fIV else 0)))
    ∧ (∀ neg : Bool, GivesF (if neg then .fabsNeg c m.ty m.sat d a else .fabsAbs c m.ty m.sat d a) c m.ty d (fun x l h =>
        let u := flushBits (ftyF m.ty) (satFlush m.sat) (felem m.ty (x.fv m.ty a l) h)
        let s := 2 ^ (ftyW m.ty - 1)
        (if (readF (ftyF m.ty) false (felem m.ty (x.fv m.ty a l) h)).isNan then nanOf (ftyF m.ty) else if neg ∧ u < s then u % s + s else u % s, 0)))
    ∧ GivesP (.fcmp c k ftz pd a b) c pd
        (fun x l =>
          let u := readF .f32 ftz (x.fv .f32 a l)
          let v := readF .f32 ftz (x.fv .f32 b l)
          let nan := u.isNan || v.isNan
          match k with
          | .eq => decide (cmpV u v = .eq) && !nan
          | .ne => decide (cmpV u v ≠ .eq) || nan
          | .lt => decide (cmpV u v = .lt) && !nan
          | .le => decide (cmpV u v ≠ .gt) && !nan
          | .gt => decide (cmpV u v = .gt) && !nan
          | .ge => decide (cmpV u v ≠ .lt) && !nan
          | .un => nan
          | .ord => !nan)
        (fun x l =>
          let u := readF .f32 ftz (x.fv .f32 a l)
          let v := readF .f32 ftz (x.fv .f32 b l)
          if u.isSig || v.isSig || ((u.isNan || v.isNan) && (decide (k = .lt) || decide (k = .le) || decide (k = .gt) || decide (k = .ge))) then fIV else 0)

/-- R307, R308, R310: FSFU gives each element the value that the model's evaluation, sfuV, finds for the function of its operand, rounded once; that evaluation refines its
precision until the rounding is decided, at most four times, which is taken to be R307's exact function rounded (log 20: DEDUCED). FDOT adds the exact products of two or four elements to C in
ascending order, one rounding each, and raises the flags of every step. -/
def Obligations.SpecialFunctionsAndDots : Prop :=
  ∀ (c : Ctl) (m : FMod) (d a b cc : Opnd),
    GivesF (.fsfuRcp c m d a) c m.ty d (fun x l h => sfuV .rcp (ftyF m.ty) (x.rm m.rnd) m.sat (x.fe m a l h))
    ∧ GivesF (.fsfuRsqrt c m d a) c m.ty d (fun x l h => sfuV .rsqrt (ftyF m.ty) (x.rm m.rnd) m.sat (x.fe m a l h))
    ∧ GivesF (.fsfuSqrt c m d a) c m.ty d (fun x l h => sfuV .sqrt (ftyF m.ty) (x.rm m.rnd) m.sat (x.fe m a l h))
    ∧ GivesF (.fsfuExp2 c m d a) c m.ty d (fun x l h => sfuV .exp2 (ftyF m.ty) (x.rm m.rnd) m.sat (x.fe m a l h))
    ∧ GivesF (.fsfuLog2 c m d a) c m.ty d (fun x l h => sfuV .log2 (ftyF m.ty) (x.rm m.rnd) m.sat (x.fe m a l h))
    ∧ GivesF (.fsfuSinpi c m d a) c m.ty d (fun x l h => sfuV .sinpi (ftyF m.ty) (x.rm m.rnd) m.sat (x.fe m a l h))
    ∧ GivesF (.fsfuCospi c m d a) c m.ty d (fun x l h => sfuV .cospi (ftyF m.ty) (x.rm m.rnd) m.sat (x.fe m a l h))
    ∧ GivesF (.fsfuDiv c m d a b) c m.ty d (fun x l h => divV (ftyF m.ty) (x.rm m.rnd) m.sat (x.fe m a l h) (x.fe m b l h))
    ∧ GivesR (.fdotX2 c m d a b cc) c d (fun x l =>
        let step (r : FRes) (e : Nat) : FRes :=
          let t := fmaV .f32 (x.rm m.rnd) m.sat (x.fe m a l e) (x.fe m b l e) (readF .f32 (satFlush m.sat) r.1)
          (t.1, r.2 ||| t.2)
        step (step (x.fv .f32 cc l, 0) 0) 1)
    ∧ GivesR (.fdotX4 c m d a b cc) c d (fun x l =>
        let el (o : Opnd) (e : Nat) : FV := readF (ftyF m.ty) (satFlush m.sat) (x.w64 o l / 2 ^ (16 * e) % 2 ^ 16)
        let step (r : FRes) (e : Nat) : FRes :=
          let t := fmaV .f32 (x.rm m.rnd) m.sat (el a e) (el b e) (readF .f32 (satFlush m.sat) r.1)
          (t.1, r.2 ||| t.2)
        step (step (step (step (x.fv .f32 cc l, 0) 0) 1) 2) 3)

/-- R313, R314, R315, R320: FCVT, I2F, F2I and FUNPK convert the element of each lane, raising the flags of the conversion; FCLASS sets the bit of each
element's class, or tests it against B, and raises no flag. -/
def Obligations.Conversions : Prop :=
  ∀ (c : Ctl) (df sf : FFmt) (dt st : ICode) (f : BFmt) (rnd : Rnd) (sat : Sat) (ftz : Bool) (ty : FTy) (pd : Fin 8) (d a b : Opnd),
    GivesR (.fcvt c df sf rnd sat d a) c d (fun x l => toFmt df (x.rm rnd) sat (readF sf (satFlush sat) (x.src sf a l)))
    ∧ GivesR (.i2f c df st rnd sat d a) c d (fun x l =>
        let z := icodeZ st (x.w32 a l)
        toFmt df (x.rm rnd) sat (.fin (decide (z < 0)) z.natAbs 0))
    ∧ GivesR (.f2i c dt sf rnd ftz d a) c d (fun x l =>
        let w := (icodeW dt).1
        let r := f2iV (x.rm rnd) (if (icodeW dt).2 then -(2 ^ (w - 1) : Int) else 0) (if (icodeW dt).2 then 2 ^ (w - 1) - 1 else 2 ^ w - 1)
          (readF sf ftz (x.src sf a l))
        (wrapN 32 r.1, r.2))
    ∧ Gives (.fclassMask c ty d a) c false d (fun x l =>
        BitVec.ofNat 64 (((List.range (ftyN ty)).map (fun h => 2 ^ (16 * h + fclassF (ftyF ty) (felem ty (x.fv ty a l) h)))).sum)) noFlags
    ∧ GivesP (.fclassTest c ty pd a b) c pd (fun x l =>
        (List.range (ftyN ty)).any (fun h => (x.w32 b l).testBit (16 * h + fclassF (ftyF ty) (felem ty (x.fv ty a l) h)))) noFlags
    ∧ GivesR (.funpk c f rnd sat d a b) c d (fun x l =>
        let e := x.w32 b l / 2 ^ (8 * (l / 32)) % 256
        let strm := ((List.range (bfmtD f)).map (fun i => x.w32 a (32 * (l / 32) + i) * 2 ^ (32 * i))).sum
        if e = 255 then (nanOf .f32, fIV)
        else match unpackElem f strm (l % 32) with
          | .fin n m k => roundFin .f32 (x.rm rnd) sat n m (k + e - 127) false
          | v => toFmt .f32 (x.rm rnd) sat v)

/-- R316: FLAGS tests, clears, raises and gathers the sticky flags of the active, guard-true lanes, whatever NF says. -/
def Sys2Proof.Rules.FlagInstructions : Prop :=
  ∀ (c : Ctl) (mask : BitVec 5) (pd : Fin 8) (sd : Fin 64),
    GivesP (.flagsTest c mask pd) c pd (fun x l => decide (x.gr.fl? l &&& mask ≠ 0)) noFlags
    ∧ SetFlags (.flagsClr c mask) c (fun f => f &&& ~~~ mask)
    ∧ SetFlags (.flagsSet c mask) c (fun f => f ||| mask)
    ∧ Gives (.flagsGor c sd) c false (.s sd) (fun x _ => ((x.lanes.map (fun l => x.gr.fl? l)).foldl (fun f e => f ||| e) 0).setWidth 64) noFlags

/-- R319: FPACK packs each segment of 32 lanes: its lane j gets word j of the stream of codes, its byte of the scalar B the scale, which is 0xFF where
an active, guard-true lane of the segment holds a NaN or an infinity; B is written if some lane is active and guard-true. -/
def Sys2Proof.Rules.Packing : Prop :=
  ∀ (c : Ctl) (f : BFmt) (rnd : Rnd) (ftz : Bool) (d a : Opnd) (b : Fin 64) s x, Issues (.fpack c f rnd ftz d a b) c s x →
    let p := x.popped
    let seg (g : Nat) : PackRes := packSeg f (p.rm rnd) ftz ((p.lanes.filter (fun l => decide (l / 32 = g))).map (fun l => (l % 32, readF .f32 ftz (p.fv .f32 a l))))
    let scale (g : Nat) : Nat := if ∃ l ∈ p.lanes, l / 32 = g then (seg g).e else 0
    ∃ t y, Leads (.fpack c f rnd ftz d a b) s t ∧ t.grp x.core x.g = some y
      ∧ (d ≠ .s b → Wrote p t y false d (fun l => if l % 32 < bfmtD f then BitVec.ofNat 64 ((seg (l / 32)).strm / 2 ^ (32 * (l % 32)) % 2 ^ 32) else 0))
      ∧ y.s? b.val = (if x.act = 0 then x.gr.s? b.val else BitVec.ofNat 64 (scale 0 + 256 * scale 1))
      ∧ Kept x y (destRegs false d ++ qRegs c ++ [.s b.val]) ∧ Raised x y (fun l => (Tab.get (seg (l / 32)).flags (l % 32)).getD 0)
      ∧ Went x y x.thru ∧ Quiet s t x.core x.g ∧ SameBytes s t

/-- Flag instructions, packing and unpacking (R317 to R320). -/
def Obligations.FlagsAndPacking : Prop := Rules.FlagInstructions ∧ Rules.Packing

/-! Control flow. -/

/-- R271, R273, R278, R331, R345, R269: NOP, YIELD, FENCE and PREF go on with the whole entry; a branch takes the active, guard-true lanes whose
condition holds to its target with P1, BRC the others to the next instruction with P2; guard-false lanes go to the next instruction with the entry's
priority. YIELD demotes the entry at the next PC. PREF leaves the line of each lane's address that translates in the fetch unit's cache and changes no
byte (where the lines stand there is the model's choice, log 61; that FENCE is over at once, log 6). -/
def Obligations.FlowOfLanes : Prop :=
  ∀ (c : Ctl) (t28 : BitVec 28) (t8 : BitVec 8) (t32 : BitVec 32) (cp : Fin 8) (cn : Bool) (p1 p2 : BitVec 16) (a : Opnd) (sc : Scope) (o : MOrd) (rm : Bool)
    (ofs : BitVec 24),
    let rest (x : Iss) : Move := { mask := x.cur.mask &&& ~~~ x.act, pc := x.cur.pc + BitVec.ofNat 64 (lenBytes x.c.len), pri := x.cur.pri }
    let brc (t : Int) (x : Iss) : List Move :=
      let yes := if cn then ~~~ x.pm cp else x.pm cp
      [{ mask := x.act &&& yes, pc := x.cur.pc + BitVec.ofInt 64 (4 * t), pri := p1 },
       { mask := x.act &&& ~~~ yes, pc := x.cur.pc + BitVec.ofNat 64 (lenBytes x.c.len), pri := p2 }, rest x]
    Moves (.nop c) c Iss.thru ∧ Moves (.yield c) c Iss.thru ∧ Moves (.fence c sc o rm) c Iss.thru
    ∧ (∀ s x, Issues (.pref c ofs a) c s x → ∃ t y, Leads (.pref c ofs a) s t ∧ t.grp x.core x.g = some y ∧ Kept x y [] ∧ y.vfl = x.gr.vfl ∧ Went x y x.thru
        ∧ (∀ l ∈ x.lanes, ∀ n, s.lineOf x.wg.ctx (x.popped.addr .gl a ofs l) = some n →
            ∃ e ∈ (t.core x.core).fcache, e.ctx = x.wg.ctx ∧ e.line = x.popped.addr .gl a ofs l / 64)
        ∧ (∀ q, t.byteAt q = s.byteAt q) ∧ Around (s.modCore x.core (fun k => { k with fcache := (t.core x.core).fcache })) t x.core x.g)
    ∧ Moves (.bra c t28 p1) c (fun x => [{ mask := x.act, pc := x.cur.pc + BitVec.ofInt 64 (4 * t28.toInt), pri := p1 }, rest x])
    ∧ Moves (.brcNear c cp cn t8 p1 p2) c (brc t8.toInt)
    ∧ Moves (.brcFar c cp cn t32 p1 p2) c (brc t32.toInt)
    ∧ Moves (.jmpi c a p1) c (fun x => x.lanes.map (fun l => { mask := laneBit l, pc := x.wg.cb + BitVec.ofNat 64 (x.w32 a l), pri := p1 }) ++ [rest x])
    ∧ ∀ s x, Issues (.yield c) c s x → ∃ t y, Leads (.yield c) s t ∧ t.grp x.core x.g = some y ∧ y.demoted = some x.next

/-- R33, R278: EXIT takes the active, guard-true lanes out of the frontier; the others go on. A group left without lanes has exited: its slot is free and
its registers stay until its writes have retired (R59); nothing else changes while its workgroup has work. -/
def Obligations.ExitOfLanes : Prop :=
  ∀ (c : Ctl) s x, Issues (.exit c) c s x →
    let left := advance x.gr.fr x.cur.pc [{ mask := x.cur.mask &&& ~~~ x.act, pc := x.next, pri := x.cur.pri }]
    (left ≠ [] → ∃ t y, Leads (.exit c) s t ∧ t.grp x.core x.g = some y ∧ Kept x y [] ∧ y.vfl = x.gr.vfl
      ∧ Went x y [{ mask := x.cur.mask &&& ~~~ x.act, pc := x.next, pri := x.cur.pri }] ∧ Quiet s t x.core x.g ∧ SameBytes s t)
    ∧ (left = [] → x.g < 32 → ∃ t y, Leads (.exit c) s t ∧ t.grp x.core x.g = none ∧ t.grp x.core (32 + x.gr.uid) = some y ∧ y.fr = [] ∧ y.status = .exited
        ∧ (∀ r l, y.reg r l = x.gr.reg r l)
        ∧ ((∃ h z, h ≠ x.g ∧ h < 32 ∧ (h, z) ∈ (s.core x.core).grps ∧ z.wg = x.gr.wg) →
            SameBytes s t ∧ ∀ d h, ¬ (d = x.core ∧ (h = x.g ∨ h = 32 + x.gr.uid)) → t.grp d h = s.grp d h))

/-- R274, R275: CALL pushes one frame per active, guard-true lane (the next PC, P2 and zeros in 16 bytes; the depth in the first 4 bytes of the lane's
private memory) and takes the lanes to the target with P1; RET takes each lane to the PC and priority of its top frame and lowers its depth. Both
write nothing else, and the group's next pick waits for their accesses. -/
def Obligations.CallAndReturn : Prop :=
  ∀ (c : Ctl) (t12 : BitVec 12) (t32 : BitVec 32) (p1 p2 : BitVec 16) (near : Bool) s x,
    let call : Instr := if near then .callNear c t12 p1 p2 else .callFar c t32 p1 p2
    let tgt : Int := if near then t12.toInt else t32.toInt
    let rest : Move := { mask := x.cur.mask &&& ~~~ x.act, pc := x.next, pri := x.cur.pri }
    let kept (y : Group) : Prop := y.bare = { x.gr with due := some x.nonce }.bare ∧ ∀ r l, l < 64 → y.reg r l = x.gr.reg r l
    (Issues call c s x
      → (∀ l ∈ x.lanes, (∃ p k, s.translate x.wg.ctx .r (x.privOf l) = .pa p k) ∧ (∃ p k, s.translate x.wg.ctx .w (x.privOf l) = .pa p k)
          ∧ x.poisonAt .pv false (x.privOf l) 4 = false ∧ x.depth l < x.maxDepth
          ∧ (∃ p k, s.translate x.wg.ctx .w (x.privOf l + 16 + 16 * x.depth l) = .pa p k))
      → ∃ t y, Leads call s t ∧ t.grp x.core x.g = some y ∧ kept y ∧ y.vfl = x.gr.vfl
        ∧ Went x y [{ mask := x.act, pc := x.cur.pc + BitVec.ofInt 64 (4 * tgt), pri := p1 }, rest]
        ∧ Stored s t (x.lanes.flatMap (fun l =>
            x.puts .pv (x.privOf l + 16 + 16 * x.depth l) (toLE 8 x.next.toNat ++ toLE 2 p2.toNat ++ toLE 6 0) ++ x.puts .pv (x.privOf l) (toLE 4 (x.depth l + 1))))
        ∧ Around s t x.core x.g)
    ∧ (Issues (.ret c) c s x
      → (∀ l ∈ x.lanes, (∃ p k, s.translate x.wg.ctx .r (x.privOf l) = .pa p k) ∧ (∃ p k, s.translate x.wg.ctx .w (x.privOf l) = .pa p k)
          ∧ x.poisonAt .pv false (x.privOf l) 4 = false ∧ 0 < x.depth l
          ∧ (∃ p k, s.translate x.wg.ctx .r (x.privOf l + 16 * x.depth l) = .pa p k) ∧ x.poisonAt .pv false (x.privOf l + 16 * x.depth l) 10 = false)
      → ∃ t y, Leads (.ret c) s t ∧ t.grp x.core x.g = some y ∧ kept y ∧ y.vfl = x.gr.vfl
        ∧ Went x y (x.lanes.map (fun l => { mask := laneBit l, pc := BitVec.ofNat 64 (fromLE (s.glRead x.wg.ctx (x.privOf l + 16 * x.depth l) 8)),
                                            pri := BitVec.ofNat 16 (fromLE (s.glRead x.wg.ctx (x.privOf l + 16 * x.depth l + 8) 2)) }) ++ [rest])
        ∧ Stored s t (x.lanes.flatMap (fun l => x.puts .pv (x.privOf l) (toLE 4 (x.depth l - 1))))
        ∧ Around s t x.core x.g)

/-- R278, R279, R56, R57: BKOFF holds the group for c cycles beyond its stall count, none without an active, guard-true lane; SHAPE sends the whole entry
to the entry point of the first bucket that its extents match, with the bucket's priority, and sets the pad mask, and traps with 0x0D where none matches. -/
def Sys2Proof.Rules.BackoffAndShape : Prop :=
  ∀ (c : Ctl) (o : Opnd) (n : Fin 4) (a : Fin 64) s x,
    (Issues (.bkoff c o) c s x → ∃ t y, Leads (.bkoff c o) s t ∧ t.grp x.core x.g = some y ∧ Kept x y [] ∧ y.vfl = x.gr.vfl
        ∧ y.fr = advance x.gr.fr x.cur.pc x.thru
        ∧ y.status = (if x.act = 0 ∨ x.popped.w32 o 0 = 0 then .stalled (stallOf c) else .bkoff (stallOf c + min (x.popped.w32 o 0) 65535))
        ∧ Quiet s t x.core x.g ∧ SameBytes s t)
    ∧ (Issues (.shape c n a) c s x →
        let ext (d : Nat) : Nat := (x.reg (.s (a.val + d)) 0).toNat % 2 ^ 32
        let fit (b : Bucket) : Prop := ∀ d ≤ n.val, ∀ r ∈ b.dims[d]?, r.1 ≤ ext d ∧ ext d ≤ r.2
        (∀ pre b post, x.wg.rec_.buckets = pre ++ b :: post → (∀ e ∈ pre, ¬ fit e) → fit b →
          ∃ t y, Leads (.shape c n a) s t ∧ t.grp x.core x.g = some y ∧ Went x y [{ mask := x.cur.mask, pc := x.wg.cb + BitVec.ofNat 64 b.entry, pri := b.pri }]
            ∧ y.bare = { x.gr.bare with padm := y.padm }
            ∧ (∀ l < 64, laneIn y.padm l = decide (l < x.width ∧ ext 0 ≤ x.gr.idx * x.width + l))
            ∧ (∀ r l, l < 64 → y.reg r l = x.gr.reg r l) ∧ y.vfl = x.gr.vfl ∧ Quiet s t x.core x.g ∧ SameBytes s t)
        ∧ ((∀ b ∈ x.wg.rec_.buckets, ¬ fit b) → Traps (.shape c n a) s x (x.trapInfo 0x0D 0 0 x.cur.mask)))

/-- R50, R51, R280: SPAWN enters one item per active, guard-true lane, in ascending order, at the end of the proofer's items, with the payload of the
lane; without room for all of them it enters none and the group waits with them. -/
def Sys2Proof.Rules.Spawning : Prop :=
  ∀ (c : Ctl) (e : Fin 4) (a b : Opnd) s x, Issues (.spawn c e a b) c s x →
    let items : List (Word × Word) := x.lanes.map (fun l => (BitVec.ofNat 32 (x.popped.w32 a l), BitVec.ofNat 32 (x.popped.w32 b l)))
    (x.lanes = [] ∨ (s.core x.core).itemCount + x.lanes.length ≤ 512 → ∃ t y, Leads (.spawn c e a b) s t ∧ t.grp x.core x.g = some y
      ∧ Kept x y [] ∧ y.vfl = x.gr.vfl ∧ Went x y x.thru
      ∧ (t.core x.core).items = (s.core x.core).items ++ items.map (fun p => { wg := x.wg.uid, e := e.val, p0 := p.1, p1 := p.2 })
      ∧ Quiet (s.enter x.core x.wg.uid e.val items) t x.core x.g ∧ SameBytes s t)
    ∧ (x.lanes ≠ [] → (s.core x.core).itemCount + x.lanes.length > 512 → ∃ t y, Leads (.spawn c e a b) s t ∧ t.grp x.core x.g = some y
      ∧ y.status = .spawning (.spawn c e a b) x.cur.pc x.cur.mask items ∧ y.fr = x.gr.fr ∧ Kept x y [] ∧ (t.core x.core).items = (s.core x.core).items
      ∧ SameBytes s t)

/-- What a group does to itself: BKOFF, SHAPE, SPAWN (R278 to R280). -/
def Obligations.GroupControl : Prop := Rules.BackoffAndShape ∧ Rules.Spawning

/-- R65, R66, R284: GETSR gives a special register, whole to a scalar and one half to a lane register, and clears WST of %gstat when it reads it; SETSR
writes the special register that it names from the lowest active, guard-true lane, %vfl lane by lane, and nothing else; a rounding mode above 4
traps. Bit 0 of %gstat is written only with the low half. -/
def Obligations.SpecialRegisters : Prop :=
  ∀ (c : Ctl) (hi : Bool) (n : BitVec 8) (o : Opnd) s x,
    (Issues (.getsr c hi n o) c s x → ∃ t y, Leads (.getsr c hi n o) s t ∧ t.grp x.core x.g = some y
      ∧ Wrote x t y false o (fun l => match o with
          | .s _ => x.sr n.toNat l
          | _ => if hi then x.sr n.toNat l >>> 32 else x.sr n.toNat l &&& 0xFFFFFFFF)
      ∧ y.bare = { x.gr.bare with gstat := if n = 0x22 ∧ x.act ≠ 0 then x.gr.gstat &&& ~~~ 0xF00 else x.gr.gstat }
      ∧ (∀ r l, l < 64 → r ∉ destRegs false o ++ qRegs c → y.reg r l = x.gr.reg r l) ∧ y.vfl = x.gr.vfl
      ∧ Went x y x.thru ∧ Quiet s t x.core x.g ∧ SameBytes s t)
    ∧ (Issues (.setsr c hi n o) c s x → ∀ l0, x.low = some l0 →
        let p := x.popped
        let v (l : Nat) : DWord := match o with
          | .v _ | .o _ | .q _ => if hi then (p.sr n.toNat l &&& 0xFFFFFFFF) ||| (BitVec.ofNat 64 (p.w32 o l) <<< 32)
                                  else (p.sr n.toNat l &&& 0xFFFFFFFF00000000) ||| BitVec.ofNat 64 (p.w32 o l)
          | _ => BitVec.ofNat 64 (p.w64 o l)
        let low : Bool := match o with | .v _ | .o _ | .q _ => !hi | _ => true
        (n = 0x21 ∧ 5 ≤ (v l0 &&& 7).toNat → Traps (.setsr c hi n o) s x (x.trapInfo 0x02 1 0 x.act))
        ∧ (¬ (n = 0x21 ∧ 5 ≤ (v l0 &&& 7).toNat) → ∃ t y, Leads (.setsr c hi n o) s t ∧ t.grp x.core x.g = some y
            ∧ y.bare = { x.gr.bare with
                fpc := if n = 0x21 then (v l0 &&& 7).setWidth 32 else x.gr.fpc,
                gstat := if n = 0x22 ∧ low = true ∧ (v l0).getLsbD 0 then x.gr.gstat &&& ~~~ 1 else x.gr.gstat,
                gctl := if n = 0x23 then (v l0 &&& 3).setWidth 32 else x.gr.gctl,
                padm := if n = 0x24 then v l0 &&& fullMask x.width else x.gr.padm }
            ∧ (∀ l, y.fl? l = if n = 0x20 ∧ l ∈ x.lanes then BitVec.ofNat 5 (p.w32 o l) else x.gr.fl? l)
            ∧ (∀ r l, l < 64 → y.reg r l = x.gr.reg r l) ∧ Went x y x.thru ∧ Quiet s t x.core x.g ∧ SameBytes s t))

/-! Memory. An access is sound when the spec gives it no trap, no park and no window (Iss.sound). -/

/-- R325, R326: a LD whose lanes' accesses are sound completes: each lane still to be done gets the bytes at its address, extended as SX says, and no
byte, flag or other register changes (a group of four registers starts at a multiple of 4). -/
def Obligations.Loads : Prop :=
  ∀ (c : Ctl) (sp : Space) (sz : Size) (sx : Bool) (m : Xm) (d a : Opnd) s x, Issues (.ld c sp sz sx m d a) c s x →
    let p := x.popped
    (∀ l ∈ lanesOf x.todo, p.sound sp [.r] (szBytes sz) l (p.addr sp a m.ofs l)) → (∀ n, d = .v n → sz = .b128 → n.val % 4 = 0) →
    ∃ t y, Leads (.ld c sp sz sx m d a) s t ∧ t.grp x.core x.g = some y
      ∧ Loaded x y x.todo sz sx d (fun l => fromLE (p.read s sp true (p.addr sp a m.ofs l) (szBytes sz)))
      ∧ Kept x y (loadRegs sz d) ∧ y.vfl = x.gr.vfl ∧ Went x y x.thru ∧ (∀ q, t.byteAt q = s.byteAt q) ∧ Around s t x.core x.g

/-- R325, R326, R205: a ST whose lanes' accesses are sound completes: the lanes store in ascending order the low bytes of their data, the lowest first, at
their addresses, and no other byte, no flag and no register changes. -/
def Obligations.Stores : Prop :=
  ∀ (c : Ctl) (sp : Space) (sz : Size) (m : Xm) (a b : Opnd) s x, Issues (.st c sp sz m a b) c s x →
    let p := x.popped
    (∀ l ∈ x.lanes, p.sound sp [.w] (szBytes sz) l (p.addr sp a m.ofs l)) →
    ∃ t y, Leads (.st c sp sz m a b) s t ∧ t.grp x.core x.g = some y ∧ Kept x y [] ∧ y.vfl = x.gr.vfl ∧ Went x y x.thru
      ∧ Stored s t (x.lanes.flatMap (fun l => p.puts sp (p.addr sp a m.ofs l) (toLE (szBytes sz) (p.data sz b l)))) ∧ Around s t x.core x.g

/-- R324: an access whose address is not a multiple of its size traps with 0x06 and the lowest such lane's address, before any effect, and the
lanes that the trap concerns are the misaligned ones. -/
def Sys2Proof.Rules.Misalignment : Prop :=
  ∀ (c : Ctl) (sp : Space) (sz : Size) (sx : Bool) (m : Xm) (d a b : Opnd) s x l,
    let bad (y : Iss) (ls : List Nat) : List Nat := ls.filter (fun k => decide (y.addr sp a m.ofs k % szBytes sz ≠ 0))
    (Issues (.ld c sp sz sx m d a) c s x → (bad x.popped (lanesOf x.todo)).head? = some l →
      Traps (.ld c sp sz sx m d a) s x (x.trapInfo 0x06 0 (x.popped.addr sp a m.ofs l) (maskOf (bad x.popped (lanesOf x.todo)))))
    ∧ (Issues (.st c sp sz m a b) c s x → (bad x.popped x.lanes).head? = some l →
      Traps (.st c sp sz m a b) s x (x.trapInfo 0x06 0 (x.popped.addr sp a m.ofs l) (maskOf (bad x.popped x.lanes))))

/-- R70, R71, R328: LDF on full words gives each lane its word and, with .clr, leaves them empty; STE on empty words stores each lane's word and leaves
them full; TAG sets the tags of the words that its lanes' accesses cover. No other tag, byte, register or flag changes. -/
def Obligations.TaggedWords : Prop :=
  ∀ (c : Ctl) (clr full : Bool) (sz : Size) (ofs : BitVec 24) (d a b : Opnd) s x,
    let p := x.popped
    let adr (l : Nat) : Nat := p.addr .sp a ofs l
    let alone : Prop := ∀ l ∈ lanesOf x.todo, ∀ k ∈ lanesOf x.todo, adr l = adr k → l = k
    let tagged (t : State) (q : Nat → Prop) : Prop := ∃ w, (t.core x.core).wgOf x.wg.uid = some (x.wslot, w) ∧ ∀ k, k ∈ w.tags ↔ q k
    (Issues (.ldf c clr ofs d a) c s x → (∀ l ∈ lanesOf x.todo, p.sound .sp [.r] 4 l (adr l) ∧ adr l / 4 ∈ x.wg.tags) → (clr = true → alone) →
      ∃ t y, Leads (.ldf c clr ofs d a) s t ∧ t.grp x.core x.g = some y ∧ Kept x y (destRegs false d) ∧ y.vfl = x.gr.vfl ∧ Went x y x.thru
        ∧ (match d with
            | .v n => ∀ l ∈ lanesOf x.todo, y.v? n.val l = BitVec.ofNat 32 (fromLE (p.read s .sp false (adr l) 4))
            | .o n => ∀ l ∈ lanesOf x.todo, y.o? n.val l = BitVec.ofNat 32 (fromLE (p.read s .sp false (adr l) 4))
            | .q n => ∀ l ∈ lanesOf x.todo, y.q? n.val l = BitVec.ofNat 32 (fromLE (p.read s .sp false (adr l) 4))
            | _ => True)
        ∧ tagged t (fun k => k ∈ x.wg.tags ∧ ¬ (clr = true ∧ ∃ l ∈ lanesOf x.todo, adr l / 4 = k))
        ∧ (∀ q, t.byteAt q = s.byteAt q) ∧ AroundBy Workgroup.untagged s t x.core x.g)
    ∧ (Issues (.ste c ofs a b) c s x → (∀ l ∈ lanesOf x.todo, p.sound .sp [.r] 4 l (adr l) ∧ adr l / 4 ∉ x.wg.tags) → alone →
      ∃ t y, Leads (.ste c ofs a b) s t ∧ t.grp x.core x.g = some y ∧ Kept x y [] ∧ y.vfl = x.gr.vfl ∧ Went x y x.thru
        ∧ tagged t (fun k => k ∈ x.wg.tags ∨ ∃ l ∈ lanesOf x.todo, adr l / 4 = k)
        ∧ Stored s t ((lanesOf x.todo).flatMap (fun l => p.puts .sp (adr l) (toLE 4 (p.w32 b l)))) ∧ AroundBy Workgroup.untagged s t x.core x.g)
    ∧ (Issues (.tag c sz full ofs a) c s x → (∀ l ∈ x.lanes, p.sound .sp [.w] (szBytes sz) l (adr l)) →
      ∃ t y, Leads (.tag c sz full ofs a) s t ∧ t.grp x.core x.g = some y ∧ Kept x y [] ∧ y.vfl = x.gr.vfl ∧ Went x y x.thru
        ∧ tagged t (fun k => if ∃ l ∈ x.lanes, adr l / 4 ≤ k ∧ k < adr l / 4 + szBytes sz / 4 then full = true else k ∈ x.wg.tags)
        ∧ (∀ q, t.byteAt q = s.byteAt q) ∧ AroundBy Workgroup.untagged s t x.core x.g)

/-- R187, R202 to R204, R329, R330: ATOM, RED and ATOM .cas on sound accesses make one read-modify-write per address: with the operands of the lanes that
name it reduced in ascending order (ATOM, RED), or lane after lane (.cas). Each lane of ATOM gets the old value as the lanes below it leave it. No
other byte, register or flag changes. -/
def Obligations.Atomics : Prop :=
  ∀ (c : Ctl) (op : AOp) (sp : Space) (sz : Size) (u : Bool) (m : Xm) (d a b cc : Opnd) s x,
    let p := x.popped
    let n := szBytes sz
    let adr (l : Nat) : Nat := p.addr sp a m.ofs l
    let ls := lanesOf x.todo
    let old (l : Nat) : Nat := fromLE (p.read s sp false (adr l) n)
    let ok : Prop := (∀ l ∈ ls, p.sound sp [.r, .w] n l (adr l)) ∧ p.apart sp n adr ls
    let g : Nat → Nat → Nat := atomG op u (8 * n)
    let val (l : Nat) : Nat := onTop g (old l) ((sameBelow adr ls l).map (p.atomB op sz b))
    let new (l : Nat) : Nat := onTop g (old l) ((sameAs adr ls l).map (p.atomB op sz b))
    let cas (v : Nat) (l : Nat) : Nat := if v = p.data sz b l then p.data sz cc l else v
    let puts (f : Nat → Nat) : List (Byt × Byte) := (firsts adr ls).flatMap (fun l => p.puts sp (adr l) (toLE n (f l)))
    (Issues (.atom c op sp sz u m d a b) c s x → ok → (∀ k, d = .v k → sz = .b128 → k.val % 4 = 0) →
      ∃ t y, Leads (.atom c op sp sz u m d a b) s t ∧ t.grp x.core x.g = some y ∧ Loaded x y x.todo sz false d val
        ∧ Kept x y (loadRegs sz d) ∧ y.vfl = x.gr.vfl ∧ Went x y x.thru ∧ Stored s t (puts new) ∧ Around s t x.core x.g)
    ∧ (Issues (.red c op sp sz u m a b) c s x → ok →
      ∃ t y, Leads (.red c op sp sz u m a b) s t ∧ t.grp x.core x.g = some y ∧ Kept x y [] ∧ y.vfl = x.gr.vfl ∧ Went x y x.thru
        ∧ Stored s t (puts new) ∧ Around s t x.core x.g)
    ∧ (Issues (.atomCas c sp sz m d a b cc) c s x → ok → (∀ k, d = .v k → sz = .b128 → k.val % 4 = 0) →
      ∃ t y, Leads (.atomCas c sp sz m d a b cc) s t ∧ t.grp x.core x.g = some y
        ∧ Loaded x y x.todo sz false d (fun l => (sameBelow adr ls l).foldl cas (old l))
        ∧ Kept x y (loadRegs sz d) ∧ y.vfl = x.gr.vfl ∧ Went x y x.thru
        ∧ Stored s t (puts (fun l => (sameAs adr ls l).foldl cas (old l))) ∧ Around s t x.core x.g)

/-- R332: MFENCE goes on once every earlier register write of the group has retired, and until then nothing changes but that the issue is over. -/
def Sys2Proof.Rules.MemoryFence : Prop :=
  ∀ (c : Ctl) s x, Issues (.mfence c) c s x →
    (x.gr.sb = [] ∧ (∀ p ∈ x.gr.pend, p.landed = true) → ∃ t y, Leads (.mfence c) s t ∧ t.grp x.core x.g = some y ∧ Kept x y [] ∧ y.vfl = x.gr.vfl
      ∧ Went x y x.thru ∧ Quiet s t x.core x.g ∧ SameBytes s t)
    ∧ (¬ (x.gr.sb = [] ∧ ∀ p ∈ x.gr.pend, p.landed = true) → Leads (.mfence c) s { s with cur := none })

/-- R72, R73, R267, R334: SWINIT writes each lane's image and ends the bindings of its words; SWARR adds each lane's count to its word in ascending
order, to no other byte. SWWAIT on words all reached or aborted ends with WST 2 where a lane of it
woke by a lost session, else 1 where one found ABORT set, else 0, and acquires the completions of oven operations counted on its words (R192, R194). -/
def Sys2Proof.Rules.WordOperations : Prop :=
  ∀ (c : Ctl) (sp : Space) (m : Xm) (gen : Bool) (a b cc : Opnd) s x,
    let p := x.popped
    let adr (l : Nat) : Nat := p.addr sp a m.ofs l
    let image (l : Nat) : Nat := { target := p.w32 b l, count := 0, gen := p.w32 cc l % 2 ^ 16, ovr := (p.w32 cc l).testBit 16, stale := (p.w32 cc l).testBit 17,
                                   abort := (p.w32 cc l).testBit 18, ten := (p.w32 cc l).testBit 19 : SWord }.toNat
    let arr : Instr := if gen then .swarrGen c sp m a b cc else .swarrAny c sp m a b
    let word (l : Nat) : SWord := SWord.ofNat (s.word (p.loc sp (adr l)))
    let sum (l : Nat) : SWord := (sameAs adr x.lanes l).foldl (fun w k => w.add (p.w32 b k) (if gen then some (p.w32 cc k % 2 ^ 16) else none)) (word l)
    (sp = .sp ∨ sp = .gl) →
    (Issues (.swinit c sp m a b cc) c s x → (∀ l ∈ x.lanes, p.sound sp [.w] 16 l (adr l) ∧ p.w32 cc l < 2 ^ 20) →
      ∃ t y, Leads (.swinit c sp m a b cc) s t ∧ t.grp x.core x.g = some y ∧ Kept x y [] ∧ y.vfl = x.gr.vfl ∧ Went x y x.thru
        ∧ Stored s t (x.lanes.flatMap (fun l => p.puts sp (adr l) (toLE 16 (image l))))
        ∧ (∀ k, k ∈ t.bound ↔ k ∈ s.bound ∧ ∀ l ∈ x.lanes, p.bindingOf sp (adr l) k = false) ∧ Around { s with bound := t.bound } t x.core x.g)
    ∧ (Issues arr c s x → (∀ l ∈ x.lanes, p.sound sp [.r, .w] 16 l (adr l) ∧ (word l).ten = false) → p.apart sp 16 adr x.lanes →
      ∃ t y, Leads arr s t ∧ t.grp x.core x.g = some y ∧ Kept x y [] ∧ y.vfl = x.gr.vfl ∧ Went x y x.thru
        ∧ Stored s t ((firsts adr x.lanes).flatMap (fun l => p.puts sp (adr l) (toLE 16 (sum l).toNat))) ∧ Around s t x.core x.g)
    ∧ (Issues (.swwait c sp m a b) c s x → x.act ≠ 0 →
      (∀ l ∈ lanesOf x.todo, p.sound sp [.r] 16 l (adr l) ∧ ((word l).reached (p.w32 b l % 2 ^ 16) = true ∨ (word l).abort = true)) →
      ∃ t y, Leads (.swwait c sp m a b) s t ∧ t.grp x.core x.g = some y
        ∧ y.bare = { x.gr.bare with gstat := (x.gr.gstat &&& ~~~ 0xF00) |||
              (if x.woken.2 = true then 0x200 else if x.woken.1 = true ∨ ∃ l ∈ lanesOf x.todo, (word l).abort = true then 0x100 else 0) }
        ∧ (∀ r l, l < 64 → y.reg r l = x.gr.reg r l) ∧ y.vfl = x.gr.vfl ∧ Went x y x.thru ∧ Quiet (p.swAcquire s sp m a b x.todo) t x.core x.g
        ∧ SameBytes (p.swAcquire s sp m a b x.todo) t
        ∧ ((∀ e ∈ x.wg.done, e.spoilt x.wg = false ∧ e.norm = none) → SameBytes s t ∧ (t.core x.core).banks = (s.core x.core).banks ∧ (t.core x.core).lists = (s.core x.core).lists
            ∧ ∀ v, (t.core x.core).wgOf x.wg.uid = some (x.wslot, v) → v.done = x.wg.done.filter (fun e =>
                !(decide (sp = .sp) && (lanesOf x.todo).any (fun l => (decide (m.scope ≠ .grp) || e.grp == x.gr.uid)
                  && e.reachedBy (adr l) (p.w32 b l % 65536) (word l).abort)))))

/-- R73: an addition of n to a word with ABORT clear, of its own generation or of none, and with a TARGET: COUNT + n wraps at TARGET, GEN advances by the
quotient modulo 2^16, and OVR is set where COUNT + n passes TARGET; with TARGET 0 it sets ABORT; of another generation it sets STALE only; with
ABORT set it changes nothing. -/
def Sys2Proof.Rules.WordAddition : Prop :=
  ∀ (w : SWord) (n : Nat) (g : Option Nat),
    (w.abort = true → w.add n g = w)
    ∧ (w.abort = false → g ≠ none → g ≠ some w.gen → w.add n g = { w with stale := true })
    ∧ (w.abort = false → g = none ∨ g = some w.gen → w.target = 0 → w.add n g = { w with abort := true })
    ∧ (w.abort = false → g = none ∨ g = some w.gen → w.target ≠ 0 → w.gen < 65536 →
        (w.add n g).count = (w.count + n) % w.target ∧ (w.add n g).gen = (w.gen + (w.count + n) / w.target) % 65536
        ∧ ((w.add n g).ovr = true ↔ w.ovr = true ∨ w.count + n > w.target) ∧ (w.add n g).target = w.target
        ∧ (w.add n g).stale = w.stale ∧ (w.add n g).abort = false ∧ (w.add n g).ten = w.ten)

/-- Synchronisation words: the instructions, and one addition (R72, R73, R334). -/
def Obligations.SynchronisationWords : Prop := Rules.WordOperations ∧ Rules.WordAddition

/-- R343, R48, R119: QCTL .occ and .perm give the occupied slots and the send permits of a declared queue; .reset empties it, with the permits at the
depth, the indices and phases at 0 and every slot empty. Without an active, guard-true lane nothing happens (R323). An undeclared queue traps with 0x02,
SUB 4, whatever the guard, where no other operand is at fault. -/
def Obligations.QueueControl : Prop :=
  ∀ (c : Ctl) (h : Fin 8) (d : Opnd),
    let reads (i : Instr) (v : Queue → Nat) : Prop := Commands i c (fun s x =>
      ∃ t y, Leads i s t ∧ t.grp x.core x.g = some y ∧ Wrote x.popped t y false d (fun _ => BitVec.ofNat 64 (v (x.wg.queue h.val)))
        ∧ Kept x y (destRegs false d ++ qRegs c) ∧ y.vfl = x.gr.vfl ∧ Went x y x.thru ∧ Quiet s t x.core x.g ∧ SameBytes s t)
    reads (.qctlOcc c h d) Queue.occ ∧ reads (.qctlPerm c h d) Queue.permits
    ∧ Commands (.qctlReset c h) c (fun s x =>
        let q := x.wg.queue h.val
        ∃ t y w, Leads (.qctlReset c h) s t ∧ t.grp x.core x.g = some y ∧ Kept x y [] ∧ y.vfl = x.gr.vfl ∧ Went x y x.thru
          ∧ (t.core x.core).wgOf x.wg.uid = some (x.wslot, w) ∧ w.queues.length = x.wg.queues.length
          ∧ (∀ n, n ≠ h.val → w.queues[n]? = x.wg.queues[n]?)
          ∧ (∀ r, w.queues[h.val]? = some r → r.occ = 0 ∧ r.ready = false ∧ r.permits = r.depth ∧ r.wIdx = 0 ∧ r.rIdx = 0
              ∧ r.wPhase = false ∧ r.rPhase = false ∧ r.depth = q.depth ∧ r.kind = q.kind ∧ r.width = q.width)
          ∧ Quiet s t x.core x.g ∧ SameBytes s t)
    ∧ ∀ i ∈ [Instr.qctlOcc c h d, .qctlPerm c h d, .qctlReset c h], ∀ s x, s.issue i c = some x → (x.wg.queue h.val).kind = 0 →
        (∀ f ∈ (useOf i).fs, fieldBad x.wg x.gr i f = false) → Traps i s x (x.trapInfo 0x02 4 0 x.cur.mask)

/-- R90, R344: SPILL writes one compressed slot of 8 + 4 W bytes at priv(0) plus its operand, over the active, guard-true lanes, and no other byte; FILL
rebuilds each such lane's register from a slot and changes no other register. Without such a lane both do nothing. -/
def Sys2Proof.Rules.SpillAndFill : Prop :=
  ∀ (c : Ctl) (v : Fin 256) (o : Opnd) s x,
    let p := x.privOf 0 + x.popped.w32 o 0
    let n := 8 + 4 * x.width
    let fit (a : Acc) : Prop := p % 8 = 0 ∧ p + n ≤ x.privOf 0 + x.privSize ∧ ∀ e, e = p ∨ e = p + n - 1 → ∃ b k, s.translate x.wg.ctx a e = .pa b k
    (Issues (.spill c v o) c s x → (x.act ≠ 0 → fit .w) →
      ∃ t y, Leads (.spill c v o) s t ∧ t.grp x.core x.g = some y ∧ (∀ r l, l < 64 → y.reg r l = x.gr.reg r l) ∧ y.vfl = x.gr.vfl
        ∧ y.bare = { x.gr.bare with spills := y.spills } ∧ Went x y x.thru
        ∧ Stored s t (if x.act = 0 then [] else x.puts .pv p (spillBytes x.width (x.lanes.map (fun l => (l, (x.reg (.v v.val) l).toNat % 2 ^ 32)))))
        ∧ Around s t x.core x.g)
    ∧ (Issues (.fill c v o) c s x → (x.act ≠ 0 → fit .r ∧ s.unmarked = true ∧ fromLE (s.glRead x.wg.ctx p 1) < 4) →
      ∃ t y, Leads (.fill c v o) s t ∧ t.grp x.core x.g = some y
        ∧ (∀ l ∈ x.lanes, laneIn ((Tab.get x.gr.spills p).getD (BitVec.allOnes 64)) l = true →
            y.v? v.val l = BitVec.ofNat 32 (fillLane (s.glRead x.wg.ctx p n) l) ∧ (c.q = true → y.q? 0 l = y.v? v.val l))
        ∧ (c.q = true → ∀ l ∈ x.lanes, y.q? 1 l = x.gr.q? 0 l)
        ∧ Kept x y ([.v v.val] ++ qRegs c) ∧ y.vfl = x.gr.vfl ∧ Went x y x.thru ∧ (∀ q, t.byteAt q = s.byteAt q) ∧ Around s t x.core x.g)

/-- R90: what FILL rebuilds from the bytes that SPILL wrote is each stored lane's value, in whichever format SPILL chose, and the slot is 8 + 4 W bytes. -/
def Sys2Proof.Rules.SpillFillRoundTrip : Prop :=
  ∀ (width : Nat) (vals : List (Nat × Nat)), (vals.map Prod.fst).Nodup → (∀ e ∈ vals, e.1 < width ∧ e.2 < 2 ^ 32) → 1 ≤ width →
    (spillBytes width vals).length = 8 + 4 * width ∧ fromLE ((spillBytes width vals).take 1) < 4
    ∧ ∀ e ∈ vals, fillLane (spillBytes width vals) e.1 = e.2

/-- SPILL and FILL, and what FILL rebuilds of what SPILL wrote (R90, R344). -/
def Obligations.SpillsAndFills : Prop := Rules.SpillAndFill ∧ Rules.SpillFillRoundTrip

/-! Engines. -/

/-- R335 to R338: COPY on operands that fit starts one asynchronous copy, COPYL one per entry of its list, in order, and nothing else changes; a copy goes
to the issuing workgroup, or to the oldest workgroup of its team on each core that its mask names. Where no such core has a workgroup of the team, the copy has no receiver,
and none is started (log 53: DEDUCED). -/
def Obligations.Copies : Prop :=
  (∀ (c : Ctl) (src : CSrc) (dst : CDst) (ofs : BitVec 24) (a b cc : Fin 64), Commands (.copy c src dst ofs a b cc) c (fun s x =>
    let w := x.sv cc
    let r : CopyReq := { src := src, dst := dst, sa := x.sv a, da := x.sv b, n := w % 2 ^ 32, mask := w / 2 ^ 32 % 2 ^ 8,
                         gen := if w.testBit 56 then some (BitVec.ofNat 16 (w / 2 ^ 40)) else none, sf := w.testBit 57, rsv := decide (w / 2 ^ 58 ≠ 0), ofs := ofs.toInt }
    x.copyFits r → Goes (.copy c src dst ofs a b cc) s x (x.copied s r)))
  ∧ (∀ (c : Ctl) (a b : Fin 64), Commands (.copyl c a b) c (fun s x =>
    let p := x.sv a
    let n := x.sv b
    let es := (List.range n).map (fun i => entryReq (fromLE (s.glBytes x.nonce x.wg.ctx (p + 32 * i) 32)))
    0 < n → n ≤ 4096 → p % 32 = 0 → p + 32 * n ≤ 2 ^ 57 → x.reach .r p (32 * n) 32 → s.unmarked = true → (∀ r ∈ es, x.copyFits r) →
    Goes (.copyl c a b) s x (es.foldl x.copied (x.ask s (s.sectors x.wg.ctx .r p (32 * n))))))
  ∧ (∀ (x : Iss) (s : State) (secs : List Nat), SameBytes s (x.ask s secs) ∧ (x.ask s secs).cores = s.cores)
  ∧ ∀ (x : Iss) (r : CopyReq), x.receivers r = if r.mask = 0 then [{ wg := x.wg.uid, next := 0, out := [] }] else
      ((List.range 8).filter (fun k => r.mask.testBit k)).filterMap (fun k =>
        ((x.s.core (8 * x.clu + k)).oldest x.wg.launch x.wg.team).map (fun w => { wg := w.uid, next := 0, out := [] : Recv }))

/-- R339: FETCH on operands that fit starts one asynchronous fetch of the rows that its list names, and nothing else changes. -/
def Sys2Proof.Rules.Fetches : Prop :=
  ∀ (c : Ctl) (ta : Fin 256) (a b : Fin 64) (word : Word),
    let n (x : Iss) : Nat := x.sv b % 2 ^ 32
    let dest (x : Iss) : Nat := x.sv b / 2 ^ 32 % 2 ^ 19
    let t (x : Iss) : Ten := Ten.of (x.ten ta)
    Starts (.fetch c ta a b word) c 2
      (fun x => 0 < n x ∧ n x ≤ 65536 ∧ x.sv b / 2 ^ 51 = 0 ∧ tenValid (x.ten ta) = true ∧ (t x).ndim ≠ 0 ∧ (t x).senc = 0 ∧ x.sv a % 4 = 0
        ∧ dest x % 32 = 0 ∧ x.wordFits (wordOf word.toNat) ∧ x.sv a + 4 * n x ≤ 2 ^ 57 ∧ dest x + n x * (t x).pitch ≤ x.wg.rec_.scratch
        ∧ x.reach .r (x.sv a) (4 * n x) 4)
      (fun _ => wordOf word.toNat) (fun x => .fetch (x.ten ta) (x.sv a) (n x) (dest x) (List.range (n x)) []) (fun x => [(.r, x.sv a), (.r, (t x).base)])

/-- R80, R81, R342: RESID .pin sets its entry, loading, and starts the fill; .rel of an entry of the context makes it empty, after its fill; .stat gives
its image, and 0 of another. -/
def Obligations.Residency : Prop :=
  ∀ (c : Ctl) (ofs : BitVec 24) (a b d : Fin 64),
    let e (x : Iss) : Nat := x.sv b / 2 ^ 24 % 64
    let mine (s : State) (x : Iss) (r : ResEntry) : Prop := Tab.get (s.cluster x.clu).resid (e x) = some r ∧ r.ctx = x.wg.ctx
    let only (x : Iss) : Prop := x.sv b % 2 ^ 24 = 0 ∧ x.sv b / 2 ^ 30 = 0
    Commands (.residPin c ofs a b) c (fun s x =>
      let va := x.sv a
      let n := x.sv b % 2 ^ 12
      let cl := x.sv b / 2 ^ 12 % 2 ^ 11
      let w : Option Nat := if ofs.toInt = -1 then none else some (wrapN 32 ofs.toInt)
      (∀ r, Tab.get (s.cluster x.clu).resid (e x) = some r → r.ctx = x.wg.ctx) →
      (∀ f ∈ (s.cluster x.clu).resid, f.1 ≠ e x → f.2.ctx = x.wg.ctx →
        (va + 4096 * n ≤ f.2.vbase ∨ f.2.vbase + 4096 * f.2.len ≤ va) ∧ (cl + n ≤ f.2.cloff ∨ f.2.cloff + f.2.len ≤ cl)) →
      4096 * (cl + n) ≤ x.wg.rec_.clsram → (va < 2 ^ 56 ∨ 2 ^ 57 ≤ va) → (x.sv b).testBit 23 = false → x.sv b / 2 ^ 30 = 0 → 0 < n → n ≤ 2048 →
      va % 4096 = 0 → x.wordFits w → va + 4096 * n ≤ 2 ^ 57 → x.reach .r va (4096 * n) 4096 →
      let r : ResEntry := { ld := true, vbase := va, len := n, cloff := cl, ctx := x.wg.ctx, launch := x.wg.launch, unit := x.wg.team, used := none, fill := s.nextId }
      Goes (.residPin c ofs a b) s x
        (x.bindTo ((s.modCluster x.clu (fun k => { k with resid := Tab.set k.resid (e x) r })).withOp x.core (x.op s 1 w (.resid (e x) va n cl 0))) w [x.wg.uid] [(.r, va + 4096 * n - 1)]))
    ∧ Commands (.residRel c b) c (fun s x => only x →
      (∀ r, mine s x r → if r.ld then Waits (.residRel c b) s
        else Goes (.residRel c b) s x (s.modCluster x.clu (fun k => { k with resid := Tab.del k.resid (e x) })))
      ∧ ((∀ r, ¬ mine s x r) → Goes (.residRel c b) s x s))
    ∧ Commands (.residStat c d b) c (fun s x => only x →
      let gives (v w : Nat) : Prop := GoesBy (.residStat c d b) s x s (fun g => (g.setS d.val (BitVec.ofNat 64 v)).setS (d.val + 1) (BitVec.ofNat 64 w))
      (∀ r, mine s x r → r.vbase < 2 ^ 57 → r.vbase % 4096 = 0 → r.len < 2 ^ 12 → r.cloff < 2 ^ 11 → r.ctx < 2 ^ 8 →
        gives (1 + 2 * r.ld.toNat + r.vbase) (r.len + 2 ^ 12 * r.cloff + 2 ^ 23 * r.ctx))
      ∧ ((∀ r, ¬ mine s x r) → gives 0 0))

/-- R350, R351: RKLD on operands that fit empties the shadow rack, loading for its workgroup, and starts its load, and waits while that rack is loading or
ready without override; RKSW exchanges the racks, with .drop emptying the shadow, once what issued to the oven queue before it is performed and no rack is loading (until then
it keeps its place in that order, whose form is the model's, log 66), and traps with 0x14 at a rack of another workgroup. A tensor that is not valid traps with 0x15.
Without an active, guard-true lane these have no effect and make no check of values (log 40: DEDUCED). -/
def Sys2Proof.Rules.Racks : Prop :=
  ∀ (c : Ctl) (sp : BSpace) (ovr : Bool) (ta : Fin 256) (a b : Fin 64),
    Commands (.rkld c sp ovr ta a b) c (fun s x =>
      let t := Ten.of (x.ten ta)
      let st := x.sv a / 2 ^ 32
      let j0 := x.sv a % 2 ^ 32
      let w := wordOf (x.sv b % 2 ^ 32)
      let sh := (s.core x.core).shadow
      (tenValid (x.ten ta) = false → Traps (.rkld c sp ovr ta a b) s x (x.trapInfo 0x15 ta.val 0 x.act))
      ∧ (tenValid (x.ten ta) = true → t.fmt ≤ 9 → t.senc ≤ 2 → t.ndim ≠ 0 → t.odd = false → st ≤ 4094 → x.wordFits w →
          x.roomFor sp (t.ranges (32 * kgOf t.fmt * st) (32 * kgOf t.fmt * st + 32 * kgOf t.fmt) j0 (j0 + 192)) → (ovr = true → ¬ sh.others x.wg.uid) →
          (sh.status = .loading ∨ (sh.status = .ready ∧ ovr = false) → Waits (.rkld c sp ovr ta a b) s)
          ∧ (sh.status = .empty ∨ (sh.status = .ready ∧ ovr = true) → Goes (.rkld c sp ovr ta a b) s x
              (x.bindTo ((s.modCore x.core (fun k => { k with shadow :=
                  { Rack.empty with status := .loading, owner := some x.wg.uid, ten := ta.val, fmt := t.fmt, step := st } })).withOp x.core
                (x.op s 1 w (.rkld sp (x.ten ta) j0 st))) w [x.wg.uid] (if sp = .gl then [(.r, t.base)] else [])))))
    ∧ ∀ (drop : Bool), let i : Instr := if drop then .rkswDrop c else .rkswKeep c
      Commands i c (fun s x =>
        let k := s.core x.core
        (¬ x.myTurn ∨ k.shadow.status = .loading → QueuesUp i s x none none)
        ∧ (x.myTurn → k.shadow.status ≠ .loading →
            (k.active.others x.wg.uid → Traps i s x (x.trapInfo 0x14 0 0 x.act))
            ∧ (¬ k.active.others x.wg.uid → k.shadow.others x.wg.uid → Traps i s x (x.trapInfo 0x14 1 0 x.act))
            ∧ (¬ k.active.others x.wg.uid → ¬ k.shadow.others x.wg.uid → Goes i s x
                (s.modCore x.core (fun k => { k.served x.gr.uid with active := k.shadow, shadow := if drop then Rack.empty else k.active })))))

/-- R346, R348, R352 to R355: MMUL and MTOPK on operands that fit enter the oven queue with the tensors and values that they read at their issue, and
change nothing else; where no write waits for an MFENCE and no other engine operation runs, their results are defined (R192). Without an active, guard-true lane they have no
effect and make no check of values (log 40: DEDUCED). -/
def Sys2Proof.Rules.OvenEntries : Prop :=
  ∀ (c : Ctl) (o : OvenArgs) (topk abs : Bool),
    let i : Instr := if topk then .mtopk c o abs else .mmul c o
    Commands i c (fun s x =>
      let ta := Ten.of (x.ten o.ta)
      let tb := Ten.of (x.ten o.tb)
      let st := o.s.toNat
      let m := o.m.toNat
      let n := o.n.toNat
      let v := x.sv o.a
      let u := x.sv o.b
      let u1 := if topk then x.sn (o.b.val + 1) else 0
      let rofs := if topk then wordOf (u / 2 ^ 32) else none
      let kg := kgOf tb.fmt
      let k := s.core x.core
      tenValid (x.ten o.ta) = true → tenValid (x.ten o.tb) = true → ta.fmt ≤ 8 → ta.senc = 0 → ta.ndim ≠ 0 → ta.odd = false →
      tb.fmt ≤ 9 → tb.ndim ≠ 0 → tb.odd = false → 0 < st → st ≤ 4095 → 0 < m → m ≤ 96 → 0 < n → n ≤ 192 → 8 * o.af.val + m ≤ 96 →
      (topk = true → u1 / 2 ^ 40 = 0 ∧ (u1.testBit 39 = true → u1 / 2 ^ 36 % 8 ≠ x.core % 8)) → x.wordFits (wordOf (u % 2 ^ 32)) →
      (∀ r ∈ rofs, r % 4 = 0 ∧ r + 384 * m ≤ x.wg.rec_.scratch) →
      x.roomFor o.space (ta.ranges (32 * kg * (v / 2 ^ 32)) (32 * kg * (v / 2 ^ 32 + st)) (v % 2 ^ 32) (v % 2 ^ 32 + m)) →
      (∀ j ∈ banksOf o.af.val m, k.owns x.wg.uid j = true ∧ (k.qmode x.seqNo j = .unset ∨ k.qmode x.seqNo j = modeOf topk ta tb)) →
      (o.res = true → k.active.status = .ready ∧ k.active.fmt = tb.fmt ∧ k.active.owner = some x.wg.uid) →
      ∃ (op : OvenOp) (k' : Core), Goes i s x (x.bindTo { s.modCore x.core (fun _ => k') with nextId := s.nextId + 1 } (wordOf (u % 2 ^ 32)) [x.wg.uid]
          ((if o.space = .gl then [(.r, ta.base)] else []) ++ (if topk then [(.r, ta.nbase), (.r, tb.nbase)] else [])))
        ∧ k'.ovenQ = k.ovenQ ++ [op] ∧ k.bankwise { k' with ovenQ := k.ovenQ }
        ∧ op.id = s.nextId ∧ op.wg = x.wg.uid ∧ op.grp = x.gr.uid ∧ op.pc = x.cur.pc ∧ op.x = o ∧ op.topk = topk ∧ op.abs = (topk && abs)
        ∧ op.da = x.ten o.ta ∧ op.db = x.ten o.tb ∧ op.r0 = v % 2 ^ 32 ∧ op.s0 = v / 2 ^ 32 ∧ op.word = wordOf (u % 2 ^ 32) ∧ op.rofs = rofs
        ∧ op.cbase = BitVec.ofNat 32 u1 ∧ op.k = u1 / 2 ^ 32 % 16 + 1 ∧ op.part = (if u1.testBit 39 then some (u1 / 2 ^ 36 % 8) else none)
        ∧ op.steps = [] ∧ op.row = 0 ∧ op.plane = 0 ∧ op.thr = List.replicate m .ninf ∧ op.poison = false ∧ op.parked = none ∧ x.low = some op.lane
        ∧ (x.wg.wrote = [] → x.gr.own = [] → x.wg.done = [] → k.eng = [] → op.bad = false))

/-- Racks and the oven queue (R350 to R355). -/
def Obligations.RacksAndOven : Prop := Rules.Racks ∧ Rules.OvenEntries

/-- R356, R357: MNORM on operands that fit starts one asynchronous operation, .a over rows of A of the width that its second tensor's format sets, .b over
columns of B, and nothing else changes. Without an active, guard-true lane it has no effect and makes no check of values (log 40: DEDUCED). -/
def Sys2Proof.Rules.Companions : Prop :=
  ∀ (c : Ctl) (sp : BSpace) (ta tb : Fin 256) (a b : Fin 64) (st : BitVec 16) (n : BitVec 8),
    let word (x : Iss) : Option Nat := wordOf (x.sv b % 2 ^ 32)
    let fits (x : Iss) (f : Nat) (lim : Nat) : Prop :=
      let t := Ten.of (x.ten ta)
      let s0 := x.sv a / 2 ^ 32
      tenValid (x.ten ta) = true ∧ t.ndim ≠ 0 ∧ t.odd = false ∧ st ≠ 0 ∧ st.toNat ≤ 4095 ∧ n ≠ 0 ∧ n.toNat ≤ lim ∧ t.nbase % 4 = 0 ∧ x.wordFits (word x)
      ∧ x.roomFor sp (t.ranges (32 * kgOf f * s0) (32 * kgOf f * (s0 + st.toNat)) (x.sv a % 2 ^ 32) (x.sv a % 2 ^ 32 + n.toNat))
    let starts (i : Instr) (s : State) (x : Iss) (k : EngKind) : Prop := ∃ bad, (x.wg.wrote = [] → x.gr.own = [] → bad = false)
      ∧ Goes i s x (x.bindTo (s.withOp x.core (x.op s 0 (word x) k [] bad)) (word x) [x.wg.uid]
          ((if sp = .gl then [(.r, (Ten.of (x.ten ta)).base)] else []) ++ [(.w, (Ten.of (x.ten ta)).nbase)]))
    Commands (.mnormA c sp ta tb a b st n) c (fun s x =>
      (fits x (Ten.of (x.ten tb)).fmt 96 ∧ (Ten.of (x.ten ta)).fmt ≤ 8 ∧ (Ten.of (x.ten ta)).senc = 0 ∧ tenValid (x.ten tb) = true
        ∧ (Ten.of (x.ten tb)).fmt ≤ 9 ∧ (Ten.of (x.ten tb)).odd = false) →
      starts (.mnormA c sp ta tb a b st n) s x (.mnorm false sp (x.ten ta) (x.ten tb) (x.sv a % 2 ^ 32) (x.sv a / 2 ^ 32) n.toNat st.toNat))
    ∧ Commands (.mnormB c sp ta a b st n) c (fun s x =>
      (fits x (Ten.of (x.ten ta)).fmt 192 ∧ (Ten.of (x.ten ta)).fmt ≤ 9 ∧ (Ten.of (x.ten ta)).senc ≤ 2) →
      starts (.mnormB c sp ta a b st n) s x (.mnorm true sp (x.ten ta) (x.ten ta) (x.sv a % 2 ^ 32) (x.sv a / 2 ^ 32) n.toNat st.toNat))

/-- R76, R358, R359: AALLOC claims a bank that is free, .any the lowest, whose number it gives: owned, its mode unset, its status and its lists cleared,
its elements undefined; of the workgroup's own bank it changes nothing; otherwise, or beyond the banks of the launch, it traps with 0x10. AFREE
frees the workgroup's bank once nothing in flight uses it. ABAND sets the band of a vector group of the workgroup. Without an active, guard-true lane
these have no effect and make no check of values (log 40: DEDUCED). -/
def Sys2Proof.Rules.Banks : Prop :=
  ∀ (c : Ctl) (bk : Fin 12) (a b : Fin 64),
    let new (s : State) (x : Iss) : Bank := { owner := some x.wg.uid, mode := .unset, status := 0, elems := [], fill := some s.fresh }
    let claims (s : State) (x : Iss) (i : Nat) (k' : Core) : Prop := (s.core x.core).bankwise k' ∧ (s.core x.core).claimed k' i (new s x)
    Commands (.aalloc c bk) c (fun s x =>
      let k := s.core x.core
      ((k.bank bk.val).owner = some x.wg.uid → Goes (.aalloc c bk) s x s)
      ∧ ((k.bank bk.val).owner = none → k.held x.wg.uid < x.wg.rec_.banks →
          ∃ k', claims s x bk.val k' ∧ Goes (.aalloc c bk) s x (s.modCore x.core (fun _ => k')))
      ∧ ((k.bank bk.val).owner ≠ some x.wg.uid → (k.bank bk.val).owner ≠ none ∨ x.wg.rec_.banks ≤ k.held x.wg.uid →
          Traps (.aalloc c bk) s x (x.trapInfo 0x10 bk.val 0 x.act)))
    ∧ Commands (.aallocAny c a) c (fun s x =>
      let k := s.core x.core
      (∀ i < 12, (k.bank i).owner = none → (∀ j < i, (k.bank j).owner ≠ none) → k.held x.wg.uid < x.wg.rec_.banks →
        ∃ k', claims s x i k' ∧ GoesBy (.aallocAny c a) s x (s.modCore x.core (fun _ => k')) (fun g => g.setS a.val (BitVec.ofNat 64 i)))
      ∧ ((∀ i < 12, (k.bank i).owner ≠ none) ∨ x.wg.rec_.banks ≤ k.held x.wg.uid → Traps (.aallocAny c a) s x (x.trapInfo 0x10 0xFF 0 x.act)))
    ∧ Commands (.afree c bk) c (fun s x =>
      let k := s.core x.core
      let used : Prop := k.queued bk.val = true ∨ (∃ t ∈ k.imms, t.bank = some bk.val) ∨ ∃ o ∈ k.eng, o.drainsBank bk.val = true
      ((k.bank bk.val).owner = none → Goes (.afree c bk) s x s)
      ∧ (∀ o, (k.bank bk.val).owner = some o → o ≠ x.wg.uid → Traps (.afree c bk) s x (x.trapInfo 0x10 bk.val 0 x.act))
      ∧ ((k.bank bk.val).owner = some x.wg.uid → used → Waits (.afree c bk) s)
      ∧ ((k.bank bk.val).owner = some x.wg.uid → ¬ used →
          ∃ k', Goes (.afree c bk) s x (s.modCore x.core (fun _ => k'.forget [bk.val])) ∧ k.bankwise k' ∧ (∀ j, k'.bank j = if j = bk.val then Bank.empty else k.bank j)))
    ∧ Commands (.aband c a b) c (fun s x =>
      let v := x.sv a
      let u := x.sv b
      ∀ y, v < 32 → s.grp x.core v = some y → y.wg = x.wg.uid → y.role = .vector → u.testBit 7 = false → u / 2 ^ 15 = 0 → u % 2 ^ 7 + u / 2 ^ 8 % 2 ^ 7 ≤ 96 →
        ∃ t z w, Leads (.aband c a b) s t ∧ t.grp x.core x.g = some z ∧ t.grp x.core v = some w ∧ w.band = (u % 2 ^ 7, u / 2 ^ 8 % 2 ^ 7)
          ∧ z.bare = { x.gr.bare with band := z.band } ∧ (x.g ≠ v → z.band = x.gr.band) ∧ (∀ r l, l < 64 → z.reg r l = x.gr.reg r l) ∧ z.vfl = x.gr.vfl
          ∧ Went x z x.thru ∧ (x.g ≠ v → w = { y with band := w.band }) ∧ (∀ h, h ≠ x.g → h ≠ v → t.grp x.core h = s.grp x.core h)
          ∧ (∀ d, d ≠ x.core → t.core d = s.core d) ∧ SameBytes s t)

/-- R157, R347, R362: ALOAD and AZERO of the workgroup's bank keep their place in the order of the oven queue until what issued before them is performed (the form
of that order is the model's, log 66); then ALOAD gives the bank the mode named and the 6144 bytes at its address, four per element, and AZERO sets every element to 0, the mode to unset and the status and the lists to none.
Without an active, guard-true lane they have no effect and make no check of values (log 40: DEDUCED). -/
def Sys2Proof.Rules.BankLoads : Prop :=
  ∀ (c : Ctl) (tm i32 : Bool) (bk : Fin 12) (a : Fin 64),
    Commands (.aload c tm i32 bk a) c (fun s x =>
      let p := x.sv a
      let k := s.core x.core
      let md : BMode := if i32 then .int32 else .fp32
      p % 16 = 0 → p + 6144 ≤ (if tm then 4096 * x.wg.rec_.tiles else x.wg.rec_.scratch) → k.owns x.wg.uid bk.val = true →
      (k.qmode x.seqNo bk.val = .unset ∨ k.qmode x.seqNo bk.val = md) →
      (¬ x.myTurn → QueuesUp (.aload c tm i32 bk a) s x (some bk.val) (some md))
      ∧ (x.myTurn → ∃ k', Goes (.aload c tm i32 bk a) s x (s.modCore x.core (fun _ => k')) ∧ (k.served x.gr.uid).bankwise k' ∧ k'.lists = k.lists
          ∧ (∀ j, j ≠ bk.val → k'.bank j = k.bank j) ∧ (k'.bank bk.val).owner = some x.wg.uid ∧ (k'.bank bk.val).mode = md
          ∧ (k'.bank bk.val).status = (k.bank bk.val).status
          ∧ ∀ n < 1536, (k'.bank bk.val).elem n = fromLE (if tm then x.wg.tmBytes (p + 4 * n) 4 else x.wg.spRead (p + 4 * n) 4)))
    ∧ Commands (.azero c bk) c (fun s x =>
      let k := s.core x.core
      k.owns x.wg.uid bk.val = true →
      (¬ x.myTurn → QueuesUp (.azero c bk) s x (some bk.val) (some .unset))
      ∧ (x.myTurn → ∃ k', Goes (.azero c bk) s x (s.modCore x.core (fun _ => k')) ∧ (k.served x.gr.uid).bankwise k'
          ∧ k.claimed k' bk.val { owner := some x.wg.uid, mode := .unset, status := 0, elems := [], fill := none }))

/-- Banks claimed, freed, banded, loaded and zeroed (R358, R359, R362). -/
def Obligations.AccumulatorBanks : Prop := Rules.Banks ∧ Rules.BankLoads

/-- R360, R361: ADRAIN on operands that fit starts one asynchronous drain of the rows and columns named, and nothing else changes; rows of banks that the
workgroup does not own will read as zeros. A drain of a bank in the window of an oven operation makes that operation's results undefined (R192). Without an
active, guard-true lane it has no effect and makes no check of values (log 40: DEDUCED). -/
def Obligations.Drains : Prop :=
  ∀ (c : Ctl) (kind : Fin 3) (sp : BSpace) (mx : Bool) (rnd : Rnd) (sat : Sat) (ta : Fin 256) (a b : Fin 64),
    let i : Instr := match kind with
      | 0 => .adrainNone c sp mx rnd sat ta a b | 1 => .adrainP24 c sp mx rnd sat ta a b | _ => .adrainP48 c sp mx rnd sat ta a b
    Commands i c (fun s x =>
      let t := Ten.of (x.ten ta)
      let u := x.sv b
      let ro := x.sv a % 2 ^ 32
      let co := x.sv a / 2 ^ 32
      let rho := u % 2 ^ 7
      let nr := u / 2 ^ 8 % 2 ^ 7
      let c0 := u / 2 ^ 16 % 2 ^ 8
      let nc := u / 2 ^ 24 % 2 ^ 8 + 1
      let m := if kind = 1 then 4 else 8
      let out := if kind = 0 then (co, nc) else (co / 2, nc / 2)
      let rows := (List.range nr).map (fun i => rho + i)
      let w := wordOf (u / 2 ^ 32)
      let k := s.core x.core
      let bs := (rows.map (fun r => r / 8)).eraseDups
      tenValid (x.ten ta) = true → t.fmt ≠ 9 → t.slay = 0 → t.senc = kind.val → t.odd = false →
      u.testBit 7 = false → u.testBit 15 = false → 0 < nr → rho + nr ≤ 96 → c0 + nc ≤ 192 → (kind ≠ 0 → c0 % m = 0 ∧ co % m = 0 ∧ nc % m = 0) →
      (∀ j < nr, (out.1 + (if t.ndim = 0 then 0 else (ro + j) * t.s1)) * fmtBits t.fmt % 8 = 0 ∧ out.2 * fmtBits t.fmt % 8 = 0) → (mx = true → x.sn (b.val + 1) % 4 = 0) →
      x.wordFits w → x.roomFor sp (t.drainRanges kind.val ro co nr nc) → x.rowsFit rows →
      let early := bs.filter (fun j => k.owns x.wg.uid j && k.busy j)
      Goes i s x (x.bindTo ((s.modCore x.core (fun k => k.peekBanks early)).withOp x.core (x.op s 4 w
        (.adrain kind.val sp (if mx then some (BitVec.ofNat 64 (x.sn (b.val + 1))) else none) (dynRnd rnd x.gr.fpc) sat (x.ten ta) ro co rho nr c0 nc
          (bs.filter (fun j => !k.owns x.wg.uid j))) early)) w [x.wg.uid]
            ((if sp = .gl then [(.w, t.base)] else []) ++ (if mx then [(.w, x.sn (b.val + 1))] else [])))
      ∧ (early = [] → k.peekBanks early = k))

/-- R173, R363, R364, R365: WRD writes the 144-byte image of each list, zeros for a bank not owned, which sets UAB; WMERGE merges the list at its address in
cluster SRAM into its own, once what issued to the oven queue before it is performed; ASTAT gives the status and the mode of an owned bank, and of another 0, with UAB set.
The place in the order of the oven queue is the model's (log 66); without an active, guard-true lane these have no effect and make no check of values (log 40: DEDUCED). -/
def Obligations.WinnerLists : Prop :=
  ∀ (c : Ctl) (a b : Fin 64) (w : Fin 96) (n : BitVec 7) (d : Opnd) (bk : Fin 12),
    Commands (.wrd c a w n) c (fun s x =>
      let p := x.sv a
      let rows := (List.range n.toNat).map (fun i => w.val + i)
      let k := s.core x.core
      n ≠ 0 → w.val + n.toNat ≤ 96 → p % 16 = 0 → p + 144 * n.toNat ≤ x.wg.rec_.scratch → x.rowsFit rows → (∀ r ∈ rows, k.busy (r / 8) = false) →
      ∃ t y, Leads (.wrd c a w n) s t ∧ t.grp x.core x.g = some y
        ∧ y.bare = { x.gr.bare with gstat := if ∀ r ∈ rows, k.owns x.wg.uid (r / 8) = true then x.gr.gstat else x.gr.gstat ||| 1 }
        ∧ (∀ r l, l < 64 → y.reg r l = x.gr.reg r l) ∧ y.vfl = x.gr.vfl ∧ Went x y x.thru
        ∧ Stored s t ((List.range n.toNat).flatMap (fun i => x.puts .sp (p + 144 * i)
            (if k.owns x.wg.uid ((w.val + i) / 8) then (k.wlist (w.val + i)).image else List.replicate 144 0)))
        ∧ Around s t x.core x.g)
    ∧ Commands (.wmerge c w a b) c (fun s x =>
      let p := x.sv a
      let im := x.read s .cl false p 144
      let k := s.core x.core
      let word (o : Nat) : Nat := fromLE ((im.drop o).take 4)
      let es := (List.range (word 0)).map (fun e => (word (16 + 8 * e), (word (20 + 8 * e) + x.sv b % 2 ^ 32) % 2 ^ 32))
      p % 16 = 0 → p + 144 ≤ x.wg.rec_.clsram → word 0 ≤ 16 → k.owns x.wg.uid (w.val / 8) = true → x.poisonAt .cl false p 144 = false → k.poison = [] →
      (¬ x.myTurn → QueuesUp (.wmerge c w a b) s x (some (w.val / 8)) none)
      ∧ (x.myTurn → ∃ k', Goes (.wmerge c w a b) s x ((x.peek s .cl 144 [p]).modCore x.core (fun _ => k')) ∧ (k.served x.gr.uid).bankwise k' ∧ k'.banks = k.banks
          ∧ ∀ j, k'.wlist j = if j = w.val then (k.wlist w.val).merge es (word 8) else k.wlist j))
    ∧ Commands (.astat c d bk) c (fun s x =>
      let k := s.core x.core
      let gives (m : State) (v : Nat) (u : DWord) : Prop := ∃ t y, Leads (.astat c d bk) s t ∧ t.grp x.core x.g = some y
        ∧ Wrote x.popped t y false d (fun _ => BitVec.ofNat 64 v) ∧ y.bare = { x.gr.bare with gstat := u }
        ∧ (∀ r l, l < 64 → r ∉ destRegs false d ++ qRegs c → y.reg r l = x.gr.reg r l) ∧ y.vfl = x.gr.vfl ∧ Went x y x.thru ∧ Quiet m t x.core x.g ∧ SameBytes s t
      (k.owns x.wg.uid bk.val = true → k.busy bk.val = false → gives s ((k.bank bk.val).status.toNat
        + 256 * (match (k.bank bk.val).mode with | .unset => 0 | .fp32 => 1 | .int32 => 2)) x.gr.gstat)
      ∧ (k.owns x.wg.uid bk.val = true → k.busy bk.val = true → ∃ v, gives (s.modCore x.core (fun k => k.peekBanks [bk.val])) v x.gr.gstat)
      ∧ (k.owns x.wg.uid bk.val = false → x.gr.gctl.getLsbD 1 = false → gives s 0 (x.gr.gstat ||| 1))
      ∧ (k.owns x.wg.uid bk.val = false → x.gr.gctl.getLsbD 1 = true → Traps (.astat c d bk) s x (x.trapInfo 0x11 bk.val 0 x.act)))

/-- R366, R368: SELK and SORTR on operands that fit start one asynchronous operation over scratchpad, and nothing else changes. Without an active, guard-true lane
they have no effect and make no check of values (log 40: DEDUCED). -/
def Sys2Proof.Rules.Selections : Prop :=
  ∀ (c : Ctl) (exp asc : Bool) (a b : Fin 64) (word : Word),
    let src (x : Iss) : Nat := x.sv a % 2 ^ 32
    let len (x : Iss) : Nat := x.sv a / 2 ^ 32
    let dst (x : Iss) : Nat := x.sv b % 2 ^ 32
    let k (x : Iss) : Nat := x.sv b / 2 ^ 32 % 2 ^ 9
    let nr (x : Iss) : Nat := x.sv b / 2 ^ 32 % 2 ^ 16
    Starts (if exp then .selkExp c a b word else .selkSum c a b word) c 3
      (fun x => len x ≤ 65536 ∧ 0 < k x ∧ k x ≤ 256 ∧ x.sv b / 2 ^ 41 = 0 ∧ src x % 4 = 0 ∧ dst x % 4 = 0 ∧ x.wordFits (wordOf word.toNat)
        ∧ (len x ≠ 0 → src x + 4 * len x ≤ x.wg.rec_.scratch) ∧ dst x + 16 + 8 * k x ≤ x.wg.rec_.scratch)
      (fun _ => wordOf word.toNat) (fun x => .selk exp (src x) (len x) (dst x) (k x))
    ∧ Starts (.sortr c asc a b word) c 3
      (fun x => 0 < len x ∧ len x ≤ 4096 ∧ 0 < nr x ∧ x.sv b / 2 ^ 48 = 0 ∧ src x % 8 = 0 ∧ dst x % 8 = 0 ∧ x.wordFits (wordOf word.toNat)
        ∧ src x + 8 * len x * nr x ≤ x.wg.rec_.scratch ∧ dst x + 8 * len x * nr x ≤ x.wg.rec_.scratch)
      (fun _ => wordOf word.toNat) (fun x => .sortr asc (src x) (len x) (dst x) (nr x))

/-- Instructions that start an engine operation and change nothing else (R339, R357, R366, R368). -/
def Obligations.EngineStarts : Prop := Rules.Fetches ∧ Rules.Companions ∧ Rules.Selections

/-! Tensor entries, the sifter and the peel. -/

/-- R87, R372: TIDSET .set puts the image at its address into the context's entry, VALID set, or traps with 0x16 where R87 does not accept it; .clr makes
the entry zeros; TIDGET writes the entry's image. -/
def Obligations.TensorEntries : Prop :=
  ∀ (c : Ctl) (sp : ImSpace) (ta : Fin 256) (a : Fin 64),
    Commands (.tidsetSet c sp ta a) c (fun s x =>
      let p := x.sv a
      let im : BitVec 1024 := BitVec.ofNat 1024 (fromLE (x.read s (imSpace sp) false p 128))
      x.imFits sp .r p 128 → x.poisonAt (imSpace sp) false p 128 = false →
      (tenLegal im = true → Goes (.tidsetSet c sp ta a) s x
        ((x.imPaid (x.peek s (imSpace sp) 128 [p]) sp .r p 128).modCtx x.wg.ctx (fun k => { k with tens := Tab.set k.tens ta.val (im ||| BitVec.ofNat 1024 (2 ^ 31)) })))
      ∧ (tenLegal im = false → Traps (.tidsetSet c sp ta a) s x (x.trapInfo 0x16 ta.val 0 x.act)))
    ∧ Commands (.tidsetClr c sp ta) c (fun s x =>
      Goes (.tidsetClr c sp ta) s x (s.modCtx x.wg.ctx (fun k => { k with tens := Tab.del k.tens ta.val })))
    ∧ Commands (.tidget c sp ta a) c (fun s x =>
      let p := x.sv a
      x.imFits sp .w p 128 → (sp = .gl → x.act ≠ 0 → ∀ i < 128, ∃ q k, s.translate x.wg.ctx .w (p + i) = .pa q k) →
      ∃ t y, Leads (.tidget c sp ta a) s t ∧ t.grp x.core x.g = some y ∧ Kept x y [] ∧ y.vfl = x.gr.vfl ∧ Went x y x.thru
        ∧ Stored s t (x.puts (imSpace sp) p (toLE 128 (s.tensor x.wg.ctx ta.val).toNat)) ∧ Around s t x.core x.g)

/-- R376 to R378: CXDEF on entries that fit sets its cursor to the rows named, at their start; CXSPLIT on a valid cursor, not split, that has delivered
no pair sets its split, and traps with 0x19 on any other. -/
def Sys2Proof.Rules.CursorSetting : Prop :=
  ∀ (c : Ctl) (cu : Fin 4) (ta tb : Fin 256) (a b : Fin 64),
    let new (x : Iss) (op : CxOp) (t : Option (Fin 256)) : Cursor :=
      { Cursor.empty with valid := true, op := op, ta := ta.val, tb := (t.map Fin.val).getD 0, da := x.ten ta, db := (t.map x.ten).getD 0,
                          r0 := x.sv a % 2 ^ 32, nr := x.sv a / 2 ^ 32, row := x.sv a % 2 ^ 32 }
    let rows (x : Iss) : Prop :=
      let t := Ten.of (x.ten ta)
      tenValid (x.ten ta) = true ∧ 3 ≤ t.senc ∧ x.sv a / 2 ^ 32 ≠ 0 ∧ x.sv a % 2 ^ 32 + x.sv a / 2 ^ 32 ≤ t.e1
    let pairs (x : Iss) : Prop :=
      let t := Ten.of (x.ten tb)
      tenValid (x.ten tb) = true ∧ (t.senc = 0 ∨ 3 ≤ t.senc) ∧ t.e0 = (Ten.of (x.ten ta)).e0 ∧ (t.ndim ≠ 0 → x.sv a % 2 ^ 32 + x.sv a / 2 ^ 32 ≤ t.e1)
    Commands (.cxdefOne c cu ta a) c (fun s x => rows x →
      GoesBy (.cxdefOne c cu ta a) s x s (fun g => { g with cur := g.cur.set cu.val (new x .one none) }))
    ∧ (∀ op, op = .and ∨ op = .or →
        let i : Instr := if op = .and then .cxdefAnd c cu ta tb a else .cxdefOr c cu ta tb a
        Commands i c (fun s x => rows x → pairs x → GoesBy i s x s (fun g => { g with cur := g.cur.set cu.val (new x op (some tb)) })))
    ∧ Commands (.cxsplit c cu a b) c (fun s x =>
        let k := x.gr.cursor cu.val
        let u := x.sv b
        (k.valid = true ∧ k.split = none ∧ k.begun = false → x.sv a % 2 ^ 32 ≠ 0 → u % 2 ^ 6 ≤ u / 2 ^ 8 % 2 ^ 6 → u / 2 ^ 6 % 4 = 0 → u / 2 ^ 14 = 0 →
          let k' : Cursor := { k with split := some (x.sv a % 2 ^ 32, u % 2 ^ 6, u / 2 ^ 8 % 2 ^ 6 + 1) }
          GoesBy (.cxsplit c cu a b) s x s (fun g => { g with cur := g.cur.set cu.val k' }))
        ∧ (¬ (k.valid = true ∧ k.split = none ∧ k.begun = false) → Traps (.cxsplit c cu a b) s x (x.trapInfo 0x19 cu.val 0 x.act)))

/-- R379, R380: CXFILL on a valid cursor waits for its data at a blocking point or fills its lanes at once: the lanes that its next pairs supply, in
ascending order, hold row, coordinate and positions in four registers and go on, the others go to the target with its priority, and the cursor stands
after those pairs. An invalid cursor traps with 0x19; a pair out of order with 0x1A, the cursor recording it; an absent page parks the group, the cursor keeping what
its reading has read (R197). That it may wait at its first issue is the model's choice (log 34). -/
def Obligations.CursorFill : Prop :=
  ∀ (c : Ctl) (cu : Fin 4) (d : Fin 256) (pri : BitVec 16) (tgt : BitVec 32) s x, Issues (.cxfill c cu d pri tgt) c s x →
    let i : Instr := .cxfill c cu d pri tgt
    let k := x.gr.cursor cu.val
    let fills (ps : List CxPair) (k' : Cursor) : Prop :=
      let got := x.lanes.zip ps
      let m := maskOf (got.map Prod.fst)
      ∃ t y, Leads i s t ∧ t.grp x.core x.g = some y
        ∧ (∀ e ∈ got, y.v? d.val e.1 = BitVec.ofNat 32 e.2.row ∧ y.v? (d.val + 1) e.1 = BitVec.ofNat 32 e.2.c
            ∧ y.v? (d.val + 2) e.1 = BitVec.ofNat 32 e.2.posA ∧ y.v? (d.val + 3) e.1 = BitVec.ofNat 32 e.2.posB)
        ∧ (∀ r l, l < 64 → ¬ (laneIn m l = true ∧ ∃ j < 4, r = .v (d.val + j)) → y.reg r l = x.gr.reg r l)
        ∧ y.bare = { x.gr.bare with cur := x.gr.cur.set cu.val k' } ∧ y.vfl = x.gr.vfl
        ∧ Went x y [{ mask := x.cur.mask &&& m, pc := x.next, pri := x.cur.pri },
                    { mask := x.cur.mask &&& ~~~ m, pc := x.cur.pc + BitVec.ofInt 64 (4 * tgt.toInt), pri := pri }]
        ∧ Quiet (x.ask s (x.readSecs k.seen k'.seen)) t x.core x.g ∧ SameBytes s t
    (k.valid = false → Traps i s x (x.trapInfo 0x19 cu.val 0 x.act))
    ∧ (k.valid = true → x.act = 0 ∨ k.ended = true → fills [] k)
    ∧ (k.valid = true → x.act ≠ 0 → k.ended = false → ∀ r, k.fill x.rd x.lanes.length = r →
        (∃ t y w, Leads i s t ∧ t.grp x.core x.g = some y ∧ y.status = .blocked w ∧ w.pc = x.cur.pc ∧ w.mask = x.cur.mask ∧ y.fr = x.gr.fr
          ∧ (∀ r l, l < 64 → y.reg r l = x.gr.reg r l) ∧ y.bare = x.gr.bare ∧ SameBytes s t)
        ∨ match r with
          | .ok (ps, k') => fills ps k'
          | .error (.unsorted fsb fpt pos addr) =>
            let k' : Cursor := { k with flt := true, fsb := fsb, fpt := fpt, fpos := BitVec.ofNat 32 pos, seen := [] }
            Leads i s (((s.modGrp x.core x.g (fun g => { g with cur := g.cur.set cu.val k' })).takeTrap x.core x.g (x.trapInfo 0x1A cu.val addr x.act)).endIssue)
          | .error (.trap no sub addr) => Traps i s x (x.trapInfo no sub addr x.act)
          | .error (.park va seen) => ∃ t y p, Leads i s t ∧ t.grp x.core x.g = some y ∧ y.status = .parked p ∧ p.addr = BitVec.ofNat 64 va
              ∧ y.cur = x.gr.cur.set cu.val { k with seen := seen } ∧ SameBytes s t)

/-- R381, R382: CXCUR .save writes an image of the cursor, .load of an image that .save wrote for the context sets the cursor to what was saved, over a new
reading of its tensor entries, .info gives the two registers of R382 and .drop makes the cursor invalid. ROW and PA are those of Cursor.position, which finds them without
checks of translation or poison (log 23: DEDUCED; log 33). The form of the image, a number under which the context keeps the cursor, is the model's choice (log 33), not
R381's. -/
def Sys2Proof.Rules.CursorState : Prop :=
  ∀ (c : Ctl) (cu : Fin 4) (a d : Fin 64),
    let addr (x : Iss) : Nat := x.sv a
    let fits (x : Iss) : Prop := addr x % 16 = 0 ∧ addr x + 16 ≤ x.wg.rec_.scratch
    Commands (.cxcurSave c cu a) c (fun s x => fits x →
      ∃ t y, Leads (.cxcurSave c cu a) s t ∧ t.grp x.core x.g = some y ∧ Kept x y [] ∧ y.vfl = x.gr.vfl ∧ Went x y x.thru
        ∧ Stored s t (x.puts .sp (addr x) (toLE 16 (cursorImage s.nextId)))
        ∧ Around { s.modCtx x.wg.ctx (fun k => { k with saved := Tab.set k.saved s.nextId (x.gr.cursor cu.val) }) with nextId := s.nextId + 1 } t x.core x.g)
    ∧ Commands (.cxcurLoad c cu a) c (fun s x => fits x → x.wg.poisoned .scratch (addr x) 16 = false →
      ∀ n w k, n < 2 ^ 96 → fromLE (x.wg.spRead (addr x) 16) = cursorImage n → Tab.get s.ctxs x.wg.ctx = some w → Tab.get w.saved n = some k →
        let k' : Cursor := { k with da := s.tensor x.wg.ctx k.ta, db := if k.op = .one then 0 else s.tensor x.wg.ctx k.tb, flt := false, fsb := false, fpt := false,
                                    fpos := 0, seen := [] }
        GoesBy (.cxcurLoad c cu a) s x s (fun g => { g with cur := g.cur.set cu.val (if k.valid then k' else Cursor.empty) }))
    ∧ Commands (.cxcurInfo c cu d) c (fun s x =>
      let k := x.gr.cursor cu.val
      let r := k.info x.rdAll
      let v := r.1.1
      let w := r.1.2
      GoesBy (.cxcurInfo c cu d) s x (x.ask s (x.readSecs k.seen r.2)) (fun g =>
          ({ g with cur := g.cur.set cu.val { k with seen := if k.flt && k.seen.isEmpty then [] else r.2 } }.setS d.val (BitVec.ofNat 64 v)).setS (d.val + 1) (BitVec.ofNat 64 w))
        ∧ (k.valid = false → v = 0 ∧ w = 0)
        ∧ (k.valid = true → v.testBit 32 = true ∧ v.testBit 33 = k.ended ∧ v.testBit 34 = k.split.isSome ∧ v.testBit 35 = k.flt ∧ v.testBit 36 = k.fsb
            ∧ v.testBit 37 = k.fpt ∧ v / 2 ^ 38 = 0 ∧ w / 2 ^ 32 = (if k.flt then k.fpos.toNat else 0)
            ∧ ∀ p, (k.position x.rdAll k.seen).toOption.map Prod.fst = some p → v % 2 ^ 32 = p.1 % 2 ^ 32 ∧ w % 2 ^ 32 = p.2 % 2 ^ 32))
    ∧ Commands (.cxcurDrop c cu) c (fun s x => GoesBy (.cxcurDrop c cu) s x s (fun g => { g with cur := g.cur.set cu.val Cursor.empty }))

/-- What sets a cursor and what moves one out of and into a group (R376 to R378, R381, R382). -/
def Obligations.Cursors : Prop := Rules.CursorSetting ∧ Rules.CursorState

/-- R383 to R387: WALKDEF puts the rule program at its address into the context's slot, or traps with 0x02 where R383 and R384 do not accept it; WALK and
IRED on operands that fit start one operation with a walk or a bag per active, guard-true lane, and wait where the engine has no room for them. -/
def Obligations.WalksAndBags : Prop :=
  ∀ (c : Ctl) (slot : Fin 16) (sp : ImSpace) (a : Fin 64) (acc bf16 : Bool) (ta : Fin 256) (oa ob oc : Opnd) (word : Word),
    Commands (.walkdef c slot sp a) c (fun s x =>
      let p := x.sv a
      let h := fromLE (x.read s (imSpace sp) false p 16)
      let nr := h % 2 ^ 5
      let rs := (List.range nr).map (fun i => BitVec.ofNat 128 (fromLE (x.read s (imSpace sp) false (p + 16 + 16 * i) 16)))
      x.imFits sp .r p (16 + 16 * nr) → x.poisonAt (imSpace sp) false p 16 = false → x.poisonAt (imSpace sp) false p (16 + 16 * nr) = false →
      (∀ g, walkProg h rs = some g → Goes (.walkdef c slot sp a) s x
        ((x.imPaid (x.peek s (imSpace sp) (16 + 16 * nr) [p]) sp .r p (16 + 16 * nr)).modCtx x.wg.ctx (fun k => { k with walks := Tab.set k.walks slot.val g })))
      ∧ (walkProg h rs = none → Traps (.walkdef c slot sp a) s x (x.trapInfo 0x02 1 0 x.act)))
    ∧ Commands (.walk c slot oa ob oc word) c (fun s x => ∀ k p, Tab.get s.ctxs x.wg.ctx = some k → Tab.get k.walks slot.val = some p →
      let v := x.popped
      x.wordFits (wordOf word.toNat) → (∀ l ∈ x.lanes, v.w32 oc l % 16 = 0 ∧ v.w32 oc l + 16 + p.rs ≤ x.wg.rec_.scratch) →
      let ws := x.lanes.map (fun l => walkStart p l (v.w64 oa l) (v.w64 ob l) (v.w32 oc l))
      ((s.core x.core).walks + x.lanes.length ≤ Config.walkLimit → Goes (.walk c slot oa ob oc word) s x
        (x.bindTo (s.withOp x.core (x.op s 5 (wordOf word.toNat) (.walk p ws))) (wordOf word.toNat) [x.wg.uid] (ws.map (fun w => (.r, w.r.toNat)))))
      ∧ ((s.core x.core).walks + x.lanes.length > Config.walkLimit → Waits (.walk c slot oa ob oc word) s))
    ∧ Commands (.ired c acc bf16 ta oa ob word) c (fun s x =>
      let v := x.popped
      let t := Ten.of (x.ten ta)
      tenValid (x.ten ta) = true → (t.fmt = 0 ∨ t.fmt = 10) → t.slay = 0 → t.senc = 0 → t.ndim ≠ 0 → t.e0 ≤ 4096 → x.wordFits (wordOf word.toNat) →
      (∀ l ∈ x.lanes, v.w64 oa l % 4 = 0 ∧ v.w64 oa l < 2 ^ 57 ∧ v.w64 ob l % (if bf16 then 2 else 4) = 0 ∧ v.w64 ob l < 2 ^ 57) →
      ((s.core x.core).bags + x.lanes.length ≤ Config.bagLimit → Goes (.ired c acc bf16 ta oa ob word) s x
        (x.bindTo (s.withOp x.core (x.op s 6 (wordOf word.toNat)
          (.ired acc bf16 (x.ten ta) (x.lanes.map (fun l => { lane := l, list := BitVec.ofNat 64 (v.w64 oa l), dest := BitVec.ofNat 64 (v.w64 ob l), parked := none })))))
          (wordOf word.toNat) [x.wg.uid] ((.r, t.base) :: x.lanes.map (fun l => (.r, v.w64 oa l)) ++ x.lanes.map (fun l => (.w, v.w64 ob l)))))
      ∧ ((s.core x.core).bags + x.lanes.length > Config.bagLimit → Waits (.ired c acc bf16 ta oa ob word) s))

/-! System instructions. -/

/-- R226, R389 to R393: ENGWAIT goes on once no operation of its group in its classes is outstanding, acquiring the completions of its oven operations, and blocks until then; PLEV sets the workgroup's rail
request; TRAP takes trap 0x20 with its code, BRK trap 0x21 whatever its guard; SYS .rd gives a trap register and .wr sets TVEC or TFRAME, and an
illegal number or value traps with 0x02. -/
def Sys2Proof.Rules.SystemInstructions : Prop :=
  ∀ (c : Ctl) (mask code num : BitVec 8) (a : Opnd) (d : Fin 64),
    (∀ s x, Issues (.engwait c mask) c s x →
      let ended : Prop := (∀ o ∈ (s.core x.core).eng, o.grp = x.gr.uid → mask.getLsbD o.cls = false)
        ∧ (mask.getLsbD 0 = true → ∀ o ∈ (s.core x.core).ovenQ, o.grp ≠ x.gr.uid)
      (x.act = 0 → Goes (.engwait c mask) s x s)
      ∧ (x.act ≠ 0 → ended → Goes (.engwait c mask) s x (if mask.getLsbD 0 then s.acquire x.core x.wg.uid (fun d => d.grp == x.gr.uid) else s))
      ∧ (x.act ≠ 0 → ¬ ended → ∃ t y w, Leads (.engwait c mask) s t ∧ t.grp x.core x.g = some y ∧ y.status = .blocked w ∧ w.pc = x.cur.pc ∧ w.mask = x.cur.mask
          ∧ y.fr = x.gr.fr ∧ y.bare = x.gr.bare ∧ (∀ r l, l < 64 → y.reg r l = x.gr.reg r l) ∧ SameBytes s t))
    ∧ Commands (.plev c a) c (fun s x => let v := x.popped.w64 a 0
        (v ≤ 1 → Goes (.plev c a) s x (s.modWg x.core x.wg.uid (fun w => { w with rail := decide (v = 1) })))
        ∧ (v > 1 → Traps (.plev c a) s x (x.trapInfo 0x02 1 0 x.act)))
    ∧ Commands (.trap c code) c (fun s x => Traps (.trap c code) s x (x.trapInfo 0x20 code.toNat 0 x.act))
    ∧ (∀ s x, Issues (.brk c) c s x → Traps (.brk c) s x (x.trapInfo 0x21 0 0 x.cur.mask))
    ∧ Commands (.sysRd c num d) c (fun s x =>
        let gives (v : DWord) : Prop := GoesBy (.sysRd c num d) s x s (fun g =>
          let g := g.setS d.val v
          if c.q then (lanesOf x.act).foldl (fun g l => (g.setQ 1 l (x.gr.q? 0 l)).setQ 0 l (v.setWidth 32)) g else g)
        (num = 0 → gives x.wg.tvec) ∧ (num = 1 → gives x.wg.tframe) ∧ (num = 2 → gives (if x.wg.handler = some x.gr.uid then 1 else 0))
        ∧ (3 ≤ num.toNat → Traps (.sysRd c num d) s x (x.trapInfo 0x02 0 0 x.act)))
    ∧ Commands (.sysWr c num a) c (fun s x => let v := x.popped.w64 a 0
        (num = 0 → v % 4 = 0 → v < 2 ^ 32 → Goes (.sysWr c num a) s x (s.modWg x.core x.wg.uid (fun w => { w with tvec := BitVec.ofNat 64 v })))
        ∧ (num = 1 → v % 2 ^ 11 = 0 → v < 2 ^ 57 → Goes (.sysWr c num a) s x (s.modWg x.core x.wg.uid (fun w => { w with tframe := BitVec.ofNat 64 v })))
        ∧ (¬ (num = 0 ∧ v % 4 = 0 ∧ v < 2 ^ 32) → ¬ (num = 1 ∧ v % 2 ^ 11 = 0 ∧ v < 2 ^ 57) → Traps (.sysWr c num a) s x (x.trapInfo 0x02 1 0 x.act)))

/-- R192: acquiring completions of a workgroup's oven operations ends their windows and changes nothing else, where no operand was written, no result read early and no
MFENCE missing; else what the operation wrote becomes undefined: the elements of its rows that no later operation of the queue has replaced are free values. -/
def Sys2Proof.Rules.Acquires : Prop :=
  ∀ (s : State) (c wg ws : Nat) (w : Workgroup) (p : OvenDone → Bool), (s.core c).wgOf wg = some (ws, w) →
    let t := s.acquire c wg p
    ((∀ d ∈ w.done, p d = true → d.spoilt w = false ∧ d.norm = none) →
      { t with cores := s.cores } = s ∧ (∀ k, k ≠ c → t.core k = s.core k) ∧ { t.core c with wgs := (s.core c).wgs } = s.core c
      ∧ (t.core c).wgOf wg = some (ws, { w with done := w.done.filter (fun d => !p d),
                                                watch := w.watch.filter (fun e => w.done.all (fun d => !p d || d.id != e.op)) }))
    ∧ ∀ d o, w.done.filter p = [d] → d.spoilt w = true → d.norm = none → d.op = some o → o.topk = false → o.x.n.toNat ≤ 192 →
        ∀ r < o.x.m.toNat, ∀ f, (8 * o.x.af.val + r, f) ∈ d.rows → (s.core c).owns wg (o.x.af.val + r / 8) = true →
          ∀ j < o.x.n.toNat, f ≤ j → ((t.core c).bank (o.x.af.val + r / 8)).elem (192 * (r % 8) + j) = (Config.freeWord d.nonce (192 * r + j)).toNat

/-- MFENCE, the system instructions, and what acquiring a completion does (R192, R332, R389 to R393). -/
def Obligations.FenceAndSystem : Prop := Rules.MemoryFence ∧ Rules.SystemInstructions ∧ Rules.Acquires

/-! Traps (R249 to R257). -/

/-- R249 to R255: taking a trap outside the handler traps its group with the trap recorded, PEND where its workgroup is halting already, and else
halts the workgroup with the group as its initiator; registers, frontier, other groups and memory stay. In the handler it is a double trap: the launch
fails with status 0x11 and both trap numbers, and the workgroup is gone. -/
def Obligations.TrapTaking : Prop :=
  ∀ (s : State) (c g : Nat) (x : Group) (ws : Nat) (w : Workgroup) (t : TrapInfo), s.grp c g = some x → (s.core c).wgOf x.wg = some (ws, w) →
    let u := s.takeTrap c g t
    (w.handler ≠ some x.uid →
      (∃ y, u.grp c g = some y ∧ y.status = .trapped ∧ y.trap = some t ∧ y.tpend = w.halt.isSome ∧ y.fr = x.fr ∧ x.sameRegs y)
      ∧ (∀ d h, ¬ (d = c ∧ h = g) → u.grp d h = s.grp d h) ∧ SameBytes s u
      ∧ ∃ v, (u.core c).wgOf x.wg = some (ws, v) ∧ { v with halt := none } = { w with halt := none }
        ∧ ∃ h, v.halt = some h ∧ (w.halt = some h ∨ (w.halt = none ∧ h.init = x.uid)))
    ∧ (w.handler = some x.uid → (u.core c).wgOf x.wg = none ∧ ∀ l, Tab.get s.launches w.launch = some l → l.failed = false →
        ∃ m rest, u.outbox = s.outbox ++ m :: rest ∧ m.cseq = l.seq ∧ m.code = 0x11 ∧ m.trapno = (x.trap.map TrapInfo.no).getD 0 ∧ m.ntrap = t.no)

/-- R249, R251, R253, R386: at its next pick a group takes its first marked trap, an imprecise one with the picked entry's PC; a group of a halting workgroup that has not
stopped is trapped without a trap number of its own, its wait kept. The model's choices (log 16, log 48), not R251's or R253's: the FMASK of an imprecise trap is the
picked lanes (for trap 0x22 those of the walks) and a sibling's FMASK is 0; a wait that the trap finds is kept across it; and a trap whose number R249 gives as
precise (0x09 to 0x0C), marked for an engine operation, names the instruction that issued the operation. -/
def Sys2Proof.Rules.Halting : Prop :=
  (∀ (s : State) (c g : Nat) (x : Group) (t : TrapInfo) (rest : List TrapInfo) (e : Entry),
    s.grp c g = some x → g < 32 → x.status = .runnable → x.imprec = t :: rest → x.pick = some e →
    Leads (if t.no = 0x22 then .walkFaultTrap c g else .impreciseTrap c g) s
      ((s.modGrp c g (fun y => { y with imprec := y.imprec.drop 1, status := y.kept.getD y.status })).takeTrap c g
        (if 0x09 ≤ t.no.toNat ∧ t.no.toNat ≤ 0x0C then t else { t with pc := e.pc, fmask := if t.no = 0x22 then t.fmask else e.mask })))
  ∧ ∀ (s : State) (c g : Nat) (x : Group) (ws : Nat) (w : Workgroup), s.grp c g = some x → (s.core c).wgOf x.wg = some (ws, w) →
    w.halt ≠ none → w.handler = none → g < 32 → x.status ≠ .trapped →
    ∃ t y, Leads (.siblingHalt c g) s t ∧ t.grp c g = some y ∧ y.status = .trapped ∧ y.fr = x.fr ∧ x.sameRegs y
      ∧ (∃ p, y.trap = some p ∧ p.no = 0 ∧ p.sub = 0 ∧ p.addr = 0 ∧ p.fmask = 0 ∧ p.pc = ((x.pick.map Entry.pc).getD 0))
      ∧ y.kept = (match x.status with | .blocked _ | .parked _ => some x.status | _ => x.kept)
      ∧ (∀ d h, ¬ (d = c ∧ h = g) → t.grp d h = s.grp d h) ∧ SameBytes s t

/-- R250, R253 to R255: once every group of a halted workgroup has stopped, the frame of each live group is written at TFRAME plus 0x800 times its slot, and
the initiator goes to CB plus TVEC with its live lanes, priority 0xFFFF, its frame's address in s62 and its cause word in s63; the other live groups keep
all but results already due (log 26). Without a handler, without frames or where a frame may not be written, the launch fails with status 0x10 and the trap number, and the workgroup is gone. -/
def Sys2Proof.Rules.HandlerEntry : Prop :=
  ∀ (s : State) (c u ws g : Nat) (w : Workgroup) (h : Halt) (x : Group), (s.core c).wgOf u = some (ws, w) → w.halt = some h → w.handler = none →
    (s.core c).stopped u = true →
    let live := (s.core c).grps.filter (fun e => e.2.wg == w.uid && decide (e.1 < 32))
    let ok : Prop := w.tframe ≠ 0 ∧ w.tvec ≠ 0 ∧ ∀ e ∈ live, s.near w.ctx .w (w.tframe.toNat + 0x800 * e.1) 0x440
    live.find? (fun e => e.2.uid == h.init) = some (g, x) → s.grp c g = some x →
    (ok → ∃ t y v, Leads (.trapFrameWrite c u) s t ∧ t.grp c g = some y
      ∧ y.fr = [{ pc := w.cb + w.tvec, pri := 0xFFFF, mask := liveMask x.fr, age := 0 }] ∧ y.status = .runnable
      ∧ y.s? 62 = BitVec.ofNat 64 (w.tframe.toNat + 0x800 * g) ∧ y.s? 63 = BitVec.ofNat 64 (causeWord x true ws)
      ∧ (∀ r l, r ≠ .s 62 → r ≠ .s 63 → y.reg r l = x.reg r l) ∧ y.vfl = x.vfl
      ∧ Stored s t (live.flatMap (fun e => s.globalPuts w.ctx (w.tframe.toNat + 0x800 * e.1) (frameOf e.2 (e.2.uid == h.init) ws)))
      ∧ (t.core c).wgOf u = some (ws, v) ∧ v.handler = some h.init ∧ (∃ k, v.halt = some k ∧ k.init = h.init ∧ k.frame = w.tframe)
      ∧ ∀ d k, ¬ (d = c ∧ k = g) → t.grp d k = s.grp d k ∨ (d = c ∧ k ∈ live.map Prod.fst ∧ t.grp d k = (s.grp d k).map (fun z => { z with pend := [] })))
    ∧ (¬ ok → ∃ t, Leads (.trapFrameWrite c u) s t ∧ (t.core c).wgOf u = none ∧ ∀ l, Tab.get s.launches w.launch = some l → l.failed = false →
        ∃ m rest, t.outbox = s.outbox ++ m :: rest ∧ m.cseq = l.seq ∧ m.code = 0x10 ∧ m.trapno = (x.trap.map TrapInfo.no).getD 0)

/-- From a halt to its handler (R249 to R255). -/
def Obligations.HaltsAndHandlers : Prop := Rules.Halting ∧ Rules.HandlerEntry

/-- R256, R392, R393: RFT in the handler, whose frames may be read and hold no reserved bit, gives every live group the frontier, s62 and s63 of its frame,
ends the halt and discards the fetched instructions; the first group whose frame has PEND then starts a new halt with the trap of its frame. RFT
of any other group traps with 0x03. The frames lie where the halt wrote them (haltAt, log 32: the model's choice), and the traps of the other frames with PEND are
recorded in the same halt (log 56). -/
def Obligations.TrapReturn : Prop :=
  ∀ (c : Ctl) s x, Issues (.rft c) c s x →
    let gs := (s.core x.core).slotsOf x.wg.uid
    let cause (g : Nat) : Nat := s.frameField x.wg g 0 8
    (x.wg.handler ≠ some x.gr.uid → Traps (.rft c) s x (x.trapInfo 0x03 0 0 x.cur.mask))
    ∧ (x.wg.handler = some x.gr.uid → gs ≠ [] → s.unmarked = true →
      (∀ g ∈ gs, s.near x.wg.ctx .r (x.wg.haltAt g) 0x440 ∧ cause g / 2 ^ 32 = 0 ∧ (cause g).testBit 23 = false) →
      (∀ g ∈ gs, ∀ z, s.grp x.core g = some z → s.rebuilt x.wg g z.width ≠ []) →
      ∃ t v, Leads (.rft c) s t ∧ (t.core x.core).wgOf x.wg.uid = some (x.wslot, v) ∧ v.handler = none ∧ v.fetched = [] ∧ SameBytes s t
        ∧ (∀ g ∈ gs, ∀ z, s.grp x.core g = some z → ∃ y, t.grp x.core g = some y ∧ y.fr = s.rebuilt x.wg g z.width
            ∧ y.s? 62 = BitVec.ofNat 64 (s.frameField x.wg g 0x28 8) ∧ y.s? 63 = BitVec.ofNat 64 (s.frameField x.wg g 0x30 8)
            ∧ (∀ r l, r ≠ .s 62 → r ≠ .s 63 → y.reg r l = z.reg r l) ∧ y.vfl = z.vfl)
        ∧ ((∀ g ∈ gs, (cause g).testBit 17 = false) → v.halt = none ∧ ∀ g ∈ gs, ∀ y, t.grp x.core g = some y → y.trap = none ∧ y.tpend = false)
        ∧ ∀ pre g post z, gs = pre ++ g :: post → (cause g).testBit 17 = true → s.grp x.core g = some z → z.wg = x.wg.uid →
            ∃ y p, t.grp x.core g = some y ∧ y.status = .trapped ∧ y.trap = some p ∧ p.no = BitVec.ofNat 8 (cause g)
              ∧ ((∀ k ∈ pre, (cause k).testBit 17 = false) → ∃ k, v.halt = some k ∧ k.init = z.uid))

/-- R117 to R119, R44, R47: before any effect of an instruction, operands that its group's and workgroup's declarations do not allow trap with 0x02, a role
that may not issue it with 0x03, and an undersized stall under ESTALL with 0x04; one that touches an absent granule of a lazy restore traps with 0x1F, SUB 0x0A, where the
granule's segment fails its check, and else waits (R263); an issue that must wait is over with nothing changed, and one whose queues are not ready blocks its group at its PC with its mask. -/
def Sys2Proof.Rules.IssueChecks : Prop :=
  ∀ (i : Instr) (e : Enc) s x, encFields i = some e → s.issue i e.c = some x →
    (∀ t, x.pre = .trap t → Traps i s x t)
    ∧ (∀ k, operandSub x.wg x.gr i = some k → x.pre = .trap (x.trapInfo 0x02 k 0 x.cur.mask))
    ∧ (operandSub x.wg x.gr i = none → roleOk i x.gr.role = false → x.pre = .trap (x.trapInfo 0x03 0 0 x.cur.mask))
    ∧ (operandSub x.wg x.gr i = none → roleOk i x.gr.role = true → x.gr.gctl.getLsbD 0 = true → undersized x.gr i e.c = true →
        x.pre = .trap (x.trapInfo 0x04 0 0 x.cur.mask))
    ∧ (operandSub x.wg x.gr i = none → roleOk i x.gr.role = true → (x.gr.gctl.getLsbD 0 = false ∨ undersized x.gr i e.c = false) →
        ∀ a, x.gr.absent.find? (fun a => (granulesOf x.gr i e.c).contains a.1) = some a →
          (s.granuleOf x.wg.ctx a = none → x.pre = .trap (x.trapInfo 0x1F 0x0A 0 x.cur.mask)) ∧ (∀ bs, s.granuleOf x.wg.ctx a = some bs → x.pre = .wait))
    ∧ (x.pre = .wait → Waits i s)
    ∧ (x.pre = .block → ∃ t y w, Leads i s t ∧ t.grp x.core x.g = some y ∧ y.status = .blocked w ∧ w.instr = i ∧ w.pc = x.cur.pc ∧ w.mask = x.cur.mask
        ∧ w.done = 0 ∧ y.fr = x.gr.fr ∧ x.gr.sameRegs y ∧ SameBytes s t)

/-- Checks before any effect of an instruction (R119, R324). -/
def Obligations.ChecksBeforeEffects : Prop := Rules.IssueChecks ∧ Rules.Misalignment

/-! Events of groups and of the proofer. -/

/-- R59, R62, R117, R118, R263, R275, R278: the end of a stall count or of a BKOFF makes its group runnable, that of a CALL or a RET once no arbiter holds the request of its
accesses; a fixed-latency result lands; a variable one retires once no arbiter holds its request, ending its scoreboard entry; the registers of an exited group
without pending writes are released; and the lowest absent granule of a lazy restore whose segment passes its check is filled from it. -/
def Sys2Proof.Rules.GroupEvents : Prop :=
  ∀ (s : State) (c g idx : Nat) (x : Group), s.grp c g = some x →
    (∀ n, x.status = .stalled n → (x.due = none ∨ ∃ q, x.due = some q ∧ ∀ a ∈ s.arbs, ∀ r ∈ a.2.queue, r.id ≠ q) →
        Leads (.stallCountEnd c g) s (s.modGrp c g (fun y => { y with status := .runnable, due := none })))
    ∧ (∀ n q, x.status = .stalled n → x.due = some q → (∃ a ∈ s.arbs, ∃ r ∈ a.2.queue, r.id = q) → exec (.stallCountEnd c g) s = .fault .notEnabled)
    ∧ (∀ n, x.status = .bkoff n → Leads (.bkoffExpiry c g) s (s.modGrp c g (fun y => { y with status := .runnable })))
    ∧ (∀ p, x.pend[idx]? = some p → p.landed = false →
        Leads (.fixedLatencyResult c g idx) s (s.modGrp c g (fun y => { y with pend := y.pend.modify idx (fun q => { q with landed := true }) })))
    ∧ (∀ e, x.sb[idx]? = some e → (∀ a ∈ s.arbs, ∀ r ∈ a.2.queue, r.id ≠ e.req) →
        ∃ t y, Leads (.variableResultRetire c g idx) s t ∧ t.grp c g = some y ∧ y = { x with sb := x.sb.eraseIdx idx }
          ∧ (∀ d h, ¬ (d = c ∧ h = g) → t.grp d h = s.grp d h) ∧ SameBytes s t)
    ∧ (32 ≤ g → x.sb = [] → (∀ p ∈ x.pend, p.landed = true) → Leads (.groupRegisterRelease c g) s (s.modCore c (fun k => { k with grps := Tab.del k.grps g })))
    ∧ (∀ ws w pre e post bs, (s.core c).wgOf x.wg = some (ws, w) → x.absent = pre ++ e :: post → (∀ d ∈ pre, s.granuleOf w.ctx d = none) → s.granuleOf w.ctx e = some bs →
        e.1 = idx → ∃ t y, Leads (.lazyGranuleFill c g idx) s t ∧ t.grp c g = some y
          ∧ y = { x.putGranule idx bs with absent := x.absent.filter (fun a => a.1 != idx) } ∧ (∀ d h, ¬ (d = c ∧ h = g) → t.grp d h = s.grp d h) ∧ SameBytes s t)

/-- R50 to R54: the items of a waiting SPAWN enter together when there is room; a full bin, or at a flush the lowest bin with items, forms a group of its
oldest items with the next %lvl1; and a formed group is admitted into free room with its entry, priority, role and payload, one item per lane in v0
and v1, with empty call stacks, whose headers are written at once where their pages are present; else the group keeps them to be written at its first pick (the model's
choice, log 70). Where a lane's stack lies in the context's private memory is the model's choice too (log 45), as that groups may be admitted in any order of their
formation (log 42). -/
def Obligations.ProoferEvents : Prop :=
  ∀ (s : State) (c u ws : Nat) (w : Workgroup), (s.core c).wgOf u = some (ws, w) →
    let k := s.core c
    let forms (i : Instr) (e n : Nat) : Prop := ∃ t v, Leads i s t ∧ (t.core c).wgOf u = some (ws, v)
      ∧ v = { w with formed := w.formed ++ [(w.spawnIx, e, ((k.bin u e).take n).map (fun p => (p.p0, p.p1)))], spawnIx := (w.spawnIx + 1) % 65536 }
      ∧ (t.core c).bin u e = (k.bin u e).drop n ∧ (∀ v f, (v, f) ≠ (u, e) → (t.core c).bin v f = k.bin v f)
      ∧ (∀ d h, t.grp d h = s.grp d h) ∧ SameBytes s t
    (∀ g x ctl e a b pc mask items, s.grp c g = some x → x.wg = u → x.status = .spawning (.spawn ctl e a b) pc mask items → mask ≠ 0 →
      k.itemCount + items.length ≤ 512 → ∃ t y, Leads (.spawnItemsEnter c g) s t ∧ t.grp c g = some y
        ∧ (t.core c).items = k.items ++ items.map (fun p => { wg := u, e := e.val, p0 := p.1, p1 := p.2 })
        ∧ y.fr = advance x.fr pc [{ mask := mask, pc := pc + BitVec.ofNat 64 (lenBytes ctl.len), pri := x.priAt pc }]
        ∧ y.status = .stalled (stallOf ctl) ∧ x.sameRegs y ∧ SameBytes s t)
    ∧ (∀ e : Fin 4, 0 < w.rec_.spw → w.rec_.spw ≤ (k.bin u e.val).length → forms (.prooferFullFormation c u e) e.val w.rec_.spw)
    ∧ (∀ e < 4, k.flushable w = true → k.bin u e ≠ [] → (∀ f < e, k.bin u f = []) → forms (.prooferFlush c u) e (min w.rec_.spw (k.bin u e).length))
    ∧ (∀ idx slot off row f e items r, w.formed.find? (fun q => q.1 == idx) = some (f, e, items) → w.rec_.spawns[e]? = some r → items.length ≤ 64 →
        let b : Blk := { off := off, width := w.rec_.spw, row := row, rows := rowsFor r.vregs }
        let priv := ((Tab.get s.ctxs w.ctx).map Ctx.privTop).getD 0
        w.halt = none → k.freeSlot none slot = true → s.openBlk c w.ctx b = true →
        ∃ t y v, Leads (.spawnedGroupAdmission c u idx slot off row) s t ∧ t.grp c slot = some y
          ∧ y.fr = [{ pc := w.cb + BitVec.ofNat 64 r.entry, pri := r.pri, mask := maskOf (List.range items.length), age := 0 }]
          ∧ y.role = r.role ∧ y.nregs = r.vregs ∧ y.width = w.rec_.spw ∧ y.idx = idx ∧ y.spawned = true ∧ y.wg = u ∧ y.status = .runnable ∧ y.vfl = []
          ∧ (∀ n p, items[n]? = some p → y.v? 0 n = p.1 ∧ y.v? 1 n = p.2)
          ∧ (t.core c).wgOf u = some (ws, v) ∧ v.formed = w.formed.eraseP (fun q => q.1 == idx) ∧ (∀ h, h ≠ slot → t.grp c h = s.grp c h)
          ∧ ((∀ l < items.length, s.translate w.ctx .w (priv + w.rec_.priv * l) ≠ .absent) →
              y.heads = 0 ∧ Stored s t ((List.range items.length).flatMap (fun l => s.globalPuts w.ctx (priv + w.rec_.priv * l) (List.replicate 16 0))))
          ∧ ((∃ l < items.length, s.translate w.ctx .w (priv + w.rec_.priv * l) = .absent) → y.heads = maskOf (List.range items.length) ∧ SameBytes s t))

/-- R86, R218, R219, R257, R340: a blocked group whose wake condition holds runs again with its wait kept, as an ENGWAIT does once its operations are over;
a parked access runs again once its page is present, and where it is refused its group takes trap 0x0C with its lanes; a parked fetch or copy goes
on, or aborts its word and ends (of a COPY this is the model's choice, log 19; R340 says it of FETCH). -/
def Sys2Proof.Rules.WakesAndFaults : Prop :=
  ∀ (s : State) (c g : Nat),
    (∀ x w ws wg, s.grp c g = some x → x.status = .blocked w → (s.core c).wgOf x.wg = some (ws, wg) →
      (s.wakes c g x wg w = true → Leads (.blockedWake c g []) s (s.modGrp c g (fun y => { y with status := .runnable, kept := some (.blocked w) })))
      ∧ ∀ ctl mask, w.instr = .engwait ctl mask → (s.wakes c g x wg w = true ↔
          (∀ o ∈ (s.core c).eng, o.grp = x.uid → mask.getLsbD o.cls = false) ∧ (mask.getLsbD 0 = true → ∀ o ∈ (s.core c).ovenQ, o.grp ≠ x.uid)))
    ∧ (∀ x p ws wg, s.grp c g = some x → g < 32 → x.status = .parked p → p.late = none → (s.core c).wgOf x.wg = some (ws, wg) →
      (s.translate wg.ctx .r p.addr.toNat ≠ .absent →
        Leads (.faultResolved c g) s (s.modGrp c g (fun y => { y with status := .runnable, kept := some (.parked { p with late := none }) })))
      ∧ (s.translate wg.ctx .r p.addr.toNat = .absent → Leads (.faultUnresolved c g) s
          ((s.modGrp c g (fun y => { y with status := .runnable })).takeTrap c g { no := 0x0C, sub := 0, pc := p.pc, addr := p.addr, fmask := p.mask })))
    ∧ ∀ o a, (s.core c).op o.id = some o → o.parked = some a →
      ((∃ src dst sa da n gen sf ov rcv, o.kind = .copy src dst sa da n gen sf ov rcv) ∨ ∃ tab list n dest rows seen, o.kind = .fetch tab list n dest rows seen) →
      (s.translate o.ctx .r a.toNat ≠ .absent → Leads (.faultResolved c (64 + 64 * o.id)) s (s.modOp c o.id (fun q => { q with parked := none })))
      ∧ (s.translate o.ctx .r a.toNat = .absent → Leads (.faultUnresolved c (64 + 64 * o.id)) s ((s.opAbort c o).dropOp c o.id))

/-- Events of groups: results, counts, releases, wakes and faults (R59, R62, R86, R117, R118, R218, R219, R257, R263, R278, R340). -/
def Obligations.EventsOfGroups : Prop := Rules.GroupEvents ∧ Rules.WakesAndFaults

/-! Events of engines. Ends: what an operation's last event leaves. -/

/-- R193, R195, R197, R336, R339, R342, R347: a sector of a copy lands whole at its receiver, in scratchpad, tiles or cluster SRAM, with SF its words are full, and then adds
32 to the receiver's word; a sector of a copy to global memory lands whole, in any order among them, and the bytes are added to the issuer's word once
every sector has landed; where source and destination overlap, the bytes landed are free; a row of a fetch lands with its pitch padded by zeros, all zeros where its index is
not below E1; and a residency fill copies its pages into cluster SRAM, makes the entry usable and adds its bytes. -/
def Obligations.CopyLandings : Prop :=
  ∀ (s : State) (c : Nat) (o : EngOp), (s.core c).op o.id = some o → o.parked = none → s.alive c o.wg →
    let grants (secs : List Nat) : Prop := s.granted (clusterOf c) (s.tcOf o.launch) secs = true
    let from_ (src : CSrc) (a : Nat) (bs : List Byte) : Prop := match src with
      | .gl => s.near o.ctx .r a 32 ∧ bs = s.glRead o.ctx a 32
      | .sp => ∃ ws w, (s.core c).wgOf o.wg = some (ws, w) ∧ bs = w.spRead a 32
      | .tm => ∃ ws w, (s.core c).wgOf o.wg = some (ws, w) ∧ bs = w.tmBytes a 32
      | .cl => (s.team (clusterOf c) o.launch o.team).isSome = true ∧ bs = s.clBytes (clusterOf c) o.launch o.team a 32
    (∀ src dst sa da n gen sf ov rcv j r rc bs, o.kind = .copy src dst sa da n gen sf ov rcv → dst ≠ .dgl → rcv[j]? = some r → 32 * r.next < n →
      let b := da + 32 * r.next
      let ws : List (Byt × Byte) := (overlapped o ov (r.wg == o.wg) sa n b bs).zipIdx.map (fun e =>
        (match dst with | .dsp => .sp rc r.wg (b + e.2) | .dtm => .tm rc r.wg (b + e.2) | _ => .cl (clusterOf c) o.launch o.team (b + e.2), e.1))
      from_ src (sa + 32 * r.next) bs → grants (if src = .gl then s.sectors o.ctx .r (sa + 32 * r.next) 32 else []) → s.coreOf (clusterOf c) r.wg = some rc →
      s.calmWord rc r.wg o.word ws →
      ∃ t, Leads (.copySectorArrival c o.id j) s t ∧ Stored s t (ws ++ s.opWord rc r.wg o.word 32 (gen.map BitVec.toNat))
        ∧ (sf = true → ∀ k v, (t.core rc).wgOf r.wg = some (k, v) → ∀ i < 8, b / 4 + i ∈ v.tags)
        ∧ (t.core c).op o.id = (let rcv' := rcv.modify j (fun q => { q with next := q.next + 1 })
            if ∀ q ∈ rcv', n ≤ 32 * q.next then none else some { o with kind := .copy src dst sa da n gen sf ov rcv' }))
    ∧ (∀ src sa da n gen sf ov rcv j r bs, o.kind = .copy src .dgl sa da n gen sf ov rcv → rcv[0]? = some r → 32 * j < n → r.next ≤ j → r.out.contains j = false →
      let b := da + 32 * j
      from_ src (sa + 32 * j) bs → s.near o.ctx .w b 32 → grants (s.copySecs o src .dgl (sa + 32 * j) b) →
      ∃ t, Leads (.copySectorArrival c o.id j) s t ∧ Stored s t (s.globalPuts o.ctx b (overlapped o ov (r.wg == o.wg) sa n b bs))
        ∧ (t.core c).op o.id = some { o with kind := .copy src .dgl sa da n gen sf ov (rcv.modify 0 (fun q => q.took j ((s.srcSector c o src (sa + 32 * j)).2.contains true))) })
    ∧ (∀ (bs : List Byte) (own : Bool) (sa n b : Nat), overlapped o false own sa n b bs = bs)
    ∧ (∀ (r : Recv) (k q : Nat) (m : Bool), r.next ≤ k → r.out.contains k = false → (∀ i ∈ r.out, r.next < i) →
        (q ∈ (r.took k m).landed ↔ q = k ∨ q ∈ r.landed))
    ∧ (∀ src sa da n gen sf ov rcv, o.kind = .copy src .dgl sa da n gen sf ov rcv → (∀ q ∈ rcv, n ≤ 32 * q.next) →
        Ends (.copyGlobalCompletion c o.id) s c o [] n (gen.map BitVec.toNat) (fun _ => True))
    ∧ (∀ tab list n dest rows seen row, o.kind = .fetch tab list n dest rows seen → row ∈ rows → (Tab.get seen row = none → s.near o.ctx .r (list + 4 * row) 4) →
        let t := Ten.of tab
        let i := (Tab.get seen row).getD (fromLE (s.glRead o.ctx (list + 4 * row) 4))
        let p := t.rowAt i
        let bs := (if i < t.e1 then s.rowOf o t i else List.replicate t.rowBytes 0) ++ List.replicate (t.pitch - t.rowBytes) 0
        let ws : List (Byt × Byte) := bs.zipIdx.map (fun e => (.sp c o.wg (dest + row * t.pitch + e.2), e.1))
        (i < t.e1 → s.near o.ctx .r p.1 p.2) → grants (s.fetchSecs o t list row i seen) → s.calmWord c o.wg o.word ws →
        (∃ u, Leads (.fetchRowLanding c o.id row) s u ∧ Stored s u (ws ++ s.opWord c o.wg o.word t.pitch none)
          ∧ (u.core c).op o.id = (let rest := rows.filter (fun q => q != row)
              if rest = [] then none else some { o with kind := .fetch tab list n dest rest (Tab.del seen row) }))
        ∧ (i < t.e1 → t.slay ≠ 1 → fmtBits t.fmt % 8 = 0 → 0 < t.rowBytes → s.near o.ctx .r p.1 p.2 →
            s.rowOf o t i = s.glRead o.ctx (t.base + i * t.s1 * (fmtBits t.fmt / 8)) (t.e0 * (fmtBits t.fmt / 8))))
    ∧ ∀ e va n cloff z r, o.kind = .resid e va n cloff z → Tab.get (s.cluster (clusterOf c)).resid e = some r →
        r.ctx = o.ctx → r.launch = o.launch → r.vbase = va → r.len = n → r.cloff = cloff → s.near o.ctx .r va (4096 * n) → grants (s.sectors o.ctx .r va (4096 * n)) →
        Ends (.residFillCompletion c o.id) s c o
          ((s.glRead o.ctx va (4096 * n)).zipIdx.map (fun b => (.cl (clusterOf c) o.launch r.unit (4096 * cloff + b.2), b.1))) (4096 * n) none
          (fun t => Tab.get (t.cluster (clusterOf c)).resid e = some { r with ld := false })

/-- R153 to R157, R162, R165 to R172, R265, R347, R353, R355: the operation at the head of the oven queue, in its turn, begins a step with the shadow rack, whose parity is
checked, which becomes the active one and leaves the shadow empty (its first step with RES: the active rack); a checkpoint passes a plane of a row, takes
no abandoned column back, leaves the thresholds of other rows and keeps a settled row settled; partners at the same boundary exchange; and a complete MMUL
puts the sum of its blocks over each prior element, an MTOPK its winner lists and its record, and adds 32 to the word. The parity columns and their mark are
the model's layout (log 62), the order among instructions that act at their issue that of log 66. -/
def Obligations.OvenSteps : Prop :=
  ∀ (s : State) (c : Nat) (o : OvenOp) (q : List OvenOp), (s.core c).ovenQ = o :: q →
    let k := s.core c
    let ta := Ten.of o.da
    let tb := Ten.of o.db
    let x0 := 32 * kgOf tb.fmt * (o.s0 + o.steps.length)
    let rows := ta.ranges x0 (x0 + 32 * kgOf tb.fmt) o.r0 (o.r0 + o.m)
    let comp := if o.topk && o.steps.isEmpty then [(ta.nbase, ta.nbase + 128 * o.s * o.m), (tb.nbase, tb.nbase + 128 * o.s * o.n)] else []
    let accs := glAccs o.x.space .r rows ++ glAccs .gl .r comp
    (o.mayBegin k = true → s.ways o.ctx accs = .clear → s.granted (clusterOf c) (s.tcOf o.launch) (s.accSectors o.ctx accs) = true →
      let keep : Prop := o.steps = [] ∧ o.x.res = true
      ∃ t o', Leads (.ovenRackSwap c) s t ∧ (t.core c).ovenQ = o' :: q ∧ SameBytes s t ∧ (∀ d h, t.grp d h = s.grp d h)
        ∧ (keep → o'.steps = o.steps ++ [k.active.checked] ∧ (t.core c).active = k.active.checked ∧ (t.core c).shadow = k.shadow)
        ∧ (¬ keep → o'.steps = o.steps ++ [k.shadow.checked] ∧ (t.core c).active = k.shadow.checked ∧ (t.core c).shadow = Rack.empty)
        ∧ ((t.core c).active.poison = true → o'.poison = true))
    ∧ (∀ (r : Rack), (r.checked.poison = false ↔ r.poison = false ∧ ∀ g < 32, r.sound g = true) ∧ r.checked.cols = r.cols ∧ r.checked.sum = r.sum ∧ r.checked.par = r.par)
    ∧ (o.topk = true → o.parked = none → o.steps ≠ [] → o.row < o.m → ∃ o', Leads (.ovenCheckpoint c) s (s.putOven c o') ∧ o'.steps = o.steps ∧ o'.rows = o.rows
        ∧ (o'.plane = if o.plane + 1 = planesOf ta.fmt then 0 else o.plane + 1) ∧ (∀ r, r ≠ o.row → o'.thr[r]? = o.thr[r]?)
        ∧ (∀ r < o.m, ∀ e, (o.rowEnd[r]?).join = some e → (o'.rowEnd[r]?).join = some e)
        ∧ ∀ (r j : Nat) (v : Nat × Nat), ((o.dead[r]?).bind (fun (d : List (Option (Nat × Nat))) => d[j]?)).join = some v →
            ((o'.dead[r]?).bind (fun (d : List (Option (Nat × Nat))) => d[j]?)).join = some v)
    ∧ (o.atBoundary = true →
        (o.pxm = some true → Leads (.partnerThresholdExchange c) s (s.putOven c { o with sent := true }))
        ∧ ∀ n p r, o.pxm ≠ some true → o.part = some n → (s.core (8 * (c / 8) + n)).ovenQ = p :: r → p.atBoundary = true → p.part = some (c % 8) → p.pxm = o.pxm →
            p.steps.length = o.steps.length →
            Leads (.partnerThresholdExchange c) s ((s.putOven c (o.exchanged p)).putOven (8 * (c / 8) + n) (p.exchanged o)))
    ∧ (o.parked = none → o.steps.length = o.s → o.m ≤ o.row → (o.part = none ∨ o.sent = true) → s.alive c o.wg →
        let rec_ : List (Byt × Byte) := match o.rofs with
          | some a => if o.topk then (o.record false).zipIdx.map (fun e => (.sp c o.wg (a + e.2), e.1)) else []
          | none => []
        s.calmWord c o.wg o.word rec_ →
        (o.bad = false ∧ o.poison = false ∧ k.active.poison = false ∧ k.poison = [] ∧ s.hit c o.wg o.id = false) → o.n ≤ 192 →
        ∃ t, Leads (.ovenCompletion c) s t ∧ (t.core c).ovenQ = q ∧ Stored s t (rec_ ++ s.opWord c o.wg o.word 32 none) ∧ (∀ d, d ≠ c → t.core d = s.core d)
          ∧ ∀ r < o.m, k.owns o.wg (o.x.af.val + r / 8) = true →
              (o.topk = false → ∀ j < o.n, ((t.core c).bank (o.x.af.val + r / 8)).elem (192 * (r % 8) + j) =
                (let v := (k.bank (o.x.af.val + r / 8)).elem (192 * (r % 8) + j)
                 let as := o.cut r (o.rowA r)
                 let bs := o.cut r (o.colB j)
                 if o.mode = .int32 then (intElem v as bs).1 else (fpElem o.t v as bs).1) % 2 ^ 32)
              ∧ (o.topk = true → (t.core c).wlist (8 * o.x.af.val + r) = o.winners false r))

/-- R159, R174, R175, R347, R350, R357, R360, R361, R366 to R368: RKLD ends with the rack READY, holding the aligned columns of its step and their sums; MNORM writes the
companions of its rows or columns; ADRAIN the converted elements of its rows, with 2:4 or 4:8 those that it keeps and their positions between what else stands in the words
of the positions, and the greater of a MAX word and its magnitudes; SELK its selection; SORTR its rows sorted (a NaN keeps its bits: log 63); each then adds 32 to
its word and writes nothing else. The rack's parity column is in the model's layout (log 62). -/
def Obligations.EngineResults : Prop :=
  ∀ (s : State) (c : Nat) (o : EngOp), (s.core c).op o.id = some o → o.parked = none →
    let k := s.core c
    let ready (accs : List (Acc × Nat × Nat)) : Prop :=
      s.ways o.ctx accs = .clear ∧ s.granted (clusterOf c) (s.tcOf o.launch) (s.accSectors o.ctx accs) = true
    let num (sp : BSpace) : Rdr := s.oNum c o.wg o.ctx o.nonce sp
    (∀ sp tab j0 st, o.kind = .rkld sp tab j0 st →
      let t := Ten.of tab
      let k0 := 32 * kgOf t.fmt * st
      let rs := t.ranges k0 (k0 + 32 * kgOf t.fmt) j0 (j0 + 192)
      ready (glAccs sp .r rs) → k.shadow.status = .loading → k.shadow.owner = some o.wg →
      Ends (.rkldCompletion c o.id) s c o [] 32 none (fun u =>
        let r := rackCols t.fmt (min 192 (t.e1 - j0)) (fun j i => t.elem (num sp) (k0 + i) (j0 + j))
        let par := (List.range 32).map (parityOf t.fmt r.1)
        (u.core c).shadow = { k.shadow with status := .ready, cols := r.1, sum := r.2, par := par, poison := s.rangesPoison c o.wg o.ctx sp rs }))
    ∧ (∀ isB sp tab tabB r0 s0 n st, o.kind = .mnorm isB sp tab tabB r0 s0 n st →
      let t := Ten.of tab
      let kg := kgOf (Ten.of tabB).fmt
      let rs := t.ranges (32 * kg * s0) (32 * kg * (s0 + st)) r0 (r0 + n)
      ready (glAccs sp .r rs ++ [(.w, t.nbase, 128 * st * n)]) → s.rangesPoison c o.wg o.ctx sp rs = false → o.bad = false → s.hit c o.wg o.id = false →
      (sp = .gl → ∀ r ∈ rs, meet r.1 (r.2 - r.1) t.nbase (128 * st * n) = false) → s.near o.ctx .w t.nbase (128 * st * n) →
      Ends (.mnormCompletion c o.id) s c o (s.globalPuts o.ctx t.nbase ((normWords isB t kg (num sp) r0 s0 n st).flatMap (toLE 4))) 32 none (fun _ => True))
    ∧ (∀ prune sp mx rnd sat tab ro co rho nr c0 nc zero, o.kind = .adrain prune sp mx rnd sat tab ro co rho nr c0 nc zero →
      let t := Ten.of tab
      let rows := k.drainRows o rho nr c0 nc zero false
      let conv (r : DRow) (x : Nat) : Nat := (drainConv t.fmt rnd sat r.int x).1
      let data (e : DRow × Nat) : List (Byt × Byte) :=
        let b := t.drainBits prune ro co nc e.2
        s.opPuts c o sp (t.base + b.1 / 8) (toLE (b.2 / 8) (packBits (fmtBits t.fmt) ((e.1.kept prune).map (conv e.1))))
      let posns (e : DRow × Nat) : List (Byt × Byte) :=
        if prune = 0 then []
        else
          let m := t.drainMeta prune ro co nc e.2
          let old := packBits 32 ((List.range m.2.1).map (fun w => num sp (m.1 + 4 * w) 4))
          s.opPuts c o sp m.1 (toLE (4 * m.2.1) (old % 2 ^ m.2.2.1 + packBits (pruneOf prune).2.2 (rowKept prune e.1.int e.1.xs).flatten * 2 ^ m.2.2.1
            + old / 2 ^ (m.2.2.1 + m.2.2.2) * 2 ^ (m.2.2.1 + m.2.2.2)))
      let outs := rows.zipIdx.flatMap (fun e => data e ++ posns e)
      let tops : List (Byt × Byte) := match mx with
        | none => []
        | some a => s.globalPuts o.ctx a.toNat (toLE 4 (max (fromLE (s.glRead o.ctx a.toNat 4))
            ((rows.flatMap (fun r => (r.kept prune).map (fun x => drainMag t.fmt (conv r x)))).foldl max 0)))
      let reached : Prop := sp = .gl → ∀ i < nr,
        s.near o.ctx .w (t.base + (t.drainBits prune ro co nc i).1 / 8) ((t.drainBits prune ro co nc i).2 / 8)
        ∧ (prune ≠ 0 → s.near o.ctx .w (t.drainMeta prune ro co nc i).1 (4 * (t.drainMeta prune ro co nc i).2.1)
          ∧ s.near o.ctx .r (t.drainMeta prune ro co nc i).1 (4 * (t.drainMeta prune ro co nc i).2.1))
      ready (glAccs sp .w (t.drainRanges prune ro co nr nc) ++ (match mx with | some a => [(Acc.r, a.toNat, 4), (Acc.w, a.toNat, 4)] | none => [])) →
      k.poison = [] → reached → (∀ a ∈ mx, s.near o.ctx .r a.toNat 4 ∧ s.near o.ctx .w a.toNat 4) →
      (∀ e ∈ rows.zipIdx, ∀ f ∈ rows.zipIdx, ∀ p ∈ posns e, (∀ w ∈ data f, ¬ w.1.hits p.1) ∧ (e.2 ≠ f.2 → ∀ w ∈ posns f, ¬ w.1.hits p.1)) →
      (∀ p ∈ tops, ∀ w ∈ outs, ¬ w.1.hits p.1) →
      Ends (.adrainCompletion c o.id) s c o (outs ++ tops) 32 none (fun _ => True))
    ∧ (∀ (t : Ten) (ro co nc i : Nat), t.ndim ≠ 0 →
        t.drainBits 0 ro co nc i = ((co + (ro + i) * t.s1) * fmtBits t.fmt, nc * fmtBits t.fmt)
        ∧ t.drainBits 1 ro co nc i = ((co * 2 / 4 + (ro + i) * t.s1) * fmtBits t.fmt, nc * 2 / 4 * fmtBits t.fmt)
        ∧ t.drainBits 2 ro co nc i = ((co * 4 / 8 + (ro + i) * t.s1) * fmtBits t.fmt, nc * 4 / 8 * fmtBits t.fmt))
    ∧ (∀ (r : DRow), r.kept 0 = r.xs
        ∧ (r.kept 1).length = r.xs.length / 4 * 2 ∧ (r.kept 2).length = r.xs.length / 8 * 4)
    ∧ (∀ exp src len dst n, o.kind = .selk exp src len dst n → s.ePoison c o.wg o.ctx .sp src (4 * len) = false → meet src (4 * len) dst (16 + 8 * n) = false →
      Ends (.selkCompletion c o.id) s c o (s.opPuts c o .sp dst (selkImage exp n ((List.range len).map (fun i => num .sp (src + 4 * i) 4)))) 32 none (fun _ => True))
    ∧ ∀ asc src len dst rows, o.kind = .sortr asc src len dst rows → s.ePoison c o.wg o.ctx .sp src (8 * len * rows) = false →
      (src = dst ∨ meet src (8 * len * rows) dst (8 * len * rows) = false) →
      let pair (i : Nat) : Nat × Nat := (num .sp (src + 8 * i) 4, num .sp (src + 8 * i + 4) 4)
      let row (n : Nat) : List Byte := (sortRow asc ((List.range len).map (fun i => pair (len * n + i)))).flatMap (fun p => toLE 4 p.1 ++ toLE 4 p.2)
      Ends (.sortrCompletion c o.id) s c o (s.opPuts c o .sp dst ((List.range rows).flatMap row)) 32 none (fun _ => True)

/-- R191, R198, R199, R385 to R388: a record of a walk is read where its page is present and not poisoned, and the rules run over it up to the next read or the end; a walk
lands its slot, with the bytes of the record read last, and adds 16 + RS; a bag whose list has no more than 65536 indices writes its sums and adds 32. Other
lanes stay, and the operation ends with its last one. What is read is what stands there, or what stood there before a store of the lane itself that no release of it
at dev or sys follows (which of these: a free choice, log 60). -/
def Obligations.WalkAndBagResults : Prop :=
  ∀ (s : State) (c : Nat) (o : EngOp) (lane : Nat), (s.core c).op o.id = some o → s.alive c o.wg →
    (∀ p ls w a, o.kind = .walk p ls → ls.find? (fun v => v.lane == lane) = some w → w.want = some a → w.parked = false →
      (∃ q key, s.translate o.ctx .r a.toNat = .pa q key) → s.glPoison o.ctx a.toNat 64 = false →
      let bs := s.peelBytes c o lane a.toNat 64
      Leads (.walkRecordRead c o.id lane) s (s.modOp c o.id (fun o => { o with kind := .walk p (ls.map (fun v => if v.lane = lane then
        walkRun p (fromLE bs) (p.nr + 1) w.rule { w with want := none, image := bs } else v)) })))
    ∧ (∀ a n q key, s.translate o.ctx .r a = .pa q key → s.near o.ctx .r a n →
      let own := (s.unreleased c o lane).filter (fun e => decide (e.pa < q + n) && decide (q < e.pa + e.n))
      (own = [] ∨ q % 64 + n > 64 → s.peelBytes c o lane a n = s.glRead o.ctx a n)
      ∧ (s.peelBytes c o lane a n = s.glRead o.ctx a n ∨ ∃ e ∈ own, s.peelBytes c o lane a n = (e.line.drop (q % 64)).take n))
    ∧ (∀ e ∈ s.unreleased c o lane, e.lane = lane ∧ e.rel = false)
    ∧ (∀ p ls w st, o.kind = .walk p ls → ls.find? (fun v => v.lane == lane) = some w → w.land = some st → w.done = false →
      let ws := s.opPuts c o .sp w.ofs (toLE 4 (st + 256 * w.steps) ++ toLE 4 0 ++ toLE 8 (if st = 0 then w.r.toNat else 0)
        ++ (if st = 0 then w.image.take p.rs else List.replicate p.rs 0))
      let rest := ls.map (fun v => if v.lane = lane then { v with done := true } else v)
      s.granted (clusterOf c) (s.tcOf o.launch) (w.landSecs p.rs) = true → s.calmWord c o.wg o.word ws →
      ∃ t, Leads (.walkLanding c o.id lane) s t ∧ Stored s t (ws ++ s.opWord c o.wg o.word (16 + p.rs) none)
        ∧ (t.core c).op o.id = if rest.all WLane.done then none else some { o with kind := .walk p rest })
    ∧ ∀ acc bf16 tab bags b, o.kind = .ired acc bf16 tab bags → bags.find? (fun b => b.lane == lane && b.parked.isNone) = some b →
      let t := Ten.of tab
      let size := t.e0 * (if bf16 then 2 else 4)
      let n := s.bagNum c o lane b.list.toNat 4
      let idx := (List.range n).map (fun i => s.bagNum c o lane (b.list.toNat + 4 + 4 * i) 4)
      let rows := (idx.filter (fun x => decide (x < t.e1))).eraseDups.map (fun x => (Acc.r, t.base + x * t.s1 * t.irSize, t.e0 * t.irSize))
      let ws := s.globalPuts o.ctx b.dest.toNat (s.bagOut c o lane acc bf16 t b.dest.toNat idx)
      let rest := bags.filter (fun b => b.lane != lane)
      let accs := [(Acc.r, b.list.toNat + 4, 4 * n)] ++ rows ++ (if acc then [(.r, b.dest.toNat, size)] else []) ++ [(.w, b.dest.toNat, size)]
      s.way o.ctx .r b.list.toNat 4 = .clear → n ≤ 65536 → s.ways o.ctx accs = .clear → s.unmarked = true →
      s.granted (clusterOf c) (s.tcOf o.launch) (((Acc.r, b.list.toNat, 4) :: accs).flatMap (fun e => s.sectors o.ctx e.1 e.2.1 e.2.2)) = true →
      s.near o.ctx .w b.dest.toNat size → s.calmWord c o.wg o.word ws →
      ∃ u, Leads (.iredBagCompletion c o.id lane) s u ∧ Stored s u (ws ++ s.opWord c o.wg o.word 32 none)
        ∧ (u.core c).op o.id = if rest = [] then none else some { o with kind := .ired acc bf16 tab rest }

/-! Recovery, power, launching, sessions and firmware. -/

/-- R221, R222, R232, R258 to R263: the audit marks trap 0x0F for each queue of a resident workgroup whose permits and occupied slots are not its depth, and nothing where there
is none; the eviction of a workgroup at blocking points writes its image into its context's HBM under its owner's key, every segment with a good check,
writes no other line of HBM, and frees its core; a restore of an image that does not read back whole fails its launch with status 0x12, and of a good one into free places seats the
workgroup and its groups as the image reads in HBM, which is as they were saved where its segments stand as they were written; for class 0 the granules are left to fill. What a changed
segment with a good check restores, and where the block lies, are the model's choices (log 79, log 67), and the audit traps at the lowest live group (R222). -/
def Obligations.EvictionAndRestore : Prop :=
  ∀ (s : State) (c : Nat),
    ((∀ e ∈ (s.core c).wgs, e.2.lostPermits = []) → Leads (.queueAudit c) s (s.modCore c (fun k => { k with audits := k.audits + 1 })))
    ∧ (∀ (w : Workgroup) (n : Nat), n ∈ w.lostPermits ↔ n < 8 ∧ (w.queue n).kind ≠ 0 ∧ (w.queue n).permits + (w.queue n).occ ≠ (w.queue n).depth)
    ∧ (∃ t, Leads (.queueAudit c) s t ∧ SameBytes s t ∧ (∀ d, d ≠ c → t.core d = s.core d) ∧ ∀ g x, s.grp c g = some x →
        let lost := ((s.core c).wgs.filter (fun e => ((s.core c).lowest e.2.uid).map Prod.fst == some g)).flatMap (fun e => e.2.lostPermits)
        t.grp c g = some { x with imprec := x.imprec ++ lost.map (impTrap 0x0F) })
    ∧ (∀ u ws w pa, (s.core c).wgOf u = some (ws, w) → s.evictable c w = true → s.imageRoom w.ctx pa = true →
        ∃ t im, Leads (.workgroupEviction c (u, pa)) s t ∧ t.images = s.images ++ [im] ∧ im.wg = w ∧ im.core = c ∧ im.at_ = pa ∧ (∀ g ∈ im.segs, g.bad = false)
          ∧ im.grps = ((s.core c).grps.filter (fun e => e.2.wg == w.uid && decide (e.1 < 32))).map (fun e => (e.1, e.2.saved))
          ∧ t.hbmRead (s.ownKey w.ctx) pa im.size = im.segs.flatMap Segment.bytes
          ∧ (∀ k a, (∀ i < im.size, (pa + i) / 64 ≠ a / 64) → t.hbmGet k a = s.hbmGet k a)
          ∧ (t.core c).wgOf u = none ∧ ∀ e ∈ (t.core c).grps, e.2.wg = u → 32 ≤ e.1)
    ∧ (∀ (im : Image) (lazy : Bool), (∀ e ∈ im.segs.zip (s.imageSegs im lazy), e.2.seg = none ∨ e.2.seg = some e.1) → s.imageAsRead im lazy = im)
    ∧ ∀ img (im0 : Image) slot place l, s.images[img]? = some im0 → Tab.get s.launches im0.wg.launch = some l → s.rotating (im0.wg.clu / 16) = false →
        clusterOf c = s.physOf im0.wg.clu →
        let i : Instr := .workgroupRestore img c slot place
        (s.corrupt im0 (l.tc == 0) = true → ∃ t, Leads i s t ∧ t.images = s.images.eraseIdx img
          ∧ (l.failed = false → ∃ m rest, t.outbox = s.outbox ++ m :: rest ∧ m.cseq = l.seq ∧ m.code = 0x12))
        ∧ let im := s.imageAsRead im0 (l.tc == 0)
        let absent := s.absentOf im0 (l.tc == 0)
        let st := im.seating s.nextId absent place
        let spots := st.grps.map (fun g => (g.1, g.2.blk)) ++ st.wg.spareAt (st.grps.map Prod.fst)
        let need : Amt := { wgs := 1, grps := spots.length, scratch := im.wg.rec_.scratch, tiles := im.wg.rec_.tiles, banks := im.wg.rec_.banks }
        (s.corrupt im0 (l.tc == 0) = false → (l.mig = true → c % 8 = im.core % 8) → s.oneOwner c im.wg.ctx need (spots.map Prod.snd) = true → s.oneCore c im.wg = true →
          Tab.get (s.core c).wgs slot = none → slot < 8 →
          (s.core c).placeable im.wg.ctx spots = true →
          (s.core c).spare im.wg.ctx need = true →
          (s.core c).ovenFree im = true → (s.core c).itemCount + im.itemCount ≤ 512 → (s.core c).opens im.wg need (spots.map Prod.snd) = true →
          (s.core c).wgOf im.wg.uid = none →
          ∃ t v, Leads i s t ∧ t.images = s.images.eraseIdx img ∧ (t.core c).wgOf im.wg.uid = some (slot, v)
            ∧ v.scratch = im.wg.scratch ∧ v.tags = im.wg.tags ∧ v.tiles = im.wg.tiles ∧ v.queues = im.wg.queues ∧ v.lvl = im.wg.lvl ∧ v.tvec = im.wg.tvec
            ∧ ∀ (n : Nat) (e : Nat × Group) (p : Nat × Nat × Nat), im.grps[n]? = some e → place[n]? = some p → ∃ y, t.grp c p.1 = some y ∧ y.fr = e.2.fr ∧ y.status = e.2.status ∧ y.pend = [] ∧ y.absent = (absent[n]?).getD [] ∧ e.2.sameRegs y)

/-- R25, R264 to R266: a corrected error is counted and changes no data; an uncorrectable one marks what it strikes and reports a machine check, but in queue
state, and in a cell of a rack, whose bit flips for the parity to find; a rack scrub marks its rack and reports a machine check only where a row does not match its parity; a
link error marks its line, reports a machine check, and marks trap 0x1E, SUB 1, for the groups named. That a link error marks its line and these groups, that the error of queue
state frees its permits, and how errors are numbered, are the model's choices (log 49, log 62). -/
def Obligations.SoftErrors : Prop :=
  ∀ (s : State) (st : Store) (c a : Nat),
    let more (n : Nat) : Counts := { s.counts with checks := s.counts.checks + n }
    (st ≠ .rack → st ≠ .queue → Leads (.softErrorCorrected st c a) s { s with counts := { s.counts with corrected := s.counts.corrected + 1 } })
    ∧ (∀ u, s.poisonStore st c a = some u → Leads (.uncorrectableError st c a) s (if st = .queue ∨ (st = .rack ∧ 2 ≤ a) then u else { u with counts := { u.counts with checks := u.counts.checks + 1 } }))
    ∧ (∃ t, Leads (.uncorrectableError .hbm c a) s t ∧ t.counts = more 1 ∧ (∀ l, l ∈ t.hbmPoison ↔ l = a ∨ l ∈ s.hbmPoison) ∧ t.cores = s.cores ∧ SameBytes s t)
    ∧ (∀ g x n, s.grp c g = some x → n < 64 → ∃ t y, Leads (.uncorrectableError .sreg c (64 * g + n)) s t ∧ t.counts = more 1 ∧ t.grp c g = some y
        ∧ (∀ e, e ∈ y.poison ↔ e = (.sreg, n) ∨ e ∈ x.poison) ∧ { y with poison := x.poison } = x)
    ∧ (∀ (sh : Bool) mg, let r := if sh then (s.core c).shadow else (s.core c).active
        mg < 32 → r.status = .ready → (sh = false → ∀ o ∈ (s.core c).ovenQ.head?, o.steps = []) →
        (r.sound mg = true → Leads (.rackScrub c sh mg) s s)
        ∧ (r.sound mg = false → ∃ t, Leads (.rackScrub c sh mg) s t ∧ t.counts = more 1 ∧ (if sh then (t.core c).shadow else (t.core c).active).poison = true ∧ SameBytes s t))
    ∧ (∀ n, Leads (.uncorrectableError .rack c (2 + 2 * n)) s (s.modCore c (fun k => { k with active := k.active.flip n }))
        ∧ Leads (.uncorrectableError .rack c (3 + 2 * n)) s (s.modCore c (fun k => { k with shadow := k.shadow.flip n })))
    ∧ ∀ line (gs : List (Nat × Nat)), gs.Nodup → ∃ t, Leads (.linkUncorrectableError line gs) s t ∧ t.counts = more 1 ∧ line ∈ t.hbmPoison ∧ SameBytes s t
        ∧ ∀ e ∈ gs, e.2 < 32 → ∀ x, s.grp e.1 e.2 = some x → t.grp e.1 e.2 = some { x with imprec := x.imprec ++ [impTrap 0x1E 1] }

/-- R22, R207, R223 to R230: a cluster takes the rail that its entitled residents ask for; an interval of an arbiter gives each cluster its budget, or its floor
where a quota is exhausted, less its shortfall, and grants the requests that it holds in the order of their arrival while what is left is above 0; a budget set takes effect
from the next one; a quota period, after 512 intervals of the die's first stack, gives each context its quota less its overdraft; and a rotation of an empty die moves every
logical cluster of it, with its teams, residency entries and waiting workgroups (their queue is that of R212 to R214), to the next physical cluster. That the queue of waiting workgroups moves
with its logical cluster, and that a pending rotation may be given up at any time, are the model's choices (log 52); when intervals and periods end in cycles is left out (log 7). -/
def Obligations.PowerAndRotation : Prop :=
  ∀ (s : State) (n : Nat),
    (n < 32 → (s.cluster n).high ≠ s.wantsHigh n → Leads (.railChange n) s (s.modCluster n (fun k => { k with high := s.wantsHigh n })))
    ∧ (n < 12 → ∃ t, Leads (.budgetInterval n) s t ∧ t.cores = s.cores ∧ SameBytes s t ∧ ∀ p < 32,
        let a := s.arb n p
        let b := t.arb n p
        let given (k : Nat) : Int := ((if s.exhausted p then a.next.2 else a.next.1 : Nat) : Int) + min a.left 0 - (((a.queue.take k).map ArbReq.n).sum : Nat)
        b.budget = a.next.1 ∧ b.floor = a.next.2 ∧ b.next = a.next ∧ b.onFloor = s.exhausted p
        ∧ ∃ k ≤ a.queue.length, b.queue = a.queue.drop k ∧ b.left = given k ∧ (∀ j < k, 0 < given j) ∧ (k < a.queue.length → given k ≤ 0))
    ∧ (n < 12 → ∃ t, Leads (.budgetInterval n) s t ∧ ∀ d : Nat, t.dies[d]? = (s.dies[d]?).map (fun e => if d = n / 6 ∧ n % 6 = 0 then { e with intervals := e.intervals + 1 } else e))
    ∧ (∀ p b f, p < 32 → n < 12 → 1 ≤ b → b ≤ 131071 → 128 ≤ f → f ≤ b →
        ∃ t, Leads (.budgetSet p n b f) s t ∧ t.arb n p = { s.arb n p with next := (b, f) } ∧ ∀ m q, 32 * m + q ≠ 32 * n + p → t.arb m q = s.arb m q)
    ∧ (∀ d, s.dies[n]? = some d → 512 ≤ d.intervals → ∃ t, Leads (.quotaPeriod n) s t ∧ t.dies[n]? = some { d with intervals := d.intervals - 512 } ∧ t.cores = s.cores ∧ SameBytes s t ∧ ∀ x k, Tab.get s.ctxs x = some k → ∃ k', Tab.get t.ctxs x = some k'
        ∧ (∀ q, Tab.get k.quota n = some q → Tab.get k'.quota n = some (q.1, (q.1 : Int) + min q.2 0)) ∧ { k' with quota := k.quota } = k
        ∧ ∀ m, m ≠ n → Tab.get k'.quota m = Tab.get k.quota m)
    ∧ (n < s.dies.length → s.rotating n = false → ∃ t, Leads (.rotationPeriod n) s t ∧ t.rotating n = true ∧ { t with dies := s.dies } = s)
    ∧ (s.rotating n = true → ∃ t, Leads (.rotationGiveUp n) s t ∧ t.rotating n = false ∧ { t with dies := s.dies } = s)
    ∧ ∀ d, n < 2 → s.dies[n]? = some d → d.rotPending = true → d.rotated → s.residentOn n = false →
        ∃ t, Leads (.rotationApply n) s t ∧ t.dies[n]? = some { d with map := d.map.map (fun m => (m + 1) % 16), rotPending := false } ∧ t.hbm = s.hbm
          ∧ (∀ m, m ≠ n → t.dies[m]? = s.dies[m]?)
          ∧ ∀ l, l / 16 = n → (t.cluster (t.physOf l)).teams = (s.cluster (s.physOf l)).teams ∧ (t.cluster (t.physOf l)).resid = (s.cluster (s.physOf l)).resid
              ∧ (t.cluster (t.physOf l)).admQ.map Waiting.wg = (s.cluster (s.physOf l)).admQ.map Waiting.wg

/-- R208, R210, R240, R241, R244, R405: messages on a queue. An open sets SEQ 1; a command of the next SEQ joins the queue, or is answered 0x01 where it is bad (a KIND
outside 1 to 3 is), 0x05 while the queue closes and 0x06 in the error state; a queue message with LEN not 0 is answered 0x01 and an open of an open queue 0x08, and either leaves all but the
SEQ; on a closed queue all but an open are answered 0x05, an open of SEQ not 0 0x07 and one with LEN not 0 0x01; a close is answered once every started command is done or has failed, a reset after the commands that have not started
are flushed; and a wrong SEQ is answered 0x07, whatever the message and its other fields are. A bad command and a wrong SEQ put the queue in the error state. That a message of the next SEQ with a
reserved bit set leaves that SEQ to come, and that an error flushes a queue that is closing, are the model's choices (log 64, log 47). -/
def Obligations.QueueMessages : Prop :=
  (∀ (s : State) (m : Msg) (x : Nat) (k : CmdQ), s.sessionCtx m.session = some x → (Tab.get s.ctxs x).isSome → s.cmdq x m.queue.val = k → k.isOpen = true →
    let q := m.queue.val
    let kind := bits m.hdr.toNat 7 0
    let of_ (i : Instr) : Prop := match i with
      | .queueOpen _ => m.type = 1 | .queueClose _ => m.type = 2 | .queueReset _ => m.type = 3
      | .launchCommand _ => m.type = 4 ∧ kind = 1 | .signalCommand _ => m.type = 4 ∧ kind = 2 | .waitCommand _ => m.type = 4 ∧ kind = 3
      | _ => False
    ∀ i ∈ [Instr.queueOpen m, .queueClose m, .queueReset m, .launchCommand m, .signalCommand m, .waitCommand m], of_ i →
      (m.seq ≠ k.seq → ∃ t, Leads i s t ∧ s.sent t ((0x07, m.seq) :: if k.closing then (k.cmds.filter (fun c => c.st == 0)).map (fun c => ((0x06 : BitVec 8), c.seq)) else [])
        ∧ (t.cmdq x q).err = true ∧ (t.cmdq x q).seq = k.seq ∧ (t.cmdq x q).cmds = (if k.closing then k.cmds.filter (fun c => c.st != 0) else k.cmds) ∧ SameBytes s t)
      ∧ (m.seq = k.seq → m.rsv = true → Leads i s { s with counts := { s.counts with discarded := s.counts.discarded + 1 } }))
  ∧ ∀ (s : State) (m : Msg) (x : Nat) (k : CmdQ), s.receives m x k →
    let q := m.queue.val
    let kind := bits m.hdr.toNat 7 0
    let packet : Instr := .packetReceive m.session x .rod true (.msg m)
    let cmd : Instr := if kind = 1 then .launchCommand m else if kind = 2 then .signalCommand m else if kind = 3 then .waitCommand m else packet
    let carried : Instr := if m.type = 1 then .queueOpen m else if m.type = 2 then .queueClose m else if m.type = 3 then .queueReset m else cmd
    let next : Prop := k.isOpen = true ∧ m.seq = k.seq
    let waiting := (k.cmds.filter (fun c => c.st == 0)).map (fun c => ((0x06 : BitVec 8), c.seq))
    (m.type = 1 → k.isOpen = false → m.seq = 0 → m.len = 0 → ∃ t, Leads (.queueOpen m) s t ∧ s.sent t [(0, 0)] ∧ (t.cmdq x q).isOpen = true
      ∧ (t.cmdq x q).seq = 1 ∧ (t.cmdq x q).err = false ∧ (t.cmdq x q).closing = false ∧ (t.cmdq x q).cmds = [] ∧ SameBytes s t)
    ∧ (m.type = 4 → next →
        (k.closing = false → k.err = false → msgBad m = false → ∃ t, Leads cmd s t ∧ s.sent t []
          ∧ t.cmdq x q = { k with seq := k.seq + 1, fresh := false, cmds := k.cmds ++ [{ seq := m.seq, hdr := m.hdr, body := m.body, first := k.fresh, st := 0, launch := none }] })
        ∧ (k.closing = false → k.err = false → msgBad m = true → ∃ t, Leads cmd s t ∧ s.sent t [(0x01, m.seq)] ∧ (t.cmdq x q).err = true ∧ (t.cmdq x q).cmds = k.cmds)
        ∧ (k.closing = true → ∃ t, Leads cmd s t ∧ s.sent t [(0x05, m.seq)] ∧ (t.cmdq x q).cmds = k.cmds)
        ∧ (k.closing = false → k.err = true → ∃ t, Leads cmd s t ∧ s.sent t [(0x06, m.seq)] ∧ (t.cmdq x q).cmds = k.cmds))
    ∧ (m.type = 2 → next → m.len = 0 → ∃ t, Leads (.queueClose m) s t ∧ s.sent t (if k.err then waiting else []) ∧ (t.cmdq x q).closing = true
        ∧ (t.cmdq x q).closes = k.closes ++ [m.seq] ∧ (t.cmdq x q).cmds = if k.err then k.cmds.filter (fun c => c.st != 0) else k.cmds)
    ∧ (m.type = 3 → next → m.len = 0 → ∃ t, Leads (.queueReset m) s t ∧ s.sent t (waiting ++ [(0, m.seq)]) ∧ (t.cmdq x q).err = false
        ∧ (t.cmdq x q).cmds = k.cmds.filter (fun c => c.st != 0))
    ∧ (m.type = 1 ∨ m.type = 2 ∨ m.type = 3 → next → m.len ≠ 0 ∨ m.type = 1 → ∃ t, Leads carried s t ∧ s.sent t [(if m.len ≠ 0 then 0x01 else 0x08, m.seq)]
        ∧ { t.cmdq x q with out := k.out } = { k with seq := k.seq + 1 } ∧ SameBytes s t)
    ∧ (m.type = 1 ∨ m.type = 2 ∨ m.type = 3 ∨ m.type = 4 → k.isOpen = false → m.type ≠ 1 ∨ m.seq ≠ 0 ∨ m.len ≠ 0 → ∃ t, Leads carried s t
        ∧ s.sent t [(if m.type ≠ 1 then 0x05 else if m.seq ≠ 0 then 0x07 else 0x01, m.seq)] ∧ { t.cmdq x q with out := k.out } = k ∧ SameBytes s t)
    ∧ (k.isOpen = true → k.closing = true → (∀ c ∈ k.cmds, c.st = 2 ∨ c.st = 1 ∧ ∀ l, c.launch.bind (Tab.get s.launches) = some l → l.failed = true) → ∃ t, Leads (.queueCloseCompletion x q) s t ∧ s.sent t (k.closes.map (fun n => (0, n)))
        ∧ (t.cmdq x q).isOpen = false ∧ (t.cmdq x q).cmds = [] ∧ SameBytes s t)

/-- R209 to R214, R241, R243: the next command of a queue starts once its conditions hold: a signal or a wait adds SBYTES to the word at SADDR and is done, a launch takes
its record and goes to the dispatchers of its dies, and one whose addresses do not serve fails with 0x02. A launch whose workgroups and engine
operations are over adds its SBYTES and is done. Units and workgroups join a cluster's queue in order, a workgroup that of the lowest cluster that can admit it at once, else of the
one with the fewest waiting; and an admitted workgroup is seated, each group at its entry with every lane of its width and empty call stacks,
or, where a page of them is absent, with their headers still to write (log 70). Where private memory lies, where units of
several levels of one domain lie together, which place a group takes, and that a denied page fails a command, are the model's choices (log 45, log 46, log 58, log 64). -/
def Obligations.Launching : Prop :=
  let signal (s : State) (x saddr n : Nat) : List (Byt × Byte) :=
    if saddr = 0 then [] else s.globalPuts x saddr (toLE 16 ((SWord.ofNat (s.word (.gl x saddr))).add n none).toNat)
  (∀ (s : State) (x q : Nat) (c : Cmd), (s.cmdq x q).candidate = some (c, true) → (s.cmdq x q).isOpen = true → (s.cmdq x q).err = false →
    let fit : Prop := (c.wen = true → c.waddr % 16 = 0 ∧ s.near x .r c.waddr 16) ∧ (c.saddr ≠ 0 → c.saddr % 16 = 0 ∧ s.near x .w c.saddr 16)
    let go : Prop := c.wen = true → (SWord.ofNat (s.word (.gl x c.waddr))).reached c.wgen = true
    let fails (code : BitVec 8) : Prop := ∃ t ns, Leads (.commandStart x q) s t ∧ s.sent t ((code, c.seq) :: ns) ∧ (t.cmdq x q).err = true
    (¬ fit → fails 0x02) ∧ (fit → ¬ go → (SWord.ofNat (s.word (.gl x c.waddr))).abort = true → fails 0x03)
    ∧ (fit → go → c.kind ≠ 1 → ∃ t, Leads (.commandStart x q) s t ∧ s.sent t [] ∧ Stored s t (signal s x c.saddr c.sbytes) ∧ t.cores = s.cores)
    ∧ (fit → go → c.kind = 1 → (∀ e, s.readRec x c = .error e → fails (BitVec.ofNat 8 e))
      ∧ ∀ r, s.readRec x c = .ok r → ∃ t l, Leads (.commandStart x q) s t ∧ s.sent t [] ∧ Tab.get t.launches s.nextId = some l ∧ l.ctx = x ∧ l.queue = q ∧ l.seq = c.seq
        ∧ l.rec_ = r ∧ l.total = r.total ∧ l.placed = 0 ∧ l.done = 0 ∧ l.failed = false ∧ SameBytes s t
        ∧ ∀ (n : Nat) (d : Die), s.dies[n]? = some d → t.dies[n]? = some (if (r.nextUnit (c.body.getLsbD 128).toNat n 0).isSome then
          { d with placeQ := d.placeQ ++ [s.nextId], rotPending := d.rotPending && !(decide (bits c.hdr.toNat 9 8 = 0) && s.reservesOn n x) } else d)))
  ∧ (∀ (s : State) (n : Nat) (l : Launch), Tab.get s.launches n = some l → l.done = l.total → s.engBusy n = false →
    ∃ t, Leads (.launchCompletion n) s t ∧ Tab.get t.launches n = none ∧ s.sent t [] ∧ Stored s t (signal s l.ctx l.saddr l.sbytes) ∧ t.cores = s.cores)
  ∧ (∀ (s : State) (die n u : Nat) (l : Launch), s.toPlace die = some (n, l, u) →
    let takes (unit c : Nat) : Bool := s.takes (s.physOf c) n unit l.rec_.clsram
    let waits (c : Nat) : Nat := (s.cluster (s.physOf c)).admQ.length
    let ok (c : Nat) : Prop := c ∈ clustersOf die ∧ l.homeOk u c = true ∧ takes 0 c = true
    let free (c : Nat) : Prop := ok c ∧ waits c = 0 ∧ (s.firstCore (s.physOf c) (Workgroup.placed s.nextId n l.placed l c 0 u 0 0)).isSome = true
    (l.rec_.unitLevel.isSome = true → ∀ c, (clustersOf die).find? (fun c => l.homeOk (u * l.rec_.unitSize) c && takes u c) = some c → ∃ t es, Leads (.unitPlacement die) s t
      ∧ (t.cluster (s.physOf c)).admQ = (s.cluster (s.physOf c)).admQ ++ es
      ∧ es.map (fun e => (e.wg.launch, e.wg.index, e.wg.team)) = (List.range l.rec_.unitSize).map (fun i => (n, l.placed + i, u)))
    ∧ (l.rec_.unitLevel = none → (∃ c, ok c) → ∃ t c e, Leads (.workgroupPlacement die) s t ∧ ok c
      ∧ ((∃ d, free d) → free c ∧ ∀ d, free d → c ≤ d) ∧ ((¬ ∃ d, free d) → ∀ d, ok d → waits c < waits d ∨ waits c = waits d ∧ c ≤ d)
      ∧ (t.cluster (s.physOf c)).admQ = (s.cluster (s.physOf c)).admQ ++ [e] ∧ e.wg.launch = n ∧ e.wg.index = l.placed ∧ e.wg.team = 0))
  ∧ ∀ (s : State) (clu pos core slot : Nat) (place : List (Nat × Nat × Nat)) (e : Waiting), (s.cluster clu).admQ[pos]? = some e → s.rotating (clu / 16) = false →
    clusterOf core = clu →
    let w := e.wg
    let spots := w.spots place
    place.length = spots.length → s.admitsBut core w = true → s.oneOwner core w.ctx w.amt (spots.map Prod.snd) = true →
    (s.core core).opens w w.amt (spots.map Prod.snd) = true → Tab.get (s.core core).wgs slot = none → slot < 8 → (s.core core).placeable w.ctx spots = true →
    (∀ i < 8, 8 * clu + i < core → s.canAdmit (8 * clu + i) w = false) → (∀ f ∈ (s.cluster clu).admQ.take pos, s.firstCore clu f.wg = none) →
    w.rec_.groups ≠ [] → (s.core core).wgOf w.uid = none →
    let headAts (n width : Nat) : List Nat := (lanesOf (fullMask width)).map (fun l => w.priv + 64 * w.rec_.priv * n + w.rec_.priv * l)
    let here (n width : Nat) : Bool := (headAts n width).all (fun a => s.translate w.ctx .w a != .absent)
    let heads := (w.rec_.groups.zipIdx).flatMap (fun e => if here e.2 e.1.width then
      (headAts e.2 e.1.width).flatMap (fun a => s.globalPuts w.ctx a (List.replicate 16 0)) else [])
    ∃ t v, Leads (.workgroupAdmission clu pos core slot place) s t ∧ (∀ f ∈ (t.cluster clu).admQ, f.wg.uid ≠ w.uid) ∧ (t.core core).wgOf w.uid = some (slot, v)
      ∧ v.rec_ = w.rec_ ∧ v.queues = w.queues ∧ v.lvl = w.lvl
      ∧ ((∀ k a, (∀ h ∈ heads, ¬ h.1.hits (.hbm a k)) → t.hbmGet k a = s.hbmGet k a)
          ∧ ∀ pre p b post, heads = pre ++ (p, b) :: post → (∀ h ∈ post, ¬ h.1.hits p) → t.byteAt p = some b)
      ∧ ∀ n r p, w.rec_.groups[n]? = some r → place[n]? = some p → ∃ y, t.grp core p.1 = some y ∧ y.wg = w.uid ∧ y.idx = n ∧ y.role = r.role ∧ y.width = r.width ∧ y.nregs = r.vregs
          ∧ y.fr = [{ pc := w.cb + BitVec.ofNat 64 r.entry, pri := r.pri, mask := fullMask r.width, age := 0 }] ∧ y.status = .runnable ∧ y.vfl = []
          ∧ y.heads = if here n r.width then 0 else fullMask r.width

/-- R84, R235, R239, R267: a session opens only with transport security; a packet without a valid authentication, unordered or of another context than the session's is
discarded and counted, as is one of more than 4,096 bytes (a message has 80, whatever its LEN says); one of the session's context writes, reads, modifies or adds in memory that its context maps; a closed session ends; a lost one
drops what its requests wait for. What packets carry, and that answers stand in State.answers, is the model's form (log 51, log 55). -/
def Obligations.Sessions : Prop :=
  ∀ (s : State) (n x : Nat),
    (∀ tss rccc pages, (∀ e, Tab.get s.sessions n = some e → e.closed = true) → n < 65536 → (Tab.get s.ctxs x).isSome = true → pages.all winPageOk = true →
      repeated (pages.map Prod.fst) = false → (∀ p ∈ pages, s.windowOf x (4096 * p.1) = none) → Leads (.sessionOpen n x tss rccc pages) s
        (if tss then { s with sessions := Tab.set s.sessions n { ctx := x, rccc := rccc, closed := false, lost := false, pages := pages } } else s))
    ∧ (∀ e, Tab.get s.sessions n = some e → e.closed = false → ∃ t, Leads (.sessionClose n) s t ∧ Tab.get t.sessions n = some { e with closed := true }
        ∧ (∀ m, m ≠ n → Tab.get t.sessions m = Tab.get s.sessions m) ∧ { t with sessions := s.sessions } = s)
    ∧ (∀ e, Tab.get s.sessions n = some e → e.closed = false → e.lost = false → ∃ t, Leads (.sessionLost n) s t ∧ Tab.get t.sessions n = some { e with lost := true }
        ∧ t.winOut.all (fun o => o.session != n) = true)
    ∧ (∀ mode auth p, (mode = .uud ∨ auth = false ∨ s.sessionCtx n ≠ some x) →
        Leads (.packetReceive n x mode auth p) s { s with counts := { s.counts with discarded := s.counts.discarded + 1 } })
    ∧ (s.sessionCtx n = some x → ∀ mode, (mode = .rud ∨ mode = .rudi) → ∀ va,
        (∀ size data, 0 < size → size ≤ 4096 → s.near x .w va size → ∃ t, Leads (.packetReceive n x mode true (.write va size data)) s t
          ∧ Stored s t (s.globalPuts x va (toLE size data)) ∧ t.cores = s.cores)
        ∧ (∀ size, 0 < size → size ≤ 4096 → s.near x .r va size → Leads (.packetReceive n x mode true (.read va size)) s { s with answers := s.answers ++ [(n, va, size, fromLE (s.glRead x va size))] })
        ∧ (∀ size data, 4096 < size → Leads (.packetReceive n x mode true (.write va size data)) s { s with counts := { s.counts with discarded := s.counts.discarded + 1 } }
          ∧ Leads (.packetReceive n x mode true (.read va size)) s { s with counts := { s.counts with discarded := s.counts.discarded + 1 } }))
    ∧ (s.sessionCtx n = some x → ∀ va,
        (∀ size op u data, (size = 4 ∨ size = 8) → va % size = 0 → s.near x .r va size → s.near x .w va size → let old := fromLE (s.glRead x va size)
          ∃ t, Leads (.packetReceive n x .rud true (.rmw va size op u data)) s t ∧ Stored s t (s.globalPuts x va (toLE size (atomG op u (8 * size) old data)))
            ∧ t.answers = s.answers ++ [(n, va, size, old)])
        ∧ (∀ size cmp new, (size = 4 ∨ size = 8) → va % size = 0 → s.near x .r va size → s.near x .w va size → let old := fromLE (s.glRead x va size)
          ∃ t, Leads (.packetReceive n x .rud true (.cas va size cmp new)) s t ∧ Stored s t (s.globalPuts x va (toLE size (if old = cmp then new else old)))
            ∧ t.answers = s.answers ++ [(n, va, size, old)])
        ∧ ∀ k gen, va % 16 = 0 → s.near x .r va 16 → s.near x .w va 16 → ∃ t, Leads (.packetReceive n x .rud true (.add va k gen)) s t
          ∧ Stored s t (s.globalPuts x va (toLE 16 ((SWord.ofNat (s.word (.gl x va))).add k gen).toNat)) ∧ { ctx := x, wg := none, addr := va, sess := n } ∈ t.bound)
    ∧ ∀ m, s.sessionCtx n = some x → Leads (.packetReceive n x .rod true (.msg m)) s (s.message x m)

/-- R8, R13, R231 to R238, R246: a power-on reset puts every store and table at its reset value and gives every key slot a new key; a device reset keeps memory, keys, patch and
device identifier; and the calls of Fenaz change what they say for context 0 alone, and for any other caller nothing; a refused call returns an error; ATTEST serves any context,
and its report holds the hash of the patch that runs. What a device reset keeps, where reserved rows lie, that a call's policy is an operand, and that what calls return stands in
State.rets, are the model's choices (log 9, log 43, log 50, log 51). -/
def Obligations.ResetsAndFirmware : Prop :=
  ∀ (s : State),
    let gone (t : State) : Prop := { t with hbm := [], hbmKey := [], hbmPoison := [], fenaz := State.reset.fenaz, agenda := [], fresh := 0, nextId := 0 } = State.reset
    let gives (u : State) : State := { u with rets := u.rets ++ [{ caller := 0, error := false }] }
    let refuses (i : Instr) (caller : Nat) : Prop := Leads i s { s with rets := s.rets ++ [{ caller := caller, error := true }] }
    (∀ patch, ∃ t, Leads (.powerOnReset patch) s t ∧ gone t ∧ t.hbm = [] ∧ t.hbmPoison = []
      ∧ (∀ p, t.fenaz.patch = some p ↔ patch = some (p, true) ∧ p.length ≤ 65536) ∧ t.fenaz.devId = 0 ∧ t.fenaz.reports = []
      ∧ ∀ k < 256, Tab.get t.fenaz.keys k = some ((Tab.get s.fenaz.keys k).getD 0 + 1))
    ∧ (∃ t, Leads .deviceReset s t ∧ gone t ∧ t.hbm = s.hbm ∧ t.hbmKey = s.hbmKey ∧ t.hbmPoison = s.hbmPoison ∧ t.fenaz = s.fenaz)
    ∧ (∀ dev, dev < 2 ^ 19 → s.ctxs = [] → Leads (.fabricJoin dev) s { s with fenaz := { s.fenaz with devId := BitVec.ofNat 19 dev } })
    ∧ (∀ caller, caller ≠ 0 → ∀ x y z a b ok p q r e f g grants, refuses (.createContext caller x y z a grants) caller ∧ refuses (.destroyContext caller x) caller
      ∧ refuses (.map caller x y z a p q r b) caller ∧ refuses (.unmap caller x y) caller ∧ refuses (.setQuota caller x y z ok) caller ∧ refuses (.setEntitlement caller x p ok) caller
      ∧ refuses (.reserveClass0 caller x y z a b e f g ok) caller)
    ∧ (∀ x owner key priv grants, s.ownerOk x owner key = false → refuses (.createContext 0 x owner key priv grants) 0)
    ∧ (∀ x owner key priv grants, s.ownerOk x owner key = true → ∃ t k, Leads (.createContext 0 x owner key priv grants) s t ∧ Tab.get t.ctxs x = some k ∧ k.owner = owner ∧ k.key = key
      ∧ k.grants = grants ∧ k.pages = [] ∧ k.tens = [] ∧ k.walks = [] ∧ k.queues = [] ∧ k.entitled = false
      ∧ ((∀ e ∈ s.ctxs, e.2.key ≠ key) → Tab.get t.fenaz.keys key = some ((Tab.get s.fenaz.keys key).getD 0 + 1)) ∧ ∀ y, y ≠ x → Tab.get t.ctxs y = Tab.get s.ctxs y)
    ∧ (∀ x k, Tab.get s.ctxs x = some k →
      (s.idle x = true → ∃ t, Leads (.destroyContext 0 x) s t ∧ Tab.get t.ctxs x = none ∧ (∀ b ∈ t.bound, b.ctx ≠ x) ∧ (∀ im ∈ t.images, im.wg.ctx ≠ x)
        ∧ ∀ y, y ≠ x → Tab.get t.ctxs y = Tab.get s.ctxs y)
      ∧ (s.idle x = false → refuses (.destroyContext 0 x) 0)
      ∧ (∀ va pa size p q r, k.mapOk va pa size k.key = true → Leads (.map 0 x va pa size p q r k.key) s
          (gives <| s.modCtx x (fun c => { c with pages := c.pages ++ [{ va := va, size := size, pa := pa, r := p, w := q, x := r, key := k.key }] })))
      ∧ (∀ va pa size p q r key, k.mapOk va pa size key = false → refuses (.map 0 x va pa size p q r key) 0)
      ∧ (∀ va pg, pg ∈ k.pages → pg.va = va → Leads (.unmap 0 x va) s (gives (s.modCtx x (fun c => { c with pages := c.pages.filter (fun p => p.va != va) }))))
      ∧ (∀ die q, die < 2 → ∃ t k', Leads (.setQuota 0 x die q true) s t ∧ Tab.get t.ctxs x = some k' ∧ (Tab.get k'.quota die).map Prod.fst = some q)
      ∧ (∀ on, Leads (.setEntitlement 0 x on true) s (gives (s.modCtx x (fun c => { c with entitled := on }))))
      ∧ (∀ c wgs grps rows scratch tiles banks row, c < 256 →
          let rest := (s.core c).resv.filter (fun r => r.ctx != x)
          let new : List Resv := rest ++ [{ ctx := x, wgs := wgs, grps := grps, row := row, rows := rows, scratch := scratch, tiles := tiles, banks := banks }]
          resvRow rest rows = some row → resvOk new = true → Leads (.reserveClass0 0 x c wgs grps rows scratch tiles banks true) s (gives (s.modCore c (fun k => { k.cleared with resv := new }))))
      ∧ (∀ die q, refuses (.setQuota 0 x die q false) 0) ∧ (∀ on, refuses (.setEntitlement 0 x on false) 0)
      ∧ ∀ nonce, ∃ t f g, Leads (.attest x nonce) s t ∧ t.fenaz.reports = s.fenaz.reports ++ [(f, g)] ∧ f[0]? = some Config.romVersion ∧ f[1]? = some s.fenaz.patchHash
          ∧ f[2]? = some s.fenaz.devId.toNat ∧ f[3]? = some k.key
          ∧ f[4]? = some nonce.toNat ∧ g = Config.attestSign f)

/-! Decoding, issue and the whole machine. -/

/-- The words that the spec works out (R106 to R112, R273, R275, R287, R303, R313, R325, R326, R353, R379) decode to the instructions that they stand for. -/
def Obligations.DecodesWords : Prop :=
  let c (len : Len) (stl : Fin 16) : Ctl := { len := len, stl := stl, sbw := false, nf := false, pg := 7, pn := false, q := false }
  let reads (n w : Nat) (i : Instr) : Prop := decode (toLE n w) = .ok i
  reads 12 (0x0000020040438CCD + 2 ^ 64 * 0x3) (.ffma (c .w96 6) { ty := .f32, rnd := .rn, sat := .nosat } (.v 4) (.v 1) (.v 2) (.v 3))
  ∧ reads 8 0x001900141013820C (.brcNear (c .w64 1) 1 false 16 0x14 0x19)
  ∧ reads 16 (0x000000000013820E + 2 ^ 64 * 0x0019001400000100) (.brcFar (c .w128 1) 1 false 0x100 0x14 0x19)
  ∧ reads 8 0x000A003201038214 (.callNear (c .w64 1) 0x10 0x32 0xA)
  ∧ reads 8 0x08015101C0738840 (.iadd (c .w64 4) { ty := .i32, sat := true } (.v 7) (.v 7) (.k 1))
  ∧ reads 8 0x000C000090538834 (.voteBallot (c .w64 4) 5 2)
  ∧ reads 8 0x0400000040238CE8 (.fcvt (c .w64 6) .e4m3 .f32 .rn .nosat (.v 2) (.v 1))
  ∧ reads 12 (0x09000040C0138321 + 2 ^ 64 * 0x9) (.ld (c .w96 1) .sp .b32 false { scope := .core, ord := .acq, rmt := false, ofs := 0 } (.v 1) (.s 3))
  ∧ reads 12 (0x0801FF4040038325 + 2 ^ 64 * 0x2A) (.st (c .w96 1) .gl .b32 { scope := .grp, ord := .rlx, rmt := false, ofs := 0 } (.s 1) (.imm32 42))
  ∧ reads 16 (0x000106410003838A + 2 ^ 64 * 0x1860000100000201)
      (.mmul (c .w128 1) { space := .gl, res := false, af := 0, ta := 1, tb := 2, a := 4, b := 6, s := 1, m := 96, n := 48 })
  ∧ reads 16 (0x00000000008383CE + 2 ^ 64 * 0x0000002000000005) (.cxfill (c .w128 1) 0 8 5 32)
  ∧ reads 4 0x00000003 .pad

/-- R102 to R119: what the encoder writes for a well-formed instruction, the decoder reads back, whatever bytes follow it. Well-formedness is a test of the instruction's own
operands, without the encoder or the decoder, so no operand of any value that the encoding admits is dropped. -/
def Obligations.EncodingRoundTrip : Prop :=
  ∀ (i : Instr) (rest : List Byte), i.wf = true → i.encodable = true → decode (encode i ++ rest) = .ok i

/-- R102 to R105, R119: at a PC that is a multiple of 4 and may be executed, a group without a stored instruction finds what its workgroup's fetch block holds there,
or an illegal-instruction trap with cause 0x07 where the length runs past the block; at any other PC the instruction-alignment fault. A turn of an
issue slot that chooses a group whose instruction is i executes i there, and adds to its outcome only pass counts, the round-robin place and, where the machine records, the
record of its execution; with no turn left to name, the machine takes its own, unrecorded. A group whose call-stack headers wait for a page parks on it first (log 70). PAD passes its entry to PC + 4, a YIELD's demotion with it, keeping all else. That a step is one turn, named by the agenda
(log 2), or recorded (log 6), that PAD passes in a turn of its own (log 10), the address that a fetch fault records (log 11) and that a workgroup keeps the blocks it has read (log 28) are the model's choices. -/
def Obligations.StepRunsDecodedInstruction : Prop :=
  (∀ (s : State) (w : Workgroup) (x : Group) (pc : DWord), x.stored pc = none →
    let bs := (s.block w (pc.toNat / 32)).drop (pc.toNat % 32)
    (∀ a, s.headMiss w x = some a → s.found w x pc = .park a) ∧ (s.headMiss w x = none →
    (pc.toNat % 4 ≠ 0 → s.found w x pc = .trap 0x05 0 0)
    ∧ (pc.toNat % 4 = 0 → (∃ p k, s.translate w.ctx .x pc.toNat = .pa p k) →
        (∀ l, lenOf (fromLE (bs.take 4)) = some l → pc.toNat % 32 + lenBytes l > 32 → s.found w x pc = .trap 0x01 0x07 0)
        ∧ ∀ i, decode bs = .ok i → (∀ l, lenOf (fromLE (bs.take 4)) = some l → pc.toNat % 32 + lenBytes l ≤ 32) → s.found w x pc = .run i)))
  ∧ (∀ (s : State) (c : Nat) (sl : Slot) (r : List Turn) (k : Cand) (i : Instr), s.agenda = .issue c sl :: r →
      let u : State := { s with agenda := r, cur := none }
      u.choose c sl = some k → k.look = .run i →
      let out : Out := match exec i (u.issueAt c k) with
        | .next t => .next (t.passes u c sl k (u.cands c sl))
        | .fault f => .fault f
        | .refused f => .refused f
      (s.exe = none → step s = out) ∧ ∀ x t, s.exe = some x → out = .next t → ∃ y, step s = .next { t with exe := some y })
  ∧ (∀ (s t : State) (c : Nat) (sl : Slot) (k : Cand) (ds : List Cand),
      (∀ d g y, t.grp d g = some y → ∃ n, (t.passes s c sl k ds).grp d g = some { y with pass := n }) ∧ SameBytes t (t.passes s c sl k ds))
  ∧ (∀ (s : State) (i : Instr) (r : List Turn), s.agenda = .event i :: r →
      let out := exec i { s with agenda := r, cur := none }
      (s.exe = none → step s = out) ∧ ∀ x t, s.exe = some x → out = .next t → ∃ y, step s = .next { t with exe := some y })
  ∧ (∀ (s : State), s.agenda = [] → step s = State.ownTurn { s with exe := none })
  ∧ ∀ (s : State) (u : Cur) (x : Group), s.cur = some u → s.grp u.core u.g = some x →
      ∃ t y, Leads .pad s t ∧ t.grp u.core u.g = some y ∧ { y with fr := x.fr, demoted := x.demoted } = x ∧ y.demoted = (if x.demoted = some u.pc then some (u.pc + 4) else x.demoted) ∧ t.fresh = s.fresh ∧ SameBytes s t ∧ (∀ f ∈ y.fr, f.pc ≠ u.pc)
        ∧ (∀ e, x.fr = [e] → e.pc = u.pc → y.fr = [{ e with pc := e.pc + 4 }])
        ∧ ∀ l < 64, (∃ f ∈ y.fr, laneIn f.mask l = true) ↔ ∃ f ∈ x.fr, laneIn f.mask l = true

/-- R32, R35: after an issue of the entry at pc whose lanes move as mv says, the frontier has one entry per PC, by rising PC. An entry stands at a PC where
another entry stood or lanes arrive; it holds the union of their masks and the highest of their priorities, and its aging count is one more than
that of the entry that stood there, up to 64, and 0 where none did. -/
def Obligations.FrontierAfterIssue : Prop :=
  ∀ (fr : List Entry) (pc : DWord) (mv : List Move), fr.Pairwise (fun e f => e.pc.toNat < f.pc.toNat) →
    let fr' := advance fr pc mv
    fr'.Pairwise (fun e f => e.pc.toNat < f.pc.toNat)
    ∧ ∀ a : DWord,
      let old := fr.find? (fun e => e.pc == a && a != pc)
      let ms := mv.filter (fun m => m.mask != 0 && m.pc == a)
      match fr'.find? (fun e => e.pc == a) with
      | none => old = none ∧ ms = []
      | some e => (old ≠ none ∨ ms ≠ [])
          ∧ (∀ l < 64, laneIn e.mask l = ((old.map (fun f => laneIn f.mask l)).getD false || ms.any (fun m => laneIn m.mask l)))
          ∧ e.pri.toNat = ((old.map (fun f => f.pri.toNat)).toList ++ ms.map (fun m => m.pri.toNat)).foldl max 0
          ∧ e.age = (old.map (fun f => min 64 (f.age + 1))).getD 0

/-- R31, R35, R37, R215, R251: a group picks an entry whose count is 64 if there is one, else one that the last YIELD has not demoted if there is one, and among those
the highest priority, then the lowest PC; but an entry that stands at PAD passes on before its group issues (R104). A slot chooses among its candidates, groups that are runnable, without a marked trap and let by any halt, and
no candidate goes before the one that it takes: by class, pass count of 32 or more, role, admission and round-robin. That PAD passes first, and that a halted workgroup's
siblings issue by a count of their own, are the model's choices (log 10, log 41). -/
def Obligations.ChoiceOfEntryAndGroup : Prop :=
  let goes (e f : Entry) : Prop := f.pri.toNat < e.pri.toNat ∨ (e.pri = f.pri ∧ e.pc.toNat < f.pc.toNat)
  (∀ (fr : List Entry) (dm : Option DWord), fr ≠ [] → ∃ e, pick fr dm = some e ∧ e ∈ fr
    ∧ (∀ f ∈ fr, f.age = 64 → e.age = 64 ∧ ¬ goes f e)
    ∧ ((∀ f ∈ fr, f.age ≠ 64) → ∀ f ∈ fr, dm ≠ some f.pc → dm ≠ some e.pc ∧ ¬ goes f e))
  ∧ ∀ (s : State) (c : Nat) (sl : Slot) (k : Cand), s.choose c sl = some k →
      k ∈ s.cands c sl ∧ k.look.slot = sl ∧ k.g < 32 ∧ k.x.status = .runnable ∧ k.x.imprec = [] ∧ (s.found k.w k.x k.e.pc = k.look)
      ∧ (if ∃ f ∈ k.x.fr, s.found k.w k.x f.pc = .run .pad then k.e ∈ k.x.fr ∧ k.look = .run .pad else k.x.pick = some k.e) ∧ (k.g, k.x) ∈ (s.core c).grps
      ∧ (k.w.halt = none ∨ k.w.handler = some k.x.uid ∨ (k.w.handler = none ∧ k.x.skid < 16))
      ∧ ∀ d ∈ s.cands c sl, lexLt [d.w.tc, 63 - d.x.rank sl, d.x.role.ix, d.w.order, d.turn sl] [k.w.tc, 63 - k.x.rank sl, k.x.role.ix, k.w.order, k.turn sl] = false

/-- R63: a per-lane operation reads the low 32 bits of a scalar register in every lane, or all 64 where it is 64 bits wide; a scalar destination takes the value
of the lowest active, guard-true lane, and keeps its own where there is none. -/
def Obligations.ScalarOperands : Prop :=
  ∀ (x : Iss), (∀ (n : Fin 64) (l : Nat), x.w32 (.s n) l = x.sv n % 2 ^ 32 ∧ x.w64 (.s n) l = x.sv n)
    ∧ ∀ (wd : Bool) (n : Fin 64) (f : Nat → DWord) (y : Group), x.s.grp x.core x.g = some y → ∃ z, (x.write wd (.s n) f).grp x.core x.g = some z
      ∧ (∀ l, x.low = some l → z.s? n.val = f l) ∧ (x.low = none → z.s? n.val = y.s? n.val) ∧ ∀ m, m ≠ n.val → z.s? m = y.s? m

/-- R206, with R177 to R205: tests of the spec, at its places: SB, LB, IRIW and CoRR of lanes, the trailing sector of a COPY, COPY versus a store, full/empty hand-off, coalesced atomics,
scatter conflict, walk versus unlink, IRED after a store, and stale arrival; x, y and z are bytes 0, 1 and 2 of global memory, sectors are one byte each, records one or two. Each says which
outcome the memory model allows; early operand touch is no test of orders (FenceAndSystem has R192). -/
def Sys2Proof.Rules.Litmus : Prop :=
  let at_ (g clu : Nat) : Place := { grp := g, core := 8 * clu, clu := clu, die := clu / 16, dev := 0 }
  let x := some 0
  let y := some 1
  let starts := [Ev.start 0, Ev.start 1]
  let fence (lane issue : Nat) (p : Place) : Ev := ((Ev.of lane issue p .fence none).released .dev).acquired .dev
  let runs (es : List Ev) (rf : Rel) (co fo : List Nat) : Bool := ({ evs := starts ++ es, rf := rf, co := co, fo := fo } : Cands).allowed
  let sb := [Ev.of 0 0 (at_ 0 0) .wr x, Ev.of 0 2 (at_ 0 0) .rd y, Ev.of 1 0 (at_ 1 9) .wr y, Ev.of 1 2 (at_ 1 9) .rd x]
  let lb := [Ev.of 0 0 (at_ 0 0) .rd x, Ev.of 0 1 (at_ 0 0) .wr y, Ev.of 1 0 (at_ 1 9) .rd y, Ev.of 1 1 (at_ 1 9) .wr x]
  let iriw := [(Ev.of 0 0 (at_ 0 0) .wr x).released .dev, (Ev.of 1 0 (at_ 1 3) .wr y).released .dev,
    Ev.of 2 0 (at_ 2 9) .rd x, Ev.of 2 2 (at_ 2 9) .rd y, Ev.of 3 0 (at_ 3 12) .rd y, Ev.of 3 2 (at_ 3 12) .rd x]
  let corr := [Ev.of 0 0 (at_ 0 0) .wr x, Ev.of 1 0 (at_ 1 9) .rd x, Ev.of 1 1 (at_ 1 9) .rd x]
  let sector (k n : Nat) : Ev := ((Ev.of 0 0 (at_ 0 0) .wr (some n)).released .core).engine .copy (some (0, k))
  let trail := [sector 0 0, sector 3 1, (Ev.of 1 0 (at_ 1 0) .rd y).acquired .core, Ev.of 1 1 (at_ 1 0) .rd x]
  let copy := [Ev.of 0 0 (at_ 0 0) .wr x, (Ev.of 0 1 (at_ 0 0) .rd x).engine .copy (some (0, 0)), Ev.of 0 2 (at_ 0 0) .wr x]
  let bag (flag : Ev) := [Ev.of 0 0 (at_ 0 0) .wr x, flag, (Ev.of 0 2 (at_ 0 0) .rd x).engine .ired (some (0, 0))]
  let plain := Ev.of 0 1 (at_ 0 0) .wr y
  let here (l : EvLoc) : EvLoc := { l with store := .sp 0 1 }
  let own (e : Ev) : Ev := { e with loc := e.loc.map here, first := e.first.map here }
  let handOff := [Ev.of 0 0 (at_ 0 0) .wr x, (Ev.of 0 1 (at_ 0 0) .wr y).released .core, (Ev.of 1 0 (at_ 1 0) .rd y).acquired .core, Ev.of 1 1 (at_ 1 0) .rd x]
  let inSp (es : List Ev) (rf : Rel) (co : List Nat) : Bool := ({ evs := (starts ++ es).map own, rf := rf, co := co, fo := [] } : Cands).allowed
  let atom (lane : Nat) (p : Place) : Ev := { Ev.of lane 0 p .rmw x with merged := true }
  let atoms (order : List Nat) : Bool :=
    ({ evs := Ev.start 0 :: (List.range 4).map (fun l => atom l (at_ 0 0)) ++ [atom 4 (at_ 1 9)], rf := order.zip (order.drop 1), co := order, fo := [] } : Cands).allowed
  let stores : List Ev := Ev.start 0 :: (List.range 16).map (fun l => Ev.of l 0 (at_ (l / 8) 0) .wr x)
  let scatter (n : Nat) : Bool := ({ evs := stores, rf := [], co := 0 :: ((List.range 16).filter (fun m => m != n) ++ [n]).map (fun m => m + 1), fo := [] } : Cands).allowed
  let from_ (n size : Nat) (e : Ev) : Ev := { e with first := some { store := .gl, at_ := n }, size := size, whole := true }
  let unlink := [Ev.start 2, Ev.of 0 0 (at_ 0 0) .wr x, from_ 1 2 (Ev.of 0 1 (at_ 0 0) .wr y), from_ 1 2 (Ev.of 0 1 (at_ 0 0) .wr (some 2))]
  let peel (n : Nat) (a : Nat) : Ev := (from_ n 64 (Ev.of 1 0 (at_ 1 9) .rd (some a))).engine .peel none
  let reads := [peel 0 0, peel 1 1, peel 1 2]
  let walk (a b c : Nat) : Bool := runs (unlink ++ reads) [(a, 6), (b, 7), (c, 8)] [0, 3, 1, 4, 2, 5] []
  let stale : SWord := { target := 256, count := 0, gen := 5, ovr := false, stale := false, abort := false, ten := false }
  inSp handOff [(3, 4), (2, 5)] [0, 2, 1, 3] = true ∧ inSp handOff [(3, 4), (0, 5)] [0, 2, 1, 3] = false
  ∧ (∀ k ≤ 4, atoms (0 :: ([1, 2, 3, 4].take k ++ 5 :: [1, 2, 3, 4].drop k)) = (k == 0 || k == 4)) ∧ atoms [0, 2, 1, 3, 4, 5] = false
  ∧ (∀ n < 16, scatter n = (n == 7 || n == 15))
  ∧ walk 0 1 2 = true ∧ walk 3 1 2 = true ∧ walk 0 4 5 = true ∧ walk 0 1 5 = false ∧ walk 0 4 2 = false
  ∧ stale.add 64 (some 4) = { stale with stale := true } ∧ (stale.add 64 (some 4)).reached 6 = false
  ∧ runs sb [(1, 3), (0, 5)] [0, 2, 1, 4] [] = true
  ∧ (∀ fo ∈ [[6, 7], [7, 6]], runs (sb ++ [fence 0 1 (at_ 0 0), fence 1 1 (at_ 1 9)]) [(1, 3), (0, 5)] [0, 2, 1, 4] fo = false)
  ∧ (∀ fo ∈ [[6, 7], [7, 6]], runs (sb ++ [fence 0 1 (at_ 0 0), { fence 1 1 (at_ 1 9) with ctx := 1 }]) [(1, 3), (0, 5)] [0, 2, 1, 4] fo = true)
  ∧ runs lb [(5, 2), (3, 4)] [0, 5, 1, 3] [] = false ∧ runs lb [(0, 2), (3, 4)] [0, 5, 1, 3] [] = true
  ∧ runs lb [(5, 2), (1, 4)] [0, 5, 1, 3] [] = true ∧ runs lb [(0, 2), (1, 4)] [0, 5, 1, 3] [] = true
  ∧ runs iriw [(2, 4), (1, 5), (3, 6), (0, 7)] [0, 2, 1, 3] [] = true
  ∧ (∀ fo ∈ [[8, 9], [9, 8]], runs (iriw ++ [fence 2 1 (at_ 2 9), fence 3 1 (at_ 3 12)]) [(2, 4), (1, 5), (3, 6), (0, 7)] [0, 2, 1, 3] fo = false)
  ∧ runs corr [(2, 3), (0, 4)] [0, 2, 1] [] = false ∧ runs corr [(0, 3), (2, 4)] [0, 2, 1] [] = true
  ∧ runs trail [(3, 4), (0, 5)] [0, 2, 1, 3] [] = false ∧ runs trail [(1, 4), (2, 5)] [0, 2, 1, 3] [] = true ∧ runs trail [(3, 4), (2, 5)] [0, 2, 1, 3] [] = true
  ∧ runs copy [(2, 3)] [0, 2, 4, 1] [] = true ∧ runs copy [(4, 3)] [0, 2, 4, 1] [] = true ∧ runs copy [(0, 3)] [0, 2, 4, 1] [] = false
  ∧ runs (bag plain) [(0, 4)] [0, 2, 1, 3] [] = true ∧ runs (bag plain) [(2, 4)] [0, 2, 1, 3] [] = true
  ∧ (∀ sc ∈ [Scope.dev, Scope.sys], runs (bag (plain.released sc)) [(0, 4)] [0, 2, 1, 3] [] = false ∧ runs (bag (plain.released sc)) [(2, 4)] [0, 2, 1, 3] [] = true)
  ∧ runs (bag (plain.released .die)) [(0, 4)] [0, 2, 1, 3] [] = true

/-- R177 to R188, R206: message passing. A writer stores x and then stores y with release; a reader loads y with acquire, reading that store, and then loads x. Reading the
new x is allowed; reading the old x is allowed only where the scope of the release and that of the acquire do not both hold the two lanes; and where the reader acquires with
RMT at dev and lies on another core of the device, the old x is forbidden whatever the scope of the release (R184). The tests that Litmus names come out as R206 says. The machine takes
a turn whose reads take older writes only where the memory model allows the execution recorded so far (log 6: the model's choice of how it offers these). -/
def Obligations.MessagePassing : Prop :=
  (∀ (p q : Place) (rel acq : Scope) (rmt : Bool),
    let run (src : Nat) : Cands :=
      { evs := [Ev.start 0, Ev.start 1, Ev.of 0 0 p .wr (some 0), (Ev.of 0 1 p .wr (some 1)).released rel,
                { (Ev.of 1 0 q .rd (some 1)).acquired acq with rmt := rmt }, Ev.of 1 1 q .rd (some 0)],
        rf := [(3, 4), (src, 5)], co := [0, 2, 1, 3], fo := [] }
    (run 2).allowed = true
    ∧ (rmt = false → ((run 0).allowed = true ↔ ¬ (Scope.same rel p q = true ∧ Scope.same acq q p = true)))
    ∧ (rmt = true → acq = .dev → p.core ≠ q.core → p.dev = q.dev → (run 0).allowed = false))
  ∧ Rules.Litmus
  ∧ (∀ (s t : State) (tn : Turn) (r : List Turn), s.agenda = tn :: r → ((∃ c sl w, tn = .weakIssue c sl w) ∨ ∃ i w, tn = .weakEvent i w) → step s = .next t →
      ∃ x, t.exe = some x ∧ x.run.allowed = true)
  ∧ ∀ (s : State) (r : List Turn), s.agenda = .watch :: r → step s = .next { s with agenda := r, cur := none, exe := some Exe.empty }

/-- Every step keeps the cluster maps: two dies, each map the identity rotated (R11, R12, R228), so that it stays a permutation. That the map starts as the identity is the
model's choice (log 9). -/
def Obligations.StepKeepsClusterMaps : Prop :=
  ∀ (s t : State), s.diesOk → step s = .next t → t.diesOk

/-- Every step keeps the canonical form of every byte memory: HBM, scratchpads, tiles and cluster SRAM, of saved and waiting workgroups too. The form, a list sorted by
address, for HBM and cluster SRAM without the bytes that an unlisted address reads as, is the model's own (log 5). -/
def Obligations.StepKeepsMemoryForm : Prop :=
  ∀ (s t : State), s.memWf → step s = .next t → t.memWf

/-- The machine after reset (the model's choice: log 5, log 9: DESIGN CHOICE): nothing is resident, no context, session or launch exists, every byte reads 0 under every key, the maps
are the identity, and the two invariants hold. -/
def Obligations.ResetState : Prop :=
  State.reset.diesOk ∧ State.reset.memWf ∧ (∀ k pa, State.reset.hbmGet k pa = 0) ∧ (∀ l < 32, State.reset.physOf l = l)
    ∧ (∀ c, State.reset.core c = Core.empty) ∧ (∀ x, Tab.get State.reset.ctxs x = none) ∧ (∀ n, Tab.get State.reset.sessions n = none)
    ∧ (∀ n, Tab.get State.reset.launches n = none) ∧ State.reset.fenaz.patch = none ∧ State.reset.counts.discarded = 0

end
end

