-- ==== Sys2Proof/Laws/Mem.lean ====
section
/-! SUPPORT. Tables, byte memories and their canonical form, byte order. -/
namespace Sys2Proof.Machine
open Sys2Proof

/-! Tables. -/

theorem Tab.get_set_same {α : Type} (t : Tab α) (k : Nat) (x : α) : Tab.get (Tab.set t k x) k = some x := by
  induction t with
  | nil => simp [Tab.set, Tab.get]
  | cons e r ih =>
    obtain ⟨j, y⟩ := e
    simp only [Tab.set]
    split
    · simp [Tab.get]
    · split
      · simp [Tab.get]
      · next h _ => simp [Tab.get, h, ih]

theorem Tab.get_set_other {α : Type} (t : Tab α) {k j : Nat} (x : α) (h : j ≠ k) : Tab.get (Tab.set t k x) j = Tab.get t j := by
  induction t with
  | nil => simp [Tab.set, Tab.get, Ne.symm h]
  | cons e r ih =>
    obtain ⟨i, y⟩ := e
    simp only [Tab.set]
    split
    · next hi => subst hi; simp [Tab.get, Ne.symm h]
    · split
      · simp [Tab.get, Ne.symm h]
      · simp only [Tab.get, ih]

theorem Tab.get_set {α : Type} (t : Tab α) (k j : Nat) (x : α) : Tab.get (Tab.set t k x) j = if j = k then some x else Tab.get t j := by
  split
  · next h => subst h; exact Tab.get_set_same t j x
  · next h => exact Tab.get_set_other t x h

theorem Tab.get_upd {α : Type} (t : Tab α) (k j : Nat) (f : α → α) :
    Tab.get (Tab.upd t k f) j = if j = k then (Tab.get t j).map f else Tab.get t j := by
  induction t with
  | nil => simp [Tab.upd, Tab.get]
  | cons e r ih =>
    obtain ⟨i, y⟩ := e
    simp only [Tab.upd, List.map_cons] at ih ⊢
    by_cases h : i = k <;> by_cases g : i = j <;> simp_all [Tab.get]

theorem Tab.get_del {α : Type} (t : Tab α) (k j : Nat) : Tab.get (Tab.del t k) j = if j = k then none else Tab.get t j := by
  induction t with
  | nil => simp [Tab.del, Tab.get]
  | cons e r ih =>
    obtain ⟨i, y⟩ := e
    simp only [Tab.del] at ih ⊢
    by_cases h : i = k <;> by_cases g : i = j <;> simp_all [Tab.get]

/-! Memories. -/

theorem Mem.get_ins (m : Mem) (a c : Nat) (b : Byte) : Mem.get (Mem.ins m a b) c = if c = a then b else Mem.get m c := by
  induction m with
  | nil => simp only [Mem.ins, Mem.get, eq_comm]
  | cons e r ih =>
    obtain ⟨x, y⟩ := e
    simp only [Mem.ins]
    split
    · simp only [Mem.get, eq_comm]
    · split
      · next h => subst h; simp only [Mem.get, eq_comm]; split <;> rfl
      · next h =>
        simp only [Mem.get, ih]
        by_cases hx : x = c
        · rw [if_pos hx, if_pos hx, if_neg (fun e => h (e.symm.trans hx.symm))]
        · rw [if_neg hx, if_neg hx]

theorem Mem.get_filter (m : Mem) (a c : Nat) : Mem.get (m.filter (fun e => e.1 != a)) c = if c = a then 0 else Mem.get m c := by
  induction m with
  | nil => simp [Mem.get]
  | cons e r ih =>
    obtain ⟨x, y⟩ := e
    by_cases hx : x = a
    · subst hx
      simp only [List.filter_cons, bne_self_eq_false, Bool.false_eq_true, if_false, ih, Mem.get]
      split
      · rfl
      · next h => rw [if_neg (Ne.symm h)]
    · have : (x != a) = true := bne_iff_ne.mpr hx
      simp only [List.filter_cons, this, if_true, Mem.get, ih]
      by_cases hc : x = c
      · rw [if_pos hc, if_pos hc, if_neg (fun e => hx (hc.trans e))]
      · rw [if_neg hc, if_neg hc]

/-- What a byte reads after a put. -/
theorem Mem.get_put (m : Mem) (a c : Nat) (b : Byte) : Mem.get (Mem.put m a b) c = if c = a then b else Mem.get m c := by
  unfold Mem.put
  split
  · next h => rw [Mem.get_filter, h]
  · exact Mem.get_ins m a c b

theorem Mem.get_put_same (m : Mem) (a : Nat) (b : Byte) : Mem.get (Mem.put m a b) a = b := by rw [Mem.get_put, if_pos rfl]
theorem Mem.get_put_other (m : Mem) {a c : Nat} (b : Byte) (h : c ≠ a) : Mem.get (Mem.put m a b) c = Mem.get m c := by rw [Mem.get_put, if_neg h]

/-- Every put keeps the canonical form. -/
theorem Mem.wf_put (m : Mem) (a : Nat) (b : Byte) (h : Mem.wf m = true) : Mem.wf (Mem.put m a b) = true := by
  have up : ∀ (m : Mem) (lo lo' : Nat), lo' ≤ lo → Mem.wfFrom lo m = true → Mem.wfFrom lo' m = true := by
    intro m lo lo' hl hm
    cases m with
    | nil => rfl
    | cons e r => obtain ⟨x, y⟩ := e; simp only [Mem.wfFrom, Bool.and_eq_true, decide_eq_true_eq] at hm ⊢; exact ⟨⟨by omega, hm.1.2⟩, hm.2⟩
  have del : ∀ (m : Mem) (lo : Nat), Mem.wfFrom lo m = true → Mem.wfFrom lo (m.filter (fun e => e.1 != a)) = true := by
    intro m
    induction m with
    | nil => intro lo _; rfl
    | cons e r ih =>
      intro lo hw
      obtain ⟨x, y⟩ := e
      simp only [Mem.wfFrom, Bool.and_eq_true, decide_eq_true_eq] at hw
      simp only [List.filter_cons]
      split
      · simp only [Mem.wfFrom, Bool.and_eq_true, decide_eq_true_eq]; exact ⟨hw.1, ih (x + 1) hw.2⟩
      · exact up _ (x + 1) lo (by omega) (ih (x + 1) hw.2)
  have gen : b ≠ 0 → ∀ (m : Mem) (lo : Nat), lo ≤ a → Mem.wfFrom lo m = true → Mem.wfFrom lo (Mem.ins m a b) = true := by
    intro hb m
    have hb' : (b != 0) = true := bne_iff_ne.mpr hb
    induction m with
    | nil => intro lo hl _; simp only [Mem.ins, Mem.wfFrom, Bool.and_eq_true, decide_eq_true_eq]; exact ⟨⟨hl, hb'⟩, trivial⟩
    | cons e r ih =>
      intro lo hl hw
      obtain ⟨x, y⟩ := e
      simp only [Mem.wfFrom, Bool.and_eq_true, decide_eq_true_eq] at hw
      simp only [Mem.ins]
      split
      · simp only [Mem.wfFrom, Bool.and_eq_true, decide_eq_true_eq]; exact ⟨⟨hl, hb'⟩, ⟨by omega, hw.1.2⟩, hw.2⟩
      · split
        · next heq => subst heq; simp only [Mem.wfFrom, Bool.and_eq_true, decide_eq_true_eq]; exact ⟨⟨hl, hb'⟩, hw.2⟩
        · simp only [Mem.wfFrom, Bool.and_eq_true, decide_eq_true_eq]; exact ⟨hw.1, ih (x + 1) (by omega) hw.2⟩
  unfold Mem.put
  split
  · exact del m 0 h
  · next hb => exact gen hb m 0 (Nat.zero_le a) h

/-- Every write keeps the canonical form. -/
theorem Mem.wf_write (m : Mem) (a : Nat) (bs : List Byte) (h : Mem.wf m = true) : Mem.wf (Mem.write m a bs) = true := by
  induction bs generalizing m a with
  | nil => exact h
  | cons b r ih => exact ih (Mem.put m a b) (a + 1) (Mem.wf_put m a b h)

theorem Mem.wf_writeN (m : Mem) (a n v : Nat) (h : Mem.wf m = true) : Mem.wf (Mem.writeN m a n v) = true := Mem.wf_write m a (toLE n v) h

/-- What a byte reads after a write. -/
theorem Mem.get_write (m : Mem) (a : Nat) (bs : List Byte) (c : Nat) :
    Mem.get (Mem.write m a bs) c = if a ≤ c ∧ c < a + bs.length then bs.getD (c - a) 0 else Mem.get m c := by
  induction bs generalizing m a with
  | nil => rw [if_neg (fun h => absurd h.2 (Nat.not_lt.mpr (by simpa using h.1)))]; rfl
  | cons b r ih =>
    simp only [Mem.write, List.length_cons]
    rw [ih (Mem.put m a b) (a + 1)]
    by_cases hc : c = a
    · subst hc
      rw [if_neg (by omega), if_pos (by omega), Mem.get_put_same m c b]
      simp
    · by_cases hi : a + 1 ≤ c ∧ c < a + 1 + r.length
      · rw [if_pos hi, if_pos (by omega)]
        have : c - a = (c - (a + 1)) + 1 := by omega
        rw [this, List.getD_cons_succ]
      · rw [if_neg hi, if_neg (by omega), Mem.get_put_other m b hc]

theorem Mem.get_write_outside (m : Mem) (a : Nat) (bs : List Byte) (c : Nat) (h : c < a ∨ a + bs.length ≤ c) :
    Mem.get (Mem.write m a bs) c = Mem.get m c := by
  induction bs generalizing m a with
  | nil => rfl
  | cons b r ih =>
    simp only [Mem.write, List.length_cons] at h ⊢
    rw [ih (Mem.put m a b) (a + 1) (by omega), Mem.get_put_other m b (by omega)]

@[simp] theorem Mem.length_read (m : Mem) (a n : Nat) : (Mem.read m a n).length = n := by
  induction n generalizing a with
  | zero => rfl
  | succ n ih => simp [Mem.read, ih]

theorem Mem.getD_read (m : Mem) (a n i : Nat) (h : i < n) : (Mem.read m a n).getD i 0 = Mem.get m (a + i) := by
  induction n generalizing a i with
  | zero => omega
  | succ n ih =>
    cases i with
    | zero => simp [Mem.read]
    | succ i => simp only [Mem.read, List.getD_cons_succ]; rw [ih (a + 1) i (by omega)]; congr 1; omega

/-- A read of what was just written. -/
theorem Mem.read_write_same (m : Mem) (a : Nat) (bs : List Byte) : Mem.read (Mem.write m a bs) a bs.length = bs := by
  apply List.ext_getElem (by simp)
  intro i h1 h2
  have := Mem.getD_read (Mem.write m a bs) a bs.length i h2
  rw [Mem.get_write m a bs (a + i), if_pos (by omega)] at this
  simp only [List.getD_eq_getElem?_getD, List.getElem?_eq_getElem h1, Option.getD_some] at this
  rw [this]
  simp [List.getElem?_eq_getElem h2]

/-! Stores that hold undefined values until they are written. -/

theorem Tab.get_ins (m : Cells) (a c : Nat) (b : Byte) : Tab.get (Mem.ins m a b) c = if c = a then some b else Tab.get m c := by
  induction m with
  | nil => simp only [Mem.ins, Tab.get, eq_comm]
  | cons e r ih =>
    obtain ⟨x, y⟩ := e
    simp only [Mem.ins]
    split
    · simp only [Tab.get, eq_comm]
    · split
      · next h => subst h; simp only [Tab.get, eq_comm]; split <;> rfl
      · next h =>
        simp only [Tab.get, ih]
        by_cases hx : x = c
        · rw [if_pos hx, if_pos hx, if_neg (fun e => h (e.symm.trans hx.symm))]
        · rw [if_neg hx, if_neg hx]

/-- What a byte reads after one is written. -/
theorem Cells.get_ins (k n : Nat) (m : Cells) (a c : Nat) (b : Byte) : Cells.get k n (Mem.ins m a b) c = if c = a then b else Cells.get k n m c := by
  unfold Cells.get
  rw [Tab.get_ins]
  by_cases h : c = a <;> simp [h]

/-- What a byte reads after a write. -/
theorem Cells.get_write (k n : Nat) (m : Cells) (a : Nat) (bs : List Byte) (c : Nat) :
    Cells.get k n (Cells.write m a bs) c = if a ≤ c ∧ c < a + bs.length then bs.getD (c - a) 0 else Cells.get k n m c := by
  induction bs generalizing m a with
  | nil => rw [if_neg (fun h => absurd h.2 (Nat.not_lt.mpr (by simpa using h.1)))]; rfl
  | cons b r ih =>
    simp only [Cells.write, List.length_cons]
    rw [ih (Mem.ins m a b) (a + 1)]
    by_cases hc : c = a
    · subst hc
      rw [if_neg (by omega), if_pos (by omega), Cells.get_ins, if_pos rfl]
      simp
    · by_cases hi : a + 1 ≤ c ∧ c < a + 1 + r.length
      · rw [if_pos hi, if_pos (by omega)]
        have : c - a = (c - (a + 1)) + 1 := by omega
        rw [this, List.getD_cons_succ]
      · rw [if_neg hi, if_neg (by omega), Cells.get_ins, if_neg hc]

theorem Cells.get_write_outside (k n : Nat) (m : Cells) (a : Nat) (bs : List Byte) (c : Nat) (h : c < a ∨ a + bs.length ≤ c) :
    Cells.get k n (Cells.write m a bs) c = Cells.get k n m c := by rw [Cells.get_write, if_neg (by omega)]

/-- Every byte written keeps the canonical form. -/
theorem Cells.wf_ins (m : Cells) (a : Nat) (b : Byte) (h : Cells.wf m = true) : Cells.wf (Mem.ins m a b) = true := by
  have gen : ∀ (m : Cells) (lo : Nat), lo ≤ a → Cells.wfFrom lo m = true → Cells.wfFrom lo (Mem.ins m a b) = true := by
    intro m
    induction m with
    | nil => intro lo hl _; simp [Mem.ins, Cells.wfFrom, hl]
    | cons e r ih =>
      intro lo hl hw
      obtain ⟨x, y⟩ := e
      simp only [Cells.wfFrom, Bool.and_eq_true, decide_eq_true_eq] at hw
      simp only [Mem.ins]
      split
      · next hx => simp only [Cells.wfFrom, Bool.and_eq_true, decide_eq_true_eq]; exact ⟨hl, by omega, hw.2⟩
      · split
        · next heq => subst heq; simp only [Cells.wfFrom, Bool.and_eq_true, decide_eq_true_eq]; exact ⟨hl, hw.2⟩
        · simp only [Cells.wfFrom, Bool.and_eq_true, decide_eq_true_eq]; exact ⟨hw.1, ih (x + 1) (by omega) hw.2⟩
  exact gen m 0 (Nat.zero_le a) h

/-- Every write keeps the canonical form. -/
theorem Cells.wf_write (m : Cells) (a : Nat) (bs : List Byte) (h : Cells.wf m = true) : Cells.wf (Cells.write m a bs) = true := by
  induction bs generalizing m a with
  | nil => exact h
  | cons b r ih => exact ih _ _ (Cells.wf_ins m a b h)

/-! Byte order (R5). -/

@[simp] theorem length_toLE (n x : Nat) : (toLE n x).length = n := by
  induction n generalizing x with
  | zero => rfl
  | succ n ih => simp [toLE, ih]

theorem fromLE_toLE (n x : Nat) : fromLE (toLE n x) = x % 256 ^ n := by
  induction n generalizing x with
  | zero => simp [toLE, fromLE, Nat.mod_one]
  | succ n ih =>
    have e : 256 ^ (n + 1) = 256 * 256 ^ n := by rw [Nat.pow_succ, Nat.mul_comm]
    rw [toLE, fromLE, ih, BitVec.toNat_ofNat, e, Nat.mod_mul]

theorem toLE_fromLE (bs : List Byte) : toLE bs.length (fromLE bs) = bs := by
  induction bs with
  | nil => rfl
  | cons b r ih =>
    simp only [fromLE, List.length_cons, toLE]
    have h1 : (b.toNat + 256 * fromLE r) / 256 = fromLE r := by have := b.isLt; omega
    rw [h1, ih]
    congr 1
    apply BitVec.eq_of_toNat_eq
    simp only [BitVec.toNat_ofNat]
    have := b.isLt
    omega

end Sys2Proof.Machine
end

