-- ==== Sys2Proof/Laws/State.lean ====
section
/-! SUPPORT. One lemma per field of State and update of it, and what the parts of the state read as after an update. -/
namespace Sys2Proof.Machine
open Sys2Proof

/-! Fields that an update leaves alone. -/

@[simp] theorem State.setCore_clusters (s : State) (c : Nat) (k : Core) : (s.setCore c k).clusters = s.clusters := rfl
@[simp] theorem State.setCore_dies (s : State) (c : Nat) (k : Core) : (s.setCore c k).dies = s.dies := rfl
@[simp] theorem State.setCore_arbs (s : State) (c : Nat) (k : Core) : (s.setCore c k).arbs = s.arbs := rfl
@[simp] theorem State.setCore_hbm (s : State) (c : Nat) (k : Core) : (s.setCore c k).hbm = s.hbm := rfl
@[simp] theorem State.setCore_hbmKey (s : State) (c : Nat) (k : Core) : (s.setCore c k).hbmKey = s.hbmKey := rfl
@[simp] theorem State.setCore_hbmPoison (s : State) (c : Nat) (k : Core) : (s.setCore c k).hbmPoison = s.hbmPoison := rfl
@[simp] theorem State.setCore_bound (s : State) (c : Nat) (k : Core) : (s.setCore c k).bound = s.bound := rfl
@[simp] theorem State.setCore_ctxs (s : State) (c : Nat) (k : Core) : (s.setCore c k).ctxs = s.ctxs := rfl
@[simp] theorem State.setCore_sessions (s : State) (c : Nat) (k : Core) : (s.setCore c k).sessions = s.sessions := rfl
@[simp] theorem State.setCore_launches (s : State) (c : Nat) (k : Core) : (s.setCore c k).launches = s.launches := rfl
@[simp] theorem State.setCore_images (s : State) (c : Nat) (k : Core) : (s.setCore c k).images = s.images := rfl
@[simp] theorem State.setCore_outbox (s : State) (c : Nat) (k : Core) : (s.setCore c k).outbox = s.outbox := rfl
@[simp] theorem State.setCore_winOut (s : State) (c : Nat) (k : Core) : (s.setCore c k).winOut = s.winOut := rfl
@[simp] theorem State.setCore_answers (s : State) (c : Nat) (k : Core) : (s.setCore c k).answers = s.answers := rfl
@[simp] theorem State.setCore_counts (s : State) (c : Nat) (k : Core) : (s.setCore c k).counts = s.counts := rfl
@[simp] theorem State.setCore_fenaz (s : State) (c : Nat) (k : Core) : (s.setCore c k).fenaz = s.fenaz := rfl
@[simp] theorem State.setCore_rets (s : State) (c : Nat) (k : Core) : (s.setCore c k).rets = s.rets := rfl
@[simp] theorem State.setCore_agenda (s : State) (c : Nat) (k : Core) : (s.setCore c k).agenda = s.agenda := rfl
@[simp] theorem State.setCore_cur (s : State) (c : Nat) (k : Core) : (s.setCore c k).cur = s.cur := rfl
@[simp] theorem State.setCore_fresh (s : State) (c : Nat) (k : Core) : (s.setCore c k).fresh = s.fresh := rfl
@[simp] theorem State.setCore_nextId (s : State) (c : Nat) (k : Core) : (s.setCore c k).nextId = s.nextId := rfl
@[simp] theorem State.setCore_exe (s : State) (c : Nat) (k : Core) : (s.setCore c k).exe = s.exe := rfl
@[simp] theorem State.modCore_clusters (s : State) (c : Nat) (f : Core → Core) : (s.modCore c f).clusters = s.clusters := rfl
@[simp] theorem State.modCore_dies (s : State) (c : Nat) (f : Core → Core) : (s.modCore c f).dies = s.dies := rfl
@[simp] theorem State.modCore_arbs (s : State) (c : Nat) (f : Core → Core) : (s.modCore c f).arbs = s.arbs := rfl
@[simp] theorem State.modCore_hbm (s : State) (c : Nat) (f : Core → Core) : (s.modCore c f).hbm = s.hbm := rfl
@[simp] theorem State.modCore_hbmKey (s : State) (c : Nat) (f : Core → Core) : (s.modCore c f).hbmKey = s.hbmKey := rfl
@[simp] theorem State.modCore_hbmPoison (s : State) (c : Nat) (f : Core → Core) : (s.modCore c f).hbmPoison = s.hbmPoison := rfl
@[simp] theorem State.modCore_bound (s : State) (c : Nat) (f : Core → Core) : (s.modCore c f).bound = s.bound := rfl
@[simp] theorem State.modCore_ctxs (s : State) (c : Nat) (f : Core → Core) : (s.modCore c f).ctxs = s.ctxs := rfl
@[simp] theorem State.modCore_sessions (s : State) (c : Nat) (f : Core → Core) : (s.modCore c f).sessions = s.sessions := rfl
@[simp] theorem State.modCore_launches (s : State) (c : Nat) (f : Core → Core) : (s.modCore c f).launches = s.launches := rfl
@[simp] theorem State.modCore_images (s : State) (c : Nat) (f : Core → Core) : (s.modCore c f).images = s.images := rfl
@[simp] theorem State.modCore_outbox (s : State) (c : Nat) (f : Core → Core) : (s.modCore c f).outbox = s.outbox := rfl
@[simp] theorem State.modCore_winOut (s : State) (c : Nat) (f : Core → Core) : (s.modCore c f).winOut = s.winOut := rfl
@[simp] theorem State.modCore_answers (s : State) (c : Nat) (f : Core → Core) : (s.modCore c f).answers = s.answers := rfl
@[simp] theorem State.modCore_counts (s : State) (c : Nat) (f : Core → Core) : (s.modCore c f).counts = s.counts := rfl
@[simp] theorem State.modCore_fenaz (s : State) (c : Nat) (f : Core → Core) : (s.modCore c f).fenaz = s.fenaz := rfl
@[simp] theorem State.modCore_rets (s : State) (c : Nat) (f : Core → Core) : (s.modCore c f).rets = s.rets := rfl
@[simp] theorem State.modCore_agenda (s : State) (c : Nat) (f : Core → Core) : (s.modCore c f).agenda = s.agenda := rfl
@[simp] theorem State.modCore_cur (s : State) (c : Nat) (f : Core → Core) : (s.modCore c f).cur = s.cur := rfl
@[simp] theorem State.modCore_fresh (s : State) (c : Nat) (f : Core → Core) : (s.modCore c f).fresh = s.fresh := rfl
@[simp] theorem State.modCore_nextId (s : State) (c : Nat) (f : Core → Core) : (s.modCore c f).nextId = s.nextId := rfl
@[simp] theorem State.modCore_exe (s : State) (c : Nat) (f : Core → Core) : (s.modCore c f).exe = s.exe := rfl
@[simp] theorem State.modGrp_clusters (s : State) (c g : Nat) (f : Group → Group) : (s.modGrp c g f).clusters = s.clusters := rfl
@[simp] theorem State.modGrp_dies (s : State) (c g : Nat) (f : Group → Group) : (s.modGrp c g f).dies = s.dies := rfl
@[simp] theorem State.modGrp_arbs (s : State) (c g : Nat) (f : Group → Group) : (s.modGrp c g f).arbs = s.arbs := rfl
@[simp] theorem State.modGrp_hbm (s : State) (c g : Nat) (f : Group → Group) : (s.modGrp c g f).hbm = s.hbm := rfl
@[simp] theorem State.modGrp_hbmKey (s : State) (c g : Nat) (f : Group → Group) : (s.modGrp c g f).hbmKey = s.hbmKey := rfl
@[simp] theorem State.modGrp_hbmPoison (s : State) (c g : Nat) (f : Group → Group) : (s.modGrp c g f).hbmPoison = s.hbmPoison := rfl
@[simp] theorem State.modGrp_bound (s : State) (c g : Nat) (f : Group → Group) : (s.modGrp c g f).bound = s.bound := rfl
@[simp] theorem State.modGrp_ctxs (s : State) (c g : Nat) (f : Group → Group) : (s.modGrp c g f).ctxs = s.ctxs := rfl
@[simp] theorem State.modGrp_sessions (s : State) (c g : Nat) (f : Group → Group) : (s.modGrp c g f).sessions = s.sessions := rfl
@[simp] theorem State.modGrp_launches (s : State) (c g : Nat) (f : Group → Group) : (s.modGrp c g f).launches = s.launches := rfl
@[simp] theorem State.modGrp_images (s : State) (c g : Nat) (f : Group → Group) : (s.modGrp c g f).images = s.images := rfl
@[simp] theorem State.modGrp_outbox (s : State) (c g : Nat) (f : Group → Group) : (s.modGrp c g f).outbox = s.outbox := rfl
@[simp] theorem State.modGrp_winOut (s : State) (c g : Nat) (f : Group → Group) : (s.modGrp c g f).winOut = s.winOut := rfl
@[simp] theorem State.modGrp_answers (s : State) (c g : Nat) (f : Group → Group) : (s.modGrp c g f).answers = s.answers := rfl
@[simp] theorem State.modGrp_counts (s : State) (c g : Nat) (f : Group → Group) : (s.modGrp c g f).counts = s.counts := rfl
@[simp] theorem State.modGrp_fenaz (s : State) (c g : Nat) (f : Group → Group) : (s.modGrp c g f).fenaz = s.fenaz := rfl
@[simp] theorem State.modGrp_rets (s : State) (c g : Nat) (f : Group → Group) : (s.modGrp c g f).rets = s.rets := rfl
@[simp] theorem State.modGrp_agenda (s : State) (c g : Nat) (f : Group → Group) : (s.modGrp c g f).agenda = s.agenda := rfl
@[simp] theorem State.modGrp_cur (s : State) (c g : Nat) (f : Group → Group) : (s.modGrp c g f).cur = s.cur := rfl
@[simp] theorem State.modGrp_fresh (s : State) (c g : Nat) (f : Group → Group) : (s.modGrp c g f).fresh = s.fresh := rfl
@[simp] theorem State.modGrp_nextId (s : State) (c g : Nat) (f : Group → Group) : (s.modGrp c g f).nextId = s.nextId := rfl
@[simp] theorem State.modGrp_exe (s : State) (c g : Nat) (f : Group → Group) : (s.modGrp c g f).exe = s.exe := rfl
@[simp] theorem State.modWg_clusters (s : State) (c u : Nat) (f : Workgroup → Workgroup) : (s.modWg c u f).clusters = s.clusters := rfl
@[simp] theorem State.modWg_dies (s : State) (c u : Nat) (f : Workgroup → Workgroup) : (s.modWg c u f).dies = s.dies := rfl
@[simp] theorem State.modWg_arbs (s : State) (c u : Nat) (f : Workgroup → Workgroup) : (s.modWg c u f).arbs = s.arbs := rfl
@[simp] theorem State.modWg_hbm (s : State) (c u : Nat) (f : Workgroup → Workgroup) : (s.modWg c u f).hbm = s.hbm := rfl
@[simp] theorem State.modWg_hbmKey (s : State) (c u : Nat) (f : Workgroup → Workgroup) : (s.modWg c u f).hbmKey = s.hbmKey := rfl
@[simp] theorem State.modWg_hbmPoison (s : State) (c u : Nat) (f : Workgroup → Workgroup) : (s.modWg c u f).hbmPoison = s.hbmPoison := rfl
@[simp] theorem State.modWg_bound (s : State) (c u : Nat) (f : Workgroup → Workgroup) : (s.modWg c u f).bound = s.bound := rfl
@[simp] theorem State.modWg_ctxs (s : State) (c u : Nat) (f : Workgroup → Workgroup) : (s.modWg c u f).ctxs = s.ctxs := rfl
@[simp] theorem State.modWg_sessions (s : State) (c u : Nat) (f : Workgroup → Workgroup) : (s.modWg c u f).sessions = s.sessions := rfl
@[simp] theorem State.modWg_launches (s : State) (c u : Nat) (f : Workgroup → Workgroup) : (s.modWg c u f).launches = s.launches := rfl
@[simp] theorem State.modWg_images (s : State) (c u : Nat) (f : Workgroup → Workgroup) : (s.modWg c u f).images = s.images := rfl
@[simp] theorem State.modWg_outbox (s : State) (c u : Nat) (f : Workgroup → Workgroup) : (s.modWg c u f).outbox = s.outbox := rfl
@[simp] theorem State.modWg_winOut (s : State) (c u : Nat) (f : Workgroup → Workgroup) : (s.modWg c u f).winOut = s.winOut := rfl
@[simp] theorem State.modWg_answers (s : State) (c u : Nat) (f : Workgroup → Workgroup) : (s.modWg c u f).answers = s.answers := rfl
@[simp] theorem State.modWg_counts (s : State) (c u : Nat) (f : Workgroup → Workgroup) : (s.modWg c u f).counts = s.counts := rfl
@[simp] theorem State.modWg_fenaz (s : State) (c u : Nat) (f : Workgroup → Workgroup) : (s.modWg c u f).fenaz = s.fenaz := rfl
@[simp] theorem State.modWg_rets (s : State) (c u : Nat) (f : Workgroup → Workgroup) : (s.modWg c u f).rets = s.rets := rfl
@[simp] theorem State.modWg_agenda (s : State) (c u : Nat) (f : Workgroup → Workgroup) : (s.modWg c u f).agenda = s.agenda := rfl
@[simp] theorem State.modWg_cur (s : State) (c u : Nat) (f : Workgroup → Workgroup) : (s.modWg c u f).cur = s.cur := rfl
@[simp] theorem State.modWg_fresh (s : State) (c u : Nat) (f : Workgroup → Workgroup) : (s.modWg c u f).fresh = s.fresh := rfl
@[simp] theorem State.modWg_nextId (s : State) (c u : Nat) (f : Workgroup → Workgroup) : (s.modWg c u f).nextId = s.nextId := rfl
@[simp] theorem State.modWg_exe (s : State) (c u : Nat) (f : Workgroup → Workgroup) : (s.modWg c u f).exe = s.exe := rfl
@[simp] theorem State.modCluster_cores (s : State) (p : Nat) (f : Cluster → Cluster) : (s.modCluster p f).cores = s.cores := rfl
@[simp] theorem State.modCluster_dies (s : State) (p : Nat) (f : Cluster → Cluster) : (s.modCluster p f).dies = s.dies := rfl
@[simp] theorem State.modCluster_arbs (s : State) (p : Nat) (f : Cluster → Cluster) : (s.modCluster p f).arbs = s.arbs := rfl
@[simp] theorem State.modCluster_hbm (s : State) (p : Nat) (f : Cluster → Cluster) : (s.modCluster p f).hbm = s.hbm := rfl
@[simp] theorem State.modCluster_hbmKey (s : State) (p : Nat) (f : Cluster → Cluster) : (s.modCluster p f).hbmKey = s.hbmKey := rfl
@[simp] theorem State.modCluster_hbmPoison (s : State) (p : Nat) (f : Cluster → Cluster) : (s.modCluster p f).hbmPoison = s.hbmPoison := rfl
@[simp] theorem State.modCluster_bound (s : State) (p : Nat) (f : Cluster → Cluster) : (s.modCluster p f).bound = s.bound := rfl
@[simp] theorem State.modCluster_ctxs (s : State) (p : Nat) (f : Cluster → Cluster) : (s.modCluster p f).ctxs = s.ctxs := rfl
@[simp] theorem State.modCluster_sessions (s : State) (p : Nat) (f : Cluster → Cluster) : (s.modCluster p f).sessions = s.sessions := rfl
@[simp] theorem State.modCluster_launches (s : State) (p : Nat) (f : Cluster → Cluster) : (s.modCluster p f).launches = s.launches := rfl
@[simp] theorem State.modCluster_images (s : State) (p : Nat) (f : Cluster → Cluster) : (s.modCluster p f).images = s.images := rfl
@[simp] theorem State.modCluster_outbox (s : State) (p : Nat) (f : Cluster → Cluster) : (s.modCluster p f).outbox = s.outbox := rfl
@[simp] theorem State.modCluster_winOut (s : State) (p : Nat) (f : Cluster → Cluster) : (s.modCluster p f).winOut = s.winOut := rfl
@[simp] theorem State.modCluster_answers (s : State) (p : Nat) (f : Cluster → Cluster) : (s.modCluster p f).answers = s.answers := rfl
@[simp] theorem State.modCluster_counts (s : State) (p : Nat) (f : Cluster → Cluster) : (s.modCluster p f).counts = s.counts := rfl
@[simp] theorem State.modCluster_fenaz (s : State) (p : Nat) (f : Cluster → Cluster) : (s.modCluster p f).fenaz = s.fenaz := rfl
@[simp] theorem State.modCluster_rets (s : State) (p : Nat) (f : Cluster → Cluster) : (s.modCluster p f).rets = s.rets := rfl
@[simp] theorem State.modCluster_agenda (s : State) (p : Nat) (f : Cluster → Cluster) : (s.modCluster p f).agenda = s.agenda := rfl
@[simp] theorem State.modCluster_cur (s : State) (p : Nat) (f : Cluster → Cluster) : (s.modCluster p f).cur = s.cur := rfl
@[simp] theorem State.modCluster_fresh (s : State) (p : Nat) (f : Cluster → Cluster) : (s.modCluster p f).fresh = s.fresh := rfl
@[simp] theorem State.modCluster_nextId (s : State) (p : Nat) (f : Cluster → Cluster) : (s.modCluster p f).nextId = s.nextId := rfl
@[simp] theorem State.modCluster_exe (s : State) (p : Nat) (f : Cluster → Cluster) : (s.modCluster p f).exe = s.exe := rfl
@[simp] theorem State.modTeam_cores (s : State) (p l u : Nat) (f : Team → Team) : (s.modTeam p l u f).cores = s.cores := rfl
@[simp] theorem State.modTeam_dies (s : State) (p l u : Nat) (f : Team → Team) : (s.modTeam p l u f).dies = s.dies := rfl
@[simp] theorem State.modTeam_arbs (s : State) (p l u : Nat) (f : Team → Team) : (s.modTeam p l u f).arbs = s.arbs := rfl
@[simp] theorem State.modTeam_hbm (s : State) (p l u : Nat) (f : Team → Team) : (s.modTeam p l u f).hbm = s.hbm := rfl
@[simp] theorem State.modTeam_hbmKey (s : State) (p l u : Nat) (f : Team → Team) : (s.modTeam p l u f).hbmKey = s.hbmKey := rfl
@[simp] theorem State.modTeam_hbmPoison (s : State) (p l u : Nat) (f : Team → Team) : (s.modTeam p l u f).hbmPoison = s.hbmPoison := rfl
@[simp] theorem State.modTeam_bound (s : State) (p l u : Nat) (f : Team → Team) : (s.modTeam p l u f).bound = s.bound := rfl
@[simp] theorem State.modTeam_ctxs (s : State) (p l u : Nat) (f : Team → Team) : (s.modTeam p l u f).ctxs = s.ctxs := rfl
@[simp] theorem State.modTeam_sessions (s : State) (p l u : Nat) (f : Team → Team) : (s.modTeam p l u f).sessions = s.sessions := rfl
@[simp] theorem State.modTeam_launches (s : State) (p l u : Nat) (f : Team → Team) : (s.modTeam p l u f).launches = s.launches := rfl
@[simp] theorem State.modTeam_images (s : State) (p l u : Nat) (f : Team → Team) : (s.modTeam p l u f).images = s.images := rfl
@[simp] theorem State.modTeam_outbox (s : State) (p l u : Nat) (f : Team → Team) : (s.modTeam p l u f).outbox = s.outbox := rfl
@[simp] theorem State.modTeam_winOut (s : State) (p l u : Nat) (f : Team → Team) : (s.modTeam p l u f).winOut = s.winOut := rfl
@[simp] theorem State.modTeam_answers (s : State) (p l u : Nat) (f : Team → Team) : (s.modTeam p l u f).answers = s.answers := rfl
@[simp] theorem State.modTeam_counts (s : State) (p l u : Nat) (f : Team → Team) : (s.modTeam p l u f).counts = s.counts := rfl
@[simp] theorem State.modTeam_fenaz (s : State) (p l u : Nat) (f : Team → Team) : (s.modTeam p l u f).fenaz = s.fenaz := rfl
@[simp] theorem State.modTeam_rets (s : State) (p l u : Nat) (f : Team → Team) : (s.modTeam p l u f).rets = s.rets := rfl
@[simp] theorem State.modTeam_agenda (s : State) (p l u : Nat) (f : Team → Team) : (s.modTeam p l u f).agenda = s.agenda := rfl
@[simp] theorem State.modTeam_cur (s : State) (p l u : Nat) (f : Team → Team) : (s.modTeam p l u f).cur = s.cur := rfl
@[simp] theorem State.modTeam_fresh (s : State) (p l u : Nat) (f : Team → Team) : (s.modTeam p l u f).fresh = s.fresh := rfl
@[simp] theorem State.modTeam_nextId (s : State) (p l u : Nat) (f : Team → Team) : (s.modTeam p l u f).nextId = s.nextId := rfl
@[simp] theorem State.modTeam_exe (s : State) (p l u : Nat) (f : Team → Team) : (s.modTeam p l u f).exe = s.exe := rfl
@[simp] theorem State.modCtx_cores (s : State) (x : Nat) (f : Ctx → Ctx) : (s.modCtx x f).cores = s.cores := rfl
@[simp] theorem State.modCtx_clusters (s : State) (x : Nat) (f : Ctx → Ctx) : (s.modCtx x f).clusters = s.clusters := rfl
@[simp] theorem State.modCtx_dies (s : State) (x : Nat) (f : Ctx → Ctx) : (s.modCtx x f).dies = s.dies := rfl
@[simp] theorem State.modCtx_arbs (s : State) (x : Nat) (f : Ctx → Ctx) : (s.modCtx x f).arbs = s.arbs := rfl
@[simp] theorem State.modCtx_hbm (s : State) (x : Nat) (f : Ctx → Ctx) : (s.modCtx x f).hbm = s.hbm := rfl
@[simp] theorem State.modCtx_hbmKey (s : State) (x : Nat) (f : Ctx → Ctx) : (s.modCtx x f).hbmKey = s.hbmKey := rfl
@[simp] theorem State.modCtx_hbmPoison (s : State) (x : Nat) (f : Ctx → Ctx) : (s.modCtx x f).hbmPoison = s.hbmPoison := rfl
@[simp] theorem State.modCtx_bound (s : State) (x : Nat) (f : Ctx → Ctx) : (s.modCtx x f).bound = s.bound := rfl
@[simp] theorem State.modCtx_sessions (s : State) (x : Nat) (f : Ctx → Ctx) : (s.modCtx x f).sessions = s.sessions := rfl
@[simp] theorem State.modCtx_launches (s : State) (x : Nat) (f : Ctx → Ctx) : (s.modCtx x f).launches = s.launches := rfl
@[simp] theorem State.modCtx_images (s : State) (x : Nat) (f : Ctx → Ctx) : (s.modCtx x f).images = s.images := rfl
@[simp] theorem State.modCtx_outbox (s : State) (x : Nat) (f : Ctx → Ctx) : (s.modCtx x f).outbox = s.outbox := rfl
@[simp] theorem State.modCtx_winOut (s : State) (x : Nat) (f : Ctx → Ctx) : (s.modCtx x f).winOut = s.winOut := rfl
@[simp] theorem State.modCtx_answers (s : State) (x : Nat) (f : Ctx → Ctx) : (s.modCtx x f).answers = s.answers := rfl
@[simp] theorem State.modCtx_counts (s : State) (x : Nat) (f : Ctx → Ctx) : (s.modCtx x f).counts = s.counts := rfl
@[simp] theorem State.modCtx_fenaz (s : State) (x : Nat) (f : Ctx → Ctx) : (s.modCtx x f).fenaz = s.fenaz := rfl
@[simp] theorem State.modCtx_rets (s : State) (x : Nat) (f : Ctx → Ctx) : (s.modCtx x f).rets = s.rets := rfl
@[simp] theorem State.modCtx_agenda (s : State) (x : Nat) (f : Ctx → Ctx) : (s.modCtx x f).agenda = s.agenda := rfl
@[simp] theorem State.modCtx_cur (s : State) (x : Nat) (f : Ctx → Ctx) : (s.modCtx x f).cur = s.cur := rfl
@[simp] theorem State.modCtx_fresh (s : State) (x : Nat) (f : Ctx → Ctx) : (s.modCtx x f).fresh = s.fresh := rfl
@[simp] theorem State.modCtx_nextId (s : State) (x : Nat) (f : Ctx → Ctx) : (s.modCtx x f).nextId = s.nextId := rfl
@[simp] theorem State.modCtx_exe (s : State) (x : Nat) (f : Ctx → Ctx) : (s.modCtx x f).exe = s.exe := rfl
@[simp] theorem State.modLaunch_cores (s : State) (l : Nat) (f : Launch → Launch) : (s.modLaunch l f).cores = s.cores := rfl
@[simp] theorem State.modLaunch_clusters (s : State) (l : Nat) (f : Launch → Launch) : (s.modLaunch l f).clusters = s.clusters := rfl
@[simp] theorem State.modLaunch_dies (s : State) (l : Nat) (f : Launch → Launch) : (s.modLaunch l f).dies = s.dies := rfl
@[simp] theorem State.modLaunch_arbs (s : State) (l : Nat) (f : Launch → Launch) : (s.modLaunch l f).arbs = s.arbs := rfl
@[simp] theorem State.modLaunch_hbm (s : State) (l : Nat) (f : Launch → Launch) : (s.modLaunch l f).hbm = s.hbm := rfl
@[simp] theorem State.modLaunch_hbmKey (s : State) (l : Nat) (f : Launch → Launch) : (s.modLaunch l f).hbmKey = s.hbmKey := rfl
@[simp] theorem State.modLaunch_hbmPoison (s : State) (l : Nat) (f : Launch → Launch) : (s.modLaunch l f).hbmPoison = s.hbmPoison := rfl
@[simp] theorem State.modLaunch_bound (s : State) (l : Nat) (f : Launch → Launch) : (s.modLaunch l f).bound = s.bound := rfl
@[simp] theorem State.modLaunch_ctxs (s : State) (l : Nat) (f : Launch → Launch) : (s.modLaunch l f).ctxs = s.ctxs := rfl
@[simp] theorem State.modLaunch_sessions (s : State) (l : Nat) (f : Launch → Launch) : (s.modLaunch l f).sessions = s.sessions := rfl
@[simp] theorem State.modLaunch_images (s : State) (l : Nat) (f : Launch → Launch) : (s.modLaunch l f).images = s.images := rfl
@[simp] theorem State.modLaunch_outbox (s : State) (l : Nat) (f : Launch → Launch) : (s.modLaunch l f).outbox = s.outbox := rfl
@[simp] theorem State.modLaunch_winOut (s : State) (l : Nat) (f : Launch → Launch) : (s.modLaunch l f).winOut = s.winOut := rfl
@[simp] theorem State.modLaunch_answers (s : State) (l : Nat) (f : Launch → Launch) : (s.modLaunch l f).answers = s.answers := rfl
@[simp] theorem State.modLaunch_counts (s : State) (l : Nat) (f : Launch → Launch) : (s.modLaunch l f).counts = s.counts := rfl
@[simp] theorem State.modLaunch_fenaz (s : State) (l : Nat) (f : Launch → Launch) : (s.modLaunch l f).fenaz = s.fenaz := rfl
@[simp] theorem State.modLaunch_rets (s : State) (l : Nat) (f : Launch → Launch) : (s.modLaunch l f).rets = s.rets := rfl
@[simp] theorem State.modLaunch_agenda (s : State) (l : Nat) (f : Launch → Launch) : (s.modLaunch l f).agenda = s.agenda := rfl
@[simp] theorem State.modLaunch_cur (s : State) (l : Nat) (f : Launch → Launch) : (s.modLaunch l f).cur = s.cur := rfl
@[simp] theorem State.modLaunch_fresh (s : State) (l : Nat) (f : Launch → Launch) : (s.modLaunch l f).fresh = s.fresh := rfl
@[simp] theorem State.modLaunch_nextId (s : State) (l : Nat) (f : Launch → Launch) : (s.modLaunch l f).nextId = s.nextId := rfl
@[simp] theorem State.modLaunch_exe (s : State) (l : Nat) (f : Launch → Launch) : (s.modLaunch l f).exe = s.exe := rfl
@[simp] theorem State.modQ_cores (s : State) (x q : Nat) (f : CmdQ → CmdQ) : (s.modQ x q f).cores = s.cores := rfl
@[simp] theorem State.modQ_clusters (s : State) (x q : Nat) (f : CmdQ → CmdQ) : (s.modQ x q f).clusters = s.clusters := rfl
@[simp] theorem State.modQ_dies (s : State) (x q : Nat) (f : CmdQ → CmdQ) : (s.modQ x q f).dies = s.dies := rfl
@[simp] theorem State.modQ_arbs (s : State) (x q : Nat) (f : CmdQ → CmdQ) : (s.modQ x q f).arbs = s.arbs := rfl
@[simp] theorem State.modQ_hbm (s : State) (x q : Nat) (f : CmdQ → CmdQ) : (s.modQ x q f).hbm = s.hbm := rfl
@[simp] theorem State.modQ_hbmKey (s : State) (x q : Nat) (f : CmdQ → CmdQ) : (s.modQ x q f).hbmKey = s.hbmKey := rfl
@[simp] theorem State.modQ_hbmPoison (s : State) (x q : Nat) (f : CmdQ → CmdQ) : (s.modQ x q f).hbmPoison = s.hbmPoison := rfl
@[simp] theorem State.modQ_bound (s : State) (x q : Nat) (f : CmdQ → CmdQ) : (s.modQ x q f).bound = s.bound := rfl
@[simp] theorem State.modQ_sessions (s : State) (x q : Nat) (f : CmdQ → CmdQ) : (s.modQ x q f).sessions = s.sessions := rfl
@[simp] theorem State.modQ_launches (s : State) (x q : Nat) (f : CmdQ → CmdQ) : (s.modQ x q f).launches = s.launches := rfl
@[simp] theorem State.modQ_images (s : State) (x q : Nat) (f : CmdQ → CmdQ) : (s.modQ x q f).images = s.images := rfl
@[simp] theorem State.modQ_outbox (s : State) (x q : Nat) (f : CmdQ → CmdQ) : (s.modQ x q f).outbox = s.outbox := rfl
@[simp] theorem State.modQ_winOut (s : State) (x q : Nat) (f : CmdQ → CmdQ) : (s.modQ x q f).winOut = s.winOut := rfl
@[simp] theorem State.modQ_answers (s : State) (x q : Nat) (f : CmdQ → CmdQ) : (s.modQ x q f).answers = s.answers := rfl
@[simp] theorem State.modQ_counts (s : State) (x q : Nat) (f : CmdQ → CmdQ) : (s.modQ x q f).counts = s.counts := rfl
@[simp] theorem State.modQ_fenaz (s : State) (x q : Nat) (f : CmdQ → CmdQ) : (s.modQ x q f).fenaz = s.fenaz := rfl
@[simp] theorem State.modQ_rets (s : State) (x q : Nat) (f : CmdQ → CmdQ) : (s.modQ x q f).rets = s.rets := rfl
@[simp] theorem State.modQ_agenda (s : State) (x q : Nat) (f : CmdQ → CmdQ) : (s.modQ x q f).agenda = s.agenda := rfl
@[simp] theorem State.modQ_cur (s : State) (x q : Nat) (f : CmdQ → CmdQ) : (s.modQ x q f).cur = s.cur := rfl
@[simp] theorem State.modQ_fresh (s : State) (x q : Nat) (f : CmdQ → CmdQ) : (s.modQ x q f).fresh = s.fresh := rfl
@[simp] theorem State.modQ_nextId (s : State) (x q : Nat) (f : CmdQ → CmdQ) : (s.modQ x q f).nextId = s.nextId := rfl
@[simp] theorem State.modQ_exe (s : State) (x q : Nat) (f : CmdQ → CmdQ) : (s.modQ x q f).exe = s.exe := rfl
@[simp] theorem State.endIssue_cores (s : State) : (s.endIssue).cores = s.cores := rfl
@[simp] theorem State.endIssue_clusters (s : State) : (s.endIssue).clusters = s.clusters := rfl
@[simp] theorem State.endIssue_dies (s : State) : (s.endIssue).dies = s.dies := rfl
@[simp] theorem State.endIssue_arbs (s : State) : (s.endIssue).arbs = s.arbs := rfl
@[simp] theorem State.endIssue_hbm (s : State) : (s.endIssue).hbm = s.hbm := rfl
@[simp] theorem State.endIssue_hbmKey (s : State) : (s.endIssue).hbmKey = s.hbmKey := rfl
@[simp] theorem State.endIssue_hbmPoison (s : State) : (s.endIssue).hbmPoison = s.hbmPoison := rfl
@[simp] theorem State.endIssue_bound (s : State) : (s.endIssue).bound = s.bound := rfl
@[simp] theorem State.endIssue_ctxs (s : State) : (s.endIssue).ctxs = s.ctxs := rfl
@[simp] theorem State.endIssue_sessions (s : State) : (s.endIssue).sessions = s.sessions := rfl
@[simp] theorem State.endIssue_launches (s : State) : (s.endIssue).launches = s.launches := rfl
@[simp] theorem State.endIssue_images (s : State) : (s.endIssue).images = s.images := rfl
@[simp] theorem State.endIssue_outbox (s : State) : (s.endIssue).outbox = s.outbox := rfl
@[simp] theorem State.endIssue_winOut (s : State) : (s.endIssue).winOut = s.winOut := rfl
@[simp] theorem State.endIssue_answers (s : State) : (s.endIssue).answers = s.answers := rfl
@[simp] theorem State.endIssue_counts (s : State) : (s.endIssue).counts = s.counts := rfl
@[simp] theorem State.endIssue_fenaz (s : State) : (s.endIssue).fenaz = s.fenaz := rfl
@[simp] theorem State.endIssue_rets (s : State) : (s.endIssue).rets = s.rets := rfl
@[simp] theorem State.endIssue_agenda (s : State) : (s.endIssue).agenda = s.agenda := rfl
@[simp] theorem State.endIssue_nextId (s : State) : (s.endIssue).nextId = s.nextId := rfl
@[simp] theorem State.endIssue_exe (s : State) : (s.endIssue).exe = s.exe := rfl

@[simp] theorem State.endIssue_cur (s : State) : s.endIssue.cur = none := rfl
@[simp] theorem State.endIssue_fresh (s : State) : s.endIssue.fresh = s.fresh + 1 := rfl

/-! Cores, groups and workgroups after an update. -/

@[simp] theorem State.core_setCore (s : State) (c : Nat) (k : Core) : (s.setCore c k).core c = k := by
  simp [State.core, State.setCore, Tab.get_set_same]
@[simp] theorem State.core_setCore_other (s : State) {c d : Nat} (k : Core) (h : d ≠ c) : (s.setCore c k).core d = s.core d := by
  simp [State.core, State.setCore, Tab.get_set_other _ _ h]
@[simp] theorem State.core_modCore (s : State) (c : Nat) (f : Core → Core) : (s.modCore c f).core c = f (s.core c) := by
  simp [State.modCore]
@[simp] theorem State.core_modCore_other (s : State) {c d : Nat} (f : Core → Core) (h : d ≠ c) : (s.modCore c f).core d = s.core d := by
  simp [State.modCore, h]
@[simp] theorem State.core_endIssue (s : State) (c : Nat) : s.endIssue.core c = s.core c := rfl
@[simp] theorem State.grp_endIssue (s : State) (c g : Nat) : s.endIssue.grp c g = s.grp c g := rfl

@[simp] theorem State.grp_modGrp (s : State) (c g : Nat) (f : Group → Group) : (s.modGrp c g f).grp c g = (s.grp c g).map f := by
  simp [State.grp, State.modGrp, Tab.get_upd]
theorem State.grp_modGrp_other (s : State) {c g d h : Nat} (f : Group → Group) (n : d ≠ c ∨ h ≠ g) : (s.modGrp c g f).grp d h = s.grp d h := by
  by_cases hd : d = c
  · subst hd
    have hh : h ≠ g := by cases n with | inl x => exact absurd rfl x | inr x => exact x
    simp [State.grp, State.modGrp, Tab.get_upd, hh]
  · simp [State.grp, State.modGrp, hd]
@[simp] theorem State.grp_modWg (s : State) (c u d g : Nat) (f : Workgroup → Workgroup) : (s.modWg c u f).grp d g = s.grp d g := by
  by_cases h : d = c
  · subst h; simp [State.grp, State.modWg]
  · simp [State.grp, State.modWg, h]
@[simp] theorem State.wgs_modGrp (s : State) (c g d : Nat) (f : Group → Group) : ((s.modGrp c g f).core d).wgs = (s.core d).wgs := by
  by_cases h : d = c
  · subst h; simp [State.modGrp]
  · simp [State.modGrp, h]
@[simp] theorem State.wgOf_modGrp (s : State) (c g d u : Nat) (f : Group → Group) : ((s.modGrp c g f).core d).wgOf u = (s.core d).wgOf u := by
  simp [Core.wgOf]

theorem Core.wgOf_map (k : Core) (u v : Nat) (f : Workgroup → Workgroup) (hf : ∀ w, (f w).uid = w.uid) :
    ({ k with wgs := k.wgs.map (fun e => if e.2.uid = u then (e.1, f e.2) else e) } : Core).wgOf v
      = (k.wgOf v).map (fun e => if e.2.uid = u then (e.1, f e.2) else e) := by
  simp only [Core.wgOf]
  induction k.wgs with
  | nil => rfl
  | cons e r ih =>
    simp only [List.map_cons, List.find?_cons]
    have : ((if e.2.uid = u then (e.1, f e.2) else e).2.uid == v) = (e.2.uid == v) := by split <;> simp [hf]
    rw [this]
    split
    · rfl
    · exact ih

/-- A workgroup after a change that keeps its uid. -/
theorem State.wgOf_modWg (s : State) (c u : Nat) (f : Workgroup → Workgroup) (hf : ∀ w, (f w).uid = w.uid) :
    ((s.modWg c u f).core c).wgOf u = ((s.core c).wgOf u).map (fun e => (e.1, f e.2)) := by
  simp only [State.modWg, State.core_modCore, Core.wgOf_map _ _ _ _ hf]
  cases h : (s.core c).wgOf u with
  | none => rfl
  | some e =>
    have : e.2.uid = u := by
      have := List.find?_some (by simpa [Core.wgOf] using h)
      simpa using this
    simp [this]

end Sys2Proof.Machine
end

