-- ==== Sys2Proof/Laws/Issue.lean ====
section
/-! SUPPORT. What an issue answers (Machine/Issue.lean), and what its results leave alone. -/
namespace Sys2Proof.Machine
open Sys2Proof

/-! The issue that State.cur names. -/

/-- What State.issue says of the issue it gives. -/
theorem State.issue_some {s : State} {i : Instr} {c : Ctl} {x : Iss} (h : s.issue i c = some x) :
    x.s = s ∧ s.cur = some x.cur ∧ x.core = x.cur.core ∧ x.g = x.cur.g ∧ s.grp x.core x.g = some x.gr
      ∧ (s.core x.core).wgOf x.gr.wg = some (x.wslot, x.wg) ∧ x.i = i ∧ x.c = c ∧ x.nonce = s.fresh
      ∧ x.act = x.gr.guard s.fresh c x.cur.mask ∧ x.pops = [] := by
  unfold State.issue at h
  split at h
  · exact absurd h (by simp)
  · next u hu =>
    split at h
    · exact absurd h (by simp)
    · next gr hg =>
      split at h
      · exact absurd h (by simp)
      · next ws w hw =>
        cases h
        exact ⟨rfl, hu, rfl, rfl, hg, hw, rfl, rfl, rfl, rfl, rfl⟩

theorem Core.wgOf_uid {k : Core} {u n : Nat} {w : Workgroup} (h : k.wgOf u = some (n, w)) : w.uid = u := by
  have := List.find?_some (by simpa [Core.wgOf] using h)
  simpa using this

/-- An instruction that passes its checks and waits answers what its own effect leads to. -/
theorem issued_go {i : Instr} {c : Ctl} {s : State} {x : Iss} (body : Iss → Eff) (h : s.issue i c = some x) (hp : x.pre = .go) :
    issued i c body s = .next (x.conclude s (body x.popped)) := by simp [issued, h, hp]

/-- A trap of the checks is taken, and nothing of the instruction's effect happens. -/
theorem issued_trap {i : Instr} {c : Ctl} {s : State} {x : Iss} {t : TrapInfo} (body : Iss → Eff) (h : s.issue i c = some x) (hp : x.pre = .trap t) :
    issued i c body s = .next ((s.takeTrap x.core x.g t).endIssue) := by simp [issued, h, hp]

/-- A group that must wait stays as it is. -/
theorem issued_wait {i : Instr} {c : Ctl} {s : State} {x : Iss} (body : Iss → Eff) (h : s.issue i c = some x) (hp : x.pre = .wait) :
    issued i c body s = .next { s with cur := none } := by simp [issued, h, hp]

/-- A queue that is not ready blocks the group. -/
theorem issued_block {i : Instr} {c : Ctl} {s : State} {x : Iss} (body : Iss → Eff) (h : s.issue i c = some x) (hp : x.pre = .block) :
    issued i c body s = .next ((x.blockAt s 0 false false).endIssue) := by simp [issued, h, hp]

/-- Whatever the effect, an instruction of a group that issues never faults and is never refused. -/
theorem issued_next {i : Instr} {c : Ctl} {s : State} {x : Iss} (body : Iss → Eff) (h : s.issue i c = some x) : ∃ t, issued i c body s = .next t := by
  simp only [issued, h]
  cases x.pre <;> exact ⟨_, rfl⟩

/-! Quiet changes. -/

theorem Quiet.refl (s : State) (c g : Nat) : Quiet s s c g := ⟨rfl, fun _ _ => rfl, rfl, fun _ _ => rfl, rfl⟩

theorem Quiet.trans {s t u : State} {c g : Nat} (a : Quiet s t c g) (b : Quiet t u c g) : Quiet s u c g where
  rest := by
    have ha := a.rest
    have hb := b.rest
    cases s; cases t; cases u
    simp only [State.mk.injEq] at ha hb ⊢
    simp_all
  cores d h := (b.cores d h).trans (a.cores d h)
  core := by
    have ha := a.core
    have hb := b.core
    generalize s.core c = p at *
    generalize t.core c = q at *
    generalize u.core c = r at *
    cases p; cases q; cases r
    simp only [Core.mk.injEq] at ha hb ⊢
    simp_all
  grps h n := (b.grps h n).trans (a.grps h n)
  wgs := b.wgs.trans a.wgs

theorem Quiet.modGrp (s : State) (c g : Nat) (f : Group → Group) : Quiet s (s.modGrp c g f) c g where
  rest := rfl
  cores d h := by simp [State.modGrp, h]
  core := by simp [State.modGrp]
  grps h n := State.grp_modGrp_other s f (.inr n)
  wgs := by simp

theorem Quiet.modWg (s : State) (c g u : Nat) (f : Workgroup → Workgroup) (hf : ∀ w, (f w).calm = w.calm) : Quiet s (s.modWg c u f) c g where
  rest := rfl
  cores d h := by simp [State.modWg, h]
  core := by simp [State.modWg]
  grps h n := by simp
  wgs := by
    simp only [State.modWg, State.core_modCore, List.map_map]
    apply List.map_congr_left
    intro e _
    simp only [Function.comp_apply]
    split <;> simp [hf]

theorem Quiet.cur (s : State) (c g : Nat) (u : Option Cur) (n : Nat) : Quiet s { s with cur := u, fresh := n } c g :=
  ⟨rfl, fun _ _ => rfl, rfl, fun _ _ => rfl, rfl⟩

@[simp] theorem Workgroup.calm_modQueue (w : Workgroup) (n : Nat) (f : Queue → Queue) : (w.modQueue n f).calm = w.calm := rfl
@[simp] theorem Workgroup.calm_touch (w : Workgroup) (st : Store) (a n : Nat) : (w.touch st a n).calm = w.calm := rfl
@[simp] theorem Workgroup.uid_modQueue (w : Workgroup) (n : Nat) (f : Queue → Queue) : (w.modQueue n f).uid = w.uid := rfl
@[simp] theorem Workgroup.uid_touch (w : Workgroup) (st : Store) (a n : Nat) : (w.touch st a n).uid = w.uid := rfl
@[simp] theorem Workgroup.queues_touch (w : Workgroup) (st : Store) (a n : Nat) : (w.touch st a n).queues = w.queues := rfl

theorem Quiet.translate {s t : State} {c g : Nat} (h : Quiet s t c g) (ctx : Nat) (a : Acc) (va : Nat) : t.translate ctx a va = s.translate ctx a va := by
  have := h.rest
  cases s; cases t
  simp only [State.mk.injEq] at this
  obtain ⟨-, -, -, -, -, -, -, -, h1, h2, -, -, -, -, -, -, h3, -⟩ := this
  subst h1 h2 h3
  rfl

theorem Quiet.glGet {s t : State} {c g : Nat} (h : Quiet s t c g) (ctx va : Nat) : t.glGet ctx va = s.glGet ctx va := by
  have := h.rest
  cases s; cases t
  simp only [State.mk.injEq] at this
  obtain ⟨-, -, -, -, h1, h2, -, -, h3, h4, -, -, -, -, -, -, h5, -⟩ := this
  subst h1 h2 h3 h4 h5
  rfl

theorem find_map_calm (ps : List (Nat × Workgroup)) (qs : List (Nat × Workgroup)) (u : Nat) (f : Workgroup → Byte)
    (h : qs.map (fun e => (e.1, e.2.calm)) = ps.map (fun e => (e.1, e.2.calm))) (hf : ∀ w, f w.calm = f w) :
    (qs.find? (fun e => e.2.uid == u)).map (fun e => f e.2) = (ps.find? (fun e => e.2.uid == u)).map (fun e => f e.2) := by
  induction ps generalizing qs with
  | nil => simp only [List.map_nil, List.map_eq_nil_iff] at h; subst h; rfl
  | cons p r ih =>
    cases qs with
    | nil => simp at h
    | cons q t =>
      simp only [List.map_cons, List.cons.injEq, Prod.mk.injEq] at h
      obtain ⟨⟨-, hc⟩, ht⟩ := h
      have hu : q.2.uid = p.2.uid := show q.2.calm.uid = p.2.calm.uid by rw [hc]
      have hv : f q.2 = f p.2 := by rw [← hf q.2, ← hf p.2, hc]
      simp only [List.find?_cons, hu]
      split
      · simp [hv]
      · exact ih t ht

/-- A quiet change leaves every byte of memory as it was. -/
theorem Quiet.bytes {s t : State} {c g : Nat} (h : Quiet s t c g) : SameBytes s t := by
  have hc : ∀ (f : Workgroup → Byte), (∀ w, f w.calm = f w) → ∀ d u,
      ((t.core d).wgOf u).map (fun e => f e.2) = ((s.core d).wgOf u).map (fun e => f e.2) := by
    intro f hf d u
    by_cases hd : d = c
    · subst hd; exact find_map_calm _ _ u f h.wgs hf
    · rw [h.cores d hd]
  have ht : t.clusters = s.clusters := by
    have := h.rest
    cases s; cases t
    simp only [State.mk.injEq] at this
    exact this.2.1
  refine ⟨fun ctx va => h.glGet ctx va, fun d u a => hc (fun w => w.sp a) (fun _ => rfl) d u,
    fun d u a => hc (fun w => w.tm a) (fun _ => rfl) d u, fun p l u a => ?_⟩
  simp [State.team, State.cluster, ht]

/-! The end of an issue. -/

theorem Iss.touchRegs_quiet (x : Iss) (s : State) : Quiet s (x.touchRegs s) x.core x.g := by
  unfold Iss.touchRegs
  split
  · exact Quiet.refl _ _ _
  · generalize writesOf x.i x.c = rs
    induction rs generalizing s with
    | nil => exact Quiet.refl _ _ _
    | cons r rs ih =>
      simp only [List.foldl_cons]
      refine Quiet.trans ?_ (ih _)
      cases r <;> first | exact Quiet.refl _ _ _ | exact Quiet.modWg _ _ _ _ _ (fun w => Workgroup.calm_touch w _ _ _)

@[simp] theorem Iss.touchRegs_grp (x : Iss) (s : State) (d h : Nat) : (x.touchRegs s).grp d h = s.grp d h := by
  unfold Iss.touchRegs
  split
  · rfl
  · generalize writesOf x.i x.c = rs
    induction rs generalizing s with
    | nil => rfl
    | cons r rs ih =>
      simp only [List.foldl_cons]
      rw [ih]
      cases r <;> simp [Iss.modW]

/-- The queues of a workgroup after writes to scalars that an oven operation in flight names. -/
theorem Iss.touchRegs_wg (x : Iss) (s : State) : ∀ n w, (s.core x.core).wgOf x.wg.uid = some (n, w) →
    ∃ v, ((x.touchRegs s).core x.core).wgOf x.wg.uid = some (n, v) ∧ v.queues = w.queues := by
  unfold Iss.touchRegs
  split
  · exact fun n w h => ⟨w, h, rfl⟩
  · generalize writesOf x.i x.c = rs
    induction rs generalizing s with
    | nil => exact fun n w h => ⟨w, h, rfl⟩
    | cons r rs ih =>
      intro n w h
      simp only [List.foldl_cons]
      cases r with
      | s k =>
        have h' := State.wgOf_modWg s x.core x.wg.uid (fun w => w.touch .sreg (64 * x.gr.uid + k) 1) (fun w => Workgroup.uid_touch w _ _ _)
        rw [h] at h'
        obtain ⟨v, hv, hq⟩ := ih _ n _ h'
        exact ⟨v, hv, by simp [hq]⟩
      | _ => exact ih s n w h

/-- An issue that is over: the state it leads to when some lanes are left. -/
theorem Iss.finish_some (x : Iss) (r : Res) (g0 : Group) (hg : r.s.grp x.core x.g = some g0) (hf : advance g0.fr x.cur.pc r.mv ≠ []) :
    x.finish r = ((x.touchRegs r.s).modGrp x.core x.g (fun g => g.after x r (x.wg.halt.isSome && x.wg.handler != some x.gr.uid))).endIssue := by
  have h : ((x.touchRegs r.s).modGrp x.core x.g (fun g => g.after x r (x.wg.halt.isSome && x.wg.handler != some x.gr.uid))).endIssue.grp x.core x.g
      = some (g0.after x r (x.wg.halt.isSome && x.wg.handler != some x.gr.uid)) := by simp [hg]
  have he : (g0.after x r (x.wg.halt.isSome && x.wg.handler != some x.gr.uid)).fr.isEmpty = false := by
    show (advance g0.fr x.cur.pc r.mv).isEmpty = false
    cases h' : advance g0.fr x.cur.pc r.mv with
    | nil => exact absurd h' hf
    | cons _ _ => rfl
  unfold Iss.finish
  simp only [h, he]
  rfl

theorem Iss.finish_quiet (x : Iss) (r : Res) (s : State) (g0 : Group) (hq : Quiet s r.s x.core x.g) (hg : r.s.grp x.core x.g = some g0)
    (hf : advance g0.fr x.cur.pc r.mv ≠ []) : Quiet s (x.finish r) x.core x.g := by
  rw [x.finish_some r g0 hg hf]
  exact ((hq.trans (x.touchRegs_quiet r.s)).trans (Quiet.modGrp _ _ _ _)).trans (Quiet.cur _ _ _ none _)

theorem Iss.finish_grp (x : Iss) (r : Res) (g0 : Group) (hg : r.s.grp x.core x.g = some g0) (hf : advance g0.fr x.cur.pc r.mv ≠ []) :
    (x.finish r).grp x.core x.g = some (g0.after x r (x.wg.halt.isSome && x.wg.handler != some x.gr.uid)) := by
  rw [x.finish_some r g0 hg hf]
  simp [hg]

theorem Iss.finish_wg (x : Iss) (r : Res) (g0 : Group) (hg : r.s.grp x.core x.g = some g0) (hf : advance g0.fr x.cur.pc r.mv ≠ []) (n : Nat) (w : Workgroup)
    (hw : (r.s.core x.core).wgOf x.wg.uid = some (n, w)) : ∃ v, ((x.finish r).core x.core).wgOf x.wg.uid = some (n, v) ∧ v.queues = w.queues := by
  rw [x.finish_some r g0 hg hf]
  simpa using x.touchRegs_wg r.s n w hw

/-! Frontiers. -/

theorem insertEntry_ne_nil (fr : List Entry) (e : Entry) : insertEntry fr e ≠ [] := by
  cases fr with
  | nil => simp [insertEntry]
  | cons f r =>
    simp only [insertEntry]
    split
    · simp
    · split <;> simp

theorem foldl_insert_ne_nil (ms : List Move) (fr : List Entry) (h : fr ≠ []) :
    ms.foldl (fun f m => insertEntry f { pc := m.pc, pri := m.pri, mask := m.mask, age := 0 }) fr ≠ [] := by
  induction ms generalizing fr with
  | nil => exact h
  | cons m r ih => exact ih _ (insertEntry_ne_nil _ _)

/-- Lanes that go on keep the frontier from being empty. -/
theorem advance_ne_nil (fr : List Entry) (pc : DWord) (mv : List Move) (h : ∃ m ∈ mv, m.mask ≠ 0) : advance fr pc mv ≠ [] := by
  obtain ⟨m, hm, hz⟩ := h
  unfold advance
  have hk : m ∈ mv.filter (fun m => m.mask != 0) := List.mem_filter.mpr ⟨hm, bne_iff_ne.mpr hz⟩
  generalize mv.filter (fun m => m.mask != 0) = l at hk
  cases l with
  | nil => exact absurd hk (by simp)
  | cons a r => exact foldl_insert_ne_nil r _ (insertEntry_ne_nil _ _)

theorem Iss.advance_thru (x : Iss) (fr : List Entry) (pc : DWord) (h : x.cur.mask ≠ 0) : advance fr pc x.thru ≠ [] :=
  advance_ne_nil fr pc x.thru ⟨{ mask := x.cur.mask, pc := x.next, pri := x.cur.pri }, List.mem_singleton.mpr rfl, h⟩

/-! The pop of an issue. -/

@[simp] theorem Iss.popped_core (x : Iss) : x.popped.core = x.core := by unfold Iss.popped; split <;> rfl
@[simp] theorem Iss.popped_g (x : Iss) : x.popped.g = x.g := by unfold Iss.popped; split <;> rfl
@[simp] theorem Iss.popped_gr (x : Iss) : x.popped.gr = x.gr := by unfold Iss.popped; split <;> rfl
@[simp] theorem Iss.popped_wg (x : Iss) : x.popped.wg = x.wg := by unfold Iss.popped; split <;> rfl
@[simp] theorem Iss.popped_wslot (x : Iss) : x.popped.wslot = x.wslot := by unfold Iss.popped; split <;> rfl
@[simp] theorem Iss.popped_cur (x : Iss) : x.popped.cur = x.cur := by unfold Iss.popped; split <;> rfl
@[simp] theorem Iss.popped_i (x : Iss) : x.popped.i = x.i := by unfold Iss.popped; split <;> rfl
@[simp] theorem Iss.popped_c (x : Iss) : x.popped.c = x.c := by unfold Iss.popped; split <;> rfl
@[simp] theorem Iss.popped_act (x : Iss) : x.popped.act = x.act := by unfold Iss.popped; split <;> rfl
@[simp] theorem Iss.popped_nonce (x : Iss) : x.popped.nonce = x.nonce := by unfold Iss.popped; split <;> rfl
@[simp] theorem Iss.popped_lanes (x : Iss) : x.popped.lanes = x.lanes := by simp [Iss.lanes]
@[simp] theorem Iss.popped_thru (x : Iss) : x.popped.thru = x.thru := by simp [Iss.thru, Iss.next]
@[simp] theorem Iss.popped_width (x : Iss) : x.popped.width = x.width := by simp [Iss.width]
@[simp] theorem Iss.popped_low (x : Iss) : x.popped.low = x.low := by simp [Iss.low]

theorem Iss.popped_quiet (x : Iss) : Quiet x.s x.popped.s x.core x.g := by
  unfold Iss.popped
  split
  · exact Quiet.refl _ _ _
  · next n _ => exact Quiet.modWg _ _ _ _ (fun w => w.modQueue n Queue.pop) (fun _ => rfl)

@[simp] theorem Iss.popped_grp (x : Iss) (d h : Nat) : x.popped.s.grp d h = x.s.grp d h := by
  unfold Iss.popped; split <;> simp

/-- Concluding looks only at what a pop leaves alone. -/
@[simp] theorem Iss.popped_finish (x : Iss) (r : Res) : x.popped.finish r = x.finish r := by
  unfold Iss.popped; split <;> rfl

end Sys2Proof.Machine
end

