-- ==== Sys2Proof/Laws/Write.lean ====
section
/-! SUPPORT. What the results of an issue leave in registers, predicates, flags and queues, and what instructions of one effect answer. -/
namespace Sys2Proof.Machine
open Sys2Proof

/-! Register files. -/

theorem vKey_inj {n m l k : Nat} (hl : l < 64) (hk : k < 64) (h : vKey m k = vKey n l) : m = n ∧ k = l := by
  unfold vKey at h; omega

theorem Group.v?_setV (g : Group) {n l m k : Nat} (x : Word) (hl : l < 64) (hk : k < 64) :
    (g.setV n l x).v? m k = if m = n ∧ k = l then x else g.v? m k := by
  simp only [Group.v?, Group.setV, Tab.get_set]
  by_cases h : m = n ∧ k = l
  · rw [h.1, h.2]; simp
  · rw [if_neg h, if_neg (fun e => h (vKey_inj hl hk e))]
theorem Group.o?_setO (g : Group) {n l m k : Nat} (x : Word) (hl : l < 64) (hk : k < 64) :
    (g.setO n l x).o? m k = if m = n ∧ k = l then x else g.o? m k := by
  simp only [Group.o?, Group.setO, Tab.get_set]
  by_cases h : m = n ∧ k = l
  · rw [h.1, h.2]; simp
  · rw [if_neg h, if_neg (fun e => h (vKey_inj hl hk e))]
theorem Group.q?_setQ (g : Group) {n l m k : Nat} (x : Word) (hl : l < 64) (hk : k < 64) :
    (g.setQ n l x).q? m k = if m = n ∧ k = l then x else g.q? m k := by
  simp only [Group.q?, Group.setQ, Tab.get_set]
  by_cases h : m = n ∧ k = l
  · rw [h.1, h.2]; simp
  · rw [if_neg h, if_neg (fun e => h (vKey_inj hl hk e))]
theorem Group.s?_setS (g : Group) (n m : Nat) (x : DWord) : (g.setS n x).s? m = if m = n then x else g.s? m := by
  simp only [Group.s?, Group.setS, Tab.get_set]; split <;> simp

/-- Two groups with the same registers of every kind. -/
structure Group.SameRegs (g h : Group) : Prop where
  v : ∀ n l, h.v? n l = g.v? n l
  s : ∀ n, h.s? n = g.s? n
  o : ∀ n l, h.o? n l = g.o? n l
  q : ∀ n l, h.q? n l = g.q? n l
  p : ∀ n, h.p? n = g.p? n

theorem Group.SameRegs.reg {g h : Group} (e : g.SameRegs h) (r : RegId) (l : Nat) : h.reg r l = g.reg r l := by
  cases r <;> simp [Group.reg, e.v, e.s, e.o, e.q, e.p]

theorem Group.sameRegs_cleanV (g : Group) (n l : Nat) : g.SameRegs (g.cleanV n l) := by
  unfold Group.cleanV; split <;> exact ⟨fun _ _ => rfl, fun _ => rfl, fun _ _ => rfl, fun _ _ => rfl, fun _ => rfl⟩
theorem Group.sameRegs_cleanS (g : Group) (n : Nat) : g.SameRegs (g.cleanS n) := by
  unfold Group.cleanS; split <;> exact ⟨fun _ _ => rfl, fun _ => rfl, fun _ _ => rfl, fun _ _ => rfl, fun _ => rfl⟩
theorem Group.sameRegs_cleanO (g : Group) (n l : Nat) : g.SameRegs (g.cleanO n l) := by
  unfold Group.cleanO; split <;> exact ⟨fun _ _ => rfl, fun _ => rfl, fun _ _ => rfl, fun _ _ => rfl, fun _ => rfl⟩
theorem Group.sameRegs_cleanQ (g : Group) (n l : Nat) : g.SameRegs (g.cleanQ n l) := by
  unfold Group.cleanQ; split <;> exact ⟨fun _ _ => rfl, fun _ => rfl, fun _ _ => rfl, fun _ _ => rfl, fun _ => rfl⟩
theorem Group.sameRegs_carryQ (g old : Group) (l : Nat) : g.SameRegs (g.carryQ old l) := by
  unfold Group.carryQ; split <;> exact ⟨fun _ _ => rfl, fun _ => rfl, fun _ _ => rfl, fun _ _ => rfl, fun _ => rfl⟩
theorem Group.sameRegs_cleanP (g : Group) (n : Nat) (m : DWord) : g.SameRegs (g.cleanP n m) := by
  unfold Group.cleanP; split <;> exact ⟨fun _ _ => rfl, fun _ => rfl, fun _ _ => rfl, fun _ _ => rfl, fun _ => rfl⟩
theorem Group.sameRegs_flag (g : Group) (l f : Nat) : g.SameRegs (g.flag l f) := by
  unfold Group.flag; split <;> exact ⟨fun _ _ => rfl, fun _ => rfl, fun _ _ => rfl, fun _ _ => rfl, fun _ => rfl⟩
theorem Group.sameRegs_after (g : Group) (x : Iss) (r : Res) (b : Bool) : g.SameRegs (g.after x r b) :=
  ⟨fun _ _ => rfl, fun _ => rfl, fun _ _ => rfl, fun _ _ => rfl, fun _ => rfl⟩

@[simp] theorem Group.bare_cleanV (g : Group) (n l : Nat) : (g.cleanV n l).bare = g.bare := by unfold Group.cleanV; split <;> rfl
@[simp] theorem Group.bare_cleanS (g : Group) (n : Nat) : (g.cleanS n).bare = g.bare := by unfold Group.cleanS; split <;> rfl
@[simp] theorem Group.bare_cleanO (g : Group) (n l : Nat) : (g.cleanO n l).bare = g.bare := by unfold Group.cleanO; split <;> rfl
@[simp] theorem Group.bare_cleanQ (g : Group) (n l : Nat) : (g.cleanQ n l).bare = g.bare := by unfold Group.cleanQ; split <;> rfl
@[simp] theorem Group.bare_carryQ (g old : Group) (l : Nat) : (g.carryQ old l).bare = g.bare := by unfold Group.carryQ; split <;> rfl
@[simp] theorem Group.bare_cleanP (g : Group) (n : Nat) (m : DWord) : (g.cleanP n m).bare = g.bare := by unfold Group.cleanP; split <;> rfl
@[simp] theorem Group.bare_flag (g : Group) (l f : Nat) : (g.flag l f).bare = g.bare := by unfold Group.flag; split <;> rfl
@[simp] theorem Group.bare_setV (g : Group) (n l : Nat) (x : Word) : (g.setV n l x).bare = g.bare := rfl
@[simp] theorem Group.bare_setO (g : Group) (n l : Nat) (x : Word) : (g.setO n l x).bare = g.bare := rfl
@[simp] theorem Group.bare_setQ (g : Group) (n l : Nat) (x : Word) : (g.setQ n l x).bare = g.bare := rfl
@[simp] theorem Group.bare_setS (g : Group) (n : Nat) (x : DWord) : (g.setS n x).bare = g.bare := rfl
@[simp] theorem Group.bare_setP (g : Group) (n : Nat) (x : DWord) : (g.setP n x).bare = g.bare := by unfold Group.setP; split <;> rfl
@[simp] theorem Group.bare_after (g : Group) (x : Iss) (r : Res) (b : Bool) : (g.after x r b).bare = g.bare := rfl
@[simp] theorem Group.vfl_cleanV (g : Group) (n l : Nat) : (g.cleanV n l).vfl = g.vfl := by unfold Group.cleanV; split <;> rfl
@[simp] theorem Group.vfl_cleanS (g : Group) (n : Nat) : (g.cleanS n).vfl = g.vfl := by unfold Group.cleanS; split <;> rfl
@[simp] theorem Group.fr_cleanV (g : Group) (n l : Nat) : (g.cleanV n l).fr = g.fr := by unfold Group.cleanV; split <;> rfl
@[simp] theorem Group.fr_cleanS (g : Group) (n : Nat) : (g.cleanS n).fr = g.fr := by unfold Group.cleanS; split <;> rfl
@[simp] theorem Group.vfl_cleanO (g : Group) (n l : Nat) : (g.cleanO n l).vfl = g.vfl := by unfold Group.cleanO; split <;> rfl
@[simp] theorem Group.fr_cleanO (g : Group) (n l : Nat) : (g.cleanO n l).fr = g.fr := by unfold Group.cleanO; split <;> rfl
@[simp] theorem Group.vfl_cleanQ (g : Group) (n l : Nat) : (g.cleanQ n l).vfl = g.vfl := by unfold Group.cleanQ; split <;> rfl
@[simp] theorem Group.fr_cleanQ (g : Group) (n l : Nat) : (g.cleanQ n l).fr = g.fr := by unfold Group.cleanQ; split <;> rfl
@[simp] theorem Group.vfl_carryQ (g old : Group) (l : Nat) : (g.carryQ old l).vfl = g.vfl := by unfold Group.carryQ; split <;> rfl
@[simp] theorem Group.fr_carryQ (g old : Group) (l : Nat) : (g.carryQ old l).fr = g.fr := by unfold Group.carryQ; split <;> rfl
@[simp] theorem Group.vfl_cleanP (g : Group) (n : Nat) (m : DWord) : (g.cleanP n m).vfl = g.vfl := by unfold Group.cleanP; split <;> rfl
@[simp] theorem Group.fr_cleanP (g : Group) (n : Nat) (m : DWord) : (g.cleanP n m).fr = g.fr := by unfold Group.cleanP; split <;> rfl
@[simp] theorem Group.fr_flag (g : Group) (l f : Nat) : (g.flag l f).fr = g.fr := by unfold Group.flag; split <;> rfl
@[simp] theorem Group.vfl_setP (g : Group) (n : Nat) (m : DWord) : (g.setP n m).vfl = g.vfl := by unfold Group.setP; split <;> rfl
@[simp] theorem Group.fr_setP (g : Group) (n : Nat) (m : DWord) : (g.setP n m).fr = g.fr := by unfold Group.setP; split <;> rfl

/-! A result in one lane. -/

/-- What putLane leaves alone. -/
theorem Group.putLane_other (g : Group) (wd : Bool) (o : Opnd) {l k : Nat} (x : DWord) (hl : l < 64) (hk : k < 64) (r : RegId)
    (h : r ∉ destRegs wd o ∨ k ≠ l) : (g.putLane wd o l x).reg r k = g.reg r k := by
  cases o with
  | v n =>
    simp only [Group.putLane]
    have one : ∀ (g : Group) (m : Nat) (w : Word), (r ≠ .v m ∨ k ≠ l) → ((g.setV m l w).cleanV m l).reg r k = g.reg r k := by
      intro g m w hm
      rw [(Group.sameRegs_cleanV _ _ _).reg]
      cases r with
      | v j =>
        simp only [Group.reg, Group.v?_setV g w hl hk]
        rw [if_neg (by rintro ⟨a, b⟩; rcases hm with hm | hm <;> simp_all)]
      | _ => rfl
    cases wd with
    | false => exact one g n.val _ (by rcases h with h | h <;> simp_all [destRegs])
    | true =>
      simp only [if_true]
      rw [one _ (n.val + 1) _ (by rcases h with h | h <;> simp_all [destRegs]), one _ n.val _ (by rcases h with h | h <;> simp_all [destRegs])]
  | o n =>
    simp only [Group.putLane]
    rw [(Group.sameRegs_cleanO _ _ _).reg]
    cases r with
    | o j =>
      simp only [Group.reg, Group.o?_setO g _ hl hk]
      rw [if_neg (by rintro ⟨a, b⟩; rcases h with h | h <;> simp_all [destRegs])]
    | _ => rfl
  | q n =>
    simp only [Group.putLane]
    rw [(Group.sameRegs_cleanQ _ _ _).reg]
    cases r with
    | q j =>
      simp only [Group.reg, Group.q?_setQ g _ hl hk]
      rw [if_neg (by rintro ⟨a, b⟩; rcases h with h | h <;> simp_all [destRegs])]
    | _ => rfl
  | _ => rfl

@[simp] theorem Group.bare_putLane (g : Group) (wd : Bool) (o : Opnd) (l : Nat) (x : DWord) : (g.putLane wd o l x).bare = g.bare := by
  cases o <;> simp only [Group.putLane] <;> (try split) <;> simp
@[simp] theorem Group.vfl_putLane (g : Group) (wd : Bool) (o : Opnd) (l : Nat) (x : DWord) : (g.putLane wd o l x).vfl = g.vfl := by
  cases o <;> simp only [Group.putLane] <;> (try split) <;> simp [Group.setV, Group.setO, Group.setQ]
@[simp] theorem Group.fr_putLane (g : Group) (wd : Bool) (o : Opnd) (l : Nat) (x : DWord) : (g.putLane wd o l x).fr = g.fr := by
  cases o <;> simp only [Group.putLane] <;> (try split) <;> simp [Group.setV, Group.setO, Group.setQ]

/-- A quantity of a group that a step in one lane keeps in every other lane: after all steps a lane holds what its own step gave. -/
theorem foldl_lane {β : Type} (step : Group → Nat → Group) (get : Group → β) (k : Nat) (ls : List Nat) (hn : ls.Nodup)
    (other : ∀ g l, l ∈ ls → l ≠ k → get (step g l) = get g) (val : β) (mine : ∀ g, k ∈ ls → get (step g k) = val) (g : Group) :
    get (ls.foldl step g) = if k ∈ ls then val else get g := by
  induction ls generalizing g with
  | nil => simp
  | cons l r ih =>
    simp only [List.foldl_cons]
    have hr := (List.nodup_cons.mp hn)
    rw [ih hr.2 (fun g l hl hk => other g l (List.mem_cons_of_mem _ hl) hk) (fun g hk => mine g (List.mem_cons_of_mem _ hk))]
    by_cases hk : l = k
    · subst hk; simp [hr.1, mine g (List.mem_cons_self)]
    · have : k ∈ l :: r ↔ k ∈ r := by simp [Ne.symm hk]
      simp only [this]
      split
      · rfl
      · exact other g l (List.mem_cons_self) hk

theorem foldl_inv {α β : Type} (step : α → β → α) {γ : Type} (get : α → γ) (h : ∀ g l, get (step g l) = get g) (ls : List β) (g : α) :
    get (ls.foldl step g) = get g := by
  induction ls generalizing g with
  | nil => rfl
  | cons l r ih => simp only [List.foldl_cons, ih, h]

theorem foldl_congr {α β : Type} (f h : α → β → α) (ls : List β) (g : α) (e : ∀ g, ∀ l ∈ ls, f g l = h g l) : ls.foldl f g = ls.foldl h g := by
  induction ls generalizing g with
  | nil => rfl
  | cons l r ih => simp only [List.foldl_cons]; rw [e g l List.mem_cons_self, ih _ (fun g l hl => e g l (List.mem_cons_of_mem _ hl))]

theorem foldl_inv_mem {α β : Type} (step : α → β → α) {γ : Type} (get : α → γ) (ls : List β) (h : ∀ g, ∀ l ∈ ls, get (step g l) = get g) (g : α) :
    get (ls.foldl step g) = get g := by
  induction ls generalizing g with
  | nil => rfl
  | cons l r ih =>
    simp only [List.foldl_cons]
    rw [ih (fun g l hl => h g l (List.mem_cons_of_mem _ hl)), h g l (List.mem_cons_self)]

theorem nodup_lanesOf (m : DWord) : (lanesOf m).Nodup := List.Pairwise.filter _ List.nodup_range
theorem lt_of_mem_lanesOf {m : DWord} {l : Nat} (h : l ∈ lanesOf m) : l < 64 := by
  simp only [lanesOf, List.mem_filter, List.mem_range] at h; exact h.1
theorem mem_lanesOf {m : DWord} {l : Nat} : l ∈ lanesOf m ↔ l < 64 ∧ laneIn m l = true := by simp [lanesOf]

/-! A destination register. -/

@[simp] theorem Group.bare_putD (g : Group) (wd : Bool) (o : Opnd) (act : DWord) (f : Nat → DWord) : (g.putD wd o act f).bare = g.bare := by
  cases o <;> simp only [Group.putD] <;> first | exact foldl_inv _ Group.bare (fun g l => by simp) _ _ | (split <;> simp)
@[simp] theorem Group.vfl_putD (g : Group) (wd : Bool) (o : Opnd) (act : DWord) (f : Nat → DWord) : (g.putD wd o act f).vfl = g.vfl := by
  cases o <;> simp only [Group.putD] <;> first | exact foldl_inv _ Group.vfl (fun g l => by simp) _ _ | (split <;> simp [Group.setS])
@[simp] theorem Group.fr_putD (g : Group) (wd : Bool) (o : Opnd) (act : DWord) (f : Nat → DWord) : (g.putD wd o act f).fr = g.fr := by
  cases o <;> simp only [Group.putD] <;> first | exact foldl_inv _ Group.fr (fun g l => by simp) _ _ | (split <;> simp [Group.setS])

/-- Every register but the destination stays. -/
theorem Group.putD_other (g : Group) (wd : Bool) (o : Opnd) (act : DWord) (f : Nat → DWord) (r : RegId) {k : Nat} (hk : k < 64) (h : r ∉ destRegs wd o) :
    (g.putD wd o act f).reg r k = g.reg r k := by
  cases o with
  | s n =>
    simp only [Group.putD]
    split
    · rw [(Group.sameRegs_cleanS _ _).reg]
      cases r with
      | s j =>
        simp only [Group.reg, Group.s?_setS]
        rw [if_neg (by rintro rfl; simp [destRegs] at h)]
      | _ => rfl
    · rfl
  | _ =>
    simp only [Group.putD]
    exact foldl_inv_mem _ (fun g => Group.reg g r k) _ (fun g l hl => g.putLane_other wd _ (f l) (lt_of_mem_lanesOf hl) hk r (.inl h)) g

/-- A vector destination holds the results of the lanes. -/
theorem Group.putD_v (g : Group) (wd : Bool) (n : Fin 256) (act : DWord) (f : Nat → DWord) {l : Nat} (hl : l ∈ lanesOf act) :
    (g.putD wd (.v n) act f).v? n.val l = (f l).setWidth 32 ∧ (wd = true → (g.putD wd (.v n) act f).v? (n.val + 1) l = (f l >>> 32).setWidth 32) := by
  have h64 := lt_of_mem_lanesOf hl
  have key : ∀ m, (∀ g : Group, (g.putLane wd (.v n) l (f l)).v? m l = (if m = n.val then (f l).setWidth 32 else if wd = true ∧ m = n.val + 1 then
      (f l >>> 32).setWidth 32 else g.v? m l)) := by
    intro m g
    simp only [Group.putLane]
    cases wd with
    | false => simp [(Group.sameRegs_cleanV _ _ _).v, Group.v?_setV _ _ h64 h64]
    | true =>
      simp only [if_true, (Group.sameRegs_cleanV _ _ _).v, Group.v?_setV _ _ h64 h64, true_and, and_true]
      by_cases h1 : m = n.val <;> by_cases h2 : m = n.val + 1 <;> simp_all
  have out : ∀ (m : Nat) (g : Group) (k : Nat), k ∈ lanesOf act → k ≠ l → (g.putLane wd (.v n) k (f k)).v? m l = g.v? m l := by
    intro m g k hk hne
    have := g.putLane_other wd (.v n) (f k) (lt_of_mem_lanesOf hk) h64 (.v m) (.inr hne.symm)
    simp only [Group.reg] at this
    have h' := congrArg (BitVec.setWidth 32) this
    simpa using h'
  constructor
  · have := foldl_lane (fun g l => g.putLane wd (.v n) l (f l)) (fun g => g.v? n.val l) l (lanesOf act) (nodup_lanesOf act)
      (fun g k hk hne => out n.val g k hk hne) ((f l).setWidth 32) (fun g _ => by simpa using key n.val g) g
    simpa [Group.putD, hl] using this
  · intro hw
    have := foldl_lane (fun g l => g.putLane wd (.v n) l (f l)) (fun g => g.v? (n.val + 1) l) l (lanesOf act) (nodup_lanesOf act)
      (fun g k hk hne => out (n.val + 1) g k hk hne) ((f l >>> 32).setWidth 32) (fun g _ => by simpa [hw] using key (n.val + 1) g) g
    simpa [Group.putD, hl] using this

theorem Group.putD_o (g : Group) (wd : Bool) (n : Fin 8) (act : DWord) (f : Nat → DWord) {l : Nat} (hl : l ∈ lanesOf act) :
    (g.putD wd (.o n) act f).o? n.val l = (f l).setWidth 32 := by
  have := foldl_lane (fun g l => g.putLane wd (.o n) l (f l)) (fun g => g.o? n.val l) l (lanesOf act) (nodup_lanesOf act)
    (fun g k hk hne => by simp [Group.putLane, (Group.sameRegs_cleanO _ _ _).o, Group.o?_setO g _ (lt_of_mem_lanesOf hk) (lt_of_mem_lanesOf hl), Ne.symm hne]) ((f l).setWidth 32)
    (fun g _ => by simp [Group.putLane, (Group.sameRegs_cleanO _ _ _).o, Group.o?_setO g _ (lt_of_mem_lanesOf hl) (lt_of_mem_lanesOf hl)]) g
  simpa [Group.putD, hl] using this

theorem Group.putD_q (g : Group) (wd : Bool) (n : Fin 2) (act : DWord) (f : Nat → DWord) {l : Nat} (hl : l ∈ lanesOf act) :
    (g.putD wd (.q n) act f).q? n.val l = (f l).setWidth 32 := by
  have := foldl_lane (fun g l => g.putLane wd (.q n) l (f l)) (fun g => g.q? n.val l) l (lanesOf act) (nodup_lanesOf act)
    (fun g k hk hne => by simp [Group.putLane, (Group.sameRegs_cleanQ _ _ _).q, Group.q?_setQ g _ (lt_of_mem_lanesOf hk) (lt_of_mem_lanesOf hl), Ne.symm hne]) ((f l).setWidth 32)
    (fun g _ => by simp [Group.putLane, (Group.sameRegs_cleanQ _ _ _).q, Group.q?_setQ g _ (lt_of_mem_lanesOf hl) (lt_of_mem_lanesOf hl)]) g
  simpa [Group.putD, hl] using this

theorem Group.putD_s (g : Group) (wd : Bool) (n : Fin 64) (act : DWord) (f : Nat → DWord) {l : Nat} (hl : (lanesOf act).head? = some l) :
    (g.putD wd (.s n) act f).s? n.val = f l := by
  simp [Group.putD, hl, (Group.sameRegs_cleanS _ _).s, Group.s?_setS]

/-! The Q bit (R64). -/

@[simp] theorem Group.bare_shiftQ (g old : Group) (o : Opnd) (act : DWord) (f : Nat → DWord) : (g.shiftQ old o act f).bare = g.bare := by
  simp only [Group.shiftQ]; exact foldl_inv _ Group.bare (fun g l => by simp) _ _
@[simp] theorem Group.vfl_shiftQ (g old : Group) (o : Opnd) (act : DWord) (f : Nat → DWord) : (g.shiftQ old o act f).vfl = g.vfl := by
  simp only [Group.shiftQ]; exact foldl_inv _ Group.vfl (fun g l => by simp [Group.setQ]) _ _
@[simp] theorem Group.fr_shiftQ (g old : Group) (o : Opnd) (act : DWord) (f : Nat → DWord) : (g.shiftQ old o act f).fr = g.fr := by
  simp only [Group.shiftQ]; exact foldl_inv _ Group.fr (fun g l => by simp [Group.setQ]) _ _

theorem Group.shiftQ_other (g old : Group) (o : Opnd) (act : DWord) (f : Nat → DWord) (r : RegId) {k : Nat} (hk : k < 64) (h0 : r ≠ .q 0) (h1 : r ≠ .q 1) :
    (g.shiftQ old o act f).reg r k = g.reg r k := by
  simp only [Group.shiftQ]
  refine foldl_inv_mem _ (fun g => Group.reg g r k) _ (fun g l hl => ?_) g
  have hl' := lt_of_mem_lanesOf hl
  simp only [(Group.sameRegs_cleanQ _ _ _).reg]
  cases r with
  | q j =>
    simp only [Group.reg, (Group.sameRegs_carryQ _ _ _).q, (Group.sameRegs_cleanQ _ _ _).q, Group.q?_setQ _ _ hl' hk]
    rw [if_neg (by rintro ⟨rfl, -⟩; exact h0 rfl), if_neg (by rintro ⟨rfl, -⟩; exact h1 rfl)]
  | v j => exact ((Group.sameRegs_carryQ _ _ _).reg (.v j) k).trans ((Group.sameRegs_cleanQ _ _ _).reg (.v j) k)
  | s j => exact ((Group.sameRegs_carryQ _ _ _).reg (.s j) k).trans ((Group.sameRegs_cleanQ _ _ _).reg (.s j) k)
  | o j => exact ((Group.sameRegs_carryQ _ _ _).reg (.o j) k).trans ((Group.sameRegs_cleanQ _ _ _).reg (.o j) k)
  | p j => exact ((Group.sameRegs_carryQ _ _ _).reg (.p j) k).trans ((Group.sameRegs_cleanQ _ _ _).reg (.p j) k)

theorem Group.shiftQ_q (g old : Group) (o : Opnd) (act : DWord) (f : Nat → DWord) {l : Nat} (hl : l ∈ lanesOf act) :
    (g.shiftQ old o act f).q? 1 l = old.q? 0 l
      ∧ (g.shiftQ old o act f).q? 0 l = (f (match o with | .s _ => (lanesOf act).head?.getD 0 | _ => l)).setWidth 32 := by
  have h64 := lt_of_mem_lanesOf hl
  simp only [Group.shiftQ]
  constructor
  · rw [foldl_lane _ (fun g => g.q? 1 l) l (lanesOf act) (nodup_lanesOf act) (fun g k hk hne => by
      simp [(Group.sameRegs_cleanQ _ _ _).q, (Group.sameRegs_carryQ _ _ _).q, Group.q?_setQ _ _ (lt_of_mem_lanesOf hk) h64, Ne.symm hne]) (old.q? 0 l) (fun g _ => by simp [(Group.sameRegs_cleanQ _ _ _).q, (Group.sameRegs_carryQ _ _ _).q, Group.q?_setQ _ _ h64 h64])]
    simp [hl]
  · rw [foldl_lane _ (fun g => g.q? 0 l) l (lanesOf act) (nodup_lanesOf act) (fun g k hk hne => by
      simp [(Group.sameRegs_cleanQ _ _ _).q, (Group.sameRegs_carryQ _ _ _).q, Group.q?_setQ _ _ (lt_of_mem_lanesOf hk) h64, Ne.symm hne]) ((f (match o with | .s _ => (lanesOf act).head?.getD 0 | _ => l)).setWidth 32)
      (fun g _ => by cases o <;> simp [(Group.sameRegs_cleanQ _ _ _).q, Group.q?_setQ _ _ h64 h64])]
    simp [hl]

/-! Flags. -/

theorem Group.fl?_flag (g : Group) (l f k : Nat) : (g.flag l f).fl? k = if k = l then g.fl? l ||| BitVec.ofNat 5 f else g.fl? k := by
  unfold Group.flag
  split
  · next h => subst h; split <;> simp_all
  · simp only [Group.fl?, Tab.get_set]; split <;> simp_all

theorem Group.fl?_flags (g : Group) (ls : List Nat) (hn : ls.Nodup) (f : Nat → Nat) (k : Nat) :
    (ls.foldl (fun g l => g.flag l (f l)) g).fl? k = if k ∈ ls then g.fl? k ||| BitVec.ofNat 5 (f k) else g.fl? k := by
  induction ls generalizing g with
  | nil => simp
  | cons l r ih =>
    have hr := List.nodup_cons.mp hn
    simp only [List.foldl_cons, ih _ hr.2, Group.fl?_flag, List.mem_cons]
    by_cases h : k = l
    · subst h; simp [hr.1]
    · simp [h]

end Sys2Proof.Machine
end

