-- ==== Sys2Proof/Laws/Gives.lean ====
section
/-! SUPPORT. Instructions of one effect: a destination, a predicate, or where the lanes go. -/
namespace Sys2Proof.Machine
open Sys2Proof

/-! A destination written by an issue. -/

/-- The group after a write (R46, R63, R64). -/
def Iss.wroteG (x : Iss) (wd : Bool) (d : Opnd) (f : Nat → DWord) (g : Group) : Group :=
  let h := match d with | .h _ => g | _ => g.putD wd d x.act f
  if x.c.q then h.shiftQ x.gr d x.act f else h

theorem Iss.write_grp (x : Iss) (wd : Bool) (d : Opnd) (f : Nat → DWord) (g : Group) (hg : x.s.grp x.core x.g = some g) :
    (x.write wd d f).grp x.core x.g = some (x.wroteG wd d f g) := by
  cases d <;> cases hq : x.c.q <;> simp [Iss.write, Iss.wroteG, Iss.modG, Iss.modW, hg, hq]

theorem Iss.write_quiet (x : Iss) (wd : Bool) (d : Opnd) (f : Nat → DWord) : Quiet x.s (x.write wd d f) x.core x.g := by
  have one : Quiet x.s (match d with
      | .h n => x.modW x.s (fun w => w.modQueue n.val (fun q => q.push (pushEntry q.kind x.width x.act f)))
      | _ => x.modG x.s (fun g => g.putD wd d x.act f)) x.core x.g := by
    cases d <;> first | exact Quiet.modGrp _ _ _ _ | exact Quiet.modWg _ _ _ _ _ (fun _ => rfl)
  unfold Iss.write
  simp only
  split
  · exact one.trans (Quiet.modGrp _ _ _ _)
  · exact one

/-- The workgroup of the issue after a write. -/
theorem Iss.write_wg (x : Iss) (wd : Bool) (d : Opnd) (f : Nat → DWord) (v : Nat × Workgroup) (hv : (x.s.core x.core).wgOf x.wg.uid = some v) :
    ((x.write wd d f).core x.core).wgOf x.wg.uid
      = some (v.1, match d with | .h n => v.2.modQueue n.val (fun q => q.push (pushEntry q.kind x.width x.act f)) | _ => v.2) := by
  cases d <;> cases hq : x.c.q <;>
    simp [Iss.write, Iss.modG, Iss.modW, hq, State.wgOf_modWg _ _ _ _ (fun w => Workgroup.uid_modQueue w _ _), hv]

/-- Every register outside the destination and the Q bit's stays. -/
theorem Iss.wroteG_other (x : Iss) (wd : Bool) (d : Opnd) (f : Nat → DWord) (g : Group) (r : RegId) {k : Nat} (hk : k < 64)
    (h : r ∉ destRegs wd d ++ qRegs x.c) : (x.wroteG wd d f g).reg r k = g.reg r k := by
  rw [List.mem_append] at h
  have hd : r ∉ destRegs wd d := fun e => h (.inl e)
  have one : (match d with | .h _ => g | _ => g.putD wd d x.act f).reg r k = g.reg r k := by
    cases d <;> first | rfl | exact Group.putD_other g wd _ x.act f r hk hd
  unfold Iss.wroteG
  simp only
  split
  · next hq =>
    have hr : r ≠ .q 0 ∧ r ≠ .q 1 := ⟨fun e => h (.inr (by simp [qRegs, hq, e])), fun e => h (.inr (by simp [qRegs, hq, e]))⟩
    rw [Group.shiftQ_other _ _ _ _ _ _ hk hr.1 hr.2, one]
  · exact one

@[simp] theorem Iss.bare_wroteG (x : Iss) (wd : Bool) (d : Opnd) (f : Nat → DWord) (g : Group) : (x.wroteG wd d f g).bare = g.bare := by
  unfold Iss.wroteG; simp only; split <;> cases d <;> simp
@[simp] theorem Iss.vfl_wroteG (x : Iss) (wd : Bool) (d : Opnd) (f : Nat → DWord) (g : Group) : (x.wroteG wd d f g).vfl = g.vfl := by
  unfold Iss.wroteG; simp only; split <;> cases d <;> simp
@[simp] theorem Iss.fr_wroteG (x : Iss) (wd : Bool) (d : Opnd) (f : Nat → DWord) (g : Group) : (x.wroteG wd d f g).fr = g.fr := by
  unfold Iss.wroteG; simp only; split <;> cases d <;> simp

/-- What a write leaves in the registers of its destination. -/
theorem Iss.wroteG_dest (x : Iss) (wd : Bool) (d : Opnd) (f : Nat → DWord) (g : Group) (nq : ∀ n, d = .q n → x.c.q = false) :
    (match d with
      | .v n => ∀ l ∈ x.lanes, (x.wroteG wd d f g).v? n.val l = (f l).setWidth 32 ∧ (wd = true → (x.wroteG wd d f g).v? (n.val + 1) l = (f l >>> 32).setWidth 32)
      | .s n => ∀ l, x.low = some l → (x.wroteG wd d f g).s? n.val = f l
      | .o n => ∀ l ∈ x.lanes, (x.wroteG wd d f g).o? n.val l = (f l).setWidth 32
      | .q n => ∀ l ∈ x.lanes, (x.wroteG wd d f g).q? n.val l = (f l).setWidth 32
      | _ => True) := by
  have sh : ∀ (h : Group) (r : RegId) (k : Nat), k < 64 → r ≠ .q 0 → r ≠ .q 1 →
      (if x.c.q then h.shiftQ x.gr d x.act f else h).reg r k = h.reg r k := by
    intro h r k hk h0 h1
    split
    · exact Group.shiftQ_other _ _ _ _ _ _ hk h0 h1
    · rfl
  cases d with
  | v n =>
    intro l hl
    have h64 := lt_of_mem_lanesOf hl
    have hv := fun m => sh (g.putD wd (.v n) x.act f) (.v m) l h64 (by simp) (by simp)
    have e : ∀ m, (x.wroteG wd (.v n) f g).v? m l = (g.putD wd (.v n) x.act f).v? m l := fun m => by
      have := congrArg (BitVec.setWidth 32) (hv m)
      simpa [Group.reg, Iss.wroteG] using this
    rw [e, e]
    exact Group.putD_v g wd n x.act f hl
  | s n =>
    intro l hl
    have hs := sh (g.putD wd (.s n) x.act f) (.s n.val) 0 (by omega) (by simp) (by simp)
    simp only [Group.reg] at hs
    have : (x.wroteG wd (.s n) f g).s? n.val = (g.putD wd (.s n) x.act f).s? n.val := by simpa [Iss.wroteG] using hs
    rw [this]
    exact Group.putD_s g wd n x.act f hl
  | o n =>
    intro l hl
    have ho := congrArg (BitVec.setWidth 32) (sh (g.putD wd (.o n) x.act f) (.o n.val) l (lt_of_mem_lanesOf hl) (by simp) (by simp))
    have : (x.wroteG wd (.o n) f g).o? n.val l = (g.putD wd (.o n) x.act f).o? n.val l := by simpa [Group.reg, Iss.wroteG] using ho
    rw [this]
    exact Group.putD_o g wd n x.act f hl
  | q n =>
    intro l hl
    have : x.wroteG wd (.q n) f g = g.putD wd (.q n) x.act f := by simp [Iss.wroteG, nq n rfl]
    rw [this]
    exact Group.putD_q g wd n x.act f hl
  | _ => trivial

theorem Iss.wroteG_q (x : Iss) (wd : Bool) (d : Opnd) (f : Nat → DWord) (g : Group) (hq : x.c.q = true) {l : Nat} (hl : l ∈ x.lanes) :
    (x.wroteG wd d f g).q? 1 l = x.gr.q? 0 l
      ∧ (x.wroteG wd d f g).q? 0 l = (f (match d with | .s _ => (lanesOf x.act).head?.getD 0 | _ => l)).setWidth 32 := by
  unfold Iss.wroteG
  simp only
  rw [if_pos hq]
  exact Group.shiftQ_q _ x.gr d x.act f hl

/-! Instructions whose whole effect is a destination. -/

/-- Raising flags leaves all but flags. -/
theorem Iss.flags_grp (x : Iss) (s : State) (f : Nat → Nat) (g : Group) (hg : s.grp x.core x.g = some g) :
    (x.flags s f).grp x.core x.g = some (if x.c.nf then g else x.lanes.foldl (fun g l => g.flag l (f l)) g) := by
  unfold Iss.flags; split <;> simp_all [Iss.modG]
theorem Iss.flags_quiet (x : Iss) (s : State) (f : Nat → Nat) : Quiet s (x.flags s f) x.core x.g := by
  unfold Iss.flags; split
  · exact Quiet.refl _ _ _
  · exact Quiet.modGrp _ _ _ _
theorem Iss.flags_wg (x : Iss) (s : State) (f : Nat → Nat) (c u : Nat) : ((x.flags s f).core c).wgOf u = (s.core c).wgOf u := by
  unfold Iss.flags; split <;> simp [Iss.modG]

/-- A group with flags raised in lanes. -/
def Iss.raise (x : Iss) (f : Nat → Nat) (g : Group) : Group := if x.c.nf then g else x.lanes.foldl (fun g l => g.flag l (f l)) g

theorem Iss.raise_same (x : Iss) (f : Nat → Nat) (g : Group) : g.SameRegs (x.raise f g) := by
  unfold Iss.raise
  split
  · exact ⟨fun _ _ => rfl, fun _ => rfl, fun _ _ => rfl, fun _ _ => rfl, fun _ => rfl⟩
  · exact ⟨fun n l => foldl_inv _ (fun g => g.v? n l) (fun g k => (Group.sameRegs_flag g k _).v n l) _ _,
      fun n => foldl_inv _ (fun g => g.s? n) (fun g k => (Group.sameRegs_flag g k _).s n) _ _,
      fun n l => foldl_inv _ (fun g => g.o? n l) (fun g k => (Group.sameRegs_flag g k _).o n l) _ _,
      fun n l => foldl_inv _ (fun g => g.q? n l) (fun g k => (Group.sameRegs_flag g k _).q n l) _ _,
      fun n => foldl_inv _ (fun g => g.p? n) (fun g k => (Group.sameRegs_flag g k _).p n) _ _⟩
@[simp] theorem Iss.bare_raise (x : Iss) (f : Nat → Nat) (g : Group) : (x.raise f g).bare = g.bare := by
  unfold Iss.raise; split
  · rfl
  · exact foldl_inv _ Group.bare (fun g l => by simp) _ _
@[simp] theorem Iss.fr_raise (x : Iss) (f : Nat → Nat) (g : Group) : (x.raise f g).fr = g.fr := by
  unfold Iss.raise; split
  · rfl
  · exact foldl_inv _ Group.fr (fun g l => by simp) _ _
theorem Iss.fl?_raise (x : Iss) (f : Nat → Nat) (g : Group) (l : Nat) :
    (x.raise f g).fl? l = if l ∈ x.lanes ∧ x.c.nf = false then g.fl? l ||| BitVec.ofNat 5 (f l) else g.fl? l := by
  unfold Iss.raise
  split
  · next h => simp [h]
  · next h => simp [Group.fl?_flags _ _ (nodup_lanesOf x.act), h, Iss.lanes]

/-- An instruction gives just what its state S holds: a destination written and flags raised. -/
theorem gives_of {i : Instr} {c : Ctl} {wd : Bool} {d : Opnd} {val : Iss → Nat → DWord} {fl : Iss → Nat → Nat} (body : Iss → Eff) (S : Iss → State)
    (he : ∀ s, exec i s = issued i c body s) (hb : ∀ x, body x = x.ok (S x))
    (hG : ∀ x g, x.s.grp x.core x.g = some g → (S x).grp x.core x.g = some (x.raise (fl x) (x.wroteG wd d (val x) g)))
    (hQ : ∀ x, Quiet x.s (S x) x.core x.g)
    (hW : ∀ x, ((S x).core x.core).wgOf x.wg.uid = ((x.write wd d (val x)).core x.core).wgOf x.wg.uid) : Gives i c wd d val fl := by
  intro s x hx
  obtain ⟨hi, hp, hm⟩ := hx
  obtain ⟨hs, -, -, -, hg, hw, -, hc, -, -, -⟩ := State.issue_some hi
  have hg' : x.popped.s.grp x.popped.core x.popped.g = some x.gr := by simp [hs, hg]
  have hfg := hG x.popped x.gr hg'
  rw [Iss.popped_core, Iss.popped_g] at hfg
  let r : Res := { s := S x.popped, mv := x.thru }
  let g0 := x.popped.raise (fl x.popped) (x.popped.wroteG wd d (val x.popped) x.gr)
  have hr : r.s.grp x.core x.g = some g0 := hfg
  have hf : advance g0.fr x.cur.pc r.mv ≠ [] := x.advance_thru _ _ hm
  have hq : Quiet s r.s x.core x.g := by
    have h1 := x.popped_quiet
    have h2 := hQ x.popped
    rw [hs] at h1
    rw [Iss.popped_core, Iss.popped_g] at h2
    exact h1.trans h2
  have hfin := x.finish_grp r g0 hr hf
  refine ⟨x.finish r, g0.after x r (x.wg.halt.isSome && x.wg.handler != some x.gr.uid), ?_, hfin, ?_, ?_, ?_, ?_, ?_, ?_⟩
  · unfold Leads
    rw [he, issued_go body hi hp, hb]
    simp only [Iss.conclude, Iss.ok, Iss.popped_thru]
    rfl
  · have hsame : ∀ (w : Group), w = x.popped.wroteG wd d (val x.popped) x.gr → w.SameRegs (g0.after x r (x.wg.halt.isSome && x.wg.handler != some x.gr.uid)) := by
      intro w e
      subst e
      have e1 := x.popped.raise_same (fl x.popped) (x.popped.wroteG wd d (val x.popped) x.gr)
      have e2 := Group.sameRegs_after g0 x r (x.wg.halt.isSome && x.wg.handler != some x.gr.uid)
      exact ⟨fun n l => (e2.v n l).trans (e1.v n l), fun n => (e2.s n).trans (e1.s n), fun n l => (e2.o n l).trans (e1.o n l),
        fun n l => (e2.q n l).trans (e1.q n l), fun n => (e2.p n).trans (e1.p n)⟩
    have e := hsame _ rfl
    constructor
    · cases d with
      | v n => intro l hl; rw [e.v, e.v]; exact x.popped.wroteG_dest wd (.v n) (val x.popped) x.gr (by simp) l hl
      | s n => intro l hl; rw [e.s]; exact x.popped.wroteG_dest wd (.s n) (val x.popped) x.gr (by simp) l hl
      | o n => intro l hl; rw [e.o]; exact x.popped.wroteG_dest wd (.o n) (val x.popped) x.gr (by simp) l hl
      | q n => intro hcq l hl; rw [e.q]; exact x.popped.wroteG_dest wd (.q n) (val x.popped) x.gr (fun _ _ => hcq) l hl
      | h n =>
        have hu : x.wg.uid = x.gr.wg := Core.wgOf_uid hw
        have hv : ∃ v, (x.popped.s.core x.core).wgOf x.wg.uid = some (x.wslot, v) := by
          unfold Iss.popped
          split
          · exact ⟨x.wg, by rw [hs, hu]; exact hw⟩
          · simp only [State.wgOf_modWg _ _ _ _ (fun w => Workgroup.uid_modQueue w _ _), hs, hu, hw]
            exact ⟨_, rfl⟩
        obtain ⟨v, hv⟩ := hv
        have h1 := x.popped.write_wg wd (.h n) (val x.popped) (x.wslot, v) (by simpa using hv)
        have h2 : (r.s.core x.core).wgOf x.wg.uid = some (x.wslot, v.modQueue n.val (fun q => q.push (pushEntry q.kind x.popped.width x.popped.act (val x.popped)))) := by
          have h3 := hW x.popped
          rw [Iss.popped_core, Iss.popped_wg] at h1 h3
          exact h3.trans h1
        obtain ⟨w, hw', hq'⟩ := x.finish_wg r g0 hr hf x.wslot _ h2
        exact ⟨w, by simpa using hw', v, by simpa using hv, hq'⟩
      | _ => trivial
    · intro hcq l hl
      have := x.popped.wroteG_q wd d (val x.popped) x.gr hcq hl
      exact ⟨(e.q 1 l).trans this.1, (e.q 0 l).trans this.2⟩
  · refine ⟨by simp [g0], fun rg l hl hn => ?_⟩
    rw [(Group.sameRegs_after g0 x r _).reg, (x.popped.raise_same _ _).reg]
    exact x.popped.wroteG_other wd d (val x.popped) x.gr rg hl (by simpa [hc] using hn)
  · intro l
    have : (g0.after x r (x.wg.halt.isSome && x.wg.handler != some x.gr.uid)).fl? l = g0.fl? l := rfl
    rw [this, x.popped.fl?_raise]
    simp only [Iss.popped_lanes, Iss.popped_c, Group.fl?, Iss.vfl_wroteG]
  · exact ⟨by simp [Group.after, g0, r], rfl⟩
  · exact x.finish_quiet r s g0 hq hr hf
  · exact (x.finish_quiet r s g0 hq hr hf).bytes

/-- A write that raises flags. -/
theorem gives_flags {i : Instr} {c : Ctl} {wd : Bool} {d : Opnd} {val : Iss → Nat → DWord} {fl : Iss → Nat → Nat} (body : Iss → Eff)
    (he : ∀ s, exec i s = issued i c body s) (hb : ∀ x, body x = x.ok (x.flags (x.write wd d (val x)) (fl x))) : Gives i c wd d val fl :=
  gives_of body (fun x => x.flags (x.write wd d (val x)) (fl x)) he hb (fun x g hg => x.flags_grp _ _ _ (x.write_grp wd d (val x) g hg))
    (fun x => (x.write_quiet wd d (val x)).trans (x.flags_quiet _ _)) (fun x => x.flags_wg _ _ _ _)

theorem Iss.raise_zero (x : Iss) (g : Group) : x.raise (fun _ => 0) g = g := by
  unfold Iss.raise
  split
  · rfl
  · exact foldl_inv _ id (fun g l => by simp [Group.flag]) _ _

/-- A write that raises none. -/
theorem gives_plain {i : Instr} {c : Ctl} {wd : Bool} {d : Opnd} {val : Iss → Nat → DWord} (body : Iss → Eff)
    (he : ∀ s, exec i s = issued i c body s) (hb : ∀ x, body x = x.ok (x.write wd d (val x))) : Gives i c wd d val (fun _ _ => 0) :=
  gives_of body (fun x => x.write wd d (val x)) he hb (fun x g hg => by rw [x.raise_zero]; exact x.write_grp wd d (val x) g hg)
    (fun x => x.write_quiet wd d (val x)) (fun _ => rfl)

/-- A write looks at results only in the active, guard-true lanes. -/
theorem Iss.write_congr (x : Iss) (wd : Bool) (d : Opnd) (f h : Nat → DWord) (e : ∀ l ∈ x.lanes, f l = h l) : x.write wd d f = x.write wd d h := by
  have hd : ∀ l, (lanesOf x.act).head? = some l → f l = h l := fun l hl => e l (List.mem_of_mem_head? hl)
  have h1 : ∀ (g : Group), g.putD wd d x.act f = g.putD wd d x.act h := by
    intro g
    unfold Group.putD
    split
    · split
      · next l hl => rw [hd l hl]
      · rfl
    · exact foldl_congr _ _ _ _ (fun g l hl => by rw [e l hl])
  have h2 : ∀ (g : Group), g.shiftQ x.gr d x.act f = g.shiftQ x.gr d x.act h := by
    intro g
    unfold Group.shiftQ
    refine foldl_congr _ _ _ _ (fun g l hl => ?_)
    have : f ((lanesOf x.act).head?.getD 0) = h ((lanesOf x.act).head?.getD 0) := by
      cases hh : (lanesOf x.act).head? with
      | none => rw [List.head?_eq_none_iff.mp hh] at hl; exact absurd hl (by simp)
      | some k => exact hd k hh
    cases d <;> simp [this, e l hl]
  have h3 : ∀ k, pushEntry k x.width x.act f = pushEntry k x.width x.act h := by
    intro k
    unfold pushEntry
    split
    · cases hh : (lanesOf x.act).head? with
      | none => rfl
      | some l => simp [hd l hh]
    · apply List.map_congr_left
      intro l hl
      split
      · next hm =>
        by_cases h64 : l < 64
        · rw [e l (mem_lanesOf.mpr ⟨h64, hm⟩)]
        · simp [laneIn, BitVec.getLsbD_of_ge _ _ (Nat.not_lt.mp h64)] at hm
      · rfl
  unfold Iss.write
  cases d <;> simp only [h1, h2, h3]

/-! Predicates. -/

theorem laneIn_laneBit {l k : Nat} (hk : k < 64) : laneIn (laneBit l) k = decide (l = k) := by
  simp only [laneIn, laneBit, BitVec.getLsbD_ofNat, hk, decide_true, Bool.true_and, Nat.testBit_two_pow]

theorem laneIn_maskOf_from (ls : List Nat) (m : DWord) {k : Nat} (hk : k < 64) :
    laneIn (ls.foldl (fun m l => m ||| laneBit l) m) k = (laneIn m k || decide (k ∈ ls)) := by
  induction ls generalizing m with
  | nil => simp
  | cons l r ih =>
    simp only [List.foldl_cons, ih]
    have : laneIn (m ||| laneBit l) k = (laneIn m k || decide (l = k)) := by
      rw [← laneIn_laneBit hk]; simp [laneIn]
    rw [this]
    by_cases h : l = k
    · subst h; simp
    · simp [h, Ne.symm h]

/-- The mask of a list holds just its lanes. -/
theorem laneIn_maskOf (ls : List Nat) {k : Nat} (hk : k < 64) : laneIn (maskOf ls) k = decide (k ∈ ls) := by
  have h0 : laneIn 0 k = false := by simp [laneIn]
  unfold maskOf
  rw [laneIn_maskOf_from ls 0 hk, h0, Bool.false_or]

theorem Group.p?_setP (g : Group) (n m : Nat) (x : DWord) : (g.setP n x).p? m = if m = n ∧ n ≠ 7 then x else g.p? m := by
  unfold Group.setP Group.p?
  by_cases h : n = 7
  · simp [h]
  · by_cases e : m = n
    · subst e; simp [h, Tab.get_set_same]
    · simp [h, e, Tab.get_set_other _ _ e]

theorem Group.setPLanes_p (g : Group) (n : Nat) (mask val : DWord) {l : Nat} (hl : l < 64) :
    laneIn ((g.setPLanes n mask val).p? n) l = if n = 7 then true else if laneIn mask l then laneIn val l else laneIn (g.p? n) l := by
  unfold Group.setPLanes
  by_cases h : n = 7
  · subst h
    rw [if_pos rfl]
    simp only [Group.p?, laneIn, if_true]
    rw [BitVec.getLsbD_allOnes]
    exact decide_eq_true hl
  · simp only [Group.p?_setP, h, ne_eq, not_false_eq_true, and_self, if_true, if_false]
    simp only [laneIn, BitVec.getLsbD_or, BitVec.getLsbD_and, BitVec.getLsbD_not, hl, decide_true, Bool.true_and]
    have e : ∀ a b c : Bool, ((a && !b) || (c && b)) = if b = true then c else a := by decide
    exact e _ _ _

theorem Group.setPLanes_other (g : Group) (n : Nat) (mask val : DWord) (r : RegId) (l : Nat) (h : r ≠ .p n) :
    (g.setPLanes n mask val).reg r l = g.reg r l := by
  unfold Group.setPLanes
  cases r with
  | p m =>
    have : (g.setP n ((g.p? n &&& ~~~mask) ||| (val &&& mask))).p? m = g.p? m := by
      rw [Group.p?_setP, if_neg (by rintro ⟨rfl, -⟩; exact h rfl)]
    simp only [Group.reg, this]
  | _ => unfold Group.setP; split <;> rfl

/-- An instruction gives just what its state S holds: a predicate written and flags raised. -/
theorem givesP_of {i : Instr} {c : Ctl} {d : Fin 8} {val : Iss → Nat → Bool} {fl : Iss → Nat → Nat} (body : Iss → Eff) (S : Iss → State)
    (he : ∀ s, exec i s = issued i c body s) (hb : ∀ x, body x = x.ok (S x))
    (hG : ∀ x g, x.s.grp x.core x.g = some g →
      (S x).grp x.core x.g = some (x.raise (fl x) ((g.setPLanes d.val x.act (maskOf (x.lanes.filter (val x)))).cleanP d.val x.act)))
    (hQ : ∀ x, Quiet x.s (S x) x.core x.g) : GivesP i c d val fl := by
  intro s x hx
  obtain ⟨hi, hp, hm⟩ := hx
  obtain ⟨hs, -, -, -, hg, -⟩ := State.issue_some hi
  have hfg := hG x.popped x.gr (by simp [hs, hg])
  rw [Iss.popped_core, Iss.popped_g] at hfg
  let r : Res := { s := S x.popped, mv := x.thru }
  let g1 := (x.gr.setPLanes d.val x.popped.act (maskOf (x.popped.lanes.filter (val x.popped)))).cleanP d.val x.popped.act
  let g0 := x.popped.raise (fl x.popped) g1
  have hr : r.s.grp x.core x.g = some g0 := hfg
  have hf : advance g0.fr x.cur.pc r.mv ≠ [] := x.advance_thru _ _ hm
  have hq : Quiet s r.s x.core x.g := by
    have h1 := x.popped_quiet
    have h2 := hQ x.popped
    rw [hs] at h1
    rw [Iss.popped_core, Iss.popped_g] at h2
    exact h1.trans h2
  have same := fun r' l => ((Group.sameRegs_after g0 x r (x.wg.halt.isSome && x.wg.handler != some x.gr.uid)).reg r' l).trans
    ((x.popped.raise_same (fl x.popped) g1).reg r' l)
  have bare1 : g1.bare = x.gr.bare := by simp [g1, Group.setPLanes]
  have vfl1 : g1.vfl = x.gr.vfl := by simp [g1, Group.setPLanes]
  have fr1 : g1.fr = x.gr.fr := by simp [g1, Group.setPLanes]
  refine ⟨x.finish r, g0.after x r (x.wg.halt.isSome && x.wg.handler != some x.gr.uid), ?_, x.finish_grp r g0 hr hf, ?_, ?_, ?_, ?_,
    x.finish_quiet r s g0 hq hr hf, (x.finish_quiet r s g0 hq hr hf).bytes⟩
  · unfold Leads
    rw [he, issued_go body hi hp, hb]
    simp only [Iss.conclude, Iss.ok, Iss.popped_thru]
    rfl
  · intro l hl
    have e : (g0.after x r (x.wg.halt.isSome && x.wg.handler != some x.gr.uid)).p? d.val = g1.p? d.val := (x.popped.raise_same (fl x.popped) g1).p d.val
    rw [e, (Group.sameRegs_cleanP _ _ _).p, Group.setPLanes_p _ _ _ _ hl, laneIn_maskOf _ hl]
    split
    · rfl
    · split
      · next ha =>
        have hm : l ∈ x.popped.lanes := mem_lanesOf.mpr ⟨hl, ha⟩
        cases hv : val x.popped l <;> simp only [List.mem_filter, hm, hv] <;> decide
      · simp
  · refine ⟨?_, fun rg l hl hn => ?_⟩
    · simpa [g0] using bare1
    · rw [same, (Group.sameRegs_cleanP _ _ _).reg]
      exact Group.setPLanes_other _ _ _ _ rg l (by simpa using hn)
  · intro l
    have : (g0.after x r (x.wg.halt.isSome && x.wg.handler != some x.gr.uid)).fl? l = g0.fl? l := rfl
    rw [this, x.popped.fl?_raise]
    simp only [Iss.popped_lanes, Iss.popped_c, Group.fl?, vfl1]
  · exact ⟨by simp [Group.after, g0, r, fr1], rfl⟩

/-- A predicate written, flags raised. -/
theorem givesP_flags {i : Instr} {c : Ctl} {d : Fin 8} {val : Iss → Nat → Bool} {fl : Iss → Nat → Nat} (body : Iss → Eff)
    (he : ∀ s, exec i s = issued i c body s) (hb : ∀ x, body x = x.ok (x.flags (x.writeP d (val x)) (fl x))) : GivesP i c d val fl :=
  givesP_of body (fun x => x.flags (x.writeP d (val x)) (fl x)) he hb
    (fun x g hg => x.flags_grp _ _ _ (by simp [Iss.writeP, Iss.modG, hg])) (fun x => (Quiet.modGrp _ _ _ _).trans (x.flags_quiet _ _))

/-- A predicate written, no flags raised. -/
theorem givesP_plain {i : Instr} {c : Ctl} {d : Fin 8} {val : Iss → Nat → Bool} (body : Iss → Eff)
    (he : ∀ s, exec i s = issued i c body s) (hb : ∀ x, body x = x.ok (x.writeP d (val x))) : GivesP i c d val (fun _ _ => 0) :=
  givesP_of body (fun x => x.writeP d (val x)) he hb (fun x g hg => by rw [x.raise_zero]; simp [Iss.writeP, Iss.modG, hg]) (fun x => Quiet.modGrp _ _ _ _)

/-! Where lanes go. -/

/-- An instruction that changes no more than where its lanes go. -/
theorem moves_of {i : Instr} {c : Ctl} {mv : Iss → List Move} (body : Iss → Eff) (he : ∀ s, exec i s = issued i c body s)
    (hb : ∀ x, body x = .ok { s := x.s, mv := mv x }) (hm : ∀ x : Iss, x.cur.mask ≠ 0 → ∃ m ∈ mv x, m.mask ≠ 0) : Moves i c mv := by
  intro s x hx
  obtain ⟨hi, hp, hz⟩ := hx
  have hf : advance x.gr.fr x.cur.pc (mv x.popped) ≠ [] := advance_ne_nil _ _ _ (hm x.popped (by simpa using hz))
  obtain ⟨hs, -, -, -, hg, -⟩ := State.issue_some hi
  let r : Res := { s := x.popped.s, mv := mv x.popped }
  have hr : r.s.grp x.core x.g = some x.gr := by simp [r, hs, hg]
  have hq : Quiet s r.s x.core x.g := by have h1 := x.popped_quiet; rw [hs] at h1; exact h1
  refine ⟨x.finish r, x.gr.after x r (x.wg.halt.isSome && x.wg.handler != some x.gr.uid), ?_, x.finish_grp r x.gr hr hf, ⟨rfl, fun rg l _ _ => ?_⟩, rfl,
    ⟨rfl, rfl⟩, x.finish_quiet r s x.gr hq hr hf, (x.finish_quiet r s x.gr hq hr hf).bytes⟩
  · unfold Leads
    rw [he, issued_go body hi hp, hb]
    simp only [Iss.conclude]
    rfl
  · exact (Group.sameRegs_after _ _ _ _).reg rg l

end Sys2Proof.Machine
end

