-- ==== Sys2Proof/Laws/Bytes.lean ====
section
/-! SUPPORT. Writes of bytes wherever they lie: what each changes and what it leaves, and the end of an issue that stores. -/
namespace Sys2Proof.Machine
open Sys2Proof

/-! Frames. -/

theorem Around.refl (s : State) (c g : Nat) : Around s s c g := ⟨rfl, fun _ => rfl, fun _ _ => rfl, rfl, fun _ _ => rfl, rfl⟩

theorem Around.trans {s t u : State} {c g : Nat} (h : Around s t c g) (k : Around t u c g) : Around s u c g :=
  ⟨k.rest.trans h.rest, fun p => (k.clus p).trans (h.clus p), fun d e => (k.cores d e).trans (h.cores d e), k.core.trans h.core,
   fun n e => (k.grps n e).trans (h.grps n e), k.wgs.trans h.wgs⟩

theorem Workgroup.shell_of_calm {w v : Workgroup} (h : w.calm = v.calm) : w.shell = v.shell := by
  have : w.calm.shell = v.calm.shell := by rw [h]
  exact this

theorem Quiet.around {s t : State} {c g : Nat} (h : Quiet s t c g) : Around s t c g := by
  refine ⟨?_, ?_, h.cores, ?_, h.grps, ?_⟩
  · have := congrArg State.skin h.rest
    exact this
  · intro p
    have := congrArg (fun u : State => (u.cluster p).shell) h.rest
    exact this
  · have := congrArg (fun k : Core => { k with wgs := [], grps := [] }) h.core
    exact this
  · have := congrArg (List.map (fun e : Nat × Workgroup => (e.1, e.2.shell))) h.wgs
    rw [List.map_map, List.map_map] at this
    exact this

/-- Two states whose skins agree translate alike. -/
theorem translate_skin {s t : State} (h : t.skin = s.skin) (ctx : Nat) (a : Acc) (va : Nat) : t.translate ctx a va = s.translate ctx a va := by
  have hs : t.sessions = s.sessions := by have := congrArg State.sessions h; exact this
  have hf : t.fenaz = s.fenaz := by have := congrArg State.fenaz h; exact this
  have hc : t.ctxs.map (fun e => (e.1, e.2.shell)) = s.ctxs.map (fun e => (e.1, e.2.shell)) := by have := congrArg State.ctxs h; exact this
  have get : ∀ (u : Tab Ctx) n, Tab.get (u.map (fun e => (e.1, e.2.shell))) n = (Tab.get u n).map Ctx.shell := by
    intro u n
    induction u with
    | nil => rfl
    | cons e r ih => obtain ⟨j, y⟩ := e; simp only [List.map_cons, Tab.get]; split <;> simp [ih]
  have hp : (Tab.get t.ctxs ctx).map Ctx.pages = (Tab.get s.ctxs ctx).map Ctx.pages := by
    have := congrArg (fun u => (Tab.get u ctx).map Ctx.pages) hc
    simp only [get, Option.map_map] at this
    exact this
  unfold State.translate State.windowOf State.keyId Ctx.page
  rw [hs, hf]
  cases ht : Tab.get t.ctxs ctx <;> cases hs' : Tab.get s.ctxs ctx <;> simp_all

/-! Bytes. -/

theorem Quiet.byteAt {s t : State} {c g : Nat} (h : Quiet s t c g) (q : Byt) : t.byteAt q = s.byteAt q := by
  cases q with
  | hbm pa k =>
    have := congrArg (fun u : State => u.hbmGet k pa) h.rest
    exact congrArg some this
  | sp d u a => exact h.bytes.2.1 d u a
  | tm d u a => exact h.bytes.2.2.1 d u a
  | cl p l u a => exact h.bytes.2.2.2 p l u a

theorem Stored.nil {s t : State} (h : ∀ q, t.byteAt q = s.byteAt q) : Stored s t [] :=
  ⟨fun q => by rw [h], fun q _ => h q, fun pre p b post e => absurd e (by simp)⟩

theorem Stored.append {s t u : State} {ws vs : List (Byt × Byte)} (h : Stored s t ws) (k : Stored t u vs) : Stored s u (ws ++ vs) := by
  refine ⟨fun q => (k.1 q).trans (h.1 q), fun q hq => ?_, fun pre p b post e hp hs => ?_⟩
  · rw [k.2.1 q (fun w hw => hq w (List.mem_append_right _ hw)), h.2.1 q (fun w hw => hq w (List.mem_append_left _ hw))]
  · rcases List.append_eq_append_iff.mp e with ⟨as, h1, h2⟩ | ⟨as, h1, h2⟩
    · exact k.2.2 as p b post h2 hp (by rw [h.1]; exact hs)
    · cases as with
      | nil =>
        simp only [List.nil_append] at h2
        exact k.2.2 [] p b post (by simpa using h2.symm) hp (by rw [h.1]; exact hs)
      | cons w as =>
        simp only [List.cons_append, List.cons.injEq] at h2
        obtain ⟨rfl, h3⟩ := h2
        rw [k.2.1 p (fun w hw => hp w (by rw [h3]; exact List.mem_append_right _ hw))]
        exact h.2.2 pre p b as h1 (fun w hw => hp w (by rw [h3]; exact List.mem_append_left _ hw)) hs

theorem Stored.quiet {s t u : State} {ws : List (Byt × Byte)} (h : Stored s t ws) (k : ∀ q, u.byteAt q = t.byteAt q) : Stored s u ws := by
  have := h.append (Stored.nil k)
  rwa [List.append_nil] at this

/-- One byte of HBM written under a key. -/
theorem State.hbmGet_put (s : State) (k pa : Nat) (b : Byte) (j qa : Nat) :
    (qa = pa ∧ j = k → (s.hbmPut k pa b).hbmGet j qa = b) ∧ (¬ (Byt.hbm pa k).hits (.hbm qa j) → (s.hbmPut k pa b).hbmGet j qa = s.hbmGet j qa) := by
  have key : ∀ n, Tab.get (s.rekey k (pa / 64)).hbmKey n = if n = pa / 64 then some k else Tab.get s.hbmKey n := by
    intro n
    unfold State.rekey
    split
    · split
      · next h e =>
        subst e
        split
        · next hn => rw [hn, h]
        · rfl
      · simp [Tab.get_set]
    · simp [Tab.get_set]
  have out : ∀ a, a / 64 ≠ pa / 64 → Mem.get (s.rekey k (pa / 64)).hbm a = Mem.get s.hbm a := by
    intro a ha
    unfold State.rekey
    split
    · split
      · rfl
      · exact Mem.get_write_outside _ _ _ _ (by simp; omega)
    · rfl
  have inn : ∀ a, a / 64 = pa / 64 → Mem.get (s.rekey k (pa / 64)).hbm a = s.hbmGet k a := by
    intro a ha
    unfold State.rekey State.hbmGet
    rw [ha]
    split
    · next j' hj =>
      split
      · next e => simp
      · next e =>
        simp only [Mem.get_write, List.length_map, List.length_range]
        rw [if_pos (by omega)]
        have : a - 64 * (pa / 64) < 64 := by omega
        simp only [List.getD_eq_getElem?_getD, List.getElem?_map, List.getElem?_range this, Option.map_some, Option.getD_some]
        have e2 : 64 * (pa / 64) + (a - 64 * (pa / 64)) = a := by omega
        simp only [e2, ha, hj, e, if_false]
    · rfl
  constructor
  · rintro ⟨rfl, rfl⟩
    unfold State.hbmPut State.hbmGet
    simp only [key, if_true, Mem.get_put_same]
  · intro hn
    have hn' : ¬ (pa / 64 = qa / 64 ∧ (pa = qa ∨ k ≠ j)) := fun e => hn (.inr ⟨pa, k, qa, j, rfl, rfl, e.1, e.2⟩)
    by_cases hl : qa / 64 = pa / 64
    · have hk : k = j := Classical.byContradiction (fun e => hn' ⟨hl.symm, .inr e⟩)
      have ha : qa ≠ pa := fun e => hn' ⟨hl.symm, .inl e.symm⟩
      subst hk
      have : (s.hbmPut k pa b).hbmGet k qa = Mem.get (s.rekey k (pa / 64)).hbm qa := by
        unfold State.hbmPut State.hbmGet
        simp only [key, hl, if_true, Mem.get_put_other _ _ ha]
      rw [this, inn qa hl]
    · unfold State.hbmPut State.hbmGet
      have ha : qa ≠ pa := fun e => hl (by rw [e])
      simp only [key, hl, if_false, Mem.get_put_other _ _ ha, out qa hl]

theorem State.rekey_frame (s : State) (k n : Nat) : { s.rekey k n with hbm := s.hbm, hbmKey := s.hbmKey } = s := by
  unfold State.rekey; split
  · split <;> rfl
  · rfl
theorem State.hbmPut_frame (s : State) (k pa : Nat) (b : Byte) : { s.hbmPut k pa b with hbm := s.hbm, hbmKey := s.hbmKey } = s := s.rekey_frame k (pa / 64)

theorem Stored.hbmPut (s : State) (k pa : Nat) (b : Byte) : Stored s (s.hbmPut k pa b) [(.hbm pa k, b)] := by
  have fr := s.hbmPut_frame k pa b
  have sp : ∀ q, (∀ a j, q ≠ .hbm a j) → (s.hbmPut k pa b).byteAt q = s.byteAt q := by
    intro q hq
    cases q with
    | hbm a j => exact absurd rfl (hq a j)
    | sp d u a => have := congrArg (fun u' : State => u'.byteAt (.sp d u a)) fr; exact this
    | tm d u a => have := congrArg (fun u' : State => u'.byteAt (.tm d u a)) fr; exact this
    | cl p l u a => have := congrArg (fun u' : State => u'.byteAt (.cl p l u a)) fr; exact this
  refine ⟨fun q => ?_, fun q hq => ?_, fun pre p b' post e hp _ => ?_⟩
  · cases q with
    | hbm a j => rfl
    | _ => rw [sp _ (by intros; simp)]
  · cases q with
    | hbm a j => exact congrArg some ((State.hbmGet_put s k pa b j a).2 (hq _ List.mem_cons_self))
    | _ => exact sp _ (by intros; simp)
  · cases pre with
    | nil =>
      simp only [List.nil_append, List.cons.injEq, Prod.mk.injEq] at e
      obtain ⟨⟨rfl, rfl⟩, -⟩ := e
      exact congrArg some ((State.hbmGet_put s k pa b k pa).1 ⟨rfl, rfl⟩)
    | cons w r => simp at e

theorem State.skin_hbmPut (s : State) (k pa : Nat) (b : Byte) : (s.hbmPut k pa b).skin = s.skin := by
  have := congrArg State.skin (s.hbmPut_frame k pa b)
  exact this

theorem Around.hbmPut (s : State) (k pa : Nat) (b : Byte) (c g : Nat) : Around s (s.hbmPut k pa b) c g := by
  have e := s.hbmPut_frame k pa b
  have h1 : (s.hbmPut k pa b).cores = s.cores := by have := congrArg State.cores e; exact this
  have h2 : (s.hbmPut k pa b).clusters = s.clusters := by have := congrArg State.clusters e; exact this
  have hc : ∀ d, (s.hbmPut k pa b).core d = s.core d := fun d => by unfold State.core; rw [h1]
  exact ⟨s.skin_hbmPut k pa b, fun p => by unfold State.cluster; rw [h2], fun d _ => hc d, by rw [hc], fun h _ => by unfold State.grp; rw [hc], by rw [hc]⟩

/-! Global memory. -/

theorem State.glPut_frame (s : State) (x va : Nat) (b : Byte) : { s.glPut x va b with hbm := s.hbm, hbmKey := s.hbmKey } = s := by
  unfold State.glPut; split
  · exact s.hbmPut_frame _ _ _
  · rfl
theorem State.skin_glPut (s : State) (x va : Nat) (b : Byte) : (s.glPut x va b).skin = s.skin := by
  have := congrArg State.skin (s.glPut_frame x va b); exact this
theorem Around.glPut (s : State) (x va : Nat) (b : Byte) (c g : Nat) : Around s (s.glPut x va b) c g := by
  unfold State.glPut; split
  · exact Around.hbmPut _ _ _ _ _ _
  · exact Around.refl _ _ _
theorem Stored.glPut (s : State) (x va : Nat) (b : Byte) : Stored s (s.glPut x va b) (((s.place x .w va).map (fun p => (p, b))).toList) := by
  unfold State.glPut State.place
  cases s.translate x .w va <;> first | exact Stored.hbmPut _ _ _ _ | exact Stored.nil (fun _ => rfl)
theorem State.place_skin {s t : State} (h : t.skin = s.skin) (x : Nat) (a : Acc) (va : Nat) : t.place x a va = s.place x a va := by
  unfold State.place; rw [translate_skin h]

/-- The bytes that a write of global memory writes. -/
def State.putsAt (s : State) (x va : Nat) (bs : List Byte) (k : Nat) : List (Byt × Byte) :=
  (bs.zipIdx k).filterMap (fun e => (s.place x .w (va + e.2)).map (fun p => (p, e.1)))

theorem State.glWrite_all (s : State) (x va : Nat) (bs : List Byte) (k : Nat) :
    Stored s (s.glWrite x (va + k) bs) (s.putsAt x va bs k) ∧ (s.glWrite x (va + k) bs).skin = s.skin
      ∧ (∀ c g, Around s (s.glWrite x (va + k) bs) c g) ∧ { s.glWrite x (va + k) bs with hbm := s.hbm, hbmKey := s.hbmKey } = s := by
  induction bs generalizing s k with
  | nil => exact ⟨Stored.nil (fun _ => rfl), rfl, fun c g => Around.refl _ _ _, rfl⟩
  | cons b r ih =>
    have h1 := Stored.glPut s x (va + k) b
    obtain ⟨i1, i2, i3, i4⟩ := ih (s.glPut x (va + k) b) (k + 1)
    have e : s.putsAt x va (b :: r) k = ((s.place x .w (va + k)).map (fun p => (p, b))).toList ++ (s.glPut x (va + k) b).putsAt x va r (k + 1) := by
      unfold State.putsAt
      simp only [List.zipIdx_cons, List.filterMap_cons, State.place_skin (s.skin_glPut x (va + k) b)]
      cases s.place x .w (va + k) <;> rfl
    refine ⟨?_, i2.trans (s.skin_glPut _ _ _), fun c g => (Around.glPut s x (va + k) b c g).trans (i3 c g), ?_⟩
    · rw [e]; exact h1.append i1
    · have f := s.glPut_frame x (va + k) b
      have := congrArg (fun u : State => { u with hbm := s.hbm, hbmKey := s.hbmKey }) i4
      exact this.trans f

theorem Stored.glWrite (s : State) (x va : Nat) (bs : List Byte) : Stored s (s.glWrite x va bs) (s.putsAt x va bs 0) := (s.glWrite_all x va bs 0).1
theorem State.skin_glWrite (s : State) (x va : Nat) (bs : List Byte) : (s.glWrite x va bs).skin = s.skin := (s.glWrite_all x va bs 0).2.1
theorem Around.glWrite (s : State) (x va : Nat) (bs : List Byte) (c g : Nat) : Around s (s.glWrite x va bs) c g := (s.glWrite_all x va bs 0).2.2.1 c g
theorem State.glWrite_frame (s : State) (x va : Nat) (bs : List Byte) : { s.glWrite x va bs with hbm := s.hbm, hbmKey := s.hbmKey } = s := (s.glWrite_all x va bs 0).2.2.2
@[simp] theorem State.cores_glWrite (s : State) (x va : Nat) (bs : List Byte) : (s.glWrite x va bs).cores = s.cores := by
  have := congrArg State.cores (s.glWrite_frame x va bs); exact this
@[simp] theorem State.core_glWrite (s : State) (x va : Nat) (bs : List Byte) (c : Nat) : (s.glWrite x va bs).core c = s.core c := by
  unfold State.core; rw [State.cores_glWrite]
@[simp] theorem State.grp_glWrite (s : State) (x va : Nat) (bs : List Byte) (c g : Nat) : (s.glWrite x va bs).grp c g = s.grp c g := by
  unfold State.grp; rw [State.core_glWrite]

/-! Byte memories. -/

/-- A write of consecutive bytes of one byte memory, given how the bytes read afterwards. -/
theorem Stored.run {s t : State} (at_ : Nat → Byt) (inj : ∀ i j, at_ i = at_ j → i = j) (plain : ∀ i a k, at_ i ≠ .hbm a k) (a : Nat) (bs : List Byte)
    (dom : ∀ q, (t.byteAt q).isSome = (s.byteAt q).isSome) (out : ∀ q, (∀ i, i < bs.length → q ≠ at_ (a + i)) → t.byteAt q = s.byteAt q)
    (inn : ∀ i, i < bs.length → (s.byteAt (at_ (a + i))).isSome → t.byteAt (at_ (a + i)) = some (bs.getD i 0)) :
    Stored s t ((bs.zipIdx).map (fun e => (at_ (a + e.2), e.1))) := by
  refine ⟨dom, fun q hq => out q (fun i hi e => ?_), fun pre p b post e _ hs => ?_⟩
  · refine hq (at_ (a + i), bs[i]) ?_ (.inl e.symm)
    rw [List.mem_map]
    exact ⟨(bs[i], i), by rw [List.mem_zipIdx_iff_getElem?]; simp [hi], rfl⟩
  · have h := congrArg (fun l => l[pre.length]?) e
    simp only [List.getElem?_map, List.getElem?_append_right (Nat.le_refl _), Nat.sub_self, List.getElem?_cons_zero, List.getElem?_zipIdx] at h
    cases hb : bs[pre.length]? with
    | none => rw [hb] at h; simp at h
    | some b' =>
      rw [hb] at h
      simp only [Option.map_some, Nat.zero_add, Option.some.injEq, Prod.mk.injEq] at h
      obtain ⟨rfl, rfl⟩ := h
      have hl : pre.length < bs.length := by rw [List.getElem?_eq_some_iff] at hb; exact hb.1
      rw [inn _ hl hs]
      simp [List.getD_eq_getElem?_getD, hb]

theorem wgOf_shape (s : State) (c u : Nat) (f : Workgroup → Workgroup) (hf : ∀ w, (f w).uid = w.uid) (d v : Nat) :
    ((s.modWg c u f).core d).wgOf v = if d = c ∧ v = u then ((s.core d).wgOf v).map (fun e => (e.1, f e.2)) else (s.core d).wgOf v := by
  by_cases hd : d = c
  · subst hd
    by_cases hv : v = u
    · subst hv; simp only [and_self, if_true]; exact State.wgOf_modWg s d v f hf
    · simp only [hv, and_false, if_false]
      simp only [State.modWg, State.core_modCore, Core.wgOf]
      generalize (s.core d).wgs = ws
      induction ws with
      | nil => rfl
      | cons e r ih =>
        simp only [List.map_cons, List.find?_cons]
        by_cases hu : e.2.uid = u
        · have h1 : ((e.1, f e.2).2.uid == v) = false := by simp [hf, hu, Ne.symm hv]
          have h2 : (e.2.uid == v) = false := by simp [hu, Ne.symm hv]
          rw [if_pos hu, h1, h2]; exact ih
        · simp only [hu, if_false]; split
          · rfl
          · exact ih
  · simp [State.modWg, hd]

/-- A store to a scratchpad. -/
theorem Stored.spWrite (s : State) (c u a : Nat) (bs : List Byte) :
    Stored s (s.modWg c u (fun w => w.spWrite a bs)) ((bs.zipIdx).map (fun e => (.sp c u (a + e.2), e.1))) := by
  have uid : ∀ w : Workgroup, (w.spWrite a bs).uid = w.uid := fun _ => rfl
  have scr : ∀ (w : Workgroup) x, (w.spWrite a bs).sp x = Cells.get w.fill 0 (Cells.write w.scratch a bs) x := fun _ _ => rfl
  have til : ∀ (w : Workgroup) x, (w.spWrite a bs).tm x = w.tm x := fun _ _ => rfl
  have sp : ∀ d v x, (s.modWg c u (fun w => w.spWrite a bs)).byteAt (.sp d v x)
      = if d = c ∧ v = u then ((s.core d).wgOf v).map (fun e => Cells.get e.2.fill 0 (Cells.write e.2.scratch a bs) x) else s.byteAt (.sp d v x) := by
    intro d v x
    simp only [State.byteAt, wgOf_shape s c u _ uid]
    split
    · simp [Option.map_map, Function.comp_def, scr]
    · rfl
  have tm : ∀ d v x, (s.modWg c u (fun w => w.spWrite a bs)).byteAt (.tm d v x) = s.byteAt (.tm d v x) := by
    intro d v x
    simp only [State.byteAt, wgOf_shape s c u _ uid]
    split
    · simp [Option.map_map, Function.comp_def, til]
    · rfl
  refine Stored.run (.sp c u) (by intro i j h; simpa using h) (by intros; simp) a bs (fun q => ?_) (fun q hq => ?_) (fun i hi hs => ?_)
  · cases q with
    | sp d v x => rw [sp]; split <;> simp [State.byteAt]
    | tm d v x => rw [tm]
    | _ => rfl
  · cases q with
    | sp d v x =>
      rw [sp]
      split
      · next h =>
        obtain ⟨rfl, rfl⟩ := h
        simp only [State.byteAt]
        congr 1; funext e
        show Cells.get e.2.fill 0 (Cells.write e.2.scratch a bs) x = Cells.get e.2.fill 0 e.2.scratch x
        rw [Cells.get_write_outside]
        apply Classical.byContradiction
        intro hn
        exact hq (x - a) (by omega) (by congr 1; omega)
      · rfl
    | tm d v x => rw [tm]
    | _ => rfl
  · rw [sp, if_pos ⟨rfl, rfl⟩]
    simp only [State.byteAt] at hs
    cases h : (s.core c).wgOf u with
    | none => rw [h] at hs; simp at hs
    | some e =>
      simp only [Option.map_some, Cells.get_write]
      rw [if_pos (by omega), Nat.add_sub_cancel_left]

theorem State.clUse_frame (s : State) (p l u a n : Nat) : { s.clUse p l u a n with clusters := s.clusters } = s := by
  unfold State.clUse; simp only []; split <;> rfl
/-- A use of mirrors through .cl leaves every team as it was. -/
@[simp] theorem State.team_clUse (s : State) (p l u a n p' l' u' : Nat) : (s.clUse p l u a n).team p' l' u' = s.team p' l' u' := by
  unfold State.clUse
  simp only []
  split
  · by_cases hp : p' = p
    · subst hp; simp [State.team, State.modCluster, State.cluster, Tab.get_set_same]
    · simp [State.team, State.modCluster, State.cluster, Tab.get_set_other _ _ hp]
  · rfl
theorem State.byteAt_clUse (s : State) (p l u a n : Nat) (q : Byt) : (s.clUse p l u a n).byteAt q = s.byteAt q := by
  have fr := s.clUse_frame p l u a n
  cases q with
  | hbm pa k => have := congrArg (fun v : State => v.byteAt (.hbm pa k)) fr; exact this
  | sp d v x => have := congrArg (fun t : State => t.byteAt (.sp d v x)) fr; exact this
  | tm d v x => have := congrArg (fun t : State => t.byteAt (.tm d v x)) fr; exact this
  | cl p' l' u' x => simp [State.byteAt]
theorem State.cores_clUse (s : State) (p l u a n : Nat) : (s.clUse p l u a n).cores = s.cores := by
  have := congrArg State.cores (s.clUse_frame p l u a n); exact this
theorem Around.clUse (s : State) (p l u a n c g : Nat) : Around s (s.clUse p l u a n) c g := by
  unfold State.clUse
  simp only []
  split
  · refine ⟨rfl, fun q => ?_, fun _ _ => rfl, rfl, fun _ _ => rfl, rfl⟩
    by_cases hq : q = p
    · subst hq
      simp only [State.modCluster, State.cluster, Tab.get_set_same, Option.getD_some, Cluster.shell, List.map_map]
      congr 1
      apply List.map_congr_left
      intro e _
      simp only [Function.comp_apply]
      split <;> rfl
    · simp [State.modCluster, State.cluster, Tab.get_set_other _ _ hq]
  · exact Around.refl _ _ _

/-- A team's bytes after a write. -/
theorem State.team_clPut (s : State) (p l u a : Nat) (bs : List Byte) (p' l' u' : Nat) :
    ((s.clPut p l u a bs).team p' l' u').map Team.mem
      = if p' = p ∧ l' = l ∧ u' = u then (s.team p l u).map (fun t => Mem.write t.mem a bs) else (s.team p' l' u').map Team.mem := by
  by_cases hp : p' = p
  · subst hp
    simp only [State.clPut, State.modTeam, State.team, State.modCluster, State.cluster, Tab.get_set_same, Option.getD_some, true_and]
    generalize ((Tab.get s.clusters p').getD Cluster.empty).teams = ts
    induction ts with
    | nil => simp
    | cons t r ih =>
      simp only [List.map_cons, List.find?_cons]
      by_cases ht : t.launch = l ∧ t.unit = u
      · obtain ⟨rfl, rfl⟩ := ht
        by_cases hq : l' = t.launch ∧ u' = t.unit
        · obtain ⟨rfl, rfl⟩ := hq; simp
        · simp only [and_self, if_true]
          have h1 : (t.launch == l' && t.unit == u') = false := by
            rw [Bool.eq_false_iff]; intro h; simp at h; exact hq ⟨h.1.symm, h.2.symm⟩
          simp only [h1]
          simp only [hq, if_false] at ih ⊢
          exact ih
      · simp only [ht, if_false]
        by_cases hq : l' = t.launch ∧ u' = t.unit
        · obtain ⟨rfl, rfl⟩ := hq
          have : ¬ (t.launch = l ∧ t.unit = u) := ht
          simp [this]
        · have h1 : (t.launch == l' && t.unit == u') = false := by
            rw [Bool.eq_false_iff]; intro h; simp at h; exact hq ⟨h.1.symm, h.2.symm⟩
          have h2 : (t.launch == l && t.unit == u) = false := by rw [Bool.eq_false_iff]; intro h; simp at h; exact ht h
          simp only [h1, h2]
          exact ih
  · have : (s.clPut p l u a bs).team p' l' u' = s.team p' l' u' := by
      simp [State.clPut, State.modTeam, State.team, State.modCluster, State.cluster, Tab.get_set_other _ _ hp]
    rw [this]; simp [hp]

theorem Stored.clWrite (s : State) (p l u a : Nat) (bs : List Byte) :
    Stored s (s.clWrite p l u a bs) ((bs.zipIdx).map (fun e => (.cl p l u (a + e.2), e.1))) := by
  have cl : ∀ p' l' u' x, (s.clWrite p l u a bs).byteAt (.cl p' l' u' x)
      = if p' = p ∧ l' = l ∧ u' = u then (s.team p l u).map (fun t => Mem.get (Mem.write t.mem a bs) x) else s.byteAt (.cl p' l' u' x) := by
    intro p' l' u' x
    have := congrArg (Option.map (fun m => Mem.get m x)) ((s.clUse p l u a bs.length).team_clPut p l u a bs p' l' u')
    simp only [Option.map_map, Function.comp_def, State.team_clUse] at this
    simp only [State.byteAt, State.clWrite, this]
    split <;> simp [Option.map_map, Function.comp_def]
  refine Stored.run (.cl p l u) (by intro i j h; simpa using h) (by intros; simp) a bs (fun q => ?_) (fun q hq => ?_) (fun i hi hs => ?_)
  · cases q with
    | cl p' l' u' x => rw [cl]; split
                       · next h => obtain ⟨rfl, rfl, rfl⟩ := h; simp [State.byteAt]
                       · rfl
    | hbm pa k => exact congrArg Option.isSome (s.byteAt_clUse p l u a bs.length (.hbm pa k))
    | sp d v x => exact congrArg Option.isSome (s.byteAt_clUse p l u a bs.length (.sp d v x))
    | tm d v x => exact congrArg Option.isSome (s.byteAt_clUse p l u a bs.length (.tm d v x))
  · cases q with
    | cl p' l' u' x =>
      rw [cl]
      split
      · next h =>
        obtain ⟨rfl, rfl, rfl⟩ := h
        simp only [State.byteAt]
        congr 1; funext e
        rw [Mem.get_write_outside]
        apply Classical.byContradiction
        intro hn
        exact hq (x - a) (by omega) (by congr 1; omega)
      · rfl
    | hbm pa k => exact s.byteAt_clUse p l u a bs.length (.hbm pa k)
    | sp d v x => exact s.byteAt_clUse p l u a bs.length (.sp d v x)
    | tm d v x => exact s.byteAt_clUse p l u a bs.length (.tm d v x)
  · rw [cl, if_pos ⟨rfl, rfl, rfl⟩]
    simp only [State.byteAt] at hs
    cases h : s.team p l u with
    | none => rw [h] at hs; simp at hs
    | some e =>
      simp only [Option.map_some, Mem.get_write]
      rw [if_pos (by omega), Nat.add_sub_cancel_left]

/-! Stores of an issue. -/

theorem Around.modWg (s : State) (c g u : Nat) (f : Workgroup → Workgroup) (hf : ∀ w, (f w).shell = w.shell) : Around s (s.modWg c u f) c g where
  rest := rfl
  clus _ := rfl
  cores d h := by simp [State.modWg, h]
  core := by simp [State.modWg]
  grps h n := by simp
  wgs := by
    simp only [State.modWg, State.core_modCore, List.map_map]
    apply List.map_congr_left
    intro e _
    simp only [Function.comp_apply]
    split <;> simp [hf]

theorem Around.modTeam (s : State) (c g p l u : Nat) (f : Team → Team) (hf : ∀ t, { f t with mem := [], poison := [] } = { t with mem := [], poison := [] }) :
    Around s (s.modTeam p l u f) c g where
  rest := rfl
  clus q := by
    by_cases hq : q = p
    · subst hq
      simp only [State.modTeam, State.modCluster, State.cluster, Tab.get_set_same, Option.getD_some, Cluster.shell, List.map_map]
      congr 1
      apply List.map_congr_left
      intro t _
      simp only [Function.comp_apply]
      split <;> simp [hf]
    · simp [State.modTeam, State.modCluster, State.cluster, Tab.get_set_other _ _ hq]
  cores d _ := rfl
  core := rfl
  grps h _ := rfl
  wgs := rfl

/-- A store of an issue, in a state that translates as the issue's does. -/
theorem Iss.store_stored (x : Iss) (s : State) (sp : Space) (a : Nat) (bs : List Byte) (h : s.skin = x.s.skin) :
    Stored s (x.store s sp a bs) (x.puts sp a bs) := by
  have g : Stored s (s.glWrite x.wg.ctx a bs) ((bs.zipIdx).filterMap (fun e => (x.s.place x.wg.ctx .w (a + e.2)).map (fun p => (p, e.1)))) := by
    have := Stored.glWrite s x.wg.ctx a bs
    unfold State.putsAt at this
    simpa only [State.place_skin h] using this
  cases sp with
  | gl => exact g
  | pv => exact g
  | sp =>
    have := Stored.spWrite s x.core x.wg.uid a bs
    unfold Iss.puts Iss.place
    simp only [Option.map_some, List.filterMap_eq_map']
    exact this
  | cl =>
    have := Stored.clWrite s x.clu x.wg.launch x.wg.team a bs
    unfold Iss.puts Iss.place
    simp only [Option.map_some, List.filterMap_eq_map']
    exact this

theorem Workgroup.shell_spWrite (w : Workgroup) (a : Nat) (bs : List Byte) : (w.spWrite a bs).shell = w.shell := rfl

theorem Iss.store_around (x : Iss) (s : State) (sp : Space) (a : Nat) (bs : List Byte) : Around s (x.store s sp a bs) x.core x.g := by
  cases sp with
  | gl => exact Around.glWrite _ _ _ _ _ _
  | pv => exact Around.glWrite _ _ _ _ _ _
  | sp => exact Around.modWg _ _ _ _ _ (fun w => w.shell_spWrite a bs)
  | cl => exact (Around.clUse _ _ _ _ _ _ _ _).trans (Around.modTeam _ _ _ _ _ _ _ (fun _ => rfl))

@[simp] theorem Iss.store_grp (x : Iss) (s : State) (sp : Space) (a : Nat) (bs : List Byte) (d h : Nat) : (x.store s sp a bs).grp d h = s.grp d h := by
  cases sp <;> simp only [Iss.store, Iss.modW, State.grp_glWrite, State.grp_modWg]
  have : (s.clWrite x.clu x.wg.launch x.wg.team a bs).cores = s.cores := s.cores_clUse _ _ _ _ _
  unfold State.grp State.core; rw [this]

/-! Accounts. -/

/-- A change of accounts, of quotas or of the marks of lines: no byte and nothing else. -/
structure Books (s t : State) : Prop where
  around : ∀ c g, Around s t c g
  byteAt : ∀ q, t.byteAt q = s.byteAt q
  cores  : t.cores = s.cores

theorem Books.refl (s : State) : Books s s := ⟨fun _ _ => Around.refl _ _ _, fun _ => rfl, rfl⟩
theorem Books.trans {s t u : State} (h : Books s t) (k : Books t u) : Books s u :=
  ⟨fun c g => (h.around c g).trans (k.around c g), fun q => (k.byteAt q).trans (h.byteAt q), k.cores.trans h.cores⟩
theorem Books.grp {s t : State} (h : Books s t) (c g : Nat) : t.grp c g = s.grp c g := by unfold State.grp State.core; rw [h.cores]

theorem Books.charge1 (s : State) (x p st n : Nat) : Books s (s.charge1 x p st n) := by
  unfold State.charge1
  split
  · exact Books.refl s
  · refine ⟨fun c g => ⟨?_, fun _ => rfl, fun _ _ => rfl, rfl, fun _ _ => rfl, rfl⟩, fun q => ?_, rfl⟩
    · simp only [State.skin, State.modCtx, Tab.upd, List.map_map]
      congr 1
      apply List.map_congr_left
      intro e _
      simp only [Function.comp_apply]
      split
      · simp only [Ctx.shell, List.map_map]
        congr 2
        apply List.map_congr_left
        intro f _
        simp only [Function.comp_apply]
        split <;> rfl
      · rfl
    · cases q <;> rfl

theorem Books.charge (s : State) (x p : Nat) (secs : List Nat) : Books s (s.charge x p secs) := by
  unfold State.charge
  generalize List.range 12 = ls
  induction ls generalizing s with
  | nil => exact Books.refl s
  | cons l r ih => exact (Books.charge1 _ _ _ _ _).trans (ih _)

theorem Books.arbs (s : State) (as : Tab Arb) : Books s { s with arbs := as } :=
  ⟨fun _ _ => ⟨rfl, fun _ => rfl, fun _ _ => rfl, rfl, fun _ _ => rfl, rfl⟩, fun q => by cases q <;> rfl, rfl⟩

theorem Books.request (s : State) (x p tc id : Nat) (secs : List Nat) : Books s (s.request x p tc id secs) := by
  unfold State.request
  generalize List.range 12 = ls
  induction ls generalizing s with
  | nil => exact Books.refl s
  | cons l r ih =>
    refine Books.trans ?_ (ih _)
    unfold State.request1
    simp only []
    split
    · exact Books.arbs _ _
    · exact Books.charge1 _ _ _ _ _

theorem Books.cleanBy (s : State) (f : Nat → Bool) : Books s (s.cleanBy f) := by
  unfold State.cleanBy
  split
  · exact Books.refl s
  · refine ⟨fun _ _ => ⟨?_, fun _ => rfl, fun _ _ => rfl, rfl, fun _ _ => rfl, rfl⟩, fun q => by cases q <;> rfl, rfl⟩
    simp [State.skin, Die.cleanWords]
theorem Iss.books_cleanLines (x : Iss) (s : State) (rs : List (Nat × Nat)) : Books s (x.cleanLines s rs) := by
  unfold Iss.cleanLines; split
  · exact Books.refl s
  · exact Books.cleanBy _ _
theorem Iss.books_ask (x : Iss) (s : State) (secs : List Nat) : Books s (x.ask s secs) := Books.request _ _ _ _ _ _
theorem Iss.books_charge (x : Iss) (s : State) (sp : Space) (mir : Bool) (a : Acc) (n : Nat) (as : List Nat) : Books s (x.charge s sp mir a n as) := Books.request _ _ _ _ _ _
theorem State.books_glClean (s : State) (x va n : Nat) : Books s (s.glClean x va n) := by
  unfold State.glClean; split
  · exact Books.refl s
  · exact Books.cleanBy _ _

/-! The end of an issue whose effect is more than a destination. -/

/-- An issue that is done, in the state r.s with the group g0 and some lanes left: it completes, and what the end of an issue changes besides. -/
theorem Iss.completes {i : Instr} {c : Ctl} {s : State} {x : Iss} (body : Iss → Eff) (he : ∀ s, exec i s = issued i c body s) (hx : Issues i c s x)
    (r : Res) (hb : body x.popped = .ok r) (g0 : Group) (hg : r.s.grp x.core x.g = some g0) (hf : advance g0.fr x.cur.pc r.mv ≠ []) :
    ∃ t y, Leads i s t ∧ t.grp x.core x.g = some y ∧ y.bare = g0.bare ∧ (∀ q l, y.reg q l = g0.reg q l) ∧ y.vfl = g0.vfl
      ∧ y.fr = advance g0.fr x.cur.pc r.mv ∧ y.status = r.st.getD (.stalled (stallOf x.c)) ∧ Quiet r.s t x.core x.g
      ∧ y.demoted = (match x.i with | .yield _ => some x.next | _ => none) := by
  refine ⟨x.finish r, g0.after x r (x.wg.halt.isSome && x.wg.handler != some x.gr.uid), ?_, x.finish_grp r g0 hg hf, by simp,
    fun q l => (Group.sameRegs_after _ _ _ _).reg q l, rfl, rfl, rfl, x.finish_quiet r r.s g0 (Quiet.refl _ _ _) hg hf, rfl⟩
  unfold Leads
  rw [he, issued_go body hx.1 hx.2.1, hb]
  simp only [Iss.conclude]

/-- An instruction that pops nothing. -/
theorem Iss.popped_none {x : Iss} (h : popOf x.i = none) : x.popped = x := by unfold Iss.popped; rw [h]

/-- No lane fails a test. -/
theorem failing_none {ls : List (Nat × Nat)} {p : Nat → Nat → Bool} (h : ∀ e ∈ ls, p e.1 e.2 = false) : failing ls p = none := by
  unfold failing
  have : ls.filter (fun e => p e.1 e.2) = [] := List.filter_eq_nil_iff.mpr (fun e he => by simp [h e he])
  rw [this]

/-- The checks of translation pass where every access translates. -/
theorem Iss.checkTr_none (x : Iss) (accs : List Acc) (ls : List (Nat × Nat)) (h : ∀ e ∈ ls, ∀ c ∈ accs, ∃ p k, x.s.translate x.wg.ctx c e.2 = .pa p k) : x.checkTr accs ls = none := by
  have g : ∀ e ∈ ls, ∀ c ∈ accs, ∀ r : Tr, (∀ p k, r ≠ .pa p k) → (x.s.translate x.wg.ctx c e.2 == r) = false := by
    intro e he c hc r hr
    obtain ⟨p, k, hp⟩ := h e he c hc
    rw [hp, beq_eq_false_iff_ne]
    exact fun e => hr p k e.symm
  unfold Iss.checkTr
  rw [failing_none (fun e he => ?_), failing_none (fun e he => ?_), failing_none (fun e he => ?_)]
  all_goals
    rw [List.any_eq_false]; intro c hc; rw [g e he c hc _ (by simp)]; simp

/-- Lanes that store one after another. -/
theorem Iss.fold_stored (x : Iss) (f : State → Nat → State) (ws : Nat → List (Byt × Byte)) (ls : List Nat)
   (h : ∀ s l, s.skin = x.s.skin → l ∈ ls → Stored s (f s l) (ws l) ∧ Around s (f s l) x.core x.g ∧ (f s l).grp x.core x.g = s.grp x.core x.g) (s : State) (hs : s.skin = x.s.skin) :
   Stored s (ls.foldl f s) (ls.flatMap ws) ∧ Around s (ls.foldl f s) x.core x.g ∧ (ls.foldl f s).grp x.core x.g = s.grp x.core x.g := by
  induction ls generalizing s with
  | nil => exact ⟨Stored.nil (fun _ => rfl), Around.refl _ _ _, rfl⟩
  | cons l r ih =>
    obtain ⟨a, b, c⟩ := h s l hs List.mem_cons_self
    obtain ⟨a', b', c'⟩ := ih (fun s l hs hl => h s l hs (List.mem_cons_of_mem _ hl)) (f s l) (b.rest.trans hs)
    exact ⟨a.append a', b.trans b', c'.trans c⟩

end Sys2Proof.Machine
end

