-- ==== Sys2Proof/Laws/Goes.lean ====
section
/-! SUPPORT. Issues that go on from a state that their own effect makes, that wait, and that trap: how Goes, Waits and Traps follow from a body's answer. -/
namespace Sys2Proof.Machine
open Sys2Proof

/-- An answer whose lanes go on gives GoesBy. -/
theorem goesBy_of {i : Instr} {c : Ctl} {s : State} {x : Iss} (body : Iss → Eff) (he : ∀ s, exec i s = issued i c body s) (hx : Issues i c s x)
    (m m' : State) (h : Group → Group) (g0 : Group) (hb : body x.popped = .ok { s := m', mv := x.popped.thru }) (hg : m'.grp x.core x.g = some g0)
    (hbare : g0.bare = (h x.gr).bare) (hreg : ∀ r l, l < 64 → g0.reg r l = (h x.gr).reg r l) (hv : g0.vfl = x.gr.vfl) (hfr : g0.fr = x.gr.fr)
    (hq : Quiet m m' x.core x.g) : GoesBy i s x m h := by
  have hth : x.popped.thru = x.thru := by simp [Iss.thru, Iss.next]
  obtain ⟨hi, -, hc⟩ := State.issue_some hx.1
  obtain ⟨t, y, hl, hy', h1, h2, h3, h4, h5, h6, -⟩ := Iss.completes body he hx _ hb g0 hg (by rw [hth]; exact x.advance_thru _ _ hx.2.2)
  have hq' : Quiet m t x.core x.g := hq.trans h6
  exact ⟨t, y, hl, hy', h1.trans hbare, fun r l hl => (h2 r l).trans (hreg r l hl), h3.trans hv, ⟨by rw [h4, hfr]; simp only [hth], h5⟩, hq', hq'.bytes⟩

/-- The same where the body's state is the one named and the group is untouched. -/
theorem goes_of {i : Instr} {c : Ctl} {s : State} {x : Iss} (body : Iss → Eff) (he : ∀ s, exec i s = issued i c body s) (hx : Issues i c s x)
    (m m' : State) (hb : body x.popped = .ok { s := m', mv := x.popped.thru }) (hg : m'.grp x.core x.g = s.grp x.core x.g)
    (hq : Quiet m m' x.core x.g) : Goes i s x m := by
  obtain ⟨-, -, -, -, h, -⟩ := State.issue_some hx.1
  exact goesBy_of body he hx m m' id x.gr hb (hg.trans h) rfl (fun _ _ _ => rfl) rfl rfl hq

theorem Iss.command_zero {x : Iss} (f : Iss → Eff) (h : x.act = 0) : x.command f = .ok { s := x.s, mv := x.thru } := by
  unfold Iss.command; rw [if_pos h]; rfl
theorem Iss.command_act {x : Iss} (f : Iss → Eff) (h : x.act ≠ 0) : x.command f = f x := by unfold Iss.command; rw [if_neg h]

/-- A command of a group without an active, guard-true lane only goes on (R323). -/
theorem commands_of {i : Instr} {c : Ctl} {Q : State → Iss → Prop} (f : Iss → Eff) (he : ∀ s, exec i s = issued i c (fun x => x.command f) s)
    (h : ∀ s x, Issues i c s x → x.act ≠ 0 → x.popped.command f = f x.popped → Q s x) : Commands i c Q := by
  intro s x hx
  obtain ⟨hs, -, -, -, hg, -⟩ := State.issue_some hx.1
  refine ⟨fun h0 => goes_of (fun x => x.command f) he hx s x.popped.s (Iss.command_zero f (by simpa using h0)) (by simp [hs]) ?_,
    fun h0 => h s x hx h0 (Iss.command_act f (by simpa using h0))⟩
  have := x.popped_quiet
  rwa [hs] at this

/-- A trap of the body. -/
theorem traps_of {i : Instr} {c : Ctl} {s : State} {x : Iss} (body : Iss → Eff) (he : ∀ s, exec i s = issued i c body s) (hx : Issues i c s x) (t : TrapInfo)
    (hb : body x.popped = .trap t) : Traps i s x t := by
  unfold Traps; rw [he, issued_go body hx.1 hx.2.1, hb]; rfl

/-- A stall of the body. -/
theorem waits_of {i : Instr} {c : Ctl} {s : State} {x : Iss} (body : Iss → Eff) (he : ∀ s, exec i s = issued i c body s) (hx : Issues i c s x)
    (hb : body x.popped = .wait) : Waits i s := by
  unfold Waits Leads; rw [he, issued_go body hx.1 hx.2.1, hb]; rfl

end Sys2Proof.Machine
end

