-- ==== Sys2Proof/Laws/Weak.lean ====
section
/-! SUPPORT. What a byte put at a location does, and which turns are recorded. -/
namespace Sys2Proof.Machine
open Sys2Proof

/-- A byte put at a location changes neither the tables nor the maps. -/
@[simp] theorem State.putByte_ctxs (s : State) (l : EvLoc) (b : Byte) : (s.putByte l b).ctxs = s.ctxs := by unfold State.putByte; split <;> rfl
@[simp] theorem State.putByte_dies (s : State) (l : EvLoc) (b : Byte) : (s.putByte l b).dies = s.dies := by unfold State.putByte; split <;> rfl
@[simp] theorem State.putByte_agenda (s : State) (l : EvLoc) (b : Byte) : (s.putByte l b).agenda = s.agenda := by unfold State.putByte; split <;> rfl
@[simp] theorem State.putByte_exe (s : State) (l : EvLoc) (b : Byte) : (s.putByte l b).exe = s.exe := by unfold State.putByte; split <;> rfl
@[simp] theorem State.putByte_hbmKey (s : State) (l : EvLoc) (b : Byte) : (s.putByte l b).hbmKey = s.hbmKey := by unfold State.putByte; split <;> rfl

/-- HBM keeps its canonical form, and reads as before but at the location. -/
theorem State.putByte_hbm_wf (s : State) (l : EvLoc) (b : Byte) (h : Mem.wf s.hbm = true) : Mem.wf (s.putByte l b).hbm = true := by
  unfold State.putByte
  split
  · exact Mem.wf_put _ _ _ h
  all_goals exact h
theorem State.putByte_hbm (s : State) (l : EvLoc) (b : Byte) (a : Nat) :
    Mem.get (s.putByte l b).hbm a = if l.store = .gl ∧ a = l.at_ then b else Mem.get s.hbm a := by
  cases l with
  | mk st n =>
    cases st with
    | gl => simp only [State.putByte, true_and]; exact Mem.get_put _ _ _ _
    | _ => simp only [State.putByte, reduceCtorEq, false_and, if_false]; try rfl

/-- A turn that is neither weak nor the start of a record: without a record it is the turn alone. -/
theorem State.turn_plain (s : State) (h : s.exe = none) (c : Nat) (sl : Slot) : s.turn (.issue c sl) = s.take (.issue c sl) := by
  simp only [State.turn, h]
theorem State.turn_event (s : State) (h : s.exe = none) (i : Instr) : s.turn (.event i) = s.take (.event i) := by
  simp only [State.turn, h]

end Sys2Proof.Machine
end

