-- ==== Sys2Proof/Tests/Slice0.lean ====
section
/-! SUPPORT. Own tests: words that the encodings of the spec give, ill-formed terms, results that the spec works out, and for every statement about what happens
under hypotheses a state and operands that meet them. -/
namespace Sys2Proof.Tests
open Sys2Proof Sys2Proof.Machine
set_option Elab.async false

/-! Decoding (R102 to R115): words put together from the encoding tables of spec/, each with the instruction that it stands for. -/

/-- Control bits of the words below: guard p7, no other bit set. -/
def c (len : Len) (stl : Fin 16) : Ctl := { len := len, stl := stl, sbw := false, nf := false, pg := 7, pn := false, q := false }
/-- The word of n bytes decodes to the instruction, which is well-formed, and the encoder gives the word back. -/
def reads (r : Nat × Nat × Instr) : Bool :=
  (match decode (toLE r.1 r.2.1) with | .ok i => decide (i = r.2.2) | .error _ => false) && decide (encode r.2.2 = toLE r.1 r.2.1) && r.2.2.wf
/-- Each row does. -/
def readsAll (rs : List (Nat × Nat × Instr)) : Bool := rs.all reads

/-- R271 to R284. -/
theorem test_decode_control :
    (readsAll [(8, 0x38204, .nop (c .w64 1)),
      (8, 0x3FFFFFFE38208, .bra (c .w64 1) 0xFFFFFFE 3),
      (8, 0x1900141093820C, .brcNear (c .w64 1) 1 true 16 20 25),
      (16, 0x190014FFFFFF00000000000023820E, .brcFar (c .w128 1) 2 false 0xFFFFFF00 20 25),
      (8, 0x1E000100038210, .jmpi (c .w64 1) (.v 4) 30),
      (8, 0xA003201038214, .callNear (c .w64 1) 16 0x32 0xA),
      (16, 0x20001000100000000000000038216, .callFar (c .w128 1) 0x10000 1 2),
      (8, 0x38218, .ret (c .w64 1)),
      (8, 0x3821C, .exit (c .w64 1)),
      (8, 0x38220, .yield (c .w64 1)),
      (8, 0x40C0038224, .bkoff (c .w64 1) (.s 3)),
      (8, 0x100004100038228, .shape (c .w64 1) 1 4)]
    && readsAll [(8, 0x20006014003822C, .spawn (c .w64 1) 2 (.v 5) (.v 6)),
      (8, 0x138830, .elect (c .w64 4) 1),
      (8, 0x40238834, .voteAny (c .w64 4) 2 1),
      (8, 0x4000040238834, .voteAll (c .w64 4) 2 1),
      (8, 0x8000040238834, .voteUni (c .w64 4) 2 1),
      (8, 0xC000050538834, .voteBallot (c .w64 4) 5 1),
      (8, 0x2204000000038238, .getsr (c .w64 1) true 0x22 (.v 0)),
      (8, 0x21000040C003823C, .setsr (c .w64 1) false 0x21 (.s 3))]) = true := by decide +kernel

/-- R285 to R294. -/
theorem test_decode_integer :
    (readsAll [(8, 0xB01554040438840, .iadd (c .w64 4) { ty := .u64, sat := true } (.v 4) (.s 1) (.k 5)),
      (12, 0x4D0401FF0040338845, .isub (c .w96 4) { ty := .i16x2, sat := false } (.v 3) (.v 1) (.imm32 77)),
      (8, 0xD00020040338848, .imulLo (c .w64 4) { ty := .i8x4, sat := true } (.v 3) (.v 1) (.v 2)),
      (8, 0x104020040338848, .imulHi (c .w64 4) .u32 (.v 3) (.v 1) (.v 2)),
      (12, 0x109000002004033884D, .imad (c .w96 4) { ty := .i32, sat := false } (.v 3) (.v 1) (.v 2) (.s 9)),
      (8, 0x800020040338250, .idiv (c .w64 1) { ty := .i32, sat := true } (.v 3) (.v 1) (.v 2)),
      (8, 0x100020040338254, .irem (c .w64 1) { ty := .u32, sat := false } (.v 3) (.v 1) (.v 2)),
      (8, 0x20040338858, .imin (c .w64 4) .i32 (.v 3) (.v 1) (.v 2)),
      (8, 0x40182525433885C, .imax (c .w64 4) .i16x2 (.o 3) (.q 1) (.h 2)),
      (8, 0x800000040338860, .iabs (c .w64 4) { ty := .i32, sat := true } (.v 3) (.v 1)),
      (8, 0x201024050338864, .and (c .w64 4) .i64 (.s 3) (.s 1) (.s 2)),
      (8, 0x201024050338868, .or (c .w64 4) .i64 (.s 3) (.s 1) (.s 2))]
    && readsAll [(8, 0x20102405033886C, .xor (c .w64 4) .i64 (.s 3) (.s 1) (.s 2)),
      (8, 0x40338870, .not (c .w64 4) .i32 (.v 3) (.v 1)),
      (8, 0x1530040338874, .shl (c .w64 4) .i32 (.v 3) (.v 1) (.k 3)),
      (8, 0x1530040338878, .shr (c .w64 4) .i32 (.v 3) (.v 1) (.k 3)),
      (8, 0x153004033887C, .sar (c .w64 4) .i32 (.v 3) (.v 1) (.k 3)),
      (8, 0x1530040338880, .rot (c .w64 4) .i32 (.v 3) (.v 1) (.k 3)),
      (12, 0x8040001FF0040238885, .bfx (c .w96 4) .i32 (.v 2) (.v 1) (.imm32 0x804)),
      (16, 0x804000001FF000003004023888A, .bfi (c .w128 4) .i32 (.v 2) (.v 1) (.v 3) (.imm32 0x804)),
      (8, 0x50000004023888C, .bcntPop (c .w64 4) .i8x4 (.v 2) (.v 1)),
      (8, 0x50400004023888C, .bcntClz (c .w64 4) .i8x4 (.v 2) (.v 1)),
      (8, 0x50800004023888C, .bcntCtz (c .w64 4) .i8x4 (.v 2) (.v 1)),
      (8, 0x2100030080138890, .icmp (c .w64 4) .u32 .lt 1 (.v 2) (.v 3))]
    && readsAll [(8, 0xB000020040438894, .sel (c .w64 4) .i32 3 true (.v 4) (.v 1) (.v 2)),
      (16, 0x123456789ABC3000097FC043889A, .lea (c .w128 4) .i32 3 (.v 4) (.imm64 0x123456789ABC) (.v 9)),
      (16, 0x123456789ABC0200007FC043849E, .mov (c .w128 2) .i64 (.v 4) (.imm64 0x123456789ABC))]) = true := by decide +kernel

/-- R295 to R299. -/
theorem test_decode_lanes :
    (readsAll [(8, 0x100300801388A0, .plop (c .w64 4) .orn 1 2 3),
      (8, 0x504388A4, .pmovTom (c .w64 4) 4 1),
      (8, 0x40041001388A4, .pmovFrm (c .w64 4) 1 (.s 4)),
      (12, 0x550004007FC01388A5, .pmovFrm (c .w96 4) 1 (.imm32 0x55)),
      (12, 0x800010007FC01388A5, .pmovFrv (c .w96 4) 1 (.imm32 0x80)),
      (8, 0x80000001388A4, .pmovPad (c .w64 4) 1),
      (8, 0xC0000402388A4, .pmovTov (c .w64 4) (.v 2) 1),
      (8, 0x100000801388A4, .pmovFrv (c .w64 4) 1 (.v 2)),
      (8, 0x15100403382A8, .shflIdx (c .w64 1) (.v 3) (.v 1) (.k 1)),
      (8, 0x55100403382A8, .shflUp (c .w64 1) (.v 3) (.v 1) (.k 1)),
      (8, 0x95100403382A8, .shflDown (c .w64 1) (.v 3) (.v 1) (.k 1)),
      (8, 0xD5100403382A8, .shflXor (c .w64 1) (.v 3) (.v 1) (.k 1)),
      (8, 0x1280000402382AC, .lscan (c .w64 1) (.int .max { ty := .u32, sat := false }) true (.v 2) (.v 1)),
      (8, 0x88180000402382AC, .lscan (c .w64 1) (.fadd .rz .ftz) false (.v 2) (.v 1))]
    && readsAll [(8, 0x140000506382B0, .lred (c .w64 1) (.int .xor { ty := .i32, sat := false }) (.s 6) (.v 1))]) = true := by decide +kernel

/-- R300 to R320. -/
theorem test_decode_float :
    (readsAll [(8, 0x5100020040338CC0, .fadd (c .w64 6) { ty := .f16, rnd := .ru, sat := .sat } (.v 3) (.v 1) (.v 2)),
      (8, 0x5100020040338CC4, .fsub (c .w64 6) { ty := .f16, rnd := .ru, sat := .sat } (.v 3) (.v 1) (.v 2)),
      (8, 0x5100020040338CC8, .fmul (c .w64 6) { ty := .f16, rnd := .ru, sat := .sat } (.v 3) (.v 1) (.v 2)),
      (12, 0x30001720040438CCD, .ffma (c .w96 6) { ty := .f32, rnd := .rn, sat := .nosat } (.v 4) (.v 1) (.k 34) (.v 3)),
      (8, 0x8200020040338CD0, .fmin (c .w64 6) .bf16 .ftz (.v 3) (.v 1) (.v 2)),
      (8, 0x8200020040338CD4, .fmax (c .w64 6) .bf16 .ftz (.v 3) (.v 1) (.v 2)),
      (8, 0x40238CD8, .fabsAbs (c .w64 6) .f32 .nosat (.v 2) (.v 1)),
      (8, 0x4000040238CD8, .fabsNeg (c .w64 6) .f32 .nosat (.v 2) (.v 1)),
      (8, 0x8018020040138CDC, .fcmp (c .w64 6) .un true 1 (.v 1) (.v 2)),
      (8, 0xE8000000402382E0, .fsfuRcp (c .w64 1) { ty := .f32, rnd := .dyn, sat := .satftz } (.v 2) (.v 1)),
      (8, 0xE8040000402382E0, .fsfuRsqrt (c .w64 1) { ty := .f32, rnd := .dyn, sat := .satftz } (.v 2) (.v 1)),
      (8, 0xE8080000402382E0, .fsfuSqrt (c .w64 1) { ty := .f32, rnd := .dyn, sat := .satftz } (.v 2) (.v 1))]
    && readsAll [(8, 0xE80C0000402382E0, .fsfuExp2 (c .w64 1) { ty := .f32, rnd := .dyn, sat := .satftz } (.v 2) (.v 1)),
      (8, 0xE8100000402382E0, .fsfuLog2 (c .w64 1) { ty := .f32, rnd := .dyn, sat := .satftz } (.v 2) (.v 1)),
      (8, 0xE8140000402382E0, .fsfuSinpi (c .w64 1) { ty := .f32, rnd := .dyn, sat := .satftz } (.v 2) (.v 1)),
      (8, 0xE8180000402382E0, .fsfuCospi (c .w64 1) { ty := .f32, rnd := .dyn, sat := .satftz } (.v 2) (.v 1)),
      (8, 0x201C0200403382E0, .fsfuDiv (c .w64 1) { ty := .f32, rnd := .rna, sat := .nosat } (.v 3) (.v 1) (.v 2)),
      (12, 0x402000200403382E5, .fdotX2 (c .w96 1) { ty := .bf16, rnd := .rn, sat := .nosat } (.v 3) (.v 1) (.v 2) (.v 4)),
      (12, 0x401040801803382E5, .fdotX4 (c .w96 1) { ty := .f16, rnd := .rn, sat := .nosat } (.v 3) (.v 6) (.v 8) (.v 4)),
      (8, 0x185C000040238CE8, .fcvt (c .w64 6) .e8m0 .e2m1 .rd .nosat (.v 2) (.v 1)),
      (8, 0x914000040238CEC, .i2f (c .w64 6) .f16 .u8 .rz .nosat (.v 2) (.v 1)),
      (8, 0x8608000040238CF0, .f2i (c .w64 6) .i4 .bf16 .rn true (.v 2) (.v 1)),
      (8, 0x100000040238CF4, .fclassMask (c .w64 6) .f16 (.v 2) (.v 1)),
      (12, 0x2010005FF0040138CF5, .fclassTest (c .w96 6) .f32 1 (.v 1) (.imm32 0x201))]
    && readsAll [(8, 0x1C000000001382F8, .flagsTest (c .w64 1) 0x1C 1),
      (8, 0x1F040000000382F8, .flagsClr (c .w64 1) 0x1F),
      (8, 0x1080000000382F8, .flagsSet (c .w64 1) 0x01),
      (8, 0xC0000104382F8, .flagsGor (c .w64 1) 4),
      (8, 0x4005050040238CFC, .fpack (c .w64 6) .e4m3 .rn true (.v 2) (.v 1) 5),
      (8, 0x15050080338D00, .funpk (c .w64 6) .cb2 .rn .nosat (.v 3) (.v 2) (.s 5))]) = true := by decide +kernel

/-- R321 to R345. -/
theorem test_decode_memory :
    (readsAll [(12, 0xFFFFF82C26000040C0138321, .ld (c .w96 1) .cl .b16 true { scope := .dev, ord := .acq, rmt := true, ofs := 0xFFFFF8 } (.v 1) (.s 3)),
      (12, 0x10130F00020040038325, .st (c .w96 1) .pv .b64 { scope := .die, ord := .rel, rmt := false, ofs := 16 } (.v 1) (.v 2)),
      (8, 0x2900004080238328, .ldf (c .w64 1) true 0 (.v 2) (.s 2)),
      (12, 0x800090001408003832D, .ste (c .w96 1) 8 (.s 2) (.v 1)),
      (8, 0x3100004080038330, .tag (c .w64 1) .b128 true 0 (.s 2)),
      (8, 0x824014040238334, .atom (c .w64 1) .bfadd .gl .b32 false { scope := .grp, ord := .rlx, rmt := false, ofs := 0 } (.v 2) (.s 1) (.v 1)),
      (12, 0x201A2D05034050238335, .atom (c .w96 1) .min .sp .b64 true { scope := .clu, ord := .ar, rmt := false, ofs := 32 } (.s 2) (.s 1) (.s 3)),
      (16, 0x400000000081C034040238336, .atomCas (c .w128 1) .gl .b32 { scope := .grp, ord := .rlx, rmt := false, ofs := 0 } (.v 2) (.s 1) (.v 3) (.v 4)),
      (8, 0x820014040038338, .red (c .w64 1) .fadd .gl .b32 false { scope := .grp, ord := .rlx, rmt := false, ofs := 0 } (.s 1) (.v 1)),
      (12, 0x3C080000000003833D, .fence (c .w96 1) .dev .ar true),
      (8, 0x3836C, .mfence (c .w64 1)),
      (16, 0x106000000001101054100038342, .swinit (c .w128 1) .sp { scope := .grp, ord := .rlx, rmt := false, ofs := 0 } (.s 4) (.s 5) (.s 6))]
    && readsAll [(12, 0x1001101FF4100038345, .swarrAny (c .w96 1) .sp { scope := .grp, ord := .rlx, rmt := false, ofs := 0 } (.s 4) (.imm32 256)),
      (16, 0x107000000153101064100038346, .swarrGen (c .w128 1) .sp { scope := .sys, ord := .rel, rmt := false, ofs := 0 } (.s 4) (.s 6) (.s 7)),
      (8, 0x1101054100038348, .swwait (c .w64 1) .sp { scope := .core, ord := .acq, rmt := false, ofs := 0 } (.s 4) (.s 5)),
      (16, 0x106000040002B01054100038352, .copy (c .w128 1) .tm .dcl 0x40 4 5 6),
      (8, 0x801054100038354, .copyl (c .w64 1) 4 5),
      (16, 0x8000000003080105410003834E, .fetch (c .w128 1) 3 4 5 0x80),
      (12, 0x100000801054100038359, .residPin (c .w96 1) 0x100 4 5),
      (8, 0x805050000038358, .residRel (c .w64 1) 5),
      (8, 0x809050010838358, .residStat (c .w64 1) 8 5),
      (8, 0x480000001043835C, .qctlOcc (c .w64 1) 2 (.s 4)),
      (8, 0x480400001043835C, .qctlPerm (c .w64 1) 2 (.s 4)),
      (8, 0xE80800000003835C, .qctlReset (c .w64 1) 7)]
    && readsAll [(12, 0x1000B000C7FC0038361, .spill (c .w96 1) 12 (.imm32 0x100)),
      (8, 0xB000040C0C38364, .fill (c .w64 1) 12 (.s 3)),
      (12, 0x40000800004100038369, .pref (c .w96 1) 64 (.s 4))]) = true := by decide +kernel

/-- R346 to R369. -/
theorem test_decode_oven :
    (readsAll [(12, 0x20701054100038381, .rkld (c .w96 1) .tm true 2 4 5),
      (8, 0x38384, .rkswKeep (c .w64 1)),
      (8, 0x100000000038384, .rkswDrop (c .w64 1)),
      (16, 0x1808000103000201050106410003838A, .mmul (c .w128 1) { space := .sp, res := true, af := 3, ta := 1, tb := 2, a := 4, b := 6, s := 1, m := 8, n := 48 }),
      (16, 0x402000100000201080106410003838E, .mtopk (c .w128 1) { space := .gl, res := false, af := 0, ta := 1, tb := 2, a := 4, b := 6, s := 1, m := 2, n := 8 } true),
      (16, 0x600001000002010201054100038392, .mnormA (c .w128 1) .sp 1 2 4 5 1 96),
      (16, 0xC00002000000010101054100038392, .mnormB (c .w128 1) .gl 1 4 5 2 192),
      (12, 0x30000000000000000038395, .aalloc (c .w96 1) 3),
      (8, 0x4004100038394, .aallocAny (c .w64 1) 4),
      (12, 0xB0000000000000000038399, .afree (c .w96 1) 11),
      (8, 0x105410003839C, .aband (c .w64 1) 4 5),
      (12, 0x555010641000383A1, .adrainNone (c .w96 1) .sp true .ru .sat 5 4 6)]
    && readsAll [(12, 0x555050641000383A1, .adrainP24 (c .w96 1) .sp true .ru .sat 5 4 6),
      (12, 0x555090641000383A1, .adrainP48 (c .w96 1) .sp true .ru .sat 5 4 6),
      (12, 0x300000001000041000383A5, .aload (c .w96 1) true false 3 4),
      (12, 0x300000002000041000383A5, .aload (c .w96 1) false true 3 4),
      (12, 0x300000000000000000383A9, .azero (c .w96 1) 3),
      (16, 0x85800000000000041000383AE, .wrd (c .w128 1) 4 88 8),
      (12, 0x300000000010541000383B1, .wmerge (c .w96 1) 3 4 5),
      (12, 0x300000000000000002383BD, .astat (c .w96 1) (.v 2) 3),
      (16, 0x400000000000010541000383B6, .selkSum (c .w128 1) 4 5 0x40),
      (16, 0xFFFFFFFF0000000001010541000383B6, .selkExp (c .w128 1) 4 5 0xFFFFFFFF),
      (16, 0x400000000001010541000383BA, .sortr (c .w128 1) true 4 5 0x40)]) = true := by decide +kernel

/-- R370 to R393. -/
theorem test_decode_engines :
    (readsAll [(12, 0x502000041000383C1, .tidsetSet (c .w96 1) .cl 5 4),
      (12, 0x500040000000383C1, .tidsetClr (c .w96 1) .gl 5),
      (12, 0x501000041000383C5, .tidget (c .w96 1) .sp 5 4),
      (12, 0x300000041000383C9, .cxdefOne (c .w96 1) 0 3 4),
      (12, 0x100040300040041000383C9, .cxdefAnd (c .w96 1) 1 3 4 4),
      (12, 0x100040300080041000383C9, .cxdefOr (c .w96 1) 1 3 4 4),
      (12, 0x300000000010641400383D1, .cxsplit (c .w96 1) 3 5 6),
      (16, 0xFFFFFFFE0200123400000000008383CE, .cxfill (c .w128 1) 2 8 0x1234 0xFFFFFFFE),
      (12, 0x41000383D5, .cxcurSave (c .w96 1) 0 4),
      (12, 0x100000000040041000383D5, .cxcurLoad (c .w96 1) 1 4),
      (12, 0x80000106383D5, .cxcurInfo (c .w96 1) 0 6),
      (12, 0xC0000000383D5, .cxcurDrop (c .w96 1) 0)]
    && readsAll [(8, 0x13000041000383D8, .walkdef (c .w64 1) 3 .sp 4),
      (16, 0x400000000A03000601000383DE, .walk (c .w128 1) 3 (.v 4) (.v 6) (.v 10) 0x40),
      (16, 0x800000000603000601000383E2, .ired (c .w128 1) true true 6 (.v 4) (.v 6) 0x80),
      (8, 0x60000000000383E4, .engwait (c .w64 1) 0x60),
      (8, 0x54400383E8, .plev (c .w64 1) (.k 1)),
      (8, 0x5000000000383F0, .trap (c .w64 1) 5),
      (8, 0x383FC, .brk (c .w64 1)),
      (8, 0x383F4, .rft (c .w64 1)),
      (8, 0x1000000104383F8, .sysRd (c .w64 1) 1 4),
      (8, 0x40041400383F8, .sysWr (c .w64 1) 0 (.s 5))]) = true := by decide +kernel

/-! A small state in which one instruction issues. -/

/-- A context with a page of code and a page of data. -/
def labCtx : Ctx := { loadCtx with
  pages := [{ va := loadAt, size := 4096, pa := 0, r := true, w := false, x := true, key := 0 },
            { va := 0x20000, size := 4096, pa := 0x1000, r := true, w := true, x := false, key := 0 }] }
/-- The record of a workgroup of one group: scalar queues of two slots, 16 tiles, the scratchpad, 64 KiB of cluster SRAM and 256 bytes of private memory per lane. -/
def labRec (role : Role) (width : Nat) : LRec := { loadRec role width with
  clsram := 65536, priv := 256, queues := List.replicate 8 (1, 0, 2), spawns := List.replicate 4 { entry := 0, pri := 0, role := .vector, vregs := 8 } }
/-- One group of width 8, or 32 where the instruction needs it, about to issue on core 0 with every lane active, every register 0 and every
predicate true, and one entry in each queue. -/
def lab (i : Instr) : State :=
  let r := labRec (roleFor (some i)) (widthFor (some i))
  { State.reset with
    cores := [(0, { Core.empty with wgs := [(0, { loadWg r with priv := 0x20000, queues := List.replicate 8 ((Queue.fresh 1 0 2).push [0]) })], grps := [(0, { loadGroup (roleFor (some i)) (widthFor (some i)) with priv := 0x20000 })] })],
    clusters := [(0, { Cluster.empty with teams := [{ launch := 0, unit := 0, size := 65536, mem := [], poison := [], refs := 1 }] })],
    ctxs := [(0, labCtx)], launches := [(0, loadLaunch r)], nextId := 3,
    cur := some { core := 0, g := 0, pc := BitVec.ofNat 64 loadAt, pri := 0, mask := fullMask (widthFor (some i)) } }
/-- The same with other contents of the group, the workgroup, the core, the context, scalar registers, or a lane register in every lane. -/
def onG (f : Group → Group) (s : State) : State := s.modGrp 0 0 f
def onW (f : Workgroup → Workgroup) (s : State) : State := s.modWg 0 1 f
def onK (f : Core → Core) (s : State) : State := s.modCore 0 f
def onX (f : Ctx → Ctx) (s : State) : State := s.modCtx 0 f
def onS (vs : List (Nat × Nat)) : State → State := onG (fun g => vs.foldl (fun g e => g.setS e.1 (BitVec.ofNat 64 e.2)) g)
def onV (n : Nat) (f : Nat → Nat) : State → State := onG (fun g => (List.range g.width).foldl (fun g l => g.setV n l (BitVec.ofNat 32 (f l))) g)

/-- Issues, as a computation, of an instruction with the control bits of its word: what p says of the issue holds too. -/
def sees (i : Instr) (ct : Ctl) (s : State) (p : Iss → Bool) : Bool :=
  match s.issue i ct with
  | none => false
  | some x => decide (x.pre = .go) && x.cur.mask != 0 && p x

/-- What it computes. -/
theorem issues_of_sees {i : Instr} {ct : Ctl} {s : State} {p : Iss → Bool} (h : sees i ct s p = true) : ∃ x, Issues i ct s x ∧ p x = true := by
  unfold sees at h
  split at h
  · cases h
  · rename_i x hx
    simp only [Bool.and_eq_true, decide_eq_true_eq, bne_iff_ne, ne_eq] at h
    exact ⟨x, ⟨hx, h.1.1, h.1.2⟩, h.2⟩

/-! What the hypotheses of the statements say, as computations. -/

/-- An address of HBM. -/
def isPa : Tr → Bool | .pa _ _ => true | _ => false
theorem isPa_iff (t : Tr) : isPa t = true ↔ ∃ p k, t = .pa p k := by cases t <;> simp [isPa]
/-- An address that can be reached. -/
def isFine : Tr → Bool | .pa _ _ => true | .window _ _ _ => true | _ => false
theorem isFine_iff (t : Tr) : isFine t = true ↔ Tr.fine t := by cases t <;> simp [isFine, Tr.fine]
/-- Iss.sound. -/
def soundB (x : Iss) (sp : Space) (accs : List Acc) (n l a : Nat) : Bool :=
  decide (a % n = 0) && !x.outside sp l a n && (!inGlobal sp || accs.all (fun ac => isPa (x.s.translate x.wg.ctx ac a)))
    && (!accs.contains .r || (!x.poisonAt sp true a n && !x.poisonAt sp false a n))
theorem sound_of {x : Iss} {sp : Space} {accs : List Acc} {n l a : Nat} (h : soundB x sp accs n l a = true) : x.sound sp accs n l a := by
  simp only [soundB, Bool.and_eq_true, Bool.or_eq_true, Bool.not_eq_true', decide_eq_true_eq, List.all_eq_true] at h
  refine ⟨h.1.1.1, h.1.1.2, fun hg ac hc => ?_, fun hr mir => ?_⟩
  · rcases h.1.2 with h' | h'
    · rw [hg] at h'; cases h'
    · exact (isPa_iff _).1 (h' ac hc)
  · rcases h.2 with h' | h'
    · simp [hr] at h'
    · cases mir
      · exact h'.2
      · exact h'.1
/-- Iss.reach, Iss.wordFits, Iss.roomFor and State.near. -/
def reachB (x : Iss) (acc : Acc) (va n step : Nat) : Bool := (List.range (ceilDiv n step)).all (fun i => isFine (x.s.translate x.wg.ctx acc (va + step * i)))
def wordB (x : Iss) (w : Option Nat) : Bool := match w with | none => true | some a => decide (a % 16 = 0 ∧ a + 16 ≤ x.wg.rec_.scratch)
def roomB (x : Iss) (sp : BSpace) (rs : List (Nat × Nat)) : Bool :=
  match sp with | .gl => true | .sp => rs.all (fun r => decide (r.2 ≤ x.wg.rec_.scratch)) | .tm => rs.all (fun r => decide (r.2 ≤ 4096 * x.wg.rec_.tiles))
def nearB (s : State) (ctx : Nat) (a : Acc) (va n : Nat) : Bool := (List.range n).all (fun i => isPa (s.translate ctx a (va + i)))
theorem reach_of {x : Iss} {acc : Acc} {va n step : Nat} (h : reachB x acc va n step = true) : x.reach acc va n step := by
  intro i hi
  simp only [reachB, List.all_eq_true, List.mem_range] at h
  exact (isFine_iff _).1 (h i hi)
theorem near_of {s : State} {ctx : Nat} {a : Acc} {va n : Nat} (h : nearB s ctx a va n = true) : s.near ctx a va n := by
  intro i hi
  simp only [nearB, List.all_eq_true, List.mem_range] at h
  exact (isPa_iff _).1 (h i hi)
theorem word_of {x : Iss} {w : Option Nat} (h : wordB x w = true) : x.wordFits w := by
  cases w with
  | none => simp [Iss.wordFits]
  | some a => simpa [Iss.wordFits, wordB] using h
/-- Every item of a list. -/
def yes (bs : List Bool) : Bool := bs.all id

/-- Every instruction issues in the small state, with active, guard-true lanes: the one hypothesis of every statement about its effect. -/
def goes (i : Instr) : Bool := match encFields i with | some e => sees i e.c (lab i) (fun x => x.act != 0) | none => false
theorem witness_issues_control : [.nop (c .w64 1),
  .jmpi (c .w64 1) (.v 4) 30,
  .ret (c .w64 1),
  .exit (c .w64 1),
  .yield (c .w64 1),
  .bkoff (c .w64 1) (.s 3),
  .shape (c .w64 1) 1 4,
  .spawn (c .w64 1) 2 (.v 5) (.v 6),
  .elect (c .w64 4) 1,
  .voteAny (c .w64 4) 2 1,
  .voteAll (c .w64 4) 2 1,
  .voteUni (c .w64 4) 2 1,
  .voteBallot (c .w64 4) 5 1,
  .getsr (c .w64 1) true 0x22 (.v 0),
  .setsr (c .w64 1) false 0x21 (.s 3)].all goes = true := by decide +kernel
theorem witness_issues_integer : [.iadd (c .w64 4) { ty := .u64, sat := true } (.v 4) (.s 1) (.k 5),
  .isub (c .w96 4) { ty := .i16x2, sat := false } (.v 3) (.v 1) (.imm32 77),
  .imulLo (c .w64 4) { ty := .i8x4, sat := true } (.v 3) (.v 1) (.v 2),
  .imulHi (c .w64 4) .u32 (.v 3) (.v 1) (.v 2),
  .imad (c .w96 4) { ty := .i32, sat := false } (.v 3) (.v 1) (.v 2) (.s 9),
  .idiv (c .w64 1) { ty := .i32, sat := true } (.v 3) (.v 1) (.v 2),
  .irem (c .w64 1) { ty := .u32, sat := false } (.v 3) (.v 1) (.v 2),
  .imin (c .w64 4) .i32 (.v 3) (.v 1) (.v 2),
  .imax (c .w64 4) .i16x2 (.o 3) (.q 1) (.h 2),
  .iabs (c .w64 4) { ty := .i32, sat := true } (.v 3) (.v 1),
  .and (c .w64 4) .i64 (.s 3) (.s 1) (.s 2),
  .or (c .w64 4) .i64 (.s 3) (.s 1) (.s 2),
  .xor (c .w64 4) .i64 (.s 3) (.s 1) (.s 2),
  .not (c .w64 4) .i32 (.v 3) (.v 1),
  .shl (c .w64 4) .i32 (.v 3) (.v 1) (.k 3),
  .shr (c .w64 4) .i32 (.v 3) (.v 1) (.k 3),
  .sar (c .w64 4) .i32 (.v 3) (.v 1) (.k 3),
  .rot (c .w64 4) .i32 (.v 3) (.v 1) (.k 3),
  .bfx (c .w96 4) .i32 (.v 2) (.v 1) (.imm32 0x804),
  .bfi (c .w128 4) .i32 (.v 2) (.v 1) (.v 3) (.imm32 0x804),
  .bcntPop (c .w64 4) .i8x4 (.v 2) (.v 1),
  .bcntClz (c .w64 4) .i8x4 (.v 2) (.v 1),
  .bcntCtz (c .w64 4) .i8x4 (.v 2) (.v 1),
  .icmp (c .w64 4) .u32 .lt 1 (.v 2) (.v 3),
  .sel (c .w64 4) .i32 3 true (.v 4) (.v 1) (.v 2),
  .lea (c .w128 4) .i32 3 (.v 4) (.imm64 0x123456789ABC) (.v 9),
  .mov (c .w128 2) .i64 (.v 4) (.imm64 0x123456789ABC)].all goes = true := by decide +kernel
theorem witness_issues_lanes : [.plop (c .w64 4) .orn 1 2 3,
  .pmovTom (c .w64 4) 4 1,
  .pmovFrm (c .w64 4) 1 (.s 4),
  .pmovPad (c .w64 4) 1,
  .pmovTov (c .w64 4) (.v 2) 1,
  .pmovFrv (c .w64 4) 1 (.v 2),
  .shflIdx (c .w64 1) (.v 3) (.v 1) (.k 1),
  .shflUp (c .w64 1) (.v 3) (.v 1) (.k 1),
  .shflDown (c .w64 1) (.v 3) (.v 1) (.k 1),
  .shflXor (c .w64 1) (.v 3) (.v 1) (.k 1),
  .lscan (c .w64 1) (.int .max { ty := .u32, sat := false }) true (.v 2) (.v 1),
  .lscan (c .w64 1) (.fadd .rz .ftz) false (.v 2) (.v 1),
  .lred (c .w64 1) (.int .xor { ty := .i32, sat := false }) (.s 6) (.v 1)].all goes = true := by decide +kernel
theorem witness_issues_float : [.fadd (c .w64 6) { ty := .f16, rnd := .ru, sat := .sat } (.v 3) (.v 1) (.v 2),
  .fsub (c .w64 6) { ty := .f16, rnd := .ru, sat := .sat } (.v 3) (.v 1) (.v 2),
  .fmul (c .w64 6) { ty := .f16, rnd := .ru, sat := .sat } (.v 3) (.v 1) (.v 2),
  .ffma (c .w96 6) { ty := .f32, rnd := .rn, sat := .nosat } (.v 4) (.v 1) (.k 34) (.v 3),
  .fmin (c .w64 6) .bf16 .ftz (.v 3) (.v 1) (.v 2),
  .fmax (c .w64 6) .bf16 .ftz (.v 3) (.v 1) (.v 2),
  .fabsAbs (c .w64 6) .f32 .nosat (.v 2) (.v 1),
  .fabsNeg (c .w64 6) .f32 .nosat (.v 2) (.v 1),
  .fcmp (c .w64 6) .un true 1 (.v 1) (.v 2),
  .fsfuRcp (c .w64 1) { ty := .f32, rnd := .dyn, sat := .satftz } (.v 2) (.v 1),
  .fsfuRsqrt (c .w64 1) { ty := .f32, rnd := .dyn, sat := .satftz } (.v 2) (.v 1),
  .fsfuSqrt (c .w64 1) { ty := .f32, rnd := .dyn, sat := .satftz } (.v 2) (.v 1),
  .fsfuExp2 (c .w64 1) { ty := .f32, rnd := .dyn, sat := .satftz } (.v 2) (.v 1),
  .fsfuLog2 (c .w64 1) { ty := .f32, rnd := .dyn, sat := .satftz } (.v 2) (.v 1),
  .fsfuSinpi (c .w64 1) { ty := .f32, rnd := .dyn, sat := .satftz } (.v 2) (.v 1),
  .fsfuCospi (c .w64 1) { ty := .f32, rnd := .dyn, sat := .satftz } (.v 2) (.v 1),
  .fsfuDiv (c .w64 1) { ty := .f32, rnd := .rna, sat := .nosat } (.v 3) (.v 1) (.v 2),
  .fdotX2 (c .w96 1) { ty := .bf16, rnd := .rn, sat := .nosat } (.v 3) (.v 1) (.v 2) (.v 4),
  .fdotX4 (c .w96 1) { ty := .f16, rnd := .rn, sat := .nosat } (.v 3) (.v 6) (.v 8) (.v 4),
  .fcvt (c .w64 6) .e8m0 .e2m1 .rd .nosat (.v 2) (.v 1),
  .i2f (c .w64 6) .f16 .u8 .rz .nosat (.v 2) (.v 1),
  .f2i (c .w64 6) .i4 .bf16 .rn true (.v 2) (.v 1),
  .fclassMask (c .w64 6) .f16 (.v 2) (.v 1),
  .fclassTest (c .w96 6) .f32 1 (.v 1) (.imm32 0x201),
  .flagsTest (c .w64 1) 0x1C 1,
  .flagsClr (c .w64 1) 0x1F,
  .flagsSet (c .w64 1) 0x01,
  .flagsGor (c .w64 1) 4,
  .fpack (c .w64 6) .e4m3 .rn true (.v 2) (.v 1) 5,
  .funpk (c .w64 6) .cb2 .rn .nosat (.v 3) (.v 2) (.s 5)].all goes = true := by decide +kernel
theorem witness_issues_memory : [.ld (c .w96 1) .cl .b16 true { scope := .dev, ord := .acq, rmt := true, ofs := 0xFFFFF8 } (.v 1) (.s 3),
  .st (c .w96 1) .pv .b64 { scope := .die, ord := .rel, rmt := false, ofs := 16 } (.v 1) (.v 2),
  .ldf (c .w64 1) true 0 (.v 2) (.s 2),
  .ste (c .w96 1) 8 (.s 2) (.v 1),
  .tag (c .w64 1) .b128 true 0 (.s 2),
  .atom (c .w64 1) .bfadd .gl .b32 false { scope := .grp, ord := .rlx, rmt := false, ofs := 0 } (.v 2) (.s 1) (.v 1),
  .atom (c .w96 1) .min .sp .b64 true { scope := .clu, ord := .ar, rmt := false, ofs := 32 } (.s 2) (.s 1) (.s 3),
  .atomCas (c .w128 1) .gl .b32 { scope := .grp, ord := .rlx, rmt := false, ofs := 0 } (.v 2) (.s 1) (.v 3) (.v 4),
  .red (c .w64 1) .fadd .gl .b32 false { scope := .grp, ord := .rlx, rmt := false, ofs := 0 } (.s 1) (.v 1),
  .fence (c .w96 1) .dev .ar true,
  .mfence (c .w64 1),
  .swinit (c .w128 1) .sp { scope := .grp, ord := .rlx, rmt := false, ofs := 0 } (.s 4) (.s 5) (.s 6),
  .swarrAny (c .w96 1) .sp { scope := .grp, ord := .rlx, rmt := false, ofs := 0 } (.s 4) (.imm32 256),
  .swarrGen (c .w128 1) .sp { scope := .sys, ord := .rel, rmt := false, ofs := 0 } (.s 4) (.s 6) (.s 7),
  .swwait (c .w64 1) .sp { scope := .core, ord := .acq, rmt := false, ofs := 0 } (.s 4) (.s 5),
  .copy (c .w128 1) .tm .dcl 0x40 4 5 6,
  .copyl (c .w64 1) 4 5,
  .fetch (c .w128 1) 3 4 5 0x80,
  .residPin (c .w96 1) 0x100 4 5,
  .residRel (c .w64 1) 5,
  .residStat (c .w64 1) 8 5,
  .qctlOcc (c .w64 1) 2 (.s 4),
  .qctlPerm (c .w64 1) 2 (.s 4),
  .qctlReset (c .w64 1) 7,
  .spill (c .w96 1) 12 (.imm32 0x100),
  .fill (c .w64 1) 12 (.s 3),
  .pref (c .w96 1) 64 (.s 4)].all goes = true := by decide +kernel
theorem witness_issues_oven : [.rkld (c .w96 1) .tm true 2 4 5,
  .rkswKeep (c .w64 1),
  .rkswDrop (c .w64 1),
  .mmul (c .w128 1) { space := .sp, res := true, af := 3, ta := 1, tb := 2, a := 4, b := 6, s := 1, m := 8, n := 48 },
  .mtopk (c .w128 1) { space := .gl, res := false, af := 0, ta := 1, tb := 2, a := 4, b := 6, s := 1, m := 2, n := 8 } true,
  .mnormA (c .w128 1) .sp 1 2 4 5 1 96,
  .mnormB (c .w128 1) .gl 1 4 5 2 192,
  .aalloc (c .w96 1) 3,
  .aallocAny (c .w64 1) 4,
  .afree (c .w96 1) 11,
  .aband (c .w64 1) 4 5,
  .adrainNone (c .w96 1) .sp true .ru .sat 5 4 6,
  .adrainP24 (c .w96 1) .sp true .ru .sat 5 4 6,
  .adrainP48 (c .w96 1) .sp true .ru .sat 5 4 6,
  .aload (c .w96 1) true false 3 4,
  .aload (c .w96 1) false true 3 4,
  .azero (c .w96 1) 3,
  .wrd (c .w128 1) 4 88 8,
  .wmerge (c .w96 1) 3 4 5,
  .astat (c .w96 1) (.v 2) 3,
  .selkSum (c .w128 1) 4 5 0x40,
  .selkExp (c .w128 1) 4 5 0xFFFFFFFF,
  .sortr (c .w128 1) true 4 5 0x40].all goes = true := by decide +kernel
theorem witness_issues_engines : [.tidsetSet (c .w96 1) .cl 5 4,
  .tidsetClr (c .w96 1) .gl 5,
  .tidget (c .w96 1) .sp 5 4,
  .cxdefOne (c .w96 1) 0 3 4,
  .cxdefAnd (c .w96 1) 1 3 4 4,
  .cxdefOr (c .w96 1) 1 3 4 4,
  .cxsplit (c .w96 1) 3 5 6,
  .cxfill (c .w128 1) 2 8 0x1234 0xFFFFFFFE,
  .cxcurSave (c .w96 1) 0 4,
  .cxcurLoad (c .w96 1) 1 4,
  .cxcurInfo (c .w96 1) 0 6,
  .cxcurDrop (c .w96 1) 0,
  .walkdef (c .w64 1) 3 .sp 4,
  .walk (c .w128 1) 3 (.v 4) (.v 6) (.v 10) 0x40,
  .ired (c .w128 1) true true 6 (.v 4) (.v 6) 0x80,
  .engwait (c .w64 1) 0x60,
  .plev (c .w64 1) (.k 1),
  .trap (c .w64 1) 5,
  .brk (c .w64 1),
  .rft (c .w64 1),
  .sysRd (c .w64 1) 1 4,
  .sysWr (c .w64 1) 0 (.s 5)].all goes = true := by decide +kernel

/-! Witnesses of the instructions' statements: for each clause with more hypotheses than an issue, a state and operands that meet them all. -/

/-- Control bits: guard p1, and a guard that no lane meets. -/
def c1 (len : Len) : Ctl := { c len 1 with pg := 1 }
def c0 (len : Len) : Ctl := { c len 1 with pn := true }
/-- p1 true in lanes 0 to 3 only. -/
def half : State → State := onG (fun g => g.setP 1 0xF)
/-- A second group of the workgroup, in slot 1. -/
def second (r : Role) : State → State := onK (fun k => { k with grps := k.grps ++ [(1, { loadGroup r 8 with uid := 9 })] })
/-- The first n bytes of the words of every lane's private memory. -/
def privPut (bs : List Byte) (s : State) : State := (List.range 8).foldl (fun s l => s.glWrite 0 (0x20000 + 256 * l) bs) s
/-- Exclusive addresses in scratchpad are apart. -/
theorem apart_sp {x : Iss} {n : Nat} {adr : Nat → Nat} {ls : List Nat} (h : ∀ l ∈ ls, ∀ k ∈ ls, adr l ≠ adr k → adr l + n ≤ adr k ∨ adr k + n ≤ adr l) :
    x.apart .sp n adr ls := by
  intro l hl k hk hne i hi j hj p hp q hq hh
  simp only [Iss.place, Option.mem_def, Option.some.injEq] at hp hq
  subst hp hq
  rcases hh with hh | ⟨a, b, d, e, hh, -⟩
  · simp only [Byt.sp.injEq] at hh
    have := h l hl k hk hne
    omega
  · cases hh
/-- Its premise. -/
def apartB (n : Nat) (adr : Nat → Nat) (ls : List Nat) : Bool :=
  ls.all (fun l => ls.all (fun k => decide (adr l = adr k ∨ adr l + n ≤ adr k ∨ adr k + n ≤ adr l)))

theorem witness_exit : yes [
    sees (.exit (c1 .w64)) (c1 .w64) (half (lab (.exit (c1 .w64)))) (fun x => !(advance x.gr.fr x.cur.pc [{ mask := x.cur.mask &&& ~~~ x.act, pc := x.next, pri := x.cur.pri }]).isEmpty),
    sees (.exit (c .w64 1)) (c .w64 1) (second .vector (lab (.exit (c .w64 1)))) (fun x =>
      (advance x.gr.fr x.cur.pc [{ mask := x.cur.mask &&& ~~~ x.act, pc := x.next, pri := x.cur.pri }]).isEmpty && decide (x.g < 32)
      && (x.s.core 0).grps.any (fun e => e.1 != x.g && decide (e.1 < 32) && e.2.wg == x.gr.wg))] = true := by decide +kernel

/-- Depths 0 and 14 of 15 for CALL, 1 and 15 for RET. -/
def callOk (x : Iss) : Bool := x.lanes.all (fun l => isPa (x.s.translate x.wg.ctx .r (x.privOf l)) && isPa (x.s.translate x.wg.ctx .w (x.privOf l))
  && !x.poisonAt .pv false (x.privOf l) 4 && decide (x.depth l < x.maxDepth) && isPa (x.s.translate x.wg.ctx .w (x.privOf l + 16 + 16 * x.depth l)))
def retOk (x : Iss) : Bool := x.lanes.all (fun l => isPa (x.s.translate x.wg.ctx .r (x.privOf l)) && isPa (x.s.translate x.wg.ctx .w (x.privOf l))
  && !x.poisonAt .pv false (x.privOf l) 4 && decide (0 < x.depth l) && isPa (x.s.translate x.wg.ctx .r (x.privOf l + 16 * x.depth l))
  && !x.poisonAt .pv false (x.privOf l + 16 * x.depth l) 10)
theorem witness_call_ret : yes [
    sees (.callNear (c .w64 1) 16 5 6) (c .w64 1) (lab (.ret (c .w64 1))) (fun x => x.act != 0 && callOk x),
    sees (.callFar (c .w128 1) 16 5 6) (c .w128 1) (privPut (toLE 4 14) (lab (.ret (c .w64 1)))) (fun x => x.act != 0 && callOk x),
    sees (.ret (c .w64 1)) (c .w64 1) (privPut (toLE 4 1) (lab (.ret (c .w64 1)))) (fun x => x.act != 0 && retOk x),
    sees (.ret (c .w64 1)) (c .w64 1) (privPut (toLE 4 15) (lab (.ret (c .w64 1)))) (fun x => x.act != 0 && retOk x)] = true := by decide +kernel

/-- SHAPE with a bucket that fits after one that does not, and without; SPAWN with room, without lanes and without room. -/
def bucket (lo hi : Nat) : Bucket := { entry := 0x40, pri := 3, dims := [(lo, hi)] }
def withBuckets (bs : List Bucket) : State → State := onW (fun w => { w with rec_ := { w.rec_ with buckets := bs } })
def fitB (x : Iss) (b : Bucket) : Bool := (List.range 1).all (fun d => match b.dims[d]? with
  | some r => decide (r.1 ≤ (x.reg (.s (4 + d)) 0).toNat % 2 ^ 32 ∧ (x.reg (.s (4 + d)) 0).toNat % 2 ^ 32 ≤ r.2) | none => true)
theorem witness_group_control : yes [
    sees (.bkoff (c .w64 1) (.s 3)) (c .w64 1) (onS [(3, 70000)] (lab (.bkoff (c .w64 1) (.s 3)))) (fun x => x.act != 0 && x.popped.w32 (.s 3) 0 != 0),
    sees (.shape (c .w64 1) 0 4) (c .w64 1) (withBuckets [bucket 3 9, bucket 1 2] (onS [(4, 2)] (lab (.shape (c .w64 1) 0 4)))) (fun x => match x.wg.rec_.buckets with
      | [a, b] => !fitB x a && fitB x b | _ => false),
    sees (.shape (c .w64 1) 0 4) (c .w64 1) (withBuckets [bucket 3 9, bucket 1 2] (onS [(4, 10)] (lab (.shape (c .w64 1) 0 4)))) (fun x => x.wg.rec_.buckets.all (fun b => !fitB x b)),
    sees (.spawn (c .w64 1) 2 (.v 5) (.v 6)) (c .w64 1) (lab (.spawn (c .w64 1) 2 (.v 5) (.v 6))) (fun x => decide ((x.s.core 0).itemCount + x.lanes.length ≤ 512)),
    sees (.spawn (c0 .w64) 2 (.v 5) (.v 6)) (c0 .w64) (lab (.spawn (c0 .w64) 2 (.v 5) (.v 6))) (fun x => x.lanes.isEmpty),
    sees (.spawn (c .w64 1) 2 (.v 5) (.v 6)) (c .w64 1) (onK (fun k => { k with items := List.replicate 505 { wg := 1, e := 0, p0 := 0, p1 := 0 } })
      (lab (.spawn (c .w64 1) 2 (.v 5) (.v 6)))) (fun x => !x.lanes.isEmpty && decide ((x.s.core 0).itemCount + x.lanes.length > 512))] = true := by decide +kernel

/-- SETSR of %fpc with a legal and an illegal rounding mode. -/
theorem witness_setsr : yes [
    sees (.setsr (c .w64 1) false 0x21 (.s 3)) (c .w64 1) (onS [(3, 4)] (lab (.setsr (c .w64 1) false 0x21 (.s 3)))) (fun x => x.low == some 0 && x.popped.w64 (.s 3) 0 % 8 == 4),
    sees (.setsr (c .w64 1) false 0x21 (.s 3)) (c .w64 1) (onS [(3, 5)] (lab (.setsr (c .w64 1) false 0x21 (.s 3)))) (fun x => x.low == some 0 && decide (5 ≤ x.popped.w64 (.s 3) 0 % 8))]
    = true := by decide +kernel

/-! Memory. -/

/-- An XM extension without order. -/
def xm : Xm := { scope := .grp, ord := .rlx, rmt := false, ofs := 0 }
/-- Sound accesses of every space at the lowest and at the highest address of its range, one address for all lanes or one per lane. -/
def okAt (x : Iss) (sp : Space) (accs : List Acc) (n : Nat) (a : Opnd) : Bool :=
  x.act != 0 && (lanesOf x.todo).all (fun l => soundB x.popped sp accs n l (x.popped.addr sp a 0 l))
def ldAt (sp : Space) (sz : Size) (d : Opnd) (at_ : Nat) : Bool :=
  let i : Instr := .ld (c .w64 1) sp sz true xm d (.s 3)
  sees i (c .w64 1) (onS [(3, at_)] (lab i)) (fun x => okAt x sp [.r] (szBytes sz) (.s 3))
def stAt (sp : Space) (sz : Size) (at_ : Nat) : Bool :=
  let i : Instr := .st (c .w64 1) sp sz xm (.s 3) (.v 4)
  sees i (c .w64 1) (onS [(3, at_)] (lab i)) (fun x => okAt x sp [.w] (szBytes sz) (.s 3))
theorem witness_loads_stores : yes [
    ldAt .gl .b8 (.v 1) 0x20000, ldAt .gl .b64 (.v 2) 0x20FF8, ldAt .sp .b16 (.o 1) 0, ldAt .sp .b128 (.v 4) 524272, ldAt .cl .b32 (.s 1) 65532, ldAt .pv .b32 (.q 0) 252,
    stAt .gl .b8 0x20000, stAt .gl .b64 0x20FF8, stAt .sp .b16 0, stAt .sp .b128 524272, stAt .cl .b32 65532, stAt .pv .b32 252] = true := by decide +kernel
/-- Lane 3 alone is misaligned. -/
theorem witness_misalignment :
    let bad (i : Instr) (sz : Size) : Bool := sees i (c .w64 1) (onV 3 (fun l => if l = 3 then 0x21 else 0x40) (lab i)) (fun x =>
      ((lanesOf x.todo).filter (fun k => decide (x.popped.addr .sp (.v 3) 0 k % szBytes sz ≠ 0))).head? == some 3)
    yes [bad (.ld (c .w64 1) .sp .b16 false xm (.v 1) (.v 3)) .b16, bad (.st (c .w64 1) .sp .b128 xm (.v 3) (.v 4)) .b128] = true := by decide +kernel

/-- One word per lane, full or empty. -/
def tagsAll (b : Bool) : State → State := onW (fun w => { w with tags := if b then List.range 8 else [] })
theorem witness_tagged_words :
    let lanes4 : State → State := onV 3 (fun l => 4 * l)
    let p (i : Instr) (full : Bool) (acc : List Acc) (n : Nat) : Bool := sees i (c .w64 1) (tagsAll full (lanes4 (lab i))) (fun x =>
      x.act != 0 && (lanesOf x.todo).all (fun l => soundB x.popped .sp acc n l (x.popped.addr .sp (.v 3) 0 l) && ((acc == [.w]) || decide (x.popped.addr .sp (.v 3) 0 l / 4 ∈ x.wg.tags) == full)
        && (lanesOf x.todo).all (fun k => decide (x.popped.addr .sp (.v 3) 0 l = x.popped.addr .sp (.v 3) 0 k → l = k))))
    yes [p (.ldf (c .w64 1) true 0 (.v 2) (.v 3)) true [.r] 4, p (.ldf (c .w64 1) false 0 (.o 2) (.v 3)) true [.r] 4, p (.ste (c .w64 1) 0 (.v 3) (.v 1)) false [.r] 4,
         p (.tag (c .w64 1) .b32 true 0 (.v 3)) false [.w] 4] = true := by decide +kernel

/-- All lanes at one address, and two lanes at each of four. -/
theorem witness_atomics :
    let p (i : Instr) (n : Nat) (f : Nat → Nat) : Bool := match encFields i with
      | some e => sees i e.c (onV 3 f (lab i)) (fun x => okAt x .sp [.r, .w] n (.v 3) && apartB n (x.popped.addr .sp (.v 3) 0) (lanesOf x.todo))
      | none => false
    yes [p (.atom (c .w64 1) .add .sp .b32 false xm (.v 2) (.v 3) (.v 1)) 4 (fun _ => 64), p (.atom (c .w64 1) .exch .sp .b64 false xm (.v 4) (.v 3) (.v 6)) 8 (fun l => 16 * (l % 4)),
         p (.red (c .w64 1) .min .sp .b32 true xm (.v 3) (.v 1)) 4 (fun l => 4 * (l / 2)), p (.atomCas (c .w128 1) .sp .b32 xm (.v 2) (.v 3) (.v 1) (.v 4)) 4 (fun l => 524284 - 4 * (l / 2))]
      = true := by decide +kernel

/-- Words of scratchpad. -/
def swImage (target count gen ctl : Nat) : List Byte :=
  toLE 16 ({ target := target, count := count, gen := gen, ovr := ctl.testBit 0, stale := ctl.testBit 1, abort := ctl.testBit 2, ten := ctl.testBit 3 : SWord }).toNat
def spPut (a : Nat) (bs : List Byte) : State → State := onW (fun w => w.spWrite a bs)
def wordAt (x : Iss) (a : Opnd) (l : Nat) : SWord := SWord.ofNat (fromLE (x.popped.read x.s .sp false (x.popped.addr .sp a 0 l) 16))
theorem witness_words :
    let p (i : Instr) (f : State → State) (q : Iss → Bool) : Bool := match encFields i with
      | some e => sees i e.c (f (lab i)) (fun x => x.act != 0 && q x) | none => false
    yes [p (.swinit (c .w128 1) .sp xm (.s 4) (.s 5) (.s 6)) (onS [(4, 32), (5, 100), (6, 2 ^ 20 - 1)]) (fun x => okAt x .sp [.w] 16 (.s 4) && x.lanes.all (fun l => decide (x.popped.w32 (.s 6) l < 2 ^ 20))),
         p (.swarrAny (c .w64 1) .sp xm (.s 4) (.k 3)) (onS [(4, 32)] ∘ spPut 32 (swImage 100 0 1 0)) (fun x => okAt x .sp [.r, .w] 16 (.s 4) && x.lanes.all (fun l => !(wordAt x (.s 4) l).ten)
            && apartB 16 (x.popped.addr .sp (.s 4) 0) x.lanes),
         p (.swarrGen (c .w128 1) .sp xm (.v 4) (.s 5) (.s 6)) (onV 4 (fun l => 16 * (l / 2)) ∘ spPut 32 (swImage 100 0 1 0)) (fun x => okAt x .sp [.r, .w] 16 (.v 4)
            && x.lanes.all (fun l => !(wordAt x (.v 4) l).ten) && apartB 16 (x.popped.addr .sp (.v 4) 0) x.lanes),
         p (.swwait (c .w64 1) .sp xm (.s 4) (.s 5)) (onS [(4, 32), (5, 1)] ∘ spPut 32 (swImage 100 0 1 0)) (fun x => okAt x .sp [.r] 16 (.s 4)
            && (lanesOf x.todo).all (fun l => (wordAt x (.s 4) l).reached (x.popped.w32 (.s 5) l % 2 ^ 16))),
         p (.swwait (c .w64 1) .sp xm (.s 4) (.s 5)) (onS [(4, 32), (5, 2)] ∘ spPut 32 (swImage 100 0 1 4)) (fun x => okAt x .sp [.r] 16 (.s 4)
            && (lanesOf x.todo).all (fun l => (wordAt x (.s 4) l).abort && !(wordAt x (.s 4) l).reached (x.popped.w32 (.s 5) l % 2 ^ 16)))] = true := by decide +kernel
/-- The four cases of an addition: ABORT set; another generation; TARGET 0; TARGET reached twice and passed. -/
theorem witness_addition :
    let w (t k : Nat) : SWord := { target := t, count := 10, gen := 65535, ovr := false, stale := false, abort := decide (k = 4), ten := false }
    yes [decide ((w 32 4).add 5 none = w 32 4), ((w 32 0).add 5 (some 3)).stale, ((w 0 0).add 5 none).abort, ((w 32 0).add 60 (some 65535)).gen == 1,
         ((w 32 0).add 60 none).count == 6, ((w 32 0).add 60 none).ovr, !((w 32 0).add 22 none).ovr, ((w 32 0).add 22 none).count == 0] = true := by decide +kernel

/-- QCTL on a declared queue, without a lane, and on a queue not declared. -/
theorem witness_queue_control :
    let off : State → State := onW (fun w => { w with queues := List.replicate 8 (Queue.fresh 0 0 0) })
    let bad (i : Instr) : Bool := match (off (lab i)).issue i (c .w64 1) with
      | some x => decide ((x.wg.queue 2).kind = 0) && (useOf i).fs.all (fun f => !fieldBad x.wg x.gr i f)
      | none => false
    yes ([Instr.qctlOcc (c .w64 1) 2 (.s 4), .qctlPerm (c .w64 1) 2 (.v 4), .qctlReset (c .w64 1) 2].flatMap (fun i =>
      [sees i (c .w64 1) (lab i) (fun x => x.act != 0), bad i])
      ++ [sees (.qctlReset (c0 .w64) 2) (c0 .w64) (lab (.qctlReset (c0 .w64) 2)) (fun x => x.act == 0)]) = true := by decide +kernel

/-- SPILL and FILL of one slot at the end of lane 0's region (40 bytes of 256), and without a lane. -/
theorem witness_spill_fill :
    let fit (x : Iss) (a : Acc) : Bool :=
      let p := x.privOf 0 + x.popped.w32 (.s 3) 0
      let n := 8 + 4 * x.width
      decide (p % 8 = 0) && decide (p + n ≤ x.privOf 0 + x.privSize) && [p, p + n - 1].all (fun e => isPa (x.s.translate x.wg.ctx a e))
    yes [sees (.spill (c .w64 1) 12 (.s 3)) (c .w64 1) (onS [(3, 216)] (lab (.spill (c .w64 1) 12 (.s 3)))) (fun x => x.act != 0 && fit x .w),
         sees (.spill (c0 .w64) 12 (.s 3)) (c0 .w64) (onS [(3, 3)] (lab (.spill (c0 .w64) 12 (.s 3)))) (fun x => x.act == 0),
         sees (.fill (c .w64 1) 12 (.s 3)) (c .w64 1) (onS [(3, 216)] (lab (.fill (c .w64 1) 12 (.s 3)))) (fun x => x.act != 0 && fit x .r && x.s.hbmPoison.isEmpty
           && decide (fromLE (x.s.glRead x.wg.ctx (x.privOf 0 + x.popped.w32 (.s 3) 0) 1) < 4))] = true := by decide +kernel
/-- Values of three lanes of a width of 8: all equal, near each other and far apart. -/
theorem witness_spill_round_trip :
    let ok (vals : List (Nat × Nat)) : Bool := decide (vals.map Prod.fst).Nodup && vals.all (fun e => decide (e.1 < 8 ∧ e.2 < 2 ^ 32))
      && vals.all (fun e => fillLane (spillBytes 8 vals) e.1 == e.2)
    yes [ok [(1, 7), (2, 7), (7, 7)], ok [(1, 100), (2, 90), (7, 227)], ok [(0, 1000), (2, 33000), (7, 5)], ok [(0, 0), (2, 2 ^ 32 - 1), (7, 12345678)]] = true := by decide +kernel

/-! Engines. -/

/-- A tensor entry, VALID set. -/
def ten (fmt ndim senc e0 e1 s1 base nbase ibase pbase : Nat) : BitVec 1024 :=
  BitVec.ofNat 1024 (fmt + 2 ^ 4 * ndim + 2 ^ 8 * senc + 2 ^ 31 + 2 ^ 64 * base + 2 ^ 128 * e0 + 2 ^ 160 * e1 + 2 ^ 256 * s1 + 2 ^ 448 * nbase + 2 ^ 512 * ibase + 2 ^ 576 * pbase)
/-- Entries t1, t2, ... of the context. -/
def tens (ts : List (BitVec 1024)) : State → State := onX (fun k => { k with tens := (ts.zipIdx).map (fun e => (e.2 + 1, e.1)) })
/-- An instruction issues, with active, guard-true lanes, in its small state changed by f, and q holds. -/
def at_ (i : Instr) (f : State → State) (q : Iss → Bool) : Bool :=
  match encFields i with | some e => sees i e.c (f (lab i)) (fun x => x.act != 0 && q x) | none => false
/-- A copy fits. -/
def copyB (x : Iss) (r : CopyReq) : Bool :=
  decide (0 < r.n) && !r.rsv && (r.mask == 0 || r.dst == .dsp || r.dst == .dtm) && (!r.sf || r.dst == .dsp) && decide (r.sa % 32 = 0 ∧ r.da % 32 = 0 ∧ r.n % 32 = 0)
  && (match r.src with
    | .gl => decide (r.sa + r.n ≤ 2 ^ 57) && reachB x .r r.sa r.n 32
    | .sp => decide (r.sa < 2 ^ 19 ∧ r.sa + r.n ≤ x.wg.rec_.scratch)
    | .cl => decide (r.sa < 2 ^ 23 ∧ r.sa + r.n ≤ x.wg.rec_.clsram)
    | .tm => decide (r.sa < 2 ^ 16 ∧ r.sa + r.n ≤ 4096 * x.wg.rec_.tiles))
  && (match r.dst with
    | .dgl => decide (r.da + r.n ≤ 2 ^ 57) && reachB x .w r.da r.n 32
    | .dsp => decide (r.da < 2 ^ 19 ∧ r.da + r.n ≤ x.wg.rec_.scratch)
    | .dcl => decide (r.da < 2 ^ 23 ∧ r.da + r.n ≤ x.wg.rec_.clsram)
    | .dtm => decide (r.da < 2 ^ 16 ∧ r.da + r.n ≤ 4096 * x.wg.rec_.tiles))
  && (r.ofs == -1 || decide (0 ≤ r.ofs ∧ r.ofs % 16 = 0 ∧ r.ofs + 16 ≤ x.wg.rec_.scratch))
/-- From and to every endpoint, whole stores, with and without a word and with a mask of receivers. -/
theorem witness_copies :
    let p (src : CSrc) (dst : CDst) (ofs : BitVec 24) (sa da ctl : Nat) : Bool :=
      let i : Instr := .copy (c .w128 1) src dst ofs 4 5 6
      at_ i (onS [(4, sa), (5, da), (6, ctl)]) (fun x =>
        let w := x.sv 6
        copyB x { src := src, dst := dst, sa := x.sv 4, da := x.sv 5, n := w % 2 ^ 32, mask := w / 2 ^ 32 % 2 ^ 8,
                  gen := if w.testBit 56 then some (BitVec.ofNat 16 (w / 2 ^ 40)) else none, sf := w.testBit 57, rsv := decide (w / 2 ^ 58 ≠ 0), ofs := ofs.toInt })
    let l : Instr := .copyl (c .w64 1) 4 5
    let entry : Nat := 0x20000 + 2 ^ 128 * 64 + 2 ^ 192 * 0xFFFFFF
    yes [p .gl .dsp 0x40 0x20000 0 (4096 + 2 ^ 32 + 2 ^ 56 + 2 ^ 57), p .sp .dgl 0xFFFFFF 0 0x20000 4096, p .cl .dtm 0 0 0 65536, p .tm .dcl 0x7FFF0 0 0 65536,
         at_ l (onS [(4, 0x20000), (5, 2)] ∘ fun s => s.glWrite 0 0x20000 (toLE 32 entry ++ toLE 32 entry)) (fun x =>
           decide (x.sv 5 = 2 ∧ x.sv 4 % 32 = 0 ∧ x.sv 4 + 32 * 2 ≤ 2 ^ 57) && reachB x .r (x.sv 4) (32 * 2) 32 && x.s.hbmPoison.isEmpty
           && ((List.range 2).map (fun i => entryReq (fromLE (x.s.glRead x.wg.ctx (x.sv 4 + 32 * i) 32)))).all (copyB x))] = true := by decide +kernel

/-- RESID .pin of an entry that is empty and of one of the context, beside another entry; .rel and .stat of an entry loading, usable and none. -/
def pinned (e : Nat) (ld : Bool) : State → State := fun s => s.modCluster 0 (fun k => { k with resid := Tab.set k.resid e { ld := ld, vbase := 0x20000 + 4096 * e, len := 1, cloff := e, ctx := 0, launch := 0, unit := 0, used := none } })
theorem witness_residency :
    let va := 0x20000
    let pin (f : State → State) : Bool := at_ (.residPin (c .w96 1) 0x100 4 5) (onS [(4, va), (5, 1 + 2 ^ 12 * 15)] ∘ f) (fun x =>
      (x.s.cluster 0).resid.all (fun r => decide (r.2.ctx = x.wg.ctx) && (r.1 == 0 || (decide (va + 4096 ≤ r.2.vbase ∨ r.2.vbase + 4096 * r.2.len ≤ va) && decide (15 + 1 ≤ r.2.cloff ∨ r.2.cloff + r.2.len ≤ 15))))
      && decide (4096 * (15 + 1) ≤ x.wg.rec_.clsram ∧ (va < 2 ^ 56 ∨ 2 ^ 57 ≤ va) ∧ va + 4096 ≤ 2 ^ 57 ∧ x.sv 5 % 2 ^ 12 = 1 ∧ (x.sv 5) / 2 ^ 30 = 0 ∧ va % 4096 = 0) && !(x.sv 5).testBit 23 && wordB x (some 0x100) && reachB x .r va 4096 4096)
    let one (i : Instr) (f : State → State) (k : Option Bool) : Bool := at_ i (onS [(5, 2 ^ 24 * 3)] ∘ f) (fun x =>
      (x.sv 5 % 2 ^ 24 == 0) && (x.sv 5 / 2 ^ 30 == 0) && (match Tab.get (x.s.cluster x.clu).resid (x.sv 5 / 2 ^ 24 % 64) with
        | some r => decide (r.ctx = x.wg.ctx ∧ r.vbase < 2 ^ 57 ∧ r.vbase % 4096 = 0 ∧ r.len < 2 ^ 12 ∧ r.cloff < 2 ^ 11) && k == some r.ld | none => k == none))
    yes [pin id, pin (pinned 0 false), pin (pinned 3 false), one (.residRel (c .w64 1) 5) id none, one (.residRel (c .w64 1) 5) (pinned 3 true) (some true),
         one (.residRel (c .w64 1) 5) (pinned 3 false) (some false), one (.residStat (c .w64 1) 8 5) id none, one (.residStat (c .w64 1) 8 5) (pinned 3 true) (some true)]
      = true := by decide +kernel

/-- A dense FP8 tensor of K 32 by 96 rows in scratchpad, and one in global memory. -/
def dense (base : Nat) : BitVec 1024 := ten 2 1 0 32 96 32 base 0x400 0 0
def rackOf (st : RStatus) (wg : Nat) : Rack := { Rack.empty with status := st, owner := some wg, fmt := 2 }
def anOven (o : OvenArgs) : OvenOp :=
  { id := 7, ctx := 0, launch := 0, wg := 1, grp := 2, pc := 0, word := none, x := o, topk := false, abs := false, da := dense 0, db := dense 0, r0 := 0, s0 := 0, rofs := none, cbase := 0,
    k := 1, part := none, nonce := 0, steps := [], rows := [], compA := [], compB := [], bad := false, poison := false, sent := false, pxm := none, ncm := false, row := 0, plane := 0,
    thr := [], dead := [], rowEnd := [], parked := none }
def args (af : Fin 12) : OvenArgs := { space := .sp, res := false, af := af, ta := 1, tb := 2, a := 4, b := 6, s := 1, m := 8, n := 48 }
def queued (af : Fin 12) : State → State := fun s => { onK (fun k => { k with ovenQ := [anOven (args af)] }) s with nextId := 8 }
/-- A group that waits in the order of the oven queue, at a place before or after that of the group that issues. -/
def ticketed (grp seq : Nat) : State → State := onK (fun k => { k with imms := [{ grp := grp, seq := seq, bank := some 3, mode := some .unset }] })
/-- Iss.myTurn. -/
def turnB (x : Iss) : Bool := (x.s.core x.core).turn x.seqNo
theorem turn_iff (x : Iss) : turnB x = true ↔ x.myTurn := by
  simp [turnB, Core.turn, Iss.myTurn, List.all_eq_true]
/-- RKLD: no entry; an empty, loading, ready and overridden shadow. RKSW: waiting for the queue and for a load; another's rack; and exchanging. -/
theorem witness_racks :
    let ld (ovr : Bool) (f : State → State) (q : Iss → Rack → Bool) : Bool :=
      let i : Instr := .rkld (c .w96 1) .sp ovr 1 4 5
      at_ i (tens [dense 0] ∘ onS [(4, 0), (5, 0xFFFFFFFF)] ∘ f) (fun x =>
        let t := Ten.of (x.ten 1)
        tenValid (x.ten 1) && decide (t.fmt ≤ 9 ∧ t.senc ≤ 2 ∧ t.ndim ≠ 0 ∧ x.sv 4 / 2 ^ 32 ≤ 4094) && !t.odd && wordB x (wordOf (x.sv 5 % 2 ^ 32))
        && roomB x .sp (t.ranges 0 (32 * kgOf t.fmt) 0 192) && q x (x.s.core x.core).shadow)
    let sw (f : State → State) (turn : Bool) (q : Core → Bool) : Bool := [Instr.rkswDrop (c .w64 1), .rkswKeep (c .w64 1)].all (fun i => at_ i f (fun x => turnB x == turn && q (x.s.core x.core)))
    let sh (r : Rack) : State → State := onK (fun k => { k with shadow := r })
    let ac (r : Rack) : State → State := onK (fun k => { k with active := r })
    let others (r : Rack) : Bool := decide (r.status ≠ .empty) && (match r.owner with | some o => o != 1 | none => false)
    yes [at_ (.rkld (c .w96 1) .sp false 1 4 5) id (fun x => !tenValid (x.ten 1)), ld false id (fun _ r => r.status == .empty), ld false (sh (rackOf .loading 1)) (fun _ r => r.status == .loading),
         ld false (sh (rackOf .ready 1)) (fun _ r => r.status == .ready), ld true (sh (rackOf .ready 1)) (fun _ r => r.status == .ready && !others r),
         sw (queued 0) false (fun _ => true), sw (ticketed 9 2) false (fun _ => true), sw (sh (rackOf .loading 1)) true (fun k => k.shadow.status == .loading),
         sw (ac (rackOf .ready 4)) true (fun k => k.shadow.status != .loading && others k.active), sw (sh (rackOf .ready 4)) true (fun k => !others k.active && others k.shadow),
         sw (ticketed 2 3 ∘ queued 0 ∘ sh (rackOf .ready 1)) true (fun k => !k.ovenQ.isEmpty && k.shadow.status != .loading && !others k.active && !others k.shadow)] = true := by decide +kernel

/-- Claimed banks of the workgroup. -/
def bankOf (wg : Nat) (m : BMode) : Bank := { owner := some wg, mode := m, status := 0, elems := [], fill := none }
def banks (bs : List (Nat × Bank)) : State → State := onK (fun k => { k with banks := bs })
/-- MMUL with and without .res, MTOPK with a partner and an abandonment record: eight rows into bank a3. -/
theorem witness_oven_entries :
    let p (topk res : Bool) (b6 b7 : Nat) : Bool :=
      let o : OvenArgs := { args 3 with res := res }
      let i : Instr := if topk then .mtopk (c .w128 1) o true else .mmul (c .w128 1) o
      at_ i (tens [dense 0, dense 4096] ∘ onS [(4, 0), (6, b6), (7, b7)] ∘ banks [(3, bankOf 1 .unset)] ∘ onK (fun k => { k with active := rackOf .ready 1 })) (fun x =>
        let ta := Ten.of (x.ten o.ta)
        let tb := Ten.of (x.ten o.tb)
        let k := x.s.core x.core
        let rofs := if topk then wordOf (x.sv 6 / 2 ^ 32) else none
        tenValid (x.ten o.ta) && tenValid (x.ten o.tb) && decide (ta.fmt ≤ 8 ∧ ta.senc = 0 ∧ ta.ndim ≠ 0 ∧ tb.fmt ≤ 9 ∧ tb.ndim ≠ 0) && !ta.odd && !tb.odd
        && (!topk || (decide (x.sn 7 / 2 ^ 40 = 0) && (!(x.sn 7).testBit 39 || x.sn 7 / 2 ^ 36 % 8 != 0))) && wordB x (wordOf (x.sv 6 % 2 ^ 32))
        && (match rofs with | none => true | some r => decide (r % 4 = 0 ∧ r + 384 * 8 ≤ x.wg.rec_.scratch)) && roomB x .sp (ta.ranges 0 (32 * kgOf tb.fmt) 0 8)
        && (banksOf 3 8).all (fun j => k.owns 1 j && (k.qmode x.seqNo j == .unset || k.qmode x.seqNo j == modeOf topk ta tb))
        && x.wg.wrote.isEmpty && x.gr.own.isEmpty && x.wg.done.isEmpty && k.eng.isEmpty
        && (!res || (k.active.status == .ready && k.active.fmt == tb.fmt && k.active.owner == some x.wg.uid)))
    yes [p false false 0x100 0, p false true 0xFFFFFFFF 0, p true false (0x100 + 2 ^ 32 * 0x200) (7 + 2 ^ 32 * (1 + 16 * 3 + 128)), p true true (2 ^ 64 - 1) 0] = true := by decide +kernel

/-- AALLOC, AFREE, ABAND: each case of ownership. -/
theorem witness_banks :
    let b (i : Instr) (f : State → State) (q : Core → Nat → Bool) : Bool := at_ i f (fun x => q (x.s.core x.core) x.wg.uid)
    let full := (List.range 12).map (fun j => (j, bankOf 4 .fp32))
    let few : State → State := onW (fun w => { w with rec_ := { w.rec_ with banks := 1 } })
    let al : Instr := .aalloc (c .w96 1) 3
    let an : Instr := .aallocAny (c .w64 1) 4
    let fr : Instr := .afree (c .w96 1) 3
    yes [b al (banks [(3, bankOf 1 .fp32)]) (fun k u => (k.bank 3).owner == some u), b al id (fun k u => (k.bank 3).owner == none && decide (k.held u < 12)),
         b al (banks full) (fun k u => (k.bank 3).owner != some u && (k.bank 3).owner != none), b al (few ∘ banks [(0, bankOf 1 .fp32)]) (fun k u => (k.bank 3).owner == none && decide (1 ≤ k.held u)),
         b an (banks [(0, bankOf 4 .fp32)]) (fun k u => (k.bank 1).owner == none && (k.bank 0).owner != none && decide (k.held u < 12)),
         b an (banks (full.take 11)) (fun k u => (k.bank 11).owner == none && (List.range 11).all (fun j => (k.bank j).owner != none) && decide (k.held u < 12)),
         b an (banks full) (fun k _ => (List.range 12).all (fun j => (k.bank j).owner != none)), b an (few ∘ banks [(0, bankOf 1 .fp32)]) (fun k u => decide (1 ≤ k.held u)),
         b fr id (fun k _ => (k.bank 3).owner == none), b fr (banks full) (fun k u => (k.bank 3).owner != none && (k.bank 3).owner != some u),
         b fr (banks [(3, bankOf 1 .fp32)] ∘ queued 3) (fun k u => (k.bank 3).owner == some u && k.queued 3),
         b fr (banks [(3, bankOf 1 .fp32)] ∘ ticketed 9 2) (fun k u => (k.bank 3).owner == some u && k.imms.any (fun t => t.bank == some 3)),
         b fr (banks [(3, bankOf 1 .fp32)]) (fun k u => (k.bank 3).owner == some u && !k.queued 3 && k.imms.isEmpty && k.eng.all (fun o => !o.drainsBank 3)),
         at_ (.aband (c .w64 1) 4 5) (onS [(4, 1), (5, 90 + 256 * 6)] ∘ second .vector) (fun x => match x.s.grp x.core (x.sv 4) with
           | some y => decide (x.sv 4 < 32 ∧ y.wg = x.wg.uid ∧ y.role = .vector ∧ x.sv 5 / 2 ^ 15 = 0 ∧ x.sv 5 % 2 ^ 7 + x.sv 5 / 2 ^ 8 % 2 ^ 7 ≤ 96) && !(x.sv 5).testBit 7 | none => false)]
      = true := by decide +kernel
theorem witness_bank_loads :
    let p (i : Instr) (at4 lim : Nat) (f : State → State) (turn : Bool) : Bool := at_ i (onS [(4, at4)] ∘ banks [(3, bankOf 1 .unset)] ∘ f) (fun x =>
      let k := x.s.core x.core
      decide (x.sv 4 % 2 ^ 32 % 16 = 0 ∧ x.sv 4 % 2 ^ 32 + 6144 ≤ lim) && k.owns x.wg.uid 3 && k.qmode x.seqNo 3 == .unset && turnB x == turn)
    yes [p (.aload (c .w96 1) true true 3 4) (65536 - 6144) 65536 id true, p (.aload (c .w96 1) false false 3 4) (524288 - 6144) 524288 (queued 0) false,
         p (.azero (c .w96 1) 3) 0 524288 id true, p (.azero (c .w96 1) 3) 0 524288 (queued 0) false] = true := by decide +kernel

/-- ADRAIN of eight rows, without pruning and with both kinds, with MAX, to scratchpad and to global memory. -/
theorem witness_drains :
    let p (kind : Fin 3) (sp : BSpace) (mx : Bool) (base nc : Nat) : Bool :=
      let i : Instr := match kind with
        | 0 => .adrainNone (c .w96 1) sp mx .rn .nosat 1 4 6 | 1 => .adrainP24 (c .w96 1) sp mx .rn .nosat 1 4 6 | _ => .adrainP48 (c .w96 1) sp mx .rn .nosat 1 4 6
      at_ i (tens [ten 10 1 kind.val 192 96 192 base 0 0x10000 0] ∘ onS [(4, 0), (6, 0 + 2 ^ 8 * 8 + 2 ^ 24 * (nc - 1) + 2 ^ 32 * 0xFFFFFFFF), (7, 0x300)] ∘ banks [(0, bankOf 1 .fp32)]) (fun x =>
        let t := Ten.of (x.ten 1)
        let m := if kind = 1 then 4 else 8
        tenValid (x.ten 1) && decide (t.fmt ≠ 9 ∧ t.slay = 0 ∧ t.senc = kind.val) && !t.odd && !(x.sv 6).testBit 7 && !(x.sv 6).testBit 15
        && decide (x.sv 6 / 2 ^ 8 % 2 ^ 7 = 8 ∧ x.sv 6 / 2 ^ 24 % 2 ^ 8 + 1 = nc ∧ nc ≤ 192) && (kind == 0 || nc % m == 0)
        && (List.range 8).all (fun j => decide ((j * t.s1) * fmtBits t.fmt % 8 = 0)) && (!mx || x.sn 7 % 4 == 0) && roomB x sp (t.drainRanges kind.val 0 0 8 nc)
        && (List.range 8).all (fun r => decide (x.gr.band.1 ≤ r ∧ r < x.gr.band.1 + x.gr.band.2)))
    yes [p 0 .sp true 0 192, p 1 .sp false 0 4, p 2 .gl false 0x20000 192] = true := by decide +kernel

/-- WRD of the last list; WMERGE with the queue empty and not; ASTAT of a bank owned, busy, not owned, and not owned under UAT. -/
theorem witness_winner_lists :
    let st (f : State → State) (q : Core → Group → Bool) : Bool := at_ (.astat (c .w96 1) (.v 2) 3) f (fun x => q (x.s.core x.core) x.gr)
    let own := banks [(3, bankOf 1 .fp32), (11, bankOf 1 .fp32)]
    let mg (f : State → State) (turn : Bool) : Bool := at_ (.wmerge (c .w96 1) 31 4 5) (onS [(4, 65536 - 144), (5, 9)] ∘ own ∘ f) (fun x =>
      decide (x.sv 4 % 16 = 0 ∧ x.sv 4 + 144 ≤ x.wg.rec_.clsram) && decide (fromLE ((x.read x.s .cl false (x.sv 4) 144).take 4) ≤ 16) && (x.s.core x.core).owns x.wg.uid 3
      && !x.poisonAt .cl false (x.sv 4) 144 && (x.s.core x.core).poison.isEmpty && turnB x == turn)
    yes [at_ (.wrd (c .w128 1) 4 95 1) (onS [(4, 524288 - 144)] ∘ own) (fun x => decide (x.sv 4 % 16 = 0 ∧ x.sv 4 + 144 ≤ x.wg.rec_.scratch ∧ 95 < x.gr.band.1 + x.gr.band.2) && !(x.s.core x.core).busy 11
           && !x.gr.gctl.getLsbD 1),
         mg id true, mg (queued 0) false, st own (fun k _ => k.owns 1 3 && !k.busy 3), st (own ∘ queued 3) (fun k _ => k.owns 1 3 && k.busy 3),
         st id (fun k g => !k.owns 1 3 && !g.gctl.getLsbD 1), st (onG (fun g => { g with gctl := 2 })) (fun k g => !k.owns 1 3 && g.gctl.getLsbD 1)] = true := by decide +kernel

/-- FETCH, MNORM, SELK and SORTR at the largest of some operand. -/
theorem witness_engine_starts :
    let mn (isB : Bool) : Bool :=
      let i : Instr := if isB then .mnormB (c .w128 1) .sp 1 4 5 1 96 else .mnormA (c .w128 1) .sp 1 2 4 5 1 96
      at_ i (tens [dense 0, dense 8192] ∘ onS [(4, 0), (5, 0x100)]) (fun x =>
        let t := Ten.of (x.ten 1)
        tenValid (x.ten 1) && tenValid (x.ten 2) && decide (t.ndim ≠ 0 ∧ t.nbase % 4 = 0 ∧ t.fmt ≤ 8 ∧ t.senc = 0 ∧ (Ten.of (x.ten 2)).fmt ≤ 9) && !t.odd && !(Ten.of (x.ten 2)).odd
        && wordB x (wordOf (x.sv 5 % 2 ^ 32)) && roomB x .sp (t.ranges 0 (32 * kgOf t.fmt) 0 96))
    yes [at_ (.fetch (c .w128 1) 1 4 5 0x80) (tens [ten 10 1 0 8 100 8 0x20000 0 0 0] ∘ onS [(4, 0x20FFC), (5, 1 + 2 ^ 32 * (524288 - 32))]) (fun x =>
           let t := Ten.of (x.ten 1)
           decide (x.sv 5 % 2 ^ 32 = 1 ∧ x.sv 5 / 2 ^ 51 = 0 ∧ t.ndim ≠ 0 ∧ t.senc = 0 ∧ x.sv 4 % 4 = 0 ∧ x.sv 5 / 2 ^ 32 % 2 ^ 19 % 32 = 0 ∧ x.sv 4 + 4 ≤ 2 ^ 57
             ∧ x.sv 5 / 2 ^ 32 % 2 ^ 19 + t.pitch ≤ x.wg.rec_.scratch) && tenValid (x.ten 1) && wordB x (some 0x80) && reachB x .r (x.sv 4) 4 4),
         mn false, mn true,
         at_ (.selkSum (c .w128 1) 4 5 0xFFFFFFFF) (onS [(4, 2 ^ 32 * 65536), (5, (524288 - 16 - 8 * 256) + 2 ^ 32 * 256)]) (fun x =>
           decide (x.sv 4 / 2 ^ 32 ≤ 65536 ∧ x.sv 5 / 2 ^ 32 % 2 ^ 9 = 256 ∧ x.sv 5 / 2 ^ 41 = 0 ∧ x.sv 4 % 2 ^ 32 % 4 = 0 ∧ x.sv 5 % 2 ^ 32 % 4 = 0
             ∧ x.sv 4 % 2 ^ 32 + 4 * (x.sv 4 / 2 ^ 32) ≤ x.wg.rec_.scratch ∧ x.sv 5 % 2 ^ 32 + 16 + 8 * 256 ≤ x.wg.rec_.scratch)),
         at_ (.selkExp (c .w128 1) 4 5 0x40) (onS [(4, 3), (5, 0 + 2 ^ 32 * 1)]) (fun x => decide (x.sv 4 / 2 ^ 32 = 0 ∧ x.sv 5 / 2 ^ 32 = 1) && wordB x (some 0x40)),
         at_ (.sortr (c .w128 1) true 4 5 0x40) (onS [(4, 2 ^ 32 * 4096), (5, 2 ^ 32 * 16)]) (fun x =>
           decide (x.sv 4 / 2 ^ 32 ≤ 4096 ∧ 0 < x.sv 5 / 2 ^ 32 % 2 ^ 16 ∧ x.sv 5 / 2 ^ 48 = 0 ∧ x.sv 4 % 2 ^ 32 + 8 * 4096 * 16 ≤ x.wg.rec_.scratch) && wordB x (some 0x40))] = true := by decide +kernel

/-- Branches. -/
theorem witness_branches :
    let br (i : Instr) (k : Ctl) : Bool := sees i k (half (lab i)) (fun x => x.act != 0)
    yes [
    br (.bra (c .w64 1) 16 30) (c .w64 1), br (.brcNear (c .w64 1) 1 true 0xFF 30 40) (c .w64 1), br (.brcFar (c1 .w128) 1 false 0xFFFFFF00 30 40) (c1 .w128)] = true := by decide +kernel

/-- An instruction issues with no active, guard-true lane, so that it only goes on. -/
def idle (is_ : List Instr) : Bool := is_.all (fun i => match encFields i with | some e => sees i { e.c with pg := 1 } (onG (fun g => g.setP 1 0) (lab i)) (fun x => x.act == 0) | none => false)
theorem witness_no_lane : idle [
    .copy (c1 .w128) .gl .dsp 0 4 5 6, .copyl (c1 .w64) 4 5, .residPin (c1 .w96) 0x100 4 5, .residRel (c1 .w64) 5, .residStat (c1 .w64) 8 5, .fetch (c1 .w128) 1 4 5 0x80,
    .rkld (c1 .w96) .sp false 1 4 5, .rkswDrop (c1 .w64), .rkswKeep (c1 .w64), .mmul (c1 .w128) (args 0), .mtopk (c1 .w128) (args 0) true, .aalloc (c1 .w96) 3,
    .aallocAny (c1 .w64) 4, .afree (c1 .w96) 3, .aband (c1 .w64) 4 5, .aload (c1 .w96) true false 3 4, .azero (c1 .w96) 3, .adrainNone (c1 .w96) .sp true .rn .nosat 1 4 6,
    .wrd (c1 .w128) 4 95 1, .wmerge (c1 .w96) 31 4 5, .mnormA (c1 .w128) .sp 1 2 4 5 1 96, .selkSum (c1 .w128) 4 5 0x40, .sortr (c1 .w128) true 4 5 0x40,
    .tidsetSet (c1 .w64) .sp 1 4, .tidsetClr (c1 .w64) .sp 1, .tidget (c1 .w64) .cl 1 4, .cxdefOne (c1 .w64) 1 1 4, .cxsplit (c1 .w64) 1 4 5, .cxcurSave (c1 .w64) 1 4,
    .walkdef (c1 .w64) 1 .sp 4, .walk (c1 .w128) 1 (.v 4) (.v 6) (.v 8) 0x40, .ired (c1 .w128) true false 1 (.v 4) (.v 6) 0x40, .plev (c1 .w64) (.s 4), .trap (c1 .w64) 7,
    .sysRd (c1 .w64) 0 4, .sysWr (c1 .w64) 0 (.s 4), .mfence (c1 .w64)] = true := by decide +kernel

/-- PREF of lines that translate. -/
theorem witness_prefetch : at_ (.pref (c .w96 1) 64 (.s 4)) (onS [(4, 0x20F80)]) (fun x => x.lanes.all (fun l => (x.s.lineOf x.wg.ctx (x.popped.addr .gl (.s 4) 64 l)).isSome)) = true := by decide +kernel

/-! Tensor entries, the sifter and the peel. -/

/-- TIDSET .set of a legal image, and of one with a reserved bit, in each space; TIDGET. -/
theorem witness_tensor_entries :
    let im (t : BitVec 1024) (sp : ImSpace) : State → State := match sp with
      | .gl => fun s => s.glWrite 0 0x20F80 (toLE 128 t.toNat)
      | .sp => spPut 524160 (toLE 128 t.toNat)
      | .cl => fun s => s.modCluster 0 (fun k => { k with teams := k.teams.map (fun m => { m with mem := Mem.write m.mem 65408 (toLE 128 t.toNat) }) })
    let fits (x : Iss) (sp : ImSpace) (acc : Acc) (p : Nat) : Bool := p % 16 == 0 && (match sp with
      | .gl => decide (p + 128 ≤ 2 ^ 57) && reachB x acc p 128 16 | .sp => decide (p + 128 ≤ x.wg.rec_.scratch) | .cl => decide (p + 128 ≤ x.wg.rec_.clsram))
    let at4 (sp : ImSpace) : Nat := match sp with | .gl => 0x20F80 | .sp => 524160 | .cl => 65408
    let set (sp : ImSpace) (t : BitVec 1024) (ok : Bool) : Bool := at_ (.tidsetSet (c .w64 1) sp 1 4) (onS [(4, at4 sp)] ∘ im t sp) (fun x =>
      fits x sp .r (x.sv 4) && !x.poisonAt (imSpace sp) false (x.sv 4) 128
      && tenLegal (BitVec.ofNat 1024 (fromLE (x.read x.s (imSpace sp) false (x.sv 4) 128))) == ok)
    let bad := dense 0 ||| BitVec.ofNat 1024 (2 ^ 1023)
    yes ([ImSpace.gl, .sp, .cl].flatMap (fun sp => [set sp (dense 0 &&& ~~~ (BitVec.ofNat 1024 (2 ^ 31))) true, set sp bad false,
      at_ (.tidget (c .w64 1) sp 255 4) (onS [(4, at4 sp)]) (fun x => fits x sp .w (x.sv 4)
        && (sp != .gl || (List.range 128).all (fun i => isPa (x.s.translate x.wg.ctx .w (x.sv 4 + i)))))])) = true := by decide +kernel

/-- A CSR stream of two rows of 8: pointers at 0x20100, coordinates at 0x20200; a dense second stream; and the cursor over row 0. -/
def csr (ndim : Nat) : BitVec 1024 := ten 10 ndim 3 8 2 8 0 0 0x20200 0x20100
def csrData (ptrs idx : List Nat) : State → State := fun s => (s.glWrite 0 0x20100 (ptrs.flatMap (toLE 4))).glWrite 0 0x20200 (idx.flatMap (toLE 4))
def overRow (f : Cursor → Cursor) : State → State := onG (fun g => { g with cur := g.cur.set 1 (f { Cursor.empty with valid := true, ta := 1, da := csr 1, nr := 1 }) })
theorem witness_cursor_setting :
    let df (op : CxOp) (tb : BitVec 1024) (rows : Nat) : Bool :=
      let i : Instr := match op with | .one => .cxdefOne (c .w64 1) 1 1 4 | .and => .cxdefAnd (c .w64 1) 1 1 2 4 | .or => .cxdefOr (c .w64 1) 1 1 2 4
      at_ i (tens [csr 1, tb] ∘ onS [(4, rows)]) (fun x =>
        let t := Ten.of (x.ten 1)
        let u := Ten.of (x.ten 2)
        tenValid (x.ten 1) && decide (3 ≤ t.senc ∧ x.sv 4 / 2 ^ 32 ≠ 0 ∧ x.sv 4 % 2 ^ 32 + x.sv 4 / 2 ^ 32 ≤ t.e1)
        && (op == .one || (tenValid (x.ten 2) && decide ((u.senc = 0 ∨ 3 ≤ u.senc) ∧ u.e0 = t.e0 ∧ (u.ndim ≠ 0 → x.sv 4 % 2 ^ 32 + x.sv 4 / 2 ^ 32 ≤ u.e1)))))
    let sp (f : Cursor → Cursor) (ok : Bool) : Bool := at_ (.cxsplit (c .w64 1) 1 4 5) (overRow f ∘ onS [(4, 2 ^ 32 - 1), (5, 63 + 2 ^ 8 * 63)]) (fun x =>
      let k := x.gr.cursor 1
      let u := x.sv 5
      decide (k.valid = true ∧ k.split = none ∧ k.begun = false) == ok && decide (x.sv 4 % 2 ^ 32 ≠ 0 ∧ u % 2 ^ 6 ≤ u / 2 ^ 8 % 2 ^ 6 ∧ u / 2 ^ 6 % 4 = 0 ∧ u / 2 ^ 14 = 0))
    yes [df .one 0 (2 ^ 32 * 2), df .and (csr 1) (1 + 2 ^ 32), df .or (ten 10 0 0 8 0 0 0 0 0 0) (2 ^ 32 * 2), sp id true, sp (fun k => { k with valid := false }) false,
         sp (fun k => { k with begun := true }) false, sp (fun k => { k with split := some (1, 0, 2) }) false] = true := by decide +kernel

/-- CXFILL: an invalid cursor; one that has ended; a row of two pairs for eight lanes; a row out of order; an unreadable pointer; an absent one. -/
theorem witness_cursor_fill :
    let i : Instr := .cxfill (c .w128 1) 1 8 5 32
    let fill (f : State → State) (q : Except Stop (List CxPair × Cursor) → Bool) : Bool := at_ i f (fun x =>
      (x.gr.cursor 1).valid && !(x.gr.cursor 1).ended && q ((x.gr.cursor 1).fill x.rd x.lanes.length))
    let far (p : Nat) : Cursor → Cursor := fun k => { k with da := ten 10 1 3 8 2 8 0 0 0x20200 p }
    yes [at_ i id (fun x => !(x.gr.cursor 1).valid), at_ i (overRow (fun k => { k with ended := true })) (fun x => (x.gr.cursor 1).valid && (x.gr.cursor 1).ended),
         sees (.cxfill (c0 .w128) 1 8 5 32) (c0 .w128) (overRow id (lab i)) (fun x => (x.gr.cursor 1).valid && x.act == 0),
         fill (overRow id ∘ csrData [0, 2] [0, 7]) (fun r => match r with
           | .ok (ps, k) => ps == [{ row := 0, c := 0, posA := 0, posB := 0xFFFFFFFF }, { row := 0, c := 7, posA := 1, posB := 0xFFFFFFFF }] && k.ended | .error _ => false),
         fill (overRow id ∘ csrData [0, 2] [7, 7]) (fun r => match r with | .error (.unsorted false false 1 0x20204) => true | _ => false),
         fill (overRow (far (2 ^ 57))) (fun r => match r with | .error (.trap 0x09 0 _) => true | _ => false),
         fill (overRow (far 0x30000)) (fun r => match r with | .error (.park 0x30000 _) => true | _ => false)] = true := by decide +kernel

/-- CXCUR .save, .load of what .save wrote, .info of an invalid and of a valid cursor. -/
theorem witness_cursor_state :
    let fits (x : Iss) : Bool := decide (x.sv 4 % 2 ^ 32 % 16 = 0 ∧ x.sv 4 % 2 ^ 32 + 16 ≤ x.wg.rec_.scratch)
    let sv : Cursor := { Cursor.empty with valid := true, ta := 1, da := csr 1, nr := 1, ia := 1 }
    yes [at_ (.cxcurSave (c .w64 1) 1 4) (onS [(4, 524272)] ∘ overRow id) fits,
         at_ (.cxcurLoad (c .w64 1) 1 4) (onS [(4, 16)] ∘ onX (fun k => { k with saved := [(9, sv)] })) (fun x => fits x && !x.wg.poisoned .scratch 16 16
           && match Tab.get x.s.ctxs x.wg.ctx with | some w => decide (Tab.get w.saved 9 = some sv) | none => false),
         at_ (.cxcurInfo (c .w64 1) 1 4) id (fun x => !(x.gr.cursor 1).valid), at_ (.cxcurInfo (c .w64 1) 1 4) (overRow id) (fun x => (x.gr.cursor 1).valid)] = true := by decide +kernel
/-- The scratchpad that it loads from: the image stands in 16 bytes of it, whatever check the image carries. -/
theorem witness_cursor_image (n : Nat) : Mem.readN (Mem.write [] 16 (toLE 16 (cursorImage n))) 16 16 = cursorImage n % 2 ^ 128 := by
  have h := Mem.read_write_same [] 16 (toLE 16 (cursorImage n))
  rw [length_toLE] at h
  rw [Mem.readN, h, fromLE_toLE, show (256 : Nat) ^ 16 = 2 ^ 128 from rfl]

/-- WALKDEF of a legal program of one rule `hit`, and of one whose only rule goes to itself; WALK and IRED with room and without. -/
theorem witness_walks_bags :
    let prog (rule : Nat) : State → State := spPut 524256 (toLE 16 (1 + 2 ^ 32) ++ toLE 16 rule)
    let def_ (rule : Nat) (ok : Bool) : Bool := at_ (.walkdef (c .w64 1) 15 .sp 4) (onS [(4, 524256)] ∘ prog rule) (fun x =>
      let h := fromLE (x.read x.s .sp false 524256 16)
      x.sv 4 == 524256 && decide (524256 + 32 ≤ x.wg.rec_.scratch ∧ h % 2 ^ 5 = 1) && !x.poisonAt .sp false 524256 32
      && (walkProg h ((List.range 1).map (fun i => BitVec.ofNat 128 (fromLE (x.read x.s .sp false (524256 + 16 + 16 * i) 16))))).isSome == ok)
    let hit : WalkProg := { nr := 1, rs := 16, pol := 0, lim := 1, rules := [4] }
    let walkOp (n : Nat) : EngOp :=
      { id := 8, wg := 1, grp := 5, cls := 5, pc := 0, ctx := 0, launch := 0, team := 0, word := none, parked := none, early := [], nonce := 0,
        bad := false, kind := .walk hit (List.replicate n (walkStart hit 0 0 0 0)) }
    let bagOp (n : Nat) : EngOp := { walkOp 0 with cls := 6, kind := .ired false false 0 (List.replicate n { lane := 0, list := 0, dest := 0, parked := none }) }
    let walk (n : Nat) : Bool := at_ (.walk (c .w128 1) 15 (.v 4) (.v 6) (.v 8) 0x40) (onV 8 (fun l => 32 * l) ∘ onX (fun k => { k with walks := [(15, hit)] })
        ∘ onK (fun k => { k with eng := [walkOp n] })) (fun x =>
      x.lanes.all (fun l => decide (x.popped.w32 (.v 8) l % 16 = 0 ∧ x.popped.w32 (.v 8) l + 16 + 16 ≤ x.wg.rec_.scratch)) && wordB x (some 0x40)
      && decide ((x.s.core x.core).walks = n ∧ (n = 1016 → n + x.lanes.length ≤ 1024) ∧ (n = 1017 → n + x.lanes.length > 1024)))
    let ired (bf : Bool) (n : Nat) : Bool := at_ (.ired (c .w128 1) true bf 1 (.v 4) (.v 6) 0xFFFFFFFF) (tens [ten 10 1 0 4096 100 4096 0x20000 0 0 0] ∘ onV 4 (fun _ => 0x20000) ∘ onV 6 (fun l => 0x20100 + 4 * l)
        ∘ onK (fun k => { k with eng := [bagOp n] })) (fun x =>
      let t := Ten.of (x.ten 1)
      tenValid (x.ten 1) && decide ((t.fmt = 0 ∨ t.fmt = 10) ∧ t.slay = 0 ∧ t.senc = 0 ∧ t.ndim ≠ 0 ∧ t.e0 ≤ 4096)
      && x.lanes.all (fun l => decide (x.popped.w64 (.v 4) l % 4 = 0 ∧ x.popped.w64 (.v 4) l < 2 ^ 57 ∧ x.popped.w64 (.v 6) l % (if bf then 2 else 4) = 0 ∧ x.popped.w64 (.v 6) l < 2 ^ 57))
      && decide ((x.s.core x.core).bags = n ∧ (n = 248 → n + x.lanes.length ≤ 256) ∧ (n = 249 → n + x.lanes.length > 256)))
    yes [def_ 4 true, def_ 0 false, walk 1016, walk 1017, ired false 248, ired true 249] = true := by decide +kernel

/-! System instructions and traps. -/

/-- ENGWAIT with nothing outstanding, and with an oven operation and a copy of the group; PLEV 1 and 2; SYS .rd 0 to 3 and .wr at the ends of the ranges. -/
theorem witness_system :
    let ew (f : State → State) (ended : Bool) : Bool := at_ (.engwait (c .w64 1) 0x41) f (fun x =>
      decide ((∀ o ∈ (x.s.core x.core).eng, o.grp = x.gr.uid → (0x41 : BitVec 8).getLsbD o.cls = false)) && (x.s.core x.core).ovenQ.all (fun o => o.grp != x.gr.uid) == ended)
    let pl (n : Nat) (ok : Bool) : Bool := at_ (.plev (c .w64 1) (.s 4)) (onS [(4, n)]) (fun x => decide (x.popped.w64 (.s 4) 0 ≤ 1) == ok)
    let rd (n : BitVec 8) : Bool := at_ (.sysRd (c .w64 1) n 4) id (fun _ => true)
    let wr (n : BitVec 8) (v : Nat) (ok : Bool) : Bool := at_ (.sysWr (c .w64 1) n (.s 4)) (onS [(4, v)]) (fun x =>
      let v := x.popped.w64 (.s 4) 0
      decide ((n = 0 ∧ v % 4 = 0 ∧ v < 2 ^ 32) ∨ (n = 1 ∧ v % 2 ^ 11 = 0 ∧ v < 2 ^ 57)) == ok)
    yes [ew id true, ew (onK (fun k => { k with ovenQ := [{ anOven (args 0) with grp := k.grps.head?.elim 0 (fun e => e.2.uid) }] })) false,
         sees (.engwait (c0 .w64) 0xFF) (c0 .w64) (queued 0 (lab (.engwait (c0 .w64) 0xFF))) (fun x => x.act == 0),
         pl 1 true, pl 2 false, rd 0, rd 1, rd 2, rd 3, rd 255, wr 0 (2 ^ 32 - 4) true, wr 0 2 false, wr 0 (2 ^ 32) false, wr 1 (2 ^ 57 - 2048) true, wr 1 1024 false, wr 1 (2 ^ 57) false,
         wr 2 0 false, at_ (.trap (c .w64 1) 255) id (fun _ => true), sees (.brk (c0 .w64)) (c0 .w64) (lab (.brk (c0 .w64))) (fun x => x.act == 0)] = true := by decide +kernel

/-- A state from the small one of NOP by f: q says what a statement assumes of it, its group in slot 0, and its workgroup. -/
def inLab (f : State → State) (q : State → Group → Workgroup → Bool) : Bool :=
  let s := f (lab (.nop (c .w64 1)))
  match s.grp 0 0, (s.core 0).wgOf 1 with | some x, some (0, w) => x.wg == 1 && q s x w | _, _ => false
/-- The group in another state. -/
def stat (st : GStatus) : State → State := onG (fun g => { g with status := st })
/-- A halt that the group began, whose frames are at 0x20000; and its handler running. -/
def halting : State → State := onW (fun w => { w with halt := some { init := 2, frame := 0x20000, wait := none }, tvec := 0x40, tframe := 0x20000 })
def handling : State → State := onW (fun w => { w with handler := some 2 }) ∘ halting
/-- Frames of the groups in slots 0 and 1, of one live lane each; with PEND in the second. -/
def framed (pend : Bool) : State → State := fun s =>
  let put (g : Nat) (n : Nat) (s : State) : State :=
    let a := 0x20000 + 0x800 * g
    ((s.glWrite 0 a (toLE 4 n)).glWrite 0 (a + 0x20) [1]).glWrite 0 (a + 0x40) (toLE 4 loadAt)
  put 1 (if pend then 0x0F + 2 ^ 17 else 0) (put 0 (0x20 + 2 ^ 16) s)
/-- A page of data of two pages' size, for frames. -/
def bigPage : State → State := onX (fun k => { k with pages := k.pages.map (fun p => if p.w then { p with size := 65536 } else p) })

/-- Acquires of completions: of an MMUL on its bank, intact, and one whose result was read early. -/
theorem witness_acquires :
    let done (bad : Bool) : State → State := onW (fun w => { w with done := [{ id := 7, grp := 2, word := none, gen := 0, op := some (anOven (args 3)), banks := [3], rows := [(24, 0)], lists := [], stats := [3], at_ := 0, norm := none, bad := bad, nonce := 4 }] })
    let p (bad : Bool) : Bool := inLab (done bad ∘ banks [(3, bankOf 1 .fp32)]) (fun s _ w => match w.done with
      | [d] => d.spoilt w == bad && d.norm.isNone && (match d.op with | some o => !o.topk && decide (o.x.n.toNat ≤ 192 ∧ 0 < o.x.m.toNat) && o.x.af == 3 | none => false) && d.rows.contains (24, 0) && (s.core 0).owns 1 3
      | _ => false)
    yes [p false, p true] = true := by decide +kernel
/-- A trap outside the handler, in a workgroup that halts already, and in the handler. -/
theorem witness_trap_taking : yes [inLab id (fun _ x w => w.handler != some x.uid && w.halt.isNone), inLab halting (fun _ x w => w.handler != some x.uid && w.halt.isSome),
    inLab handling (fun s x w => w.handler == some x.uid && match Tab.get s.launches w.launch with | some l => !l.failed | none => false)] = true := by decide +kernel
/-- Marked traps at a pick; the other group of a halting workgroup; frames to be written, with a handler, without, and without a page for them. -/
theorem witness_halting : yes [
    inLab (onG (fun g => { g with imprec := [impTrap 0x0F 3] })) (fun _ x _ => x.status == .runnable && x.pick.isSome && !x.imprec.isEmpty),
    inLab (onG (fun g => { g with imprec := [impTrap 0x22 1], kept := some (.stalled 1) })) (fun _ x _ => x.status == .runnable && x.pick.isSome && (x.imprec.head?.map TrapInfo.no) == some 0x22),
    inLab (second .vector ∘ stat .trapped ∘ halting) (fun s _ w => w.halt.isSome && w.handler.isNone && match s.grp 0 1 with | some y => y.wg == 1 && y.status != .trapped | none => false)]
    = true := by decide +kernel
theorem witness_handler_entry :
    let p (f : State → State) (ok : Bool) : Bool := inLab (f ∘ onK (fun k => { k with grps := k.grps.map (fun e => (e.1, { e.2 with status := .trapped })) }) ∘ second .vector ∘ halting ∘ bigPage) (fun s x w =>
      let live := (s.core 0).grps.filter (fun e => e.2.wg == 1 && decide (e.1 < 32))
      w.handler.isNone && (s.core 0).stopped 1 && live.map Prod.fst == [0, 1] && (live.find? (fun e => e.2.uid == 2)) == some (0, x)
      && (decide (w.tframe ≠ 0 ∧ w.tvec ≠ 0) && live.all (fun e => nearB s 0 .w (w.tframe.toNat + 0x800 * e.1) 0x440)) == ok
      && match Tab.get s.launches w.launch with | some l => !l.failed | none => false)
    yes [p id true, p (onW (fun w => { w with tvec := 0 })) false, p (onW (fun w => { w with tframe := 0x2F800 })) false] = true := by decide +kernel
/-- RFT outside the handler; in it, with frames of two groups, without PEND and with PEND in the second. -/
theorem witness_trap_return :
    let i : Instr := .rft (c .w64 1)
    let p (pend : Bool) : Bool := at_ i (handling ∘ framed pend ∘ second .vector ∘ bigPage) (fun x =>
      let gs := (x.s.core x.core).slotsOf x.wg.uid
      let cause (g : Nat) : Nat := x.s.frameField x.wg g 0 8
      x.wg.handler == some x.gr.uid && gs == [0, 1] && x.s.hbmPoison.isEmpty
      && gs.all (fun g => nearB x.s 0 .r (x.wg.haltAt g) 0x440 && decide (cause g / 2 ^ 32 = 0) && !(cause g).testBit 23 && (cause g).testBit 17 == (pend && g == 1)
        && match x.s.grp x.core g with | some z => z.wg == x.wg.uid && !(x.s.rebuilt x.wg g z.width).isEmpty | none => false))
    yes [at_ i id (fun x => x.wg.handler != some x.gr.uid), p false, p true] = true := by decide +kernel

/-- The checks of an issue: an operand beyond the declared registers, a role, an undersized stall, a wait for a result, an empty queue. -/
theorem witness_issue_checks :
    let p (i : Instr) (f : State → State) (q : Iss → Bool) : Bool := match encFields i with
      | some e => (match (f (lab i)).issue i e.c with | some x => q x | none => false) | none => false
    let add (a : Opnd) : Instr := .iadd (c .w64 4) { ty := .i32, sat := false } (.v 3) (.v 1) a
    let late : Group → Group := fun g => { g with gctl := 1, pend := [{ old := [{ reg := .v 1, lanes := [] }], left := 2, landed := false, fl := false, nonce := 0 }] }
    yes [p (add (.v 16)) id (fun x => (operandSub x.wg x.gr (add (.v 16))).isSome),
         p (.copyl (c .w64 1) 4 5) (onG (fun g => { g with role := .vector })) (fun x => (operandSub x.wg x.gr (.copyl (c .w64 1) 4 5)).isNone && !roleOk (.copyl (c .w64 1) 4 5) x.gr.role),
         p (add (.v 2)) (onG late) (fun x => (operandSub x.wg x.gr (add (.v 2))).isNone && roleOk (add (.v 2)) x.gr.role && x.gr.gctl.getLsbD 0 && undersized x.gr (add (.v 2)) (c .w64 4)),
         p (add (.v 2)) (onG (fun g => { g with sb := [{ regs := [.v 1], req := 0, fl := false }] })) (fun x => x.pre == .wait),
         p (add (.h 2)) (onW (fun w => { w with queues := List.replicate 8 (Queue.fresh 1 0 2) })) (fun x => x.pre == .block)] = true := by decide +kernel

/-! Events. -/

/-- A granule of zeros, number 1 of its group and of its image, in the HBM of the context. -/
def granuleAt : State → State := fun s => s.hbmWrite (s.ownKey 0) 0x8000 (Segment.make 0x0A 1 1 (List.replicate 256 0)).bytes
/-- An arbiter that holds a request. -/
def holding (n : Nat) : State → State := fun s => { s with arbs := [(0, { Arb.reset with queue := [{ id := n, ctx := 0, n := 4 }] })] }
/-- Counts, results, releases and lazy granules. -/
theorem witness_group_events : yes [
    inLab (stat (.stalled 3)) (fun _ x _ => x.status == .stalled 3 && x.due == none),
    inLab (holding 8 ∘ onG (fun g => { g with status := .stalled 3, due := some 7 })) (fun s x _ => x.due == some 7 && s.arbs.all (fun a => a.2.queue.all (fun r => r.id != 7))),
    inLab (holding 7 ∘ onG (fun g => { g with status := .stalled 3, due := some 7 })) (fun s x _ => x.due == some 7 && s.arbs.any (fun a => a.2.queue.any (fun r => r.id == 7))), inLab (stat (.bkoff 9)) (fun _ x _ => x.status == .bkoff 9),
    inLab (onG (fun g => { g with pend := [{ old := [], left := 2, landed := false, fl := false, nonce := 0 }] })) (fun _ x _ => match x.pend[0]? with | some p => !p.landed | none => false),
    inLab (onG (fun g => { g with sb := [{ regs := [.v 1], req := 7, fl := true }] })) (fun s x _ => match x.sb[0]? with
      | some e => s.arbs.all (fun a => a.2.queue.all (fun r => r.id != e.req)) | none => false),
    inLab (onK (fun k => { k with grps := k.grps ++ [(34, { loadGroup .vector 8 with fr := [], status := .exited })] })) (fun s _ _ => match s.grp 0 34 with | some y => y.sb.isEmpty && y.pend.all (fun p => p.landed) | none => false),
    inLab (granuleAt ∘ onG (fun g => { g with absent := [(0, 4096, 0), (1, 0x8000, 1)] })) (fun s x w => match x.absent with
      | [a, b] => s.granuleOf w.ctx a == none && s.granuleOf w.ctx b == some (List.replicate 256 0) | _ => false)] = true := by decide +kernel
/-- The core is its context's owner's. -/
def owned : State → State := fun s => onK (fun k => { k with owner := some (s.ownerOf 0) }) s
/-- The proofer: a SPAWN that waits, a full bin, a flush of a bin that is not full, and a formed group with room. -/
theorem witness_proofer :
    let items (n : Nat) : State → State := onK (fun k => { k with items := List.replicate n { wg := 1, e := 2, p0 := 5, p1 := 6 } })
    yes [inLab (stat (.spawning (.spawn (c .w64 1) 2 (.v 5) (.v 6)) (BitVec.ofNat 64 loadAt) 3 [(1, 2), (3, 4)]) ∘ items 510) (fun s x _ => x.wg == 1 && decide ((s.core 0).itemCount + 2 ≤ 512)),
         inLab (items 9) (fun s _ w => decide (0 < w.rec_.spw ∧ w.rec_.spw ≤ ((s.core 0).bin 1 2).length)),
         inLab (items 3 ∘ stat (.blocked { instr := .nop (c .w64 1), pc := 0, mask := 1, done := 0, abort := false, lost := false })) (fun s _ w =>
           (s.core 0).flushable w && !((s.core 0).bin 1 2).isEmpty && ((s.core 0).bin 1 0).isEmpty && ((s.core 0).bin 1 1).isEmpty),
         inLab (onW (fun w => { w with formed := [(7, 2, [(1, 2), (3, 4)])] }) ∘ owned ∘ onX (fun k => { k with privTop := 0x20000 })) (fun s _ w =>
           w.halt.isNone && (w.rec_.spawns[2]?).isSome && (s.core 0).freeSlot none 31 && s.openBlk 0 0 { off := 0, width := 8, row := 2, rows := rowsFor 8 })] = true := by decide +kernel

/-- A copy of 64 bytes of the workgroup: from global memory to its own scratchpad; and an operation of another kind. -/
def anOp (k : EngKind) : EngOp :=
  { id := 8, wg := 1, grp := 2, cls := 1, pc := 0, ctx := 0, launch := 0, team := 0, word := some 0x400, kind := k, parked := none, early := [], bad := false, nonce := 0 }
def anyCopy : EngOp := anOp (.copy .gl .dsp 0x20000 64 64 (some 3) false false [{ wg := 1, next := 0, out := [] }])
def running (o : EngOp) : State → State := onK (fun k => { k with eng := [o] })
/-- An ENGWAIT whose operations are over, and one that waits; a parked group whose page is there, and is not; a parked copy likewise. -/
theorem witness_wakes :
    let ew : GStatus := .blocked { instr := .engwait (c .w64 1) 2, pc := BitVec.ofNat 64 loadAt, mask := 1, done := 0, abort := false, lost := false }
    let pk (a : DWord) : GStatus := .parked { instr := .nop (c .w64 1), pc := BitVec.ofNat 64 loadAt, mask := 1, addr := a, inBuf := true, fetch := false, late := none }
    let wakes (f : State → State) (b : Bool) : Bool := inLab (stat ew ∘ f) (fun s x w => match x.status with | .blocked k => s.wakes 0 0 x w k == b | _ => false)
    let absent (a : DWord) (b : Bool) (s : State) : Bool := decide (s.translate 0 .r a.toNat = .absent) == b
    let op (a : DWord) (b : Bool) : Bool := inLab (running { anyCopy with parked := some a }) (fun s _ _ => match (s.core 0).op 8 with | some o => o.parked == some a && absent a b s | none => false)
    yes [wakes id true, wakes (running anyCopy) false, inLab (stat (pk 0x20FFF)) (fun s _ _ => absent 0x20FFF false s), inLab (stat (pk 0x21000)) (fun s _ _ => absent 0x21000 true s),
         op 0x20000 false, op 0x30000 true] = true := by decide +kernel

/-- State.alive, and an operation in flight whose word, if any, is calm and apart from what the operation writes. -/
def aliveB (s : State) : Bool := (s.core 0).grps.any (fun e => decide (e.1 < 32) && e.2.wg == 1)
def calmB (s : State) (word : Option Nat) (ws : List (Byt × Byte)) : Bool :=
  match word with
  | none => true
  | some k => !(SWord.ofNat (s.word (.sp 0 1 k))).ten && ws.all (fun e => match e.1 with | .sp q g a => decide (q = 0 → g = 1 → a < k ∨ k + 16 ≤ a) | _ => true)
theorem calm_of {s : State} {word : Option Nat} {ws : List (Byt × Byte)} (h : calmB s word ws = true) : s.calmWord 0 1 word ws := by
  intro k hk
  cases word with
  | none => cases hk
  | some w =>
    simp only [Option.mem_def, Option.some.injEq] at hk
    subst hk
    simp only [calmB, Bool.and_eq_true, Bool.not_eq_true', List.all_eq_true] at h
    refine ⟨h.1, fun e he i hi hh => ?_⟩
    have hb := h.2 e he
    rcases hh with hh | ⟨_, _, _, _, _, hh, -⟩
    · rw [hh] at hb
      have := of_decide_eq_true hb rfl rfl
      omega
    · cases hh
/-- The word that an operation names holds zeros. -/
def zeroed (word : Option Nat) : State → State := match word with | some a => spPut a (List.replicate 16 0) | none => id
/-- An operation in flight: what a statement assumes of it. -/
def inOp (o : EngOp) (f : State → State) (q : State → EngOp → Bool) : Bool :=
  inLab (zeroed o.word ∘ running o ∘ f) (fun s _ _ => match (s.core 0).op 8 with | some p => p == o && p.parked.isNone && aliveB s && q s p | none => false)
/-- A global range that an access may use at once. -/
def clearB (s : State) (o : EngOp) (accs : List (Acc × Nat × Nat)) : Bool := decide (s.ways o.ctx accs = .clear) && s.granted (clusterOf 0) (s.tcOf o.launch) (s.accSectors o.ctx accs)

/-- A sector of a copy from every source to every place of the cluster, with and without SF and an overlap; sectors of a copy to global memory in and out of order, and its end; a
row of a fetch inside and outside the tensor, and of one whose index has been read; a residency fill. -/
theorem witness_copy_landings :
    let has (s : State) (src : CSrc) (a : Nat) : Bool := match src with
      | .gl => nearB s 0 .r a 32 && s.granted 0 (s.tcOf 0) (s.sectors 0 .r a 32) | .cl => (s.team 0 0 0).isSome | _ => ((s.core 0).wgOf 1).isSome
    let cp (src : CSrc) (dst : CDst) (a da : Nat) (sf ov : Bool) : Bool := inOp (anOp (.copy src dst a da 64 (some 3) sf ov [{ wg := 1, next := 1, out := [] }])) id (fun s o =>
      has s src (a + 32) && s.coreOf 0 1 == some 0
      && calmB s o.word ((List.range 32).map (fun i => (match dst with | .dsp => Byt.sp 0 1 (da + 32 + i) | .dtm => .tm 0 1 (da + 32 + i) | _ => .cl 0 0 0 (da + 32 + i), 0))))
    let out (src : CSrc) (a j : Nat) (r : Recv) : Bool := inOp (anOp (.copy src .dgl a 0x20040 64 none false false [r])) id (fun s o =>
      has s src (a + 32 * j) && decide (32 * j < 64 ∧ r.next ≤ j) && !r.out.contains j && nearB s 0 .w (0x20040 + 32 * j) 32
      && s.granted 0 (s.tcOf 0) (s.copySecs o src .dgl (a + 32 * j) (0x20040 + 32 * j)))
    let ft (seen : Tab Nat) (idx : Nat) : Bool :=
      let tab := ten 10 1 0 8 100 8 0x20000 0 0 0
      inOp { anOp (.fetch tab 0x20FFC 1 0x800 [0] seen) with word := some 0x80 } (fun s => s.glWrite 0 0x20FFC (toLE 4 idx)) (fun s o =>
        let t := Ten.of tab
        let i := (Tab.get seen 0).getD (fromLE (s.glRead 0 0x20FFC 4))
        let p := t.rowAt i
        i == idx && nearB s 0 .r 0x20FFC 4 && (decide (t.e1 ≤ i) || nearB s 0 .r p.1 p.2) && s.granted 0 (s.tcOf 0) (s.fetchSecs o t 0x20FFC 0 i seen)
        && calmB s o.word ((List.range t.pitch).map (fun j => (.sp 0 1 (0x800 + j), 0))))
    yes [cp .gl .dsp 0x20000 64 false false, cp .gl .dsp (0x20000 + 4032) 64 true false, cp .sp .dtm 0 0x400 false false, cp .cl .dsp 0 0x410 true false, cp .tm .dcl 0 0x400 false false,
         cp .sp .dsp 0 32 false true, out .gl 0x20000 1 { wg := 1, next := 0, out := [] }, out .tm 0 0 { wg := 1, next := 0, out := [1] },
         inOp (anOp (.copy .sp .dgl 0 0x20000 64 none false false [{ wg := 1, next := 2, out := [] }])) id (fun s o => calmB s o.word []), ft [] 99, ft [] 100, ft [(0, 99)] 99,
         inOp (anOp (.resid 0 0x20000 1 0 0)) (pinned 0 true) (fun s o => (match Tab.get (s.cluster 0).resid 0 with
           | some r => decide (r.ctx = 0 ∧ r.launch = 0 ∧ r.vbase = 0x20000 ∧ r.len = 1 ∧ r.cloff = 0) | none => false) && calmB s o.word [])]
    = true := by decide +kernel
/-- Its sectors: every page of the entry is present. -/
theorem witness_residency_fill : inLab (pinned 0 true) (fun s _ _ => nearB s 0 .r 0x20000 4096 && s.granted 0 (s.tcOf 0) (s.sectors 0 .r 0x20000 4096)) = true := by decide +kernel

/-- The oven: a first step with the shadow rack and one with the active rack, a checkpoint, two partners, one alone, and the end of an MMUL and of an MTOPK. -/
theorem witness_oven_steps :
    let o8 (f : OvenOp → OvenOp) : OvenOp := f { anOven (args 3) with x := { args 3 with m := 8, n := 1 }, word := some 0x100 }
    let p (o : OvenOp) (f : State → State) (q : State → Core → OvenOp → Bool) : Bool := inLab (zeroed o.word ∘ onK (fun k => { k with ovenQ := [o], banks := [(3, bankOf 1 .fp32)] }) ∘ f) (fun s _ _ =>
      aliveB s && match (s.core 0).ovenQ with | [q'] => q' == o && q s (s.core 0) o | _ => false)
    let begins (o : OvenOp) (s : State) (k : Core) : Bool :=
      let ta := Ten.of o.da
      let tb := Ten.of o.db
      let x0 := 32 * kgOf tb.fmt * (o.s0 + o.steps.length)
      let accs := glAccs o.x.space .r (ta.ranges x0 (x0 + 32 * kgOf tb.fmt) o.r0 (o.r0 + o.m)) ++ glAccs .gl .r (if o.topk && o.steps.isEmpty then
        [(ta.nbase, ta.nbase + 128 * o.s * o.m), (tb.nbase, tb.nbase + 128 * o.s * o.n)] else [])
      o.mayBegin k && decide (s.ways o.ctx accs = .clear) && s.granted (clusterOf 0) (s.tcOf o.launch) (s.accSectors o.ctx accs)
    let mid (o : OvenOp) : OvenOp :=
      { o with topk := true, steps := [rackOf .ready 1], rows := [List.replicate 8 []], compA := List.replicate 8 [], compB := [[]], thr := List.replicate 8 .ninf,
               dead := List.replicate 8 [none], rowEnd := List.replicate 8 none }
    let done (o : OvenOp) : OvenOp := { mid o with topk := false, row := 8 }
    yes [p (o8 id) (onK (fun k => { k with shadow := rackOf .ready 1 })) (fun s k o => begins o s k),
         p (o8 (fun o => { o with x := { o.x with res := true } })) (onK (fun k => { k with active := rackOf .ready 1 })) (fun s k o => begins o s k),
         p (o8 (fun o => { o with topk := true, da := ten 2 1 0 32 96 32 0 0x20000 0 0, db := ten 2 1 0 32 96 32 0 0x20400 0 0 })) (onK (fun k => { k with shadow := rackOf .ready 1 })) (fun s k o => begins o s k),
         p (o8 mid) id (fun _ _ o => o.topk && o.parked.isNone && !o.steps.isEmpty && decide (o.row < o.m)),
         p (o8 (fun o => { mid o with row := 8, part := some 1, pxm := some true })) id (fun _ _ o => o.atBoundary && o.pxm == some true),
         p (o8 (fun o => { mid o with row := 8, part := some 1 })) (fun s => s.modCore 1 (fun k => { k with ovenQ := [o8 (fun o => { mid o with row := 8, part := some 0 })] })) (fun s _ o =>
           o.atBoundary && o.part == some 1 && match (s.core 1).ovenQ with | [r] => r.atBoundary && r.part == some 0 && r.pxm == o.pxm && r.steps.length == o.steps.length | _ => false),
         p (o8 done) id (fun s k o => o.parked.isNone && decide (o.steps.length = o.s ∧ o.m ≤ o.row ∧ o.n ≤ 192) && o.part.isNone && o.rofs.isNone && !o.bad && !o.poison && !k.active.poison
           && k.poison.isEmpty && !s.hit 0 1 o.id && calmB s o.word [] && k.owns 1 (o.x.af.val + 7 / 8)),
         p (o8 (fun o => { mid o with row := 8, part := some 1, sent := true })) id (fun s k o => o.parked.isNone && decide (o.steps.length = o.s ∧ o.m ≤ o.row ∧ o.n ≤ 192) && o.sent && o.rofs.isNone
           && !o.bad && !o.poison && !k.active.poison && k.poison.isEmpty && !s.hit 0 1 o.id && calmB s o.word [])] = true := by decide +kernel

/-- RKLD, MNORM, ADRAIN, SELK and SORTR in flight. -/
theorem witness_engine_results :
    let small (base nbase : Nat) : BitVec 1024 := ten 2 1 0 32 2 32 base nbase 0 0
    let r32 (t : Ten) : List (Nat × Nat) := t.ranges 0 (32 * kgOf t.fmt) 0 192
    yes [inOp (anOp (.rkld .sp (small 0 0) 0 0)) (onK (fun k => { k with shadow := rackOf .loading 1 })) (fun s o => clearB s o (glAccs .sp .r (r32 (Ten.of (small 0 0))))
           && (s.core 0).shadow.status == .loading && (s.core 0).shadow.owner == some 1 && calmB s o.word []),
         inOp (anOp (.rkld .gl (small 0x20000 0) 0 0)) (onK (fun k => { k with shadow := rackOf .loading 1 })) (fun s o => clearB s o (glAccs .gl .r (r32 (Ten.of (small 0x20000 0))))
           && (s.core 0).shadow.status == .loading && (s.core 0).shadow.owner == some 1 && calmB s o.word []),
         inOp (anOp (.mnorm false .sp (small 0 0x20000) (small 0 0) 0 0 2 1)) id (fun s o => clearB s o (glAccs .sp .r (r32 (Ten.of (small 0 0x20000))) ++ [(.w, 0x20000, 256)]) && !o.bad && !s.hit 0 1 o.id && nearB s 0 .w 0x20000 256 && calmB s o.word []),
         inOp (anOp (.mnorm true .gl (small 0x20400 0x20000) (small 0x20400 0) 0 0 2 1)) id (fun s o =>
           let rs := (Ten.of (small 0x20400 0)).ranges 0 (32 * kgOf 2) 0 2
           clearB s o (glAccs .gl .r rs ++ [(.w, 0x20000, 256)]) && !s.rangesPoison 0 1 0 .gl rs && rs.all (fun r => !meet r.1 (r.2 - r.1) 0x20000 256) && !s.hit 0 1 o.id && nearB s 0 .w 0x20000 256 && calmB s o.word []),
         inOp (anOp (.selk true 0x1000 4 0x2000 2)) id (fun s o => !s.ePoison 0 1 0 .sp 0x1000 16 && !meet 0x1000 16 0x2000 32
           && calmB s o.word ((List.range 32).map (fun i => (.sp 0 1 (0x2000 + i), 0)))),
         inOp (anOp (.sortr true 0x1000 4 0x1000 2)) id (fun s o => !s.ePoison 0 1 0 .sp 0x1000 64 && calmB s o.word ((List.range 64).map (fun i => (.sp 0 1 (0x1000 + i), 0))))]
    = true := by decide +kernel
/-- Byt.hits. -/
def hitsB (p q : Byt) : Bool := p == q || (match p, q with | .hbm a k, .hbm b j => a / 64 == b / 64 && (a == b || k != j) | _, _ => false)
theorem hits_of {p q : Byt} (h : hitsB p q = false) : ¬ p.hits q := by
  simp only [hitsB, Bool.or_eq_false_iff, beq_eq_false_iff_ne] at h
  rintro (hh | ⟨a, k, b, j, rfl, rfl, hl, hd⟩)
  · exact h.1 hh
  · have := h.2
    simp only [hl, beq_self_eq_true, Bool.true_and, Bool.or_eq_false_iff, beq_eq_false_iff_ne, bne_eq_false_iff_eq] at this
    exact hd.elim this.1 (fun hk => hk this.2)
/-- ADRAIN of two rows without pruning, with 2:4 and with 4:8, into scratchpad and global memory, with and without a MAX word that lies apart. -/
theorem witness_drain_results :
    let p (prune : Nat) (sp : BSpace) (base pbase nc : Nat) (mx : Option DWord) : Bool :=
      let tab := ten 10 1 prune 192 96 192 base 0 pbase 0
      inOp (anOp (.adrain prune sp mx .rn .nosat tab 0 0 0 2 0 nc [])) (banks [(0, bankOf 1 .fp32)]) (fun s o =>
        let t := Ten.of tab
        let k := s.core 0
        let rows := k.drainRows o 0 2 0 nc [] false
        let num (sp : BSpace) : Rdr := s.oNum 0 o.wg o.ctx o.nonce sp
        let conv (r : DRow) (x : Nat) : Nat := (drainConv t.fmt .rn .nosat r.int x).1
        let data (e : DRow × Nat) : List (Byt × Byte) :=
          let b := t.drainBits prune 0 0 nc e.2
          s.opPuts 0 o sp (t.base + b.1 / 8) (toLE (b.2 / 8) (packBits (fmtBits t.fmt) ((e.1.kept prune).map (conv e.1))))
        let posns (e : DRow × Nat) : List (Byt × Byte) :=
          if prune = 0 then [] else
            let m := t.drainMeta prune 0 0 nc e.2
            s.opPuts 0 o sp m.1 (toLE (4 * m.2.1) (num sp m.1 4))
        let tops : List (Byt × Byte) := match mx with | none => [] | some a => s.globalPuts o.ctx a.toNat (toLE 4 0)
        clearB s o (glAccs sp .w (t.drainRanges prune 0 0 2 nc) ++ (match mx with | some a => [(Acc.r, a.toNat, 4), (Acc.w, a.toNat, 4)] | none => [])) && k.poison.isEmpty
        && (sp != .gl || (List.range 2).all (fun i => nearB s 0 .w (t.base + (t.drainBits prune 0 0 nc i).1 / 8) ((t.drainBits prune 0 0 nc i).2 / 8)
          && (prune == 0 || (nearB s 0 .w (t.drainMeta prune 0 0 nc i).1 (4 * (t.drainMeta prune 0 0 nc i).2.1) && nearB s 0 .r (t.drainMeta prune 0 0 nc i).1 (4 * (t.drainMeta prune 0 0 nc i).2.1)))))
        && (match mx with | some a => nearB s 0 .r a.toNat 4 && nearB s 0 .w a.toNat 4 | none => true)
        && rows.zipIdx.all (fun e => rows.zipIdx.all (fun f => (posns e).all (fun p => (data f).all (fun w => !hitsB w.1 p.1) && (e.2 == f.2 || (posns f).all (fun w => !hitsB w.1 p.1)))))
        && tops.all (fun p => rows.zipIdx.all (fun e => (data e ++ posns e).all (fun w => !hitsB w.1 p.1))) && calmB s o.word [])
    yes [p 0 .gl 0x20000 0 4 none, p 0 .sp 0 0 4 (some 0x20800), p 1 .sp 0 0x2000 8 none, p 2 .gl 0x20000 0x20C00 8 (some 0x20FFC)] = true := by decide +kernel

/-- A store of lane 3 to the record at 0x20040, released at dev or not. -/
def storing (rel : Bool) : State → State := onG (fun g => { g with own := [{ lane := 3, va := 0x20048, pa := 0x1048, n := 8, line := List.replicate 64 0, rel := rel, fen := true }] })
/-- A record of a walk to be read, walks that hit and miss, and a bag of two rows. -/
theorem witness_walk_results :
    let pr : WalkProg := { nr := 1, rs := 16, pol := 0, lim := 9, rules := [4] }
    let w : WLane := walkStart pr 3 0x20040 5 0x800
    let bag : Bag := { lane := 2, list := 0x20000, dest := 0x20100, parked := none }
    let tab := ten 10 1 0 4 9 4 0x20200 0 0 0
    let data : State → State := fun s => s.glWrite 0 0x20000 (toLE 4 2 ++ toLE 4 1 ++ toLE 4 9)
    yes [inOp (anOp (.walk pr [w])) id (fun s _ => w.want == some 0x20040 && !w.parked && w.lane == 3 && isPa (s.translate 0 .r 0x20040) && !s.glPoison 0 0x20040 64),
         inOp (anOp (.walk pr [{ w with want := none, land := some 0 }])) id (fun s o => s.granted 0 (s.tcOf 0) (WLane.landSecs { w with want := none, land := some 0 } pr.rs) && calmB s o.word ((List.range 32).map (fun i => (.sp 0 1 (0x800 + i), 0)))),
         inOp (anOp (.walk pr [{ w with want := none, land := some 2 }, { w with lane := 4 }])) id (fun s o => s.granted 0 (s.tcOf 0) (WLane.landSecs { w with want := none, land := some 2 } pr.rs) && calmB s o.word ((List.range 32).map (fun i => (.sp 0 1 (0x800 + i), 0)))),
         inOp (anOp (.walk pr [w])) (storing false) (fun s o => !((s.unreleased 0 o 3).filter (fun e => decide (e.pa < 0x1040 + 64 ∧ 0x1040 < e.pa + e.n))).isEmpty),
         inOp (anOp (.walk pr [w])) (storing true) (fun s o => (s.unreleased 0 o 3).isEmpty),
         inOp (anOp (.ired true false tab [{ bag with lane := 1 }, bag])) data (fun s o =>
           let t := Ten.of tab
           let n := s.bagNum 0 o 2 0x20000 4
           let idx := (List.range n).map (fun i => s.bagNum 0 o 2 (0x20004 + 4 * i) 4)
           let rows := (idx.filter (fun x => decide (x < t.e1))).eraseDups.map (fun x => (Acc.r, t.base + x * t.s1 * t.irSize, t.e0 * t.irSize))
           idx == [1, 9] && decide (s.way 0 .r 0x20000 4 = .clear) && decide (s.ways 0 ([(.r, 0x20004, 4 * n)] ++ rows ++ [(.r, 0x20100, 16)] ++ [(.w, 0x20100, 16)]) = .clear)
           && s.unmarked && s.granted 0 (s.tcOf 0) (((Acc.r, 0x20000, 4) :: ([(Acc.r, 0x20004, 4 * n)] ++ rows ++ [(.r, 0x20100, 16)] ++ [(.w, 0x20100, 16)])).flatMap (fun e => s.sectors 0 e.1 e.2.1 e.2.2))
           && nearB s 0 .w 0x20100 16 && calmB s o.word [])] = true := by decide +kernel

/-! Recovery, power, launching, sessions and firmware. -/

/-- A workgroup blocked at an ENGWAIT, with a permit of its queue 3 lost. -/
def waiting : State → State := stat (.blocked { instr := .engwait (c .w64 1) 2, pc := BitVec.ofNat 64 loadAt, mask := 1, done := 0, abort := false, lost := false })
/-- Audits of nothing and of one workgroup, an eviction, and a restore of a corrupt and of a good image to another core, its granule left to fill. -/
theorem witness_eviction_restore :
    let image (segs : List Segment) (s : State) : State :=
      match (s.core 0).wgOf 1, s.grp 0 0 with
      | some (_, w), some g => { (s.modCore 0 (fun k => { k with wgs := [], grps := [] })).hbmWrite (s.ownKey 0) 0x400000 (segs.flatMap Segment.bytes) with
          images := [{ at_ := 0x400000, segs := segs, wg := { w with clu := 0 }, grps := [(5, g)], banks := [(3, bankOf 1 .fp32)], lists := [], racks := [(1, rackOf .ready 1)], items := [], core := 0, poison := [] }] }
      | _, _ => s
    let rs (segs : List Segment) (bad : Bool) : Bool :=
      let s := image segs (lab (.nop (c .w64 1)))
      let place := [(0, 0, 0)]
      match s.images[0]? with
      | none => false
      | some im0 =>
        let im := s.imageAsRead im0 true
        let st := im.seating s.nextId (s.absentOf im0 true) place
        let spots := st.grps.map (fun g => (g.1, g.2.blk)) ++ st.wg.spareAt (st.grps.map Prod.fst)
        let need : Amt := { wgs := 1, grps := spots.length, scratch := im.wg.rec_.scratch, tiles := im.wg.rec_.tiles, banks := im.wg.rec_.banks }
        (match Tab.get s.launches im.wg.launch with | some l => l.tc == 0 && !l.failed && !l.mig | none => false) && !s.rotating (im.wg.clu / 16) && clusterOf 7 == s.physOf im.wg.clu
        && s.corrupt im0 true == bad && (bad || (im0.segs.zip (s.imageSegs im0 true)).all (fun e => e.2.seg == none || e.2.seg == some e.1)) && s.oneOwner 7 im.wg.ctx need (spots.map Prod.snd) && s.oneCore 7 im.wg && (Tab.get (s.core 7).wgs 2).isNone && (s.core 7).placeable im.wg.ctx spots
        && (s.core 7).spare im.wg.ctx need
        && (s.core 7).ovenFree im && decide ((s.core 7).itemCount + im.itemCount ≤ 512) && (s.core 7).opens im.wg need (spots.map Prod.snd) && ((s.core 7).wgOf im.wg.uid).isNone
    yes [inLab id (fun s _ _ => (s.core 0).wgs.all (fun e => e.2.lostPermits.isEmpty)),
         inLab (onW (fun w => w.modQueue 3 (fun q => { q with permits := 0 }))) (fun s x w => (s.core 0).wgs == [(0, w)] && (s.core 0).lowest 1 == some (0, x) && w.lostPermits == [3]),
         inLab (waiting ∘ onX (fun k => { k with grants := [(0x400000, 0x400000)] })) (fun s _ w => s.evictable 0 w && s.imageRoom 0 0x400000), rs [{ kind := 1, index := 0, seq := 5, len := 0, crc := 0, data := [] }] true,
         rs [Segment.make 0x09 0 0 [], Segment.make 0x0A 0 1 (List.replicate 256 0)] false] = true := by decide +kernel

/-- Marks of a register, of a rack that is not read, and lines of a link. -/
theorem witness_soft_errors : yes [inLab id (fun s _ _ => (s.grp 0 0).isSome && (s.poisonStore .sreg 0 63).isSome && (s.poisonStore .queue 0 3).isSome && (s.poisonStore .scratch 0 0).isSome
      && (s.poisonStore .clsram 0 5).isSome && (s.poisonStore .winner 0 5).isSome),
    inLab (onK (fun k => { k with active := rackOf .ready 1 }) ∘ queued 0) (fun s _ _ => (s.core 0).active.status == .ready && (s.core 0).active.sound 3
      && (match (s.core 0).ovenQ.head? with | some o => o.steps.isEmpty | none => false)),
    inLab (onK (fun k => { k with active := (rackOf .ready 1).flip 3 })) (fun s _ _ => (s.core 0).active.status == .ready && (List.range 32).any (fun g => !(s.core 0).active.sound g)),
    inLab (onK (fun k => { k with shadow := (rackOf .ready 1).flip 3 })) (fun s _ _ => (s.core 0).shadow.status == .ready && (List.range 32).any (fun g => !(s.core 0).shadow.sound g)),
    inLab (onK (fun k => { k with shadow := rackOf .ready 1 })) (fun s _ _ => (s.core 0).shadow.status == .ready && (s.core 0).shadow.sound 31)] = true := by decide +kernel

/-- A rail request of an entitled context, quotas, and a rotation that may be applied. -/
theorem witness_power : yes [
    inLab (onW (fun w => { w with rail := true }) ∘ onX (fun k => { k with entitled := true })) (fun s _ _ => (s.cluster 0).high != s.wantsHigh 0),
    inLab (onX (fun k => { k with quota := [(1, 100, -5)] })) (fun s _ _ => match Tab.get s.ctxs 0 with | some k => Tab.get k.quota 1 == some (100, -5) | none => false),
    inLab (fun s => { s with dies := s.dies.map (fun d => { d with intervals := 513 }) }) (fun s _ _ => match s.dies[1]? with | some d => decide (512 ≤ d.intervals) | none => false),
    inLab (fun s => { s with arbs := [(32 * 6 + 2, { Arb.reset with left := -40, queue := [{ id := 7, ctx := 0, n := 4 }, { id := 8, ctx := 0, n := 4 }] })] }) (fun s _ _ => decide ((s.arb 6 2).queue.length = 2 ∧ (s.arb 6 2).left = -40)),
    inLab id (fun s _ _ => decide (1 < s.dies.length) && !s.rotating 1),
    inLab (fun s => s.setRot 1 true) (fun s _ _ => s.rotating 1 && (match s.dies[1]? with | some d => d.rotPending && d.map == (List.range 16).map (fun i => (i + 0) % 16) | none => false) && !s.residentOn 1)]
    = true := by decide +kernel

/-- A session of context 0, its queue 0 as k, and a message on it. -/
def onQ (k : CmdQ) : State → State := onX (fun x => { x with queues := [(0, k)] }) ∘ fun s => { s with sessions := [(4, { ctx := 0, rccc := false, closed := false, lost := false, pages := [] })] }
def msgOf (type : BitVec 8) (seq : BitVec 32) (len : BitVec 16) (hdr : BitVec 256) : Msg := { session := 4, type := type, queue := 0, rsv := false, len := len, seq := seq, hdr := hdr, body := 0 }
def openQ : CmdQ := { CmdQ.closed with isOpen := true, seq := 7 }
def aCmd (hdr body : Nat) : Cmd := { seq := 6, hdr := BitVec.ofNat 256 hdr, body := BitVec.ofNat 256 body, first := true, st := 0, launch := none }
/-- Opens, commands that are good and bad, on a closing queue and on one in error, closes, resets and a wrong SEQ. -/
theorem witness_queue_messages :
    let p (k : CmdQ) (m : Msg) (q : CmdQ → Bool) : Bool := inLab (onQ k) (fun s _ _ => s.sessionCtx m.session == some 0 && (Tab.get s.ctxs 0).isSome && s.cmdq 0 m.queue.val == k && !m.rsv && q k)
    let nx (k : CmdQ) (m : Msg) : Bool := k.isOpen && m.seq == k.seq
    yes [p CmdQ.closed (msgOf 1 0 0 0) (fun k => !k.isOpen), p openQ (msgOf 4 7 32 2) (fun k => nx k (msgOf 4 7 32 2) && !k.closing && !k.err && !msgBad (msgOf 4 7 32 2)),
         p openQ (msgOf 4 7 64 1) (fun _ => !msgBad (msgOf 4 7 64 1)), p openQ (msgOf 4 7 64 3) (fun k => !k.closing && !k.err && msgBad (msgOf 4 7 64 3)),
         p { openQ with closing := true } (msgOf 4 7 32 2) (fun k => nx k (msgOf 4 7 32 2) && k.closing), p { openQ with err := true } (msgOf 4 7 32 2) (fun k => nx k (msgOf 4 7 32 2) && !k.closing && k.err),
         p { openQ with err := true, cmds := [aCmd 2 0] } (msgOf 2 7 0 0) (fun k => nx k (msgOf 2 7 0 0)), p { openQ with cmds := [aCmd 2 0] } (msgOf 3 7 0 0) (fun k => nx k (msgOf 3 7 0 0)),
         p openQ (msgOf 4 7 64 5) (fun k => nx k (msgOf 4 7 64 5) && msgBad (msgOf 4 7 64 5)), p openQ (msgOf 2 7 8 0) (fun k => nx k (msgOf 2 7 8 0)), p openQ (msgOf 1 7 0 0) (fun k => nx k (msgOf 1 7 0 0)),
         p CmdQ.closed (msgOf 4 7 64 5) (fun k => !k.isOpen), p CmdQ.closed (msgOf 1 1 0 0) (fun k => !k.isOpen), p CmdQ.closed (msgOf 1 0 8 0) (fun k => !k.isOpen),
         p openQ (msgOf 2 6 0 0) (fun k => k.isOpen && !k.closing && k.seq != 6), p { openQ with closing := true, closes := [5], cmds := [{ aCmd 2 0 with st := 2 }] } (msgOf 1 0 0 0) (fun k =>
           k.isOpen && k.closing && k.cmds.all (fun c => c.st == 2)),
         inLab ((fun s => { s with launches := s.launches.map (fun l => (l.1, { l.2 with failed := true })) }) ∘ onQ { openQ with closing := true, closes := [5], cmds := [{ aCmd 1 0 with st := 1, launch := some 0 }] }) (fun s _ _ =>
           (s.cmdq 0 0).cmds.all (fun c => c.st == 1 && match c.launch.bind (Tab.get s.launches) with | some l => l.failed | none => false))] = true := by decide +kernel
/-- Each kind of message with a wrong SEQ, on a queue that closes and on one that does not, and one of the next SEQ with a reserved bit. -/
theorem witness_wrong_seq :
    let p (k : CmdQ) (m : Msg) (q : CmdQ → Bool) : Bool := inLab (onQ k) (fun s _ _ => s.sessionCtx m.session == some 0 && (Tab.get s.ctxs 0).isSome && s.cmdq 0 m.queue.val == k && k.isOpen && q k)
    let ms := [msgOf 1 6 0 0, msgOf 2 6 0 0, msgOf 3 6 0 0, msgOf 4 6 64 1, msgOf 4 6 32 2, msgOf 4 6 32 3]
    yes (ms.flatMap (fun m => [p openQ m (fun k => m.seq != k.seq), p { openQ with closing := true, cmds := [aCmd 2 0] } { m with rsv := true } (fun k => m.seq != k.seq),
      p openQ { m with seq := 7, rsv := true } (fun k => k.seq == 7)])) = true := by decide +kernel

/-- A launch record of one workgroup of two vector groups of width 16 with 8 registers. -/
def recBytes : List Byte :=
  toLE 2 1 ++ toLE 2 176 ++ [3, 1, 0, 0, 0, 0, 0, 0] ++ toLE 4 0 ++ toLE 4 4096 ++ toLE 4 0 ++ toLE 4 16 ++ toLE 4 0 ++ toLE 8 0 ++ toLE 8 1 ++ toLE 8 (2 + 2 ^ 32) ++ toLE 40 0 ++ toLE 32 0
    ++ [2, 1, 1, 0] ++ toLE 4 2 ++ toLE 4 0x40 ++ toLE 2 9 ++ toLE 2 0 ++ toLE 32 0
/-- Commands that start: a wait and a signal at an address that does not serve, a wait whose word is aborted, a signal, a launch without and with its record. -/
theorem witness_commands :
    let p (cm : Cmd) (mem : State → State) (q : State → Bool) : Bool := inLab (mem ∘ onQ { openQ with cmds := [cm] }) (fun s _ _ =>
      (s.cmdq 0 0).candidate == some (cm, true) && (s.cmdq 0 0).isOpen && !(s.cmdq 0 0).err && q s)
    let fit (cm : Cmd) (s : State) : Bool := (!cm.wen || (cm.waddr % 16 == 0 && nearB s 0 .r cm.waddr 16)) && (cm.saddr == 0 || (cm.saddr % 16 == 0 && nearB s 0 .w cm.saddr 16))
    let go (cm : Cmd) (s : State) : Bool := !cm.wen || (SWord.ofNat (s.word (.gl 0 cm.waddr))).reached cm.wgen
    let wait (a : Nat) : Cmd := aCmd (3 + 2 ^ 11 + 2 ^ 16 + 2 ^ 64 * a) 0
    let sig (a : Nat) : Cmd := aCmd (2 + 2 ^ 128 * a + 2 ^ 192 * 64) 0
    let lau : Cmd := aCmd 1 (0x20040 + 2 ^ 64 * loadAt)
    let recd : State → State := fun s => s.glWrite 0 0x20040 recBytes
    yes [p (wait 0x20008) id (fun s => !fit (wait 0x20008) s), p (sig 0x30000) id (fun s => !fit (sig 0x30000) s),
         p (wait 0x20010) (fun s => s.glWrite 0 0x20010 (swImage 8 8 0 4)) (fun s => fit (wait 0x20010) s && !go (wait 0x20010) s && (SWord.ofNat (s.word (.gl 0 0x20010))).abort),
         p (sig 0x20FF0) id (fun s => fit (sig 0x20FF0) s && go (sig 0x20FF0) s && (sig 0x20FF0).kind != 1), p lau id (fun s => fit lau s && go lau s && lau.kind == 1 && (match s.readRec 0 lau with | .error e => e == 4 | .ok _ => false)),
         p lau recd (fun s => fit lau s && go lau s && (match s.readRec 0 lau with | .ok r => r.total == 1 && r.groups.length == 2 | .error _ => false))] = true := by decide +kernel
/-- A launch that is over, a unit and a workgroup to be placed, and a workgroup to be admitted. -/
theorem witness_placement :
    let r : LRec := { labRec .vector 8 with scratch := 0, tiles := 0, banks := 0, clsram := 4096 }
    let launch (lv : List (Nat × Nat)) : State → State := fun s => { s with launches := [(0, { loadLaunch { r with levels := lv } with next := [0, 0], placed := 0, total := 2 })], dies := s.dies.modify 0 (fun d => { d with placeQ := [0] }) }
    let place := [(4, 8, 2), (5, 16, 4)]
    let e : Waiting := { wg := { loadWg r with uid := 9 }, bypass := [] }
    let takes (s : State) : Bool := (clustersOf 0).any (fun c => s.takes (s.physOf c) 0 0 4096)
    yes [inLab (fun s => s.modLaunch 0 (fun l => { l with done := 1 })) (fun s _ _ => (match Tab.get s.launches 0 with | some l => l.done == l.total | none => false) && !s.engBusy 0),
         inLab (launch [(0, 8), (1, 1), (2, 2), (3, 1)]) (fun s _ _ => (match s.toPlace 0 with | some (0, l, 0) => l.rec_.unitLevel.isSome | _ => false) && ((clustersOf 0).find? (fun c => s.takes (s.physOf c) 0 0 4096)).isSome),
         inLab (launch [(0, 8), (1, 1), (2, 2)]) (fun s _ _ => (match s.toPlace 0 with | some (0, l, 0) => l.rec_.unitLevel.isNone | _ => false) && takes s),
         inLab (launch [(0, 8), (1, 1), (2, 2)]) (fun s _ _ => match s.toPlace 0 with
           | some (n, l, u) => l.homeOk u 0 && (s.cluster (s.physOf 0)).admQ.isEmpty && (s.firstCore (s.physOf 0) (Workgroup.placed s.nextId n l.placed l 0 0 u 0 0)).isSome | none => false),
         inLab (onK (fun k => { k with owner := some 0 }) ∘ fun s => s.modCluster 0 (fun k => { k with admQ := [e] })) (fun s _ _ =>
           let w := e.wg
           let spots := w.spots place
           (s.cluster 0).admQ[0]? == some e && !s.rotating 0 && clusterOf 0 == 0 && place.length == spots.length && s.admitsBut 0 w && (Tab.get (s.core 0).wgs 1).isNone
           && s.oneOwner 0 w.ctx w.amt (spots.map Prod.snd) && (s.core 0).opens w w.amt (spots.map Prod.snd) && (s.core 0).placeable w.ctx spots && !w.rec_.groups.isEmpty && !w.rec_.spawns.isEmpty && ((s.core 0).wgOf w.uid).isNone)] = true := by decide +kernel

/-- A free session number, an open session, and what packets of it reach. -/
theorem witness_sessions : yes [
    inLab id (fun s _ _ => (Tab.get s.sessions 65535).isNone && (Tab.get s.ctxs 0).isSome && [(2 ^ 44, 5, 0)].all winPageOk && !repeated [2 ^ 44] && (s.windowOf 0 (2 ^ 56)).isNone),
    inLab (onQ openQ) (fun s _ _ => (match Tab.get s.sessions 4 with | some e => !e.closed && !e.lost | none => false) && s.sessionCtx 4 == some 0 && s.sessionCtx 4 != some 1
      && nearB s 0 .w 0x20FF0 16 && nearB s 0 .r 0x20FF0 16)] = true := by decide +kernel
/-- Contexts to be created, destroyed, mapped and given a reservation. -/
theorem witness_firmware :
    let f : State → State := onX (fun k => { k with grants := [(0x200000, 0x200000)] })
    let idle_ : State → State := fun s => { State.reset with ctxs := s.ctxs }
    yes [inLab id (fun s _ _ => s.ownerOk 7 3 9 && s.ctxs.all (fun e => e.2.key != 9) && !s.ownerOk 0 3 9 && !s.idle 0), (idle_ (lab (.nop (c .w64 1)))).idle 0,
         inLab f (fun s _ _ => match Tab.get s.ctxs 0 with
           | some k => k.mapOk 0x40000 0x200000 0x10000 k.key && !k.mapOk 0x48000 0x200000 0x10000 k.key && k.pages.any (fun p => p.va == 0x20000) | none => false),
         inLab id (fun s _ _ => let rest := (s.core 0).resv.filter (fun r => r.ctx != 0)
           (match resvRow rest 32 with | some row => resvOk (rest ++ [{ ctx := 0, wgs := 2, grps := 8, row := row, rows := 32, scratch := 524288, tiles := 16, banks := 12 }]) | none => false)),
         decide (State.reset.ctxs = [])] = true := by decide +kernel

/-! The step. -/

/-- A loaded word is found and chosen; so a turn of its slot runs it. -/
theorem witness_step : yes [
    (let s := State.reset.withFetchWord 64 0x08015101C0738840
     let u : State := { s with agenda := [], cur := none }
     s.agenda == [.issue 0 .vector] && match u.choose 0 .vector with | some k => decide (k.look = .run (.iadd (c .w64 4) { ty := .i32, sat := true } (.v 7) (.v 7) (.k 1))) && (k.x.stored k.e.pc).isNone | none => false),
    inLab id (fun s _ w => isPa (s.translate w.ctx .x loadAt)),
    decide (State.reset.agenda = [])] = true := by decide +kernel
/-- A pick of an entry of count 64 and of one that no YIELD demotes; a frontier in order. -/
theorem witness_pick :
    let e (pc pri age : Nat) : Entry := { pc := BitVec.ofNat 64 pc, pri := BitVec.ofNat 16 pri, mask := 1, age := age }
    yes [(pick [e 4 9 0, e 8 1 64] none).map Entry.pc == some 8, (pick [e 4 9 0, e 8 1 63] (some 4)).map Entry.pc == some 8, (pick [e 4 1 0, e 8 1 63] none).map Entry.pc == some 4,
         decide ([e 4 9 0, e 8 1 64].Pairwise (fun e f => e.pc.toNat < f.pc.toNat))] = true := by decide +kernel
/-- Whether an outcome is a next state. -/
def goesOn (o : Out) : Bool := match o with | .next _ => true | _ => false
theorem next_of {o : Out} (h : goesOn o = true) : ∃ t, o = .next t := by
  cases o with
  | next t => exact ⟨t, rfl⟩
  | fault f => cases h
  | refused f => cases h
/-- Legal maps and canonical memories, of a state that steps. -/
theorem witness_invariants : State.reset.diesOk ∧ State.reset.memWf ∧ ∃ t, step State.reset = .next t := by
  refine ⟨⟨rfl, fun d hd => ⟨0, by decide, ?_⟩⟩, by simp [State.memWf, State.reset, Mem.wf, Mem.wfFrom], next_of (by decide +kernel)⟩
  simp only [State.reset, List.mem_cons, List.not_mem_nil, or_false, or_self] at hd
  subst hd
  decide
/-- And of one in which an instruction runs. -/
theorem witness_running : goesOn (step (State.reset.withFetchWord 64 0x08015101C0738840)) = true := by decide +kernel

/-- A group that loads byte by byte what another group stored, in an execution that is recorded: it may read the state before the store (R190), unless it stored itself (R186). -/
def watched (lane : Nat) : State :=
  let i : Instr := .ld (c .w64 1) .gl .b32 false { scope := .grp, ord := .rlx, rmt := false, ofs := 0 } (.v 1) (.s 3)
  let at_ (n : Nat) : EvLoc := { store := .gl, at_ := 0x100 + n }
  let s := State.reset.withFetchWord 64 (fromLE (encode i))
  let st (n : Nat) : Ev := { s.laneEv 0 lane 0 7 0 with kind := .wr, loc := some (at_ n), first := some (at_ 0), size := 4 }
  let x : Exe := { run := { evs := initEvs (fun _ => none) ((List.range 4).map at_) ++ (List.range 4).map st, rf := [], co := List.range 8, fo := [] },
                   vals := List.replicate 4 (some 0) ++ [some 1, some 0, some 0, some 0] }
  { (onG (fun g => g.setS 3 0x10100) s).hbmPut 0 0x100 1 with
    fresh := 5, exe := some x, agenda := [.weakIssue 0 .memory { from_ := (List.range 4).map (fun n => (at_ n, n)), co := none, fo := none }] }
theorem test_weak_load :
    (match step (watched 9) with | .next t => (match t.grp 0 0 with | some y => y.v? 1 0 == 0 | none => false) && t.hbmGet 0 0x100 == 1 | _ => false) = true := by decide +kernel
theorem test_weak_load_own : (match step (watched 2) with | .fault f => f == .notEnabled | _ => false) = true := by decide +kernel

/-- Places that scopes hold together and apart: of one cluster, of one die and of two. -/
theorem witness_places :
    let p (clu : Nat) : Place := { grp := clu, core := 8 * clu, clu := clu, die := clu / 16, dev := 0 }
    yes [Scope.same .clu (p 0) { p 0 with grp := 9, core := 1 }, !Scope.same .clu (p 0) (p 3), Scope.same .die (p 0) (p 3), !Scope.same .die (p 0) (p 16), Scope.same .dev (p 0) (p 16),
         (p 0).core != (p 16).core && (p 0).dev == (p 16).dev] = true := by decide +kernel

/-! Results that the spec works out. -/

/-- The group after an instruction that issues in its small state changed by f. -/
def ran (i : Instr) (f : State → State) (q : Group → Bool) : Bool :=
  match exec i (f (lab i)) with | .next t => (match t.grp 0 0 with | some y => q y | none => false) | _ => false
/-- v2 of lane 0, and the flags of lane l. -/
def gives2 (i : Instr) (vs : List (Nat × Nat)) (r : Word) : Bool := ran i (vs.foldl (fun f e => onV e.1 (fun _ => e.2) ∘ f) id) (fun y => y.v? 2 0 == r)
def flagged (i : Instr) (vs : List (Nat × Nat)) (fl : Nat) : Bool := ran i (vs.foldl (fun f e => onV e.1 (fun _ => e.2) ∘ f) id) (fun y => y.fl? 0 == BitVec.ofNat 5 fl)

/-- R287, R289, R291: division, a packed shift, a field signed and unsigned. -/
theorem test_integer_examples : yes [
    gives2 (.idiv (c .w64 1) { ty := .i32, sat := false } (.v 2) (.v 1) (.k 2)) [(1, 2 ^ 32 - 7)] 0xFFFFFFFD, gives2 (.irem (c .w64 1) { ty := .i32, sat := false } (.v 2) (.v 1) (.k 2)) [(1, 2 ^ 32 - 7)] 0xFFFFFFFF,
    gives2 (.shl (c .w64 4) .i8x4 (.v 2) (.v 1) (.v 9)) [(1, 0x80010203), (9, 0x08010001)] 0x00020206,
    gives2 (.bfx (c .w96 4) .i32 (.v 2) (.v 1) (.imm32 0x804)) [(1, 0xF80)] 0xFFFFFFF8, gives2 (.bfx (c .w96 4) .u32 (.v 2) (.v 1) (.imm32 0x804)) [(1, 0xF80)] 0xF8] = true := by decide +kernel
/-- R299: the scan and the reduction of 3, 1, 4, 1, 5, 9, 2, 6 without lanes 2 and 5. -/
theorem test_scan_example :
    let v (l : Nat) : Nat := [3, 1, 4, 1, 5, 9, 2, 6].getD l 0
    let f : State → State := onV 2 (fun _ => 77) ∘ onV 1 v ∘ onG (fun g => g.setP 1 0xDB)
    yes [ran (.lscan (c1 .w64) (.int .add { ty := .i32, sat := false }) true (.v 2) (.v 1)) f (fun y => (List.range 8).map (y.v? 2) == [0, 3, 77, 4, 5, 77, 10, 12]),
         ran (.lred (c1 .w64) (.int .add { ty := .i32, sat := false }) (.s 6) (.v 1)) f (fun y => y.s? 6 == 18)] = true := by decide +kernel
/-- R303, R304: FADD of BF16 pairs under .rn and .ru, FMIN of a NaN and of −0 with 1.0. -/
theorem test_float_examples :
    let add (r : Rnd) : Instr := .fadd (c .w64 4) { ty := .bf16, rnd := r, sat := .nosat } (.v 2) (.v 1) (.v 3)
    let one : Instr := .fmin (c .w96 4) .f32 .nosat (.v 2) (.v 1) (.imm32 0x3F800000)
    yes [gives2 (add .rn) [(1, 0x3F804000), (3, 0x3B803F80)] 0x3F804040, gives2 (add .ru) [(1, 0x3F804000), (3, 0x3B803F80)] 0x3F814040,
         flagged (add .rn) [(1, 0x3F804000), (3, 0x3B803F80)] fNX, gives2 one [(1, 0x7FC00000)] 0x3F800000, gives2 one [(1, 0x80000000)] 0x80000000] = true := by decide +kernel
/-- R308, R310: FSFU .rcp of 3.0, FDOT of BF16. -/
theorem test_sfu_dot_examples :
    let rcp (r : Rnd) : Instr := .fsfuRcp (c .w64 1) { ty := .f32, rnd := r, sat := .nosat } (.v 2) (.v 1)
    let dot : Instr := .fdotX2 (c .w96 4) { ty := .bf16, rnd := .rn, sat := .nosat } (.v 2) (.v 1) (.v 3) (.v 4)
    yes [gives2 (rcp .rn) [(1, 0x40400000)] 0x3EAAAAAB, gives2 (rcp .rz) [(1, 0x40400000)] 0x3EAAAAAA, flagged (rcp .rn) [(1, 0x40400000)] fNX,
         gives2 dot [(1, 0x33803F80), (3, 0x3F803F80), (4, 0x4B800000)] 0x4B800000, flagged dot [(1, 0x33803F80), (3, 0x3F803F80), (4, 0x4B800000)] fNX] = true := by decide +kernel
/-- R313, R315: 464.0 to E4M3; 16777217 to FP32; −2.5 to an integer under .rn and .rna; 300.7 to an 8-bit one. -/
theorem test_conversion_examples :
    let e4 : Instr := .fcvt (c .w64 6) .e4m3 .f32 .rn .nosat (.v 2) (.v 1)
    let f2 (r : Rnd) : Instr := .f2i (c .w64 6) .i32 .f32 r false (.v 2) (.v 1)
    let u8 : Instr := .f2i (c .w64 6) .u8 .f32 .rn false (.v 2) (.v 1)
    let i2 : Instr := .i2f (c .w64 6) .f32 .i32 .rn .nosat (.v 2) (.v 1)
    yes [gives2 e4 [(1, 0x43E80000)] 0x7E, flagged e4 [(1, 0x43E80000)] fNX, gives2 i2 [(1, 16777217)] 0x4B800000, flagged i2 [(1, 16777217)] fNX,
         gives2 (f2 .rn) [(1, 0xC0200000)] 0xFFFFFFFE, gives2 (f2 .rna) [(1, 0xC0200000)] 0xFFFFFFFD, gives2 u8 [(1, 0x43965999)] 255, flagged u8 [(1, 0x43965999)] fIV] = true := by decide +kernel
/-- R319: the block of 3.0, −0.75 and 10.0 in E2M1. -/
theorem test_packing_example :
    ran (.fpack (c .w64 6) .e2m1 .rn false (.v 2) (.v 1) 5) (onV 1 (fun l => [0x40400000, 0xBF400000, 0x41200000].getD l 0)) (fun y =>
      y.v? 2 0 == 0x693 && y.v? 2 1 == 0 && y.s? 5 == 0x80 && y.fl? 1 == BitVec.ofNat 5 (fUF ||| fNX) && y.fl? 2 == BitVec.ofNat 5 fNX) = true := by decide +kernel
/-- R73: a word of TARGET 4096 and COUNT 3072 after an arrival of 2048. -/
theorem test_word_example :
    (let w : SWord := { target := 4096, count := 3072, gen := 5, ovr := false, stale := false, abort := false, ten := false }
     decide (w.add 2048 none = { w with gen := 6, count := 1024, ovr := true })) = true := by decide +kernel
/-- R90: the bytes of eight values. -/
theorem test_spill_example :
    (let vs := [1000, 1003, 998, 1000, 1127, 1001, 1000, 999]
     (spillBytes 8 (vs.zipIdx.map (fun e => (e.2, e.1)))).head? == some 2) = true := by decide +kernel
/-- R33: the if-else of p1, true in lanes 0 to 3. -/
theorem test_if_else_example :
    let go (fr : List Entry) (pc : Nat) (mv : List Move) : List (Nat × Nat) := (advance fr (BitVec.ofNat 64 pc) mv).map (fun e => (e.pc.toNat, e.mask.toNat))
    let e (pc pri mask : Nat) : Entry := { pc := BitVec.ofNat 64 pc, pri := BitVec.ofNat 16 pri, mask := BitVec.ofNat 64 mask, age := 0 }
    let m (pc pri mask : Nat) : Move := { pc := BitVec.ofNat 64 pc, pri := BitVec.ofNat 16 pri, mask := BitVec.ofNat 64 mask }
    yes [go [e 0x100 30 0xFF] 0x100 [m 0x140 20 0xF, m 0x108 25 0xF0] == [(0x108, 0xF0), (0x140, 0xF)],
         go [e 0x140 20 0xF, e 0x180 5 0xF0] 0x140 [m 0x180 5 0xF] == [(0x180, 0xFF)]] = true := by decide +kernel
/-- PAD (R105): its entry goes on by four bytes, with nothing else changed. -/
theorem test_pad : (match exec .pad (lab (.nop (c .w64 1))) with
    | .next t => (match t.grp 0 0 with | some y => y.fr.map (fun e => e.pc.toNat) == [loadAt + 4] && decide ({ y with fr := [] } = { loadGroup .vector 8 with priv := 0x20000, fr := [] }) | none => false)
    | _ => false) = true := by decide +kernel

/-! Ill-formed terms, one for each check that WellFormed makes. -/

/-- Control bits with some set. -/
def cq (len : Len) (nf q : Bool) : Ctl := { c len 1 with nf := nf, q := q }
theorem test_ill_formed : ([
    .iadd (c .w128 1) { ty := .i32, sat := false } (.v 1) (.v 2) (.v 3),                     -- a length that the opcode does not have
    .iadd (c .w64 1) { ty := .i32, sat := false } (.v 1) (.v 2) (.imm32 5),                  -- an immediate in a form without an extension
    .iadd (c .w96 1) { ty := .i32, sat := false } (.v 1) (.imm32 5) (.imm32 6),              -- two immediates
    .iadd (c .w64 1) { ty := .i32, sat := false } (.k 5) (.v 2) (.v 3),                      -- a constant as a destination
    .iadd (c .w64 1) { ty := .i64, sat := false } (.v 1) (.v 2) (.v 4),                      -- an odd pair
    .iabs (c .w64 1) { ty := .i32, sat := false } (.h 2) (.imm32 5),
    .imad (c .w96 1) { ty := .i32, sat := false } (.v 3) (.v 1) (.v 2) (.h 3),               -- a queue as C
    .nop (cq .w64 false true), .iadd (cq .w64 true false) { ty := .i32, sat := false } (.v 1) (.v 2) (.v 3),
    .exit (c .w96 1), .bra (c .w96 1) 4 0, .bra (cq .w64 true false) 4 0, .brcNear (cq .w64 false true) 1 false 4 0 0, .brcFar (c .w64 1) 1 false 4 0 0,
    .callNear (c .w128 1) 4 0 0, .callFar (c .w64 1) 4 0 0, .jmpi (c .w64 1) (.k 4) 0, .jmpi (c .w64 1) (.h 4) 0, .jmpi (c .w96 1) (.v 4) 0,
    .ld (c .w64 1) .sp .b32 false { xm with ofs := 4 } (.v 1) (.s 3),                        -- an offset in a form without an extension
    .ld (c .w96 1) .sp .b64 false xm (.v 1) (.s 3), .tag (c .w64 1) .b8 true 0 (.v 3), .atom (c .w64 1) .add .pv .b16 false xm (.v 2) (.v 3) (.v 1)] : List Instr).map Instr.wf
  = List.replicate 23 false := by decide +kernel

end Sys2Proof.Tests
end

/-! Frontiers: the entry of a frontier at a PC, and what an issue makes of it (R32, R35). The frontier is a list; `frontierAt` reads it as a map from PCs,
where an insertion changes the value at one PC, so that an issue's merging is a fold at each PC by itself. -/
namespace Sys2Proof.Machine
open Sys2Proof

/-- The entry of a frontier at a PC. -/
def frontierAt (fr : List Entry) (a : DWord) : Option Entry := fr.find? (fun e => e.pc == a)

/-- A frontier is in order: by rising PC, so one entry per PC (R32). -/
def Rising (fr : List Entry) : Prop := fr.Pairwise (fun e f => e.pc.toNat < f.pc.toNat)

/-- Two entries of one PC merged: union of masks, the higher priority and the higher aging count (R32). -/
def Entry.merge (f e : Entry) : Entry :=
  { f with mask := f.mask ||| e.mask, pri := if e.pri.ult f.pri then f.pri else e.pri, age := max f.age e.age }

/-- The entry as which moved lanes arrive. -/
def Move.entry (m : Move) : Entry := { pc := m.pc, pri := m.pri, mask := m.mask, age := 0 }

/-- What stands at a PC after an entry arrives there. -/
def arrive (o : Option Entry) (e : Entry) : Option Entry := some (match o with | none => e | some f => f.merge e)

theorem insertEntry_cons (f : Entry) (r : List Entry) (e : Entry) :
    insertEntry (f :: r) e = if f.pc = e.pc then f.merge e :: r else if e.pc.ult f.pc then e :: f :: r else f :: insertEntry r e := rfl

theorem advance_eq (fr : List Entry) (pc : DWord) (mv : List Move) :
    advance fr pc mv = ((mv.filter (fun m => m.mask != 0)).map Move.entry).foldl insertEntry ((fr.filter (fun e => e.pc != pc)).map Entry.older) := by
  rw [List.foldl_map]; rfl

@[simp] theorem Entry.older_pc (e : Entry) : e.older.pc = e.pc := rfl
@[simp] theorem Entry.merge_pc (f e : Entry) : (f.merge e).pc = f.pc := rfl

theorem Entry.merge_laneIn (f e : Entry) (l : Nat) : laneIn (f.merge e).mask l = (laneIn f.mask l || laneIn e.mask l) := BitVec.getLsbD_or

theorem Entry.merge_pri (f e : Entry) : (f.merge e).pri.toNat = max f.pri.toNat e.pri.toNat := by
  simp only [Entry.merge, BitVec.ult, decide_eq_true_eq]
  split <;> omega

/-- Lanes that arrive at an entry leave its aging count. -/
theorem Entry.merge_move_age (f : Entry) (m : Move) : (f.merge m.entry).age = f.age := Nat.max_zero _

/-! Order. -/

/-- Every entry after an insertion has the PC of the new entry or of an old one. -/
theorem pc_of_mem_insertEntry {fr : List Entry} {e g : Entry} (h : g ∈ insertEntry fr e) : g.pc = e.pc ∨ ∃ f ∈ fr, g.pc = f.pc := by
  induction fr with
  | nil => exact .inl (by rw [List.mem_singleton.mp h])
  | cons f r ih =>
    rw [insertEntry_cons] at h
    split at h
    · rcases List.mem_cons.mp h with rfl | hg
      · exact .inr ⟨f, List.mem_cons_self, rfl⟩
      · exact .inr ⟨g, List.mem_cons_of_mem _ hg, rfl⟩
    · split at h
      · rcases List.mem_cons.mp h with rfl | hg
        · exact .inl rfl
        · exact .inr ⟨g, hg, rfl⟩
      · rcases List.mem_cons.mp h with rfl | hg
        · exact .inr ⟨g, List.mem_cons_self, rfl⟩
        · exact (ih hg).imp_right (fun ⟨k, hk, hp⟩ => ⟨k, List.mem_cons_of_mem _ hk, hp⟩)

/-- Of two different PCs that do not rise, the second goes first. -/
theorem lt_of_not_ult {a b : DWord} (hne : a ≠ b) (h : ¬ b.ult a = true) : a.toNat < b.toNat := by
  simp only [BitVec.ult, decide_eq_true_eq] at h
  exact Nat.lt_of_le_of_ne (Nat.not_lt.mp h) (fun e => hne (BitVec.eq_of_toNat_eq e))

theorem Rising.insertEntry {fr : List Entry} (h : Rising fr) (e : Entry) : Rising (insertEntry fr e) := by
  induction fr with
  | nil => exact List.pairwise_singleton _ _
  | cons f r ih =>
    obtain ⟨hf, hr⟩ := List.pairwise_cons.mp h
    rw [insertEntry_cons]
    split
    · exact List.pairwise_cons.mpr ⟨hf, hr⟩
    · next hne =>
      split
      · next hlt =>
        have hef : e.pc.toNat < f.pc.toNat := by simpa [BitVec.ult] using hlt
        refine List.pairwise_cons.mpr ⟨fun g hg => ?_, h⟩
        rcases List.mem_cons.mp hg with rfl | hg
        · exact hef
        · exact Nat.lt_trans hef (hf g hg)
      · next hge =>
        refine List.pairwise_cons.mpr ⟨fun g hg => ?_, ih hr⟩
        rcases pc_of_mem_insertEntry hg with hp | ⟨k, hk, hp⟩
        · rw [hp]; exact lt_of_not_ult hne hge
        · rw [hp]; exact hf k hk

theorem Rising.foldl_insertEntry {fr : List Entry} (h : Rising fr) (es : List Entry) : Rising (es.foldl Machine.insertEntry fr) := by
  induction es generalizing fr with
  | nil => exact h
  | cons e r ih => exact ih (h.insertEntry e)

/-- The entries that an issue at pc passes over stay in order. -/
theorem Rising.passed {fr : List Entry} (h : Rising fr) (pc : DWord) : Rising ((fr.filter (fun e => e.pc != pc)).map Entry.older) :=
  List.pairwise_map.mpr (h.filter _)

theorem Rising.advance {fr : List Entry} (h : Rising fr) (pc : DWord) (mv : List Move) : Rising (advance fr pc mv) := by
  rw [advance_eq]; exact (h.passed pc).foldl_insertEntry _

/-! The entry at a PC. -/

@[simp] theorem frontierAt_nil (a : DWord) : frontierAt [] a = none := rfl

theorem frontierAt_cons (f : Entry) (r : List Entry) (a : DWord) : frontierAt (f :: r) a = if f.pc = a then some f else frontierAt r a := by
  unfold frontierAt
  by_cases h : f.pc = a
  · rw [if_pos h]; exact List.find?_cons_of_pos (beq_iff_eq.mpr h)
  · rw [if_neg h]; exact List.find?_cons_of_neg (mt beq_iff_eq.mp h)

/-- No entry stands below the first PC of a frontier in order. -/
theorem frontierAt_eq_none {fr : List Entry} {a : DWord} (h : ∀ f ∈ fr, a.toNat < f.pc.toNat) : frontierAt fr a = none := by
  refine List.find?_eq_none.mpr (fun f hf e => ?_)
  have := h f hf
  rw [beq_iff_eq.mp e] at this
  exact absurd this (Nat.lt_irrefl _)

/-- An insertion changes what stands at its own PC, and nothing else (R32). -/
theorem frontierAt_insertEntry {fr : List Entry} (h : Rising fr) (e : Entry) (a : DWord) :
    frontierAt (insertEntry fr e) a = if e.pc = a then arrive (frontierAt fr a) e else frontierAt fr a := by
  induction fr with
  | nil => exact frontierAt_cons e [] a
  | cons f r ih =>
    obtain ⟨hf, hr⟩ := List.pairwise_cons.mp h
    rw [insertEntry_cons]
    split
    · next heq =>
      simp only [frontierAt_cons, Entry.merge_pc, heq]
      split <;> rfl
    · next hne =>
      split
      · next hlt =>
        have hef : e.pc.toNat < f.pc.toNat := by simpa [BitVec.ult] using hlt
        have hno : frontierAt (f :: r) e.pc = none := frontierAt_eq_none (fun g hg => by
          rcases List.mem_cons.mp hg with rfl | hg
          · exact hef
          · exact Nat.lt_trans hef (hf g hg))
        rw [frontierAt_cons]
        split
        · next ha => subst ha; rw [hno]; rfl
        · rfl
      · rw [frontierAt_cons, frontierAt_cons, ih hr]
        by_cases ha : f.pc = a
        · rw [if_pos ha, if_neg (fun k => hne (ha.trans k.symm)), if_pos ha]
        · simp only [if_neg ha]

/-- Insertions one after another: at each PC, what stood there and the entries that arrive there. -/
theorem frontierAt_foldl_insertEntry {fr : List Entry} (h : Rising fr) (es : List Entry) (a : DWord) :
    frontierAt (es.foldl insertEntry fr) a = (es.filter (fun e => e.pc == a)).foldl arrive (frontierAt fr a) := by
  induction es generalizing fr with
  | nil => rfl
  | cons e r ih =>
    rw [List.foldl_cons, ih (h.insertEntry e), frontierAt_insertEntry h, List.filter_cons]
    by_cases ha : e.pc = a <;> simp [ha]

/-- The entry at a PC among those that an issue at pc passes over. -/
theorem frontierAt_passed (fr : List Entry) (pc a : DWord) :
    frontierAt ((fr.filter (fun e => e.pc != pc)).map Entry.older) a = (fr.find? (fun e => e.pc == a && a != pc)).map Entry.older := by
  unfold frontierAt
  rw [List.find?_map, List.find?_filter]
  congr 2
  funext e
  refine Bool.eq_iff_iff.mpr ?_
  simp only [Function.comp_apply, Entry.older_pc, decide_eq_true_eq, Bool.and_eq_true, bne_iff_ne, beq_iff_eq]
  exact ⟨fun ⟨hp, ha⟩ => ⟨ha, ha ▸ hp⟩, fun ⟨ha, hp⟩ => ⟨ha ▸ hp, ha⟩⟩

/-- What an issue leaves at a PC: the older entry that stood there, with the lanes that arrive merged into it in turn. -/
theorem frontierAt_advance {fr : List Entry} (h : Rising fr) (pc : DWord) (mv : List Move) (a : DWord) :
    frontierAt (advance fr pc mv) a = ((mv.filter (fun m => m.mask != 0 && m.pc == a)).map Move.entry).foldl arrive
      ((fr.find? (fun e => e.pc == a && a != pc)).map Entry.older) := by
  have hm : ((mv.filter (fun m => m.mask != 0)).map Move.entry).filter (fun e => e.pc == a)
      = (mv.filter (fun m => m.mask != 0 && m.pc == a)).map Move.entry := by
    rw [List.filter_map, List.filter_filter]
    congr 2
    funext m
    exact Bool.and_comm _ _
  rw [advance_eq, frontierAt_foldl_insertEntry (h.passed pc), frontierAt_passed, hm]

/-! The merged entry. -/

/-- An entry is the merge of what stood at its PC and the lanes that arrive there: union of masks, highest priority, and the aging count of what stood
there, 0 where nothing did. -/
def Merges (o : Option Entry) (ms : List Move) (e : Entry) : Prop :=
  (∀ l, laneIn e.mask l = ((o.map (fun f => laneIn f.mask l)).getD false || ms.any (fun m => laneIn m.mask l)))
  ∧ e.pri.toNat = ((o.map (fun f => f.pri.toNat)).toList ++ ms.map (fun m => m.pri.toNat)).foldl max 0
  ∧ e.age = (o.map Entry.age).getD 0

/-- Where an entry stands, it stays and takes in the lanes that arrive. -/
theorem foldl_arrive_some (f : Entry) (ms : List Move) : ∃ e, (ms.map Move.entry).foldl arrive (some f) = some e ∧ Merges (some f) ms e := by
  induction ms generalizing f with
  | nil => exact ⟨f, rfl, by simp [Merges]⟩
  | cons m r ih =>
    obtain ⟨e, he, hmask, hpri, hage⟩ := ih (f.merge m.entry)
    refine ⟨e, he, fun l => ?_, ?_, ?_⟩
    · simpa [Entry.merge_laneIn, Move.entry, Bool.or_assoc] using hmask l
    · simpa [Entry.merge_pri, Move.entry] using hpri
    · simpa [Entry.merge_move_age] using hage

/-- Where none stands, the first lanes that arrive make an entry of aging count 0. -/
theorem foldl_arrive_none (m : Move) (ms : List Move) :
    ∃ e, ((m :: ms).map Move.entry).foldl arrive none = some e ∧ Merges none (m :: ms) e := by
  obtain ⟨e, he, hmask, hpri, hage⟩ := foldl_arrive_some m.entry ms
  exact ⟨e, he, fun l => by simpa [Move.entry] using hmask l, by simpa [Move.entry] using hpri, by simpa [Move.entry] using hage⟩

/-- An entry stands at a PC after an issue just where one stood or lanes arrive, and it is their merge. -/
theorem foldl_arrive_cases (o : Option Entry) (ms : List Move) :
    ((ms.map Move.entry).foldl arrive o = none ∧ o = none ∧ ms = [])
    ∨ ∃ e, (ms.map Move.entry).foldl arrive o = some e ∧ (o ≠ none ∨ ms ≠ []) ∧ Merges o ms e := by
  cases o with
  | some f =>
    obtain ⟨e, he, hm⟩ := foldl_arrive_some f ms
    exact .inr ⟨e, he, .inl (by simp), hm⟩
  | none =>
    cases ms with
    | nil => exact .inl ⟨rfl, rfl, rfl⟩
    | cons m r =>
      obtain ⟨e, he, hm⟩ := foldl_arrive_none m r
      exact .inr ⟨e, he, .inr (by simp), hm⟩

/-- Settles O54: an insertion changes the frontier at one PC only, so at each PC the lanes that arrive merge in turn into the older entry that stood there. -/
theorem frontierAfterIssue : Obligations.FrontierAfterIssue := by
  unfold Obligations.FrontierAfterIssue
  intro fr pc mv hr
  refine ⟨Rising.advance hr pc mv, fun a => ?_⟩
  intro old ms
  have hat : (advance fr pc mv).find? (fun e => e.pc == a) = (ms.map Move.entry).foldl arrive (old.map Entry.older) := frontierAt_advance hr pc mv a
  rw [hat]
  rcases foldl_arrive_cases (old.map Entry.older) ms with ⟨he, ho, hms⟩ | ⟨e, he, hs, hmask, hpri, hage⟩
  · rw [he]
    exact ⟨Option.map_eq_none_iff.mp ho, hms⟩
  · rw [he]
    refine ⟨hs.imp_left (fun h k => h (by rw [k]; rfl)), fun l _ => ?_, ?_, ?_⟩
    · rw [hmask l, Option.map_map]; rfl
    · rw [hpri, Option.map_map]; rfl
    · rw [hage, Option.map_map]; rfl

end Sys2Proof.Machine

/-! Exits of groups: what EXIT leaves of a group, and what its workgroup keeps (R33, R59, R278). -/
namespace Sys2Proof.Machine
open Sys2Proof

/-! Tables. -/

/-- Writing the item of one number keeps the items of the others. -/
theorem Tab.mem_set_other {α : Type} {t : Tab α} {k j : Nat} {x z : α} (h : (j, z) ∈ t) (n : j ≠ k) : (j, z) ∈ Tab.set t k x := by
  induction t with
  | nil => exact absurd h List.not_mem_nil
  | cons e r ih =>
    obtain ⟨i, y⟩ := e
    simp only [Tab.set]
    split
    · next hi =>
      rcases List.mem_cons.mp h with he | hr
      · cases he; exact absurd hi n
      · exact List.mem_cons_of_mem _ hr
    · split
      · exact List.mem_cons_of_mem _ h
      · rcases List.mem_cons.mp h with he | hr
        · rw [he]; exact List.mem_cons_self
        · exact List.mem_cons_of_mem _ (ih hr)

theorem Tab.mem_del_other {α : Type} {t : Tab α} {k j : Nat} {z : α} (h : (j, z) ∈ t) (n : j ≠ k) : (j, z) ∈ Tab.del t k :=
  List.mem_filter.mpr ⟨h, bne_iff_ne.mpr n⟩

theorem Tab.mem_upd_other {α : Type} {t : Tab α} {k j : Nat} {z : α} (f : α → α) (h : (j, z) ∈ t) (n : j ≠ k) : (j, z) ∈ Tab.upd t k f :=
  List.mem_map.mpr ⟨(j, z), h, if_neg n⟩

/-! Bytes. -/

theorem SameBytes.trans {s t u : State} (h : SameBytes s t) (k : SameBytes t u) : SameBytes s u := by
  obtain ⟨hgl, hsp, htm, hcl⟩ := h
  obtain ⟨kgl, ksp, ktm, kcl⟩ := k
  exact ⟨fun x va => (kgl x va).trans (hgl x va), fun c v a => (ksp c v a).trans (hsp c v a), fun c v a => (ktm c v a).trans (htm c v a),
    fun p l v a => (kcl p l v a).trans (hcl p l v a)⟩

/-- A change of a core that leaves its workgroups leaves every byte. -/
theorem SameBytes.modCore (s : State) (c : Nat) (f : Core → Core) (hf : (f (s.core c)).wgs = (s.core c).wgs) : SameBytes s (s.modCore c f) := by
  have hw : ∀ d u, ((s.modCore c f).core d).wgOf u = (s.core d).wgOf u := by
    intro d u
    unfold Core.wgOf
    by_cases hd : d = c
    · subst hd; rw [State.core_modCore, hf]
    · rw [State.core_modCore_other s f hd]
  exact ⟨fun _ _ => rfl, fun d u _ => by rw [hw], fun d u _ => by rw [hw], fun _ _ _ _ => rfl⟩

/-! A group that leaves its slot. -/

/-- A group that has left its slot: its registers and its open writes stay (R59). -/
def Group.departed (x : Group) : Group := { x with fr := [], status := .exited, kept := none, imprec := [] }

theorem Group.departed_reg (x : Group) (q : RegId) (l : Nat) : x.departed.reg q l = x.reg q l := by cases q <;> rfl

theorem Core.unslot_some {k : Core} {g : Nat} {x : Group} (h : Tab.get k.grps g = some x) :
    k.unslot g = { k with grps := Tab.set (Tab.del k.grps g) (32 + x.uid) x.departed } := by
  unfold Core.unslot; rw [h]; rfl

theorem Core.unslot_wgs (k : Core) (g : Nat) : (k.unslot g).wgs = k.wgs := by
  unfold Core.unslot; split <;> rfl

/-- A group leaves one slot for the number of its uid past the slots; no other group is touched. -/
theorem State.grp_unslot {s : State} {c g : Nat} {x : Group} (h : s.grp c g = some x) (d n : Nat) :
    (s.modCore c (fun k => k.unslot g)).grp d n
      = if d = c ∧ n = 32 + x.uid then some x.departed else if d = c ∧ n = g then none else s.grp d n := by
  by_cases hd : d = c
  · subst hd
    have hk : Tab.get (s.core d).grps g = some x := h
    simp only [State.grp, State.core_modCore, Core.unslot_some hk, Tab.get_set, Tab.get_del, true_and]
  · simp only [State.grp, State.core_modCore_other s _ hd, hd, false_and, if_false]

/-! The end of a workgroup. -/

theorem Core.mem_slotsOf {k : Core} {g wg : Nat} {z : Group} (h : (g, z) ∈ k.grps) (hg : g < 32) (hw : z.wg = wg) : g ∈ k.slotsOf wg :=
  List.mem_map.mpr ⟨(g, z), List.mem_filter.mpr ⟨h, by simp [hg, hw]⟩, rfl⟩

/-- What a workgroup without groups in slots frees is no group. -/
theorem Core.drop_grps {k : Core} {wg : Nat} (h : k.slotsOf wg = []) : (k.drop wg).grps = k.grps := by
  simp only [Core.drop, h, List.foldl_nil]

theorem State.core_dropTeam (s : State) (p launch unit c : Nat) : (s.dropTeam p launch unit).core c = s.core c := by
  unfold State.dropTeam
  dsimp only
  split
  · split <;> rfl
  · rfl

theorem State.grp_endWg {s : State} {c uid : Nat} (h : (s.core c).slotsOf uid = []) (d g : Nat) : (s.endWg c uid).grp d g = s.grp d g := by
  have hdrop : ((s.modCore c (fun k => k.drop uid)).core d).grps = (s.core d).grps := by
    by_cases hd : d = c
    · subst hd; rw [State.core_modCore, Core.drop_grps h]
    · rw [State.core_modCore_other s _ hd]
  unfold State.endWg
  split
  · rfl
  · rw [State.grp, State.core_dropTeam]
    exact congrArg (Tab.get · g) hdrop

/-- A workgroup that is over has no group in a slot (R55). -/
theorem State.slotsOf_of_wgOver {s : State} {c uid : Nat} (h : s.wgOver c uid = true) : (s.core c).slotsOf uid = [] := by
  unfold State.wgOver at h
  simp only at h
  split at h
  · cases h
  · simp only [Bool.and_eq_true] at h
    obtain ⟨⟨⟨⟨hs, -⟩, -⟩, -⟩, -⟩ := h
    exact List.isEmpty_iff.mp hs

theorem State.grp_settle (s : State) (c uid d g : Nat) : (s.settle c uid).grp d g = s.grp d g := by
  unfold State.settle
  split
  · next h => exact State.grp_endWg (State.slotsOf_of_wgOver h) d g
  · rfl

/-- A workgroup with a group in a slot goes on. -/
theorem State.settle_of_slot {s : State} {c uid g : Nat} (h : g ∈ (s.core c).slotsOf uid) : s.settle c uid = s :=
  if_neg (fun k => List.ne_nil_of_mem h (State.slotsOf_of_wgOver k))

/-! A group's exit. -/

theorem State.exitGroup_some {s : State} {c g : Nat} {x : Group} (h : s.grp c g = some x) :
    s.exitGroup c g = (s.modCore c (fun k => k.unslot g)).settle c x.wg := by
  unfold State.exitGroup; rw [h]

/-- A group's exit moves that group and no other. -/
theorem State.grp_exitGroup {s : State} {c g : Nat} {x : Group} (h : s.grp c g = some x) (d n : Nat) :
    (s.exitGroup c g).grp d n = if d = c ∧ n = 32 + x.uid then some x.departed else if d = c ∧ n = g then none else s.grp d n := by
  rw [State.exitGroup_some h, State.grp_settle, State.grp_unslot h]

/-- The exit of a group with a sibling left in a slot changes no byte. -/
theorem State.exitGroup_bytes {s : State} {c g : Nat} {x : Group} (h : s.grp c g = some x)
    {n : Nat} {z : Group} (hn : n ≠ g) (hlt : n < 32) (hz : (n, z) ∈ (s.core c).grps) (hw : z.wg = x.wg) : SameBytes s (s.exitGroup c g) := by
  have hk : Tab.get (s.core c).grps g = some x := h
  have hm : (n, z) ∈ ((s.modCore c (fun k => k.unslot g)).core c).grps := by
    rw [State.core_modCore, Core.unslot_some hk]
    exact Tab.mem_set_other (Tab.mem_del_other hz hn) (by omega)
  rw [State.exitGroup_some h, State.settle_of_slot (Core.mem_slotsOf hm hlt hw)]
  exact SameBytes.modCore s c _ (Core.unslot_wgs _ _)

/-! An issue that leaves its group without lanes. -/

theorem State.grps_modWg (s : State) (c u d : Nat) (f : Workgroup → Workgroup) : ((s.modWg c u f).core d).grps = (s.core d).grps := by
  by_cases h : d = c
  · subst h; simp [State.modWg]
  · simp [State.modWg, h]

theorem Iss.touchRegs_grps (x : Iss) (s : State) (d : Nat) : ((x.touchRegs s).core d).grps = (s.core d).grps := by
  unfold Iss.touchRegs
  split
  · rfl
  · generalize writesOf x.i x.c = rs
    induction rs generalizing s with
    | nil => rfl
    | cons r rs ih =>
      rw [List.foldl_cons, ih]
      cases r with
      | s n => exact State.grps_modWg _ _ _ _ _
      | _ => rfl

/-- The group that an issue leaves. -/
def Iss.leaves (x : Iss) (r : Res) (g0 : Group) : Group := g0.after x r (x.wg.halt.isSome && x.wg.handler != some x.gr.uid)

theorem Iss.leaves_reg (x : Iss) (r : Res) (g0 : Group) (q : RegId) (l : Nat) : (x.leaves r g0).reg q l = g0.reg q l :=
  (Group.sameRegs_after g0 x r _).reg q l

/-- The state that an issue leaves, before its group exits where it has no lanes. -/
def Iss.ended (x : Iss) (r : Res) : State := ((x.touchRegs r.s).modGrp x.core x.g (x.leaves r)).endIssue

theorem Iss.ended_grp {x : Iss} {r : Res} {g0 : Group} (hg : r.s.grp x.core x.g = some g0) : (x.ended r).grp x.core x.g = some (x.leaves r g0) := by
  simp [Iss.ended, hg]

theorem Iss.ended_quiet (x : Iss) (r : Res) : Quiet r.s (x.ended r) x.core x.g :=
  ((x.touchRegs_quiet r.s).trans (Quiet.modGrp _ _ _ _)).trans (Quiet.cur _ _ _ none _)

/-- The other groups of the core stand in its table as they did. -/
theorem Iss.ended_mem {x : Iss} {r : Res} {n : Nat} {z : Group} (h : (n, z) ∈ (r.s.core x.core).grps) (hn : n ≠ x.g) :
    (n, z) ∈ ((x.ended r).core x.core).grps := by
  unfold Iss.ended State.modGrp
  rw [State.core_endIssue, State.core_modCore]
  exact Tab.mem_upd_other _ (by rw [x.touchRegs_grps]; exact h) hn

/-- An issue that is over: its group exits when no lane is left (R33). -/
theorem Iss.finish_exits {x : Iss} {r : Res} {g0 : Group} (hg : r.s.grp x.core x.g = some g0) (hf : advance g0.fr x.cur.pc r.mv = []) :
    x.finish r = (x.ended r).exitGroup x.core x.g := by
  have he : (x.leaves r g0).fr.isEmpty = true := List.isEmpty_iff.mpr hf
  have hgr := Iss.ended_grp hg
  unfold Iss.ended Iss.leaves at hgr
  unfold Iss.leaves at he
  unfold Iss.finish
  simp only [hgr, he]
  rfl

/-! EXIT. -/

/-- What EXIT does itself: the lanes that it leaves go on. -/
def exitEff (x : Iss) : Eff := .ok { s := x.s, mv := [x.rest] }

theorem exec_exit (c : Ctl) (s : State) : exec (.exit c) s = issued (.exit c) c exitEff s := rfl

/-- EXIT of some lanes of a group: the others go on. -/
theorem exit_goes_on {c : Ctl} {s : State} {x : Iss} (hx : Issues (.exit c) c s x) (hf : advance x.gr.fr x.cur.pc [x.rest] ≠ []) :
    ∃ t y, Leads (.exit c) s t ∧ t.grp x.core x.g = some y ∧ Kept x y [] ∧ y.vfl = x.gr.vfl ∧ Went x y [x.rest] ∧ Quiet s t x.core x.g ∧ SameBytes s t := by
  obtain ⟨hs, -, -, -, hg, -, hi, -⟩ := State.issue_some hx.1
  have hp : x.popped = x := Iss.popped_none (by rw [hi]; rfl)
  obtain ⟨t, y, hl, hy, hbare, hreg, hvfl, hfr, hst, hq, -⟩ :=
    Iss.completes exitEff (exec_exit c) hx { s := s, mv := [x.rest] } (by rw [hp, exitEff, hs]) x.gr hg hf
  exact ⟨t, y, hl, hy, ⟨hbare, fun r l _ _ => hreg r l⟩, hvfl, ⟨hfr, hst⟩, hq, hq.bytes⟩

/-- EXIT of the last lanes of a group: the group leaves its slot (R33, R59). -/
theorem exit_leads {c : Ctl} {s : State} {x : Iss} (hx : Issues (.exit c) c s x) (hf : advance x.gr.fr x.cur.pc [x.rest] = []) :
    Leads (.exit c) s ((x.ended { s := s, mv := [x.rest] }).exitGroup x.core x.g) := by
  obtain ⟨hs, -, -, -, hg, -, hi, -⟩ := State.issue_some hx.1
  have hp : x.popped = x := Iss.popped_none (by rw [hi]; rfl)
  have hb : exitEff x.popped = .ok { s := s, mv := [x.rest] } := by rw [hp, exitEff, hs]
  unfold Leads
  rw [exec_exit, issued_go exitEff hx.1 hx.2.1, hb, ← Iss.finish_exits hg hf]
  rfl

/-- Settles O11: EXIT's only move is the lanes it leaves; without any, the group's departure changes its slot alone, and its workgroup ends only where no
sibling is left in a slot. -/
theorem exitOfLanes : Obligations.ExitOfLanes := by
  unfold Obligations.ExitOfLanes
  intro c s x hx
  refine ⟨fun hf => exit_goes_on hx hf, fun hf hlt => ?_⟩
  obtain ⟨-, -, -, -, hg, -⟩ := State.issue_some hx.1
  let r : Res := { s := s, mv := [x.rest] }
  have hend : (x.ended r).grp x.core x.g = some (x.leaves r x.gr) := Iss.ended_grp hg
  have hq : Quiet s (x.ended r) x.core x.g := x.ended_quiet r
  have hgrp := State.grp_exitGroup hend
  refine ⟨(x.ended r).exitGroup x.core x.g, (x.leaves r x.gr).departed, exit_leads hx hf, ?_, ?_, rfl, rfl, fun q l => ?_, ?_⟩
  · rw [hgrp, if_neg (by omega), if_pos ⟨rfl, rfl⟩]
  · exact (hgrp _ _).trans (if_pos ⟨rfl, rfl⟩)
  · rw [Group.departed_reg, Iss.leaves_reg]
  · rintro ⟨n, z, hn, hn32, hz, hw⟩
    refine ⟨hq.bytes.trans (State.exitGroup_bytes hend hn hn32 (Iss.ended_mem hz hn) hw), fun d h hdh => ?_⟩
    have hold : ¬ (d = x.core ∧ h = x.g) := fun k => hdh ⟨k.1, .inl k.2⟩
    have hnew : ¬ (d = x.core ∧ h = 32 + (x.leaves r x.gr).uid) := fun k => hdh ⟨k.1, .inr k.2⟩
    rw [hgrp, if_neg hnew, if_neg hold]
    by_cases hd : d = x.core
    · subst hd; exact hq.grps h (fun k => hold ⟨rfl, k⟩)
    · exact congrArg (fun k : Core => Tab.get k.grps h) (hq.cores d hd)

end Sys2Proof.Machine

/-! Scalar registers of per-lane operations: what a lane reads of one, and what a write leaves of them (R63). -/
namespace Sys2Proof.Machine
open Sys2Proof

/-! A scalar register as a source: each lane sees the same register, at the width of the operation. -/

@[simp] theorem Iss.w32_s (x : Iss) (n : Fin 64) (l : Nat) : x.w32 (.s n) l = x.sv n % 2 ^ 32 := rfl
@[simp] theorem Iss.w64_s (x : Iss) (n : Fin 64) (l : Nat) : x.w64 (.s n) l = x.sv n := rfl

/-! A destination without a lane. -/

theorem Iss.lanesOf_act_of_low_none {x : Iss} (h : x.low = none) : lanesOf x.act = [] := List.head?_eq_none_iff.mp h

theorem Group.putD_no_lanes (g : Group) (wd : Bool) (d : Opnd) {act : DWord} (f : Nat → DWord) (h : lanesOf act = []) : g.putD wd d act f = g := by
  cases d <;> simp [Group.putD, h]

theorem Group.shiftQ_no_lanes (g old : Group) (d : Opnd) {act : DWord} (f : Nat → DWord) (h : lanesOf act = []) : g.shiftQ old d act f = g := by
  simp [Group.shiftQ, h]

/-- Without an active, guard-true lane a write leaves the group, whatever its destination and the Q bit. -/
theorem Iss.wroteG_of_low_none {x : Iss} (h : x.low = none) (wd : Bool) (d : Opnd) (f : Nat → DWord) (g : Group) : x.wroteG wd d f g = g := by
  have hl := Iss.lanesOf_act_of_low_none h
  unfold Iss.wroteG
  cases d <;> simp [Group.putD_no_lanes g wd _ f hl, Group.shiftQ_no_lanes _ _ _ f hl]

/-- A scalar register that is not the destination stays. -/
theorem Iss.wroteG_s_other (x : Iss) (wd : Bool) (d : Opnd) (f : Nat → DWord) (g : Group) {m : Nat} (h : RegId.s m ∉ destRegs wd d) :
    (x.wroteG wd d f g).s? m = g.s? m := by
  have hq : RegId.s m ∉ qRegs x.c := by unfold qRegs; split <;> simp
  exact x.wroteG_other wd d f g (.s m) (k := 0) (by omega) (by simp [h, hq])

/-- Settles O56: a read of a scalar register does not name the lane; a write puts the lowest lane's value into the destination, and changes nothing
where there is no such lane. -/
theorem scalarOperands : Obligations.ScalarOperands := by
  unfold Obligations.ScalarOperands
  intro x
  refine ⟨fun n l => ⟨x.w32_s n l, x.w64_s n l⟩, fun wd n f y hy => ⟨x.wroteG wd (.s n) f y, x.write_grp wd (.s n) f y hy, ?_, ?_, ?_⟩⟩
  · exact x.wroteG_dest wd (.s n) f y (fun _ e => nomatch e)
  · intro h
    rw [Iss.wroteG_of_low_none h]
  · intro m hm
    exact x.wroteG_s_other wd (.s n) f y (by simpa [destRegs] using hm)

end Sys2Proof.Machine

/-! Bitwise operations and shifts of integer elements: each shift of the model as arithmetic on the element's value (R288), and the counts of packed types
(R289). -/
namespace Sys2Proof.Machine
open Sys2Proof

/-! Results of whole words and of elements. -/

/-- An instruction that writes words, and raises no flag, gives them. -/
theorem gives_words {i : Instr} {c : Ctl} {ty : ITy} {d : Opnd} (f : Iss → Nat → Nat)
    (he : ∀ s, exec i s = issued i c (fun x => words ty d (f x) x) s) : Gives i c (wide ty) d (Words f) noFlags :=
  gives_plain _ he (fun _ => rfl)

/-- A shift gives each element what its function makes of the element's bits and count. -/
theorem gives_shift {i : Instr} {c : Ctl} {ty : ITy} {d a b : Opnd} {f : Nat → Nat → Nat → Nat} {val : Iss → Nat → Nat → Nat}
    (he : ∀ s, exec i s = issued i c (shift ty d a b f) s)
    (hf : ∀ x l e, f (tyW ty) (x.eb ty a l e) (countOf x ty b l e) = val x l e) :
    Gives i c (wide ty) d (EachBits ty val) noFlags := by
  obtain rfl : (fun x l e => f (tyW ty) (x.eb ty a l e) (countOf x ty b l e)) = val := funext fun x => funext fun l => funext (hf x l)
  exact gives_plain _ he (fun _ => rfl)

/-! Operands and their elements. -/

theorem tyW_pos (ty : ITy) : 0 < tyW ty := by cases ty <;> decide

theorem Iss.vt_lt (x : Iss) (ty : ITy) (o : Opnd) (l : Nat) : x.vt ty o l < 2 ^ (tyW ty * tyN ty) := Nat.mod_lt _ (Nat.two_pow_pos _)

theorem Iss.eb_lt (x : Iss) (ty : ITy) (o : Opnd) (l e : Nat) : x.eb ty o l e < 2 ^ tyW ty := Nat.mod_lt _ (Nat.two_pow_pos _)

/-- An element's value is that of its bits, read as the type's sign says. -/
theorem Iss.el_eq_eb (x : Iss) (ty : ITy) (o : Opnd) (l e : Nat) :
    x.el ty o l e = if tySigned ty then sextN (x.eb ty o l e) (tyW ty) else (x.eb ty o l e : Int) := rfl

theorem two_pow_le {a b : Nat} (h : a ≤ b) : 2 ^ a ≤ 2 ^ b := Nat.pow_le_pow_right (by decide) h

/-- A shift to the right by a leaves b bits of a + b. -/
theorem div_two_pow_lt {a b x : Nat} (h : x < 2 ^ (a + b)) : x / 2 ^ a < 2 ^ b := Nat.div_lt_of_lt_mul (by rwa [← Nat.pow_add])

/-- NOT of a word flips each of its bits. -/
theorem two_pow_sub_one_sub_eq_xor {n v : Nat} (h : v < 2 ^ n) : 2 ^ n - 1 - v = v ^^^ (2 ^ n - 1) := by
  refine Nat.eq_of_testBit_eq fun i => ?_
  rw [show 2 ^ n - 1 - v = 2 ^ n - (v + 1) by omega, Nat.testBit_two_pow_sub_succ h, Nat.testBit_xor, Nat.testBit_two_pow_sub_one]
  by_cases hi : i < n
  · rw [decide_eq_true hi, Bool.true_and, Bool.xor_true]
  · have hv : v.testBit i = false := Nat.testBit_lt_two_pow (Nat.lt_of_lt_of_le h (two_pow_le (Nat.not_lt.mp hi)))
    rw [decide_eq_false hi, hv, Bool.false_and, Bool.xor_false]

/-! Shifts as arithmetic. -/

theorem shlN_eq (w x c : Nat) : shlN w x c = x * 2 ^ c % 2 ^ w := by
  unfold shlN
  split
  next hc => exact (Nat.mod_eq_zero_of_dvd (Nat.dvd_mul_left_of_dvd (Nat.pow_dvd_pow 2 hc) x)).symm
  next => rw [Nat.shiftLeft_eq]

theorem shrN_eq {w x : Nat} (hx : x < 2 ^ w) (c : Nat) : shrN w x c = x / 2 ^ c := by
  unfold shrN
  split
  next hc => exact (Nat.div_eq_of_lt (Nat.lt_of_lt_of_le hx (two_pow_le hc))).symm
  next => exact Nat.shiftRight_eq_div_pow x c

/-- The bits rotated out at the top come in below the others, so that they add up. -/
theorem rotN_eq {w x : Nat} (hw : 0 < w) (hx : x < 2 ^ w) (c : Nat) :
    rotN w x c = (x * 2 ^ (c % w) + x / 2 ^ (w - c % w)) % 2 ^ w := by
  have hk : c % w ≤ w := Nat.le_of_lt (Nat.mod_lt c hw)
  have hlow : x >>> (w - c % w) < 2 ^ (c % w) := by
    rw [Nat.shiftRight_eq_div_pow]
    exact div_two_pow_lt (by rwa [Nat.sub_add_cancel hk])
  rw [rotN, ← Nat.shiftLeft_add_eq_or_of_lt hlow, Nat.shiftLeft_eq, Nat.shiftRight_eq_div_pow]

theorem wrapN_natCast {w y : Nat} (h : y < 2 ^ w) : wrapN w (y : Int) = y := by
  rw [wrapN, ← Int.natCast_emod, Int.toNat_natCast, Nat.mod_eq_of_lt h]

/-- A negative value wraps to the bits that stand 2^w above it. -/
theorem wrapN_natCast_sub {w y : Nat} (h : y < 2 ^ w) : wrapN w ((y : Int) - (2 ^ w : Nat)) = y := by
  rw [wrapN, Int.sub_emod_right]
  exact wrapN_natCast h

/-- A value without a sign: the arithmetic shift is the logical one. -/
theorem shrN_eq_wrapN_div {w x : Nat} (hx : x < 2 ^ w) (c : Nat) : shrN w x c = wrapN w ((x : Int) / (2 ^ c : Nat)) := by
  rw [shrN_eq hx, ← Int.natCast_ediv, wrapN_natCast (Nat.lt_of_le_of_lt (Nat.div_le_self _ _) hx)]

/-- A negative value shifted by less than its width: the quotient toward minus infinity, 2^w above. -/
theorem natCast_sub_two_pow_div {w c : Nat} (hc : c ≤ w) (x : Nat) :
    ((x : Int) - (2 ^ w : Nat)) / (2 ^ c : Nat) = ((x / 2 ^ c + (2 ^ w - 2 ^ (w - c)) : Nat) : Int) - (2 ^ w : Nat) := by
  have hle : 2 ^ (w - c) ≤ 2 ^ w := two_pow_le (Nat.sub_le w c)
  have hdiv : ((2 ^ w : Nat) : Int) = (2 ^ (w - c) : Nat) * (2 ^ c : Nat) := by
    rw [← Int.natCast_mul, ← Nat.pow_add, Nat.sub_add_cancel hc]
  calc ((x : Int) - (2 ^ w : Nat)) / (2 ^ c : Nat) = (x : Int) / (2 ^ c : Nat) - (2 ^ (w - c) : Nat) := by
        rw [hdiv, Int.sub_mul_ediv_right _ _ (Int.natCast_ne_zero.mpr (Nat.ne_of_gt (Nat.two_pow_pos c)))]
    _ = ((x / 2 ^ c + (2 ^ w - 2 ^ (w - c)) : Nat) : Int) - (2 ^ w : Nat) := by
        rw [Int.natCast_add, Int.natCast_sub hle, Int.natCast_ediv]; omega

/-- A negative value shifted by its width or more: −1, every bit the sign. -/
theorem natCast_sub_two_pow_div_of_le {w x c : Nat} (hx : x < 2 ^ w) (hc : w ≤ c) :
    ((x : Int) - (2 ^ w : Nat)) / (2 ^ c : Nat) = ((2 ^ w - 1 : Nat) : Int) - (2 ^ w : Nat) := by
  have hle : 2 ^ w ≤ 2 ^ c := two_pow_le hc
  rw [Int.ediv_eq_neg_one_of_neg_of_le (by omega) (by omega)]
  omega

/-- SAR of the bits of a signed element divides its value toward minus infinity (R288). -/
theorem sarN_eq {w x : Nat} (hw : 0 < w) (hx : x < 2 ^ w) (c : Nat) : sarN w x c = wrapN w (sextN x w / (2 ^ c : Nat)) := by
  unfold sarN sextN
  simp only [Nat.mod_eq_of_lt hx, Nat.ne_of_gt hw, if_false]
  split
  next =>
    split
    next hc => rw [natCast_sub_two_pow_div_of_le hx hc, wrapN_natCast_sub (Nat.sub_lt (Nat.two_pow_pos w) Nat.one_pos)]
    next hc =>
      have hcw : c ≤ w := by omega
      have hq : x / 2 ^ c < 2 ^ (w - c) := div_two_pow_lt (by rwa [Nat.add_sub_cancel' hcw])
      have hle : 2 ^ (w - c) ≤ 2 ^ w := two_pow_le (Nat.sub_le w c)
      rw [natCast_sub_two_pow_div hcw, wrapN_natCast_sub (by omega), Nat.shiftRight_eq_div_pow]
  next => exact shrN_eq_wrapN_div hx c

/-! The rules. -/

theorem bitwise_rule : Rules.Bitwise := by
  intro c ty d a b
  refine ⟨gives_words _ fun _ => rfl, gives_words _ fun _ => rfl, gives_words _ fun _ => rfl, ?_⟩
  simp only [← two_pow_sub_one_sub_eq_xor (Iss.vt_lt _ ty a _)]
  exact gives_words _ fun _ => rfl

theorem shifts_rule : Rules.Shifts := by
  intro c ty d a b
  refine ⟨gives_shift (fun _ => rfl) ?shl, gives_shift (fun _ => rfl) ?shr, gives_shift (fun _ => rfl) ?sar, gives_shift (fun _ => rfl) ?rot⟩
  case shl => exact fun x l e => shlN_eq _ _ _
  case shr => exact fun x l e => shrN_eq (x.eb_lt ty a l e) _
  case sar =>
    intro x l e
    rw [x.el_eq_eb]
    cases tySigned ty with
    | true => exact sarN_eq (tyW_pos ty) (x.eb_lt ty a l e) _
    | false => exact shrN_eq_wrapN_div (x.eb_lt ty a l e) _
  case rot => exact fun x l e => rotN_eq (tyW_pos ty) (x.eb_lt ty a l e) _

/-- Under a packed type the count of an element is the same element of B (R289): both read the 32 bits of the lane word. -/
theorem countOf_packed (x : Iss) {ty : ITy} (b : Opnd) (l e : Nat) (h : 2 ≤ tyN ty) : countOf x ty b l e = x.eb ty b l e := by
  cases ty with
  | i16x2 => rfl
  | i8x4 => rfl
  | _ => exact absurd h (by decide)

theorem packedCounts_rule : Rules.PackedCounts := by
  refine ⟨fun x ty b l e h => countOf_packed x b l e h, fun x a b l ha hb => ?_⟩
  have hn : 2 ≤ tyN .i8x4 := by decide
  simp only [EachBits, countOf_packed x b l _ hn, Iss.eb, ha, hb]
  decide

/-- Settles O2: each shift is arithmetic on the element's value, SAR by the sign of the bits; an element's count under a packed type is B's element. -/
theorem logicAndShifts : Obligations.LogicAndShifts := ⟨bitwise_rule, shifts_rule, packedCounts_rule⟩

end Sys2Proof.Machine
